-- ==== Sys2Proof/Word.lean ====
section
/-! DEFINITION. Word types of the machine and sparse tables: lists of keyed entries in one canonical form. -/

namespace Sys2Proof

/-- A byte of memory (00 R3). -/
abbrev Byte := BitVec 8

/-- A 32-bit vector register value (02 R22). -/
abbrev Word := BitVec 32

/-- A 64-bit scalar register, address or instruction word (02 R27, 05 R81). -/
abbrev DWord := BitVec 64

/-- The encoding of an error bound (03 R52). -/
abbrev Eb16 := BitVec 16

/-- A table of entries by natural key. An unlisted key holds the table's default value, which the reader names; the
canonical form lists keys strictly rising and no entry equal to the default. -/
abbrev Sparse (α : Type) := List (Nat × α)

namespace Sparse

variable {α : Type}

/-- The entry at a key, or the default. -/
def get (dflt : α) : Sparse α → Nat → α
  | [], _ => dflt
  | (k, v) :: rest, n => if k = n then v else get dflt rest n

/-- Removes the entry of a key. -/
def erase : Sparse α → Nat → Sparse α
  | [], _ => []
  | (k, v) :: rest, n => if k = n then erase rest n else (k, v) :: erase rest n

/-- Lists a value at a key, at its place in the order of keys. -/
def insert : Sparse α → Nat → α → Sparse α
  | [], n, x => [(n, x)]
  | (k, v) :: rest, n, x =>
    if k = n then (n, x) :: rest else if n < k then (n, x) :: (k, v) :: rest else (k, v) :: insert rest n x

/-- Writes a value at a key; writing the default removes the entry. -/
def set [DecidableEq α] (dflt : α) (t : Sparse α) (n : Nat) (x : α) : Sparse α :=
  if x = dflt then erase t n else insert t n x

/-- Every listed key is above `lo`, keys rise strictly, and no entry is the default. -/
def wfFrom [DecidableEq α] (dflt : α) (lo : Nat) : Sparse α → Bool
  | [] => true
  | (k, v) :: rest => decide (lo ≤ k) && decide (v ≠ dflt) && wfFrom dflt (k + 1) rest

/-- The canonical form. -/
def wf [DecidableEq α] (dflt : α) (t : Sparse α) : Bool := wfFrom dflt 0 t

/-- The first entry of a key, if listed. -/
def find? : Sparse α → Nat → Option α
  | [], _ => none
  | (k, v) :: rest, n => if k = n then some v else find? rest n

/-- The listed keys. -/
def keys (t : Sparse α) : List Nat := t.map Prod.fst

end Sparse

end Sys2Proof
end

