-- ==== Sys2Proof/Config.lean ====
section
/-! DEFINITION. What the spec leaves open: values that no rule fixes. Each is a constant without a body, so that no proof
can see what it is; a statement that holds of the model holds whatever they are. -/

namespace Sys2Proof.Config

/-- The choice made where the spec allows any one of several outcomes (a read within a run, 02 R31, 09 R175; a stale
translation, 17 R324; a broken LD.inv promise, 11 R221; an unordered unit of a copy, 13 R268): the first argument is the
state's counter, which no step uses twice, the second tells the choices of one step apart (log 11). -/
opaque pick : Nat → Nat → Nat

/-- The f32 that a special function delivers, as a fixed function of the input bits (07 R141): function number, input. It
counts only where it lies within the error that 04 R65 gives the function (log 13). -/
opaque special : Nat → Nat → BitVec 32

/-- SHA-3 of a byte string (22 R401): a function the spec names and does not define. -/
opaque sha3 : List Byte → BitVec 512

/-- The on-package flash (22 Tables 22.7 to 22.9): the configuration record and the firmware image, which survive every event
and which no step writes. -/
opaque flash : Nat → Byte

/-- The digest of the verification key that the boot ROM holds (22 R396), and the digest of the ROM's own image (22 R401). -/
opaque romKeyDigest : BitVec 512
opaque romDigest : BitVec 512

/-- The public identity key that the controller derives (22 R400). -/
opaque idKey : List Byte

/-- Whether a signature over a digest verifies with a key, ML-DSA-87 (22 R396). -/
opaque verify : List Byte → BitVec 512 → List Byte → Bool

/-- The signature of the identity key over a digest, ML-DSA-87 (22 R401). -/
opaque sign : BitVec 512 → List Byte

end Sys2Proof.Config
end

