-- ==== Sys2Proof/Syntax.lean ====
section
/-! DEFINITION. The instruction set as syntax: operand kinds, and one constructor of `Instr` for every row of
spec/opcode_table.json. The first 196 are instructions, with the fields of 05 R81-R97; the rest are the part's own
events (95_what_each_step_holds.md), whose arguments say where the event happens. -/

namespace Sys2Proof

abbrev SReg := BitVec 5
abbrev VReg := BitVec 8
abbrev PReg := BitVec 3
abbrev Imm24 := BitVec 24

/-- The fields every first word carries: park marker, guard (05 R82-R84), and the ignored hint HN (05 R93). -/
structure Hdr where
  pk : Bool
  pn : Bool
  ps : PReg
  hn : BitVec 4
deriving DecidableEq, Repr, Inhabited

/-- Type codes, 05 Table 5.6. -/
inductive Ty where
  | b32 | i32 | n32 | f32 | f16 | bf16 | f64 | i64 | n64 | e4m3 | e5m2 | e2m1 | i4x | i8 | n8
deriving DecidableEq, Repr, Inhabited

/-- The TY field: a type, or 0xF, the slice's FMT.TY (02 R35). -/
inductive TyF where
  | ty (t : Ty)
  | fmt
deriving DecidableEq, Repr, Inhabited

/-- Unit class field UC, 05 Table 5.2. -/
inductive UC where
  | auto | f | s | t
deriving DecidableEq, Repr, Inhabited

/-- Rounding codes, 05 Table 5.3. -/
inductive Rnd where
  | dflt | rne | rz | ru | rd | sr
deriving DecidableEq, Repr, Inhabited

/-- Condition codes of SSETC, BRS and VSETP, 06 Table 6.2. -/
inductive Cond where
  | eq | ne | lt | ge | le | gt | ltn | gen
deriving DecidableEq, Repr, Inhabited

/-- Conditions of FSETP, 07 Table 7.4. -/
inductive FCond where
  | eq | ne | lt | ge | le | gt | num | nan
deriving DecidableEq, Repr, Inhabited

/-- Scope codes, 05 Table 5.7. -/
inductive Scope where
  | grp | team | clu | die | pkg | dom | sys
deriving DecidableEq, Repr, Inhabited

/-- Order codes, 05 Table 5.4. -/
inductive Order where
  | rlx | acq | rel | ar
deriving DecidableEq, Repr, Inhabited

/-- Access sizes, 05 R97: 1, 2, 4, 8 and 16 bytes. -/
inductive MSize where
  | b | h | w | d | q
deriving DecidableEq, Repr, Inhabited

/-- Address base of a memory instruction, 05 R89. -/
inductive Base where
  | s (a : SReg)
  | v (a : VReg)
deriving DecidableEq, Repr, Inhabited

/-- Second scalar operand Y, 06 R106. -/
inductive SOpnd where
  | s (b : SReg)
  | imm (c : BitVec 8)
deriving DecidableEq, Repr, Inhabited

/-- A vector source that KB or KC may turn into an S register, 05 R86. -/
inductive VOpnd where
  | v (b : VReg)
  | s (b : SReg)
deriving DecidableEq, Repr, Inhabited

/-- Shift count, 07 R131. -/
inductive ShOpnd where
  | v (b : VReg)
  | s (b : SReg)
  | imm (c : BitVec 6)
deriving DecidableEq, Repr, Inhabited

/-- Index or delta of a shuffle, 08 R161. -/
inductive LaneIdx where
  | v (b : VReg)
  | s (b : SReg)
  | imm (k : BitVec 7)
deriving DecidableEq, Repr, Inhabited

/-- Source of SETBUD, 08 R157. -/
inductive BudSrc where
  | imm (mode : Bool) (bud : Eb16)
  | s (a : SReg)
deriving DecidableEq, Repr, Inhabited

/-- Operations of RED and SCAN, 08 Table 8.4. -/
inductive RedOp where
  | add | min | max | and | or | xor
deriving DecidableEq, Repr, Inhabited

/-- Modes of VOTE, 08 R165. -/
inductive VoteMode where
  | all | any | uni | ballot
deriving DecidableEq, Repr, Inhabited

/-- Operations of ATOM and ATOMS, 11 Table 11.3. -/
inductive AtomOp where
  | add | min | max | and | or | xor | exch
deriving DecidableEq, Repr, Inhabited

/-- Types of ATOM and ATOMS, OFF10[5:4], 11 R228. -/
inductive AtomTy where
  | nat | int | flt
deriving DecidableEq, Repr, Inhabited

/-- Operands of a copy, 13 Tables 13.3 and 13.4: dimension count less 1, the handle or offset operand, the address
operand, stride operands, shape less 1 in each dimension, `.yield` and its continuation. -/
structure CpyArgs where
  nd : BitVec 2
  hd : Bool
  d : SReg
  a : SReg
  b : SReg
  c : SReg
  x0 : BitVec 13
  x1 : BitVec 12
  x2 : BitVec 12
  yl : Bool
  cont : BitVec 20
deriving DecidableEq, Repr, Inhabited

/-- Source of B of an MMA, 14 R281: the slot at Q of a handle, or the team offset in Sb. -/
inductive MmaSrc where
  | h (k : BitVec 5)
  | s (b : SReg)
deriving DecidableEq, Repr, Inhabited

/-- ATTACH's role field, 10 R189. -/
inductive RoleF where
  | none | producer | consumer
deriving DecidableEq, Repr, Inhabited

/-- How the page of a peer's access maps it: BM, and the die of near placement, none for interleaved (17 Table 17.4, R322). -/
structure FenMap where
  bm : Bool
  near : Option (BitVec 3)
deriving DecidableEq, Repr, Inhabited

/-- What a peer package sends over Fenlink: an access of one location under its page's mapping (19 R364; an atomic's operation and type,
none for a compare and swap with the value expected; 11 R222, R223, with the withdrawal of a held LDF), or a fault or request record (17
R328). -/
inductive FenReq where
  | load (m : FenMap) (pa n : Nat)
  | store (m : FenMap) (pa : Nat) (data : List Byte) (bound : Eb16)
  | atomic (m : FenMap) (pa size : Nat) (op : Option (AtomOp × AtomTy)) (val exp : DWord) (bound : Eb16)
  | ldf (m : FenMap) (pa n : Nat)
  | stf (m : FenMap) (pa : Nat) (data : List Byte) (bound : Eb16)
  | clrf (m : FenMap) (pa : Nat)
  | withdraw (pa n : Nat)
  | record (words : List DWord)
deriving DecidableEq, Repr, Inhabited

/-- What a write of the host reaches (19 R359-R361): device memory through HDM decoder 0 or 1, or its own memory. -/
inductive HostSpace where
  | data | peat | host
deriving DecidableEq, Repr, Inhabited

/-- A register that the host writes: one of BAR0 by its offset (19 Table 19.2), or the commit bit of an HDM decoder (R360). -/
inductive HostReg where
  | bar (off : Nat)
  | hdm (peat : Bool)
deriving DecidableEq, Repr, Inhabited

/-- A package and the time source (19 R367): it is cut off, it rejoins, or its count has converged again. -/
inductive TimeEvent where
  | cut | rejoin | converged
deriving DecidableEq, Repr, Inhabited

/-- One constructor per row of spec/opcode_table.json. -/
inductive Instr where
  -- scalar class, 06 R106-R113
  | sadd (h : Hdr) (d a : SReg) (y : SOpnd)
  | ssub (h : Hdr) (d a : SReg) (y : SOpnd)
  | saddi (h : Hdr) (d a : SReg) (imm : Imm24)
  | smul (h : Hdr) (d a : SReg) (y : SOpnd)
  | smulh (h : Hdr) (d a : SReg) (y : SOpnd)
  | smulhn (h : Hdr) (d a : SReg) (y : SOpnd)
  | sdiv (h : Hdr) (d a : SReg) (y : SOpnd)
  | sdivn (h : Hdr) (d a : SReg) (y : SOpnd)
  | srem (h : Hdr) (d a : SReg) (y : SOpnd)
  | sremn (h : Hdr) (d a : SReg) (y : SOpnd)
  | sand (h : Hdr) (d a : SReg) (y : SOpnd)
  | sandn (h : Hdr) (d a : SReg) (y : SOpnd)
  | sor (h : Hdr) (d a : SReg) (y : SOpnd)
  | sxor (h : Hdr) (d a : SReg) (y : SOpnd)
  | sshl (h : Hdr) (d a : SReg) (y : SOpnd)
  | sshr (h : Hdr) (d a : SReg) (y : SOpnd)
  | ssra (h : Hdr) (d a : SReg) (y : SOpnd)
  | srot (h : Hdr) (d a : SReg) (y : SOpnd)
  | smin (h : Hdr) (d a : SReg) (y : SOpnd)
  | smax (h : Hdr) (d a : SReg) (y : SOpnd)
  | sminn (h : Hdr) (d a : SReg) (y : SOpnd)
  | smaxn (h : Hdr) (d a : SReg) (y : SOpnd)
  | sclz (h : Hdr) (d a : SReg)
  | sctz (h : Hdr) (d a : SReg)
  | spop (h : Hdr) (d a : SReg)
  | sbfe (h : Hdr) (d a : SReg) (pos : BitVec 6) (len : BitVec 8)
  | sbfi (h : Hdr) (d a : SReg) (pos : BitVec 6) (len : BitVec 8)
  | ssetc (h : Hdr) (d a b : SReg) (cc : Cond)
  | ssel (h : Hdr) (d a b c : SReg)
  | smov (h : Hdr) (d a : SReg)
  | sli (h : Hdr) (d : SReg) (imm : Imm24)
  | sliw (h : Hdr) (d : SReg) (imm : DWord)
  | movsr (h : Hdr) (d : SReg) (sel : BitVec 8)
  | movrs (h : Hdr) (sel : BitVec 8) (a : SReg)
  -- control class, 06 R114-R127
  | bra (h : Hdr) (t : BitVec 20)
  | brs (h : Hdr) (t : BitVec 20) (cc : Cond) (a : SReg)
  | brv (h : Hdr) (t j : BitVec 20)
  | join (h : Hdr)
  | call (h : Hdr) (t : BitVec 20)
  | calli (h : Hdr) (a : VReg)
  | ret (h : Hdr)
  | regang (h : Hdr)
  | setw (h : Hdr) (lo hi : BitVec 8) (e : Option SReg)
  | exit (h : Hdr)
  | yield (h : Hdr)
  | waitt (h : Hdr) (a : SReg)
  | nop (h : Hdr)
  | trap (h : Hdr) (imm : Imm24)
  | undefinedOpcode (w0 w1 : DWord)
  -- vector integer, 07 R129-R136
  | vadd (h : Hdr) (ty : TyF) (d a : VReg) (b : VOpnd)
  | vsub (h : Hdr) (ty : TyF) (d a : VReg) (b : VOpnd)
  | vmul (h : Hdr) (ty : TyF) (d a : VReg) (b : VOpnd)
  | vmulh (h : Hdr) (ty : TyF) (d a : VReg) (b : VOpnd)
  | vmulhn (h : Hdr) (ty : TyF) (d a : VReg) (b : VOpnd)
  | vmad (h : Hdr) (ty : TyF) (d a : VReg) (b c : VOpnd)
  | vdiv (h : Hdr) (ty : TyF) (d a : VReg) (b : VOpnd)
  | vdivn (h : Hdr) (ty : TyF) (d a : VReg) (b : VOpnd)
  | vand (h : Hdr) (ty : TyF) (d a : VReg) (b : VOpnd)
  | vor (h : Hdr) (ty : TyF) (d a : VReg) (b : VOpnd)
  | vxor (h : Hdr) (ty : TyF) (d a : VReg) (b : VOpnd)
  | vnot (h : Hdr) (ty : TyF) (d a : VReg)
  | vshl (h : Hdr) (ty : TyF) (d a : VReg) (y : ShOpnd)
  | vshr (h : Hdr) (ty : TyF) (d a : VReg) (y : ShOpnd)
  | vsra (h : Hdr) (ty : TyF) (d a : VReg) (y : ShOpnd)
  | vrot (h : Hdr) (ty : TyF) (d a : VReg) (y : ShOpnd)
  | vmin (h : Hdr) (ty : TyF) (d a : VReg) (b : VOpnd)
  | vmax (h : Hdr) (ty : TyF) (d a : VReg) (b : VOpnd)
  | vminn (h : Hdr) (ty : TyF) (d a : VReg) (b : VOpnd)
  | vmaxn (h : Hdr) (ty : TyF) (d a : VReg) (b : VOpnd)
  | vabs (h : Hdr) (ty : TyF) (d a : VReg)
  | vneg (h : Hdr) (ty : TyF) (d a : VReg)
  | vclz (h : Hdr) (ty : TyF) (d a : VReg)
  | vpop (h : Hdr) (ty : TyF) (d a : VReg)
  | vbfe (h : Hdr) (ty : TyF) (d a : VReg) (pos : BitVec 5) (len : BitVec 6)
  | vbfi (h : Hdr) (ty : TyF) (d a : VReg) (pos : BitVec 5) (len : BitVec 6)
  | vbrev (h : Hdr) (ty : TyF) (d a : VReg)
  | vprmb (h : Hdr) (ty : TyF) (d a : VReg) (b c : VOpnd)
  | vsetp (h : Hdr) (ty : TyF) (p : PReg) (a : VReg) (b : VOpnd) (cc : Cond)
  | vsel (h : Hdr) (ty : TyF) (d a : VReg) (b : VOpnd) (p : PReg)
  | vmov (h : Hdr) (ty : TyF) (d : VReg) (src : VOpnd)
  | vli (h : Hdr) (d : VReg) (imm : Imm24)
  | vlid (h : Hdr) (ty : TyF) (d : VReg) (imm : DWord)
  | plop (h : Hdr) (d a b : PReg) (t : BitVec 4)
  | vtos (h : Hdr) (ty : TyF) (d : SReg) (a : VReg) (sel : Option (BitVec 2))
  -- floating point, 07 R137-R142
  | fadd (h : Hdr) (ty : TyF) (uc : UC) (rnd : Rnd) (d a : VReg) (b : VOpnd)
  | fsub (h : Hdr) (ty : TyF) (uc : UC) (rnd : Rnd) (d a : VReg) (b : VOpnd)
  | fmul (h : Hdr) (ty : TyF) (uc : UC) (rnd : Rnd) (d a : VReg) (b : VOpnd)
  | ffma (h : Hdr) (ty : TyF) (uc : UC) (d a : VReg) (b c : VOpnd)
  | fmin (h : Hdr) (ty : TyF) (uc : UC) (d a : VReg) (b : VOpnd)
  | fmax (h : Hdr) (ty : TyF) (uc : UC) (d a : VReg) (b : VOpnd)
  | fsetp (h : Hdr) (ty : TyF) (uc : UC) (p : PReg) (a : VReg) (b : VOpnd) (cc : FCond)
  | frcp (h : Hdr) (ty : TyF) (d a : VReg)
  | frsq (h : Hdr) (ty : TyF) (d a : VReg)
  | fsqrt (h : Hdr) (ty : TyF) (uc : UC) (rnd : Rnd) (d a : VReg)
  | fdiv (h : Hdr) (ty : TyF) (uc : UC) (rnd : Rnd) (d a : VReg) (b : VOpnd)
  | fexp2 (h : Hdr) (ty : TyF) (d a : VReg)
  | flog2 (h : Hdr) (ty : TyF) (d a : VReg)
  | fsin (h : Hdr) (ty : TyF) (d a : VReg)
  | fcos (h : Hdr) (ty : TyF) (d a : VReg)
  | ftanh (h : Hdr) (ty : TyF) (d a : VReg)
  | ffrc (h : Hdr) (ty : TyF) (d a : VReg)
  | frnd (h : Hdr) (ty : TyF) (rnd : Rnd) (d a : VReg)
  | hadd2 (h : Hdr) (ty : TyF) (uc : UC) (rnd : Rnd) (d a : VReg) (b : VOpnd)
  | hmul2 (h : Hdr) (ty : TyF) (uc : UC) (rnd : Rnd) (d a : VReg) (b : VOpnd)
  | hfma2 (h : Hdr) (ty : TyF) (uc : UC) (d a : VReg) (b c : VOpnd)
  | dadd (h : Hdr) (ty : TyF) (uc : UC) (rnd : Rnd) (d a : VReg) (b : VOpnd)
  | dmul (h : Hdr) (ty : TyF) (uc : UC) (rnd : Rnd) (d a : VReg) (b : VOpnd)
  | dfma (h : Hdr) (ty : TyF) (uc : UC) (d a : VReg) (b c : VOpnd)
  | ddiv (h : Hdr) (ty : TyF) (uc : UC) (rnd : Rnd) (d a : VReg) (b : VOpnd)
  -- conversion, 07 R143-R150
  | cvt (h : Hdr) (ty : TyF) (src : Ty) (rnd : Rnd) (d a : VReg) (b : VOpnd)
  | cvti (h : Hdr) (ty : TyF) (src : Ty) (rnd : Rnd) (d a : VReg) (b : VOpnd)
  | pack (h : Hdr) (ty : TyF) (src : Ty) (rnd : Rnd) (d a : VReg)
  | unpk (h : Hdr) (ty : TyF) (src : Ty) (d a : VReg)
  | qnt (h : Hdr) (ty : TyF) (src : Ty) (rc : Rnd) (d a vs : VReg)
  | dqnt (h : Hdr) (ty : TyF) (src : Ty) (rnd : Rnd) (d a vs : VReg)
  | srseed (h : Hdr) (a : SReg)
  | setfmt (h : Hdr) (ty : Ty) (rm : BitVec 2)
  -- bound, 08 R151-R157
  | bget (h : Hdr) (ty : TyF) (d a : VReg)
  | bset (h : Hdr) (ty : TyF) (d a : VReg) (b : VOpnd)
  | bzero (h : Hdr) (ty : TyF) (d a : VReg)
  | bmax (h : Hdr) (ty : TyF) (d a b : VReg)
  | chkb (h : Hdr) (ty : TyF) (a : VReg) (n : Option (BitVec 6))
  | btest (h : Hdr) (ty : TyF) (p : PReg) (a : VReg) (b : Option SReg)
  | setbud (h : Hdr) (src : BudSrc)
  -- cross-lane, 08 R158-R168
  | shfl (h : Hdr) (ty : TyF) (d a : VReg) (k : LaneIdx) (pv : PReg)
  | shflu (h : Hdr) (ty : TyF) (d a : VReg) (k : LaneIdx) (pv : PReg)
  | shfld (h : Hdr) (ty : TyF) (d a : VReg) (k : LaneIdx) (pv : PReg)
  | shflx (h : Hdr) (ty : TyF) (d a : VReg) (k : LaneIdx) (pv : PReg)
  | bcast (h : Hdr) (ty : TyF) (d a : VReg) (k : LaneIdx) (pv : PReg)
  | red (h : Hdr) (ty : TyF) (uc : UC) (op : RedOp) (d a : VReg) (pc pd : PReg)
  | scan (h : Hdr) (ty : TyF) (uc : UC) (op : RedOp) (ex : Bool) (d a : VReg) (pc pd : PReg)
  | vote (h : Hdr) (mode : VoteMode) (d : BitVec 8) (pa pc : PReg)
  | matchv (h : Hdr) (ty : TyF) (d a : VReg) (pc pd : PReg)
  | first (h : Hdr) (d : VReg) (pc pd : PReg)
  -- memory, 11 R224-R235
  | ld (h : Hdr) (sz : MSize) (base : Base) (d : VReg) (off : BitVec 10) (sc : Scope) (od : Order) (inv : Bool) (nr : Option PReg)
  | st (h : Hdr) (sz : MSize) (base : Base) (b : VReg) (off : BitVec 10) (sc : Scope) (od : Order) (nochk : Bool)
  | lds (h : Hdr) (sz : MSize) (base : Base) (d : VReg) (off : BitVec 10) (sc : Scope) (od : Order)
  | sts (h : Hdr) (sz : MSize) (base : Base) (b : VReg) (off : BitVec 10) (sc : Scope) (od : Order) (nochk : Bool)
  | sld (h : Hdr) (sz : MSize) (a d : SReg) (off : BitVec 10) (sc : Scope) (od : Order)
  | sst (h : Hdr) (sz : MSize) (a b : SReg) (off : BitVec 10) (sc : Scope) (od : Order)
  | atom (h : Hdr) (sz : MSize) (base : Base) (d b : VReg) (op : AtomOp) (ty : AtomTy) (sc : Scope) (od : Order) (nochk : Bool)
  | atoms (h : Hdr) (sz : MSize) (base : Base) (d b : VReg) (op : AtomOp) (ty : AtomTy) (sc : Scope) (od : Order) (nochk : Bool)
  | cas (h : Hdr) (sz : MSize) (base : Base) (d b : VReg) (off : BitVec 10) (sc : Scope) (od : Order) (nochk : Bool)
  | cass (h : Hdr) (sz : MSize) (base : Base) (d b : VReg) (off : BitVec 10) (sc : Scope) (od : Order) (nochk : Bool)
  | ldf (h : Hdr) (sz : MSize) (base : Base) (d : VReg) (off : BitVec 10) (sc : Scope) (od : Order) (pa : PReg)
  | stf (h : Hdr) (sz : MSize) (base : Base) (b : VReg) (off : BitVec 10) (sc : Scope) (od : Order)
  | clrf (h : Hdr) (base : Base) (off : BitVec 10) (sc : Scope) (od : Order)
  | fence (h : Hdr) (kinds : BitVec 4) (sc : Scope) (od : Order)
  | pref (h : Hdr) (base : Base) (l2 : Bool) (off : BitVec 10) (sc : Scope)
  | pgreq (h : Hdr) (base : Base) (w : Bool) (off : BitVec 10) (sc : Scope)
  | cctlCln1 (h : Hdr) (base : Base) (off : BitVec 10) (sc : Scope)
  | cctlInv1 (h : Hdr) (base : Base) (off : BitVec 10) (sc : Scope)
  | cctlClnm (h : Hdr) (base : Base) (off : BitVec 10) (sc : Scope)
  | cctlFlsm (h : Hdr) (base : Base) (off : BitVec 10) (sc : Scope)
  | cctlInvi (h : Hdr) (base : Base) (off : BitVec 10) (sc : Scope)
  -- copies and buffers, 13 R263-R277
  | bufdef (h : Hdr) (k : BitVec 5) (base sz : BitVec 19) (nm1 : BitVec 6)
  | cpyin (h : Hdr) (c : CpyArgs)
  | cpyout (h : Hdr) (c : CpyArgs)
  | cpynb (h : Hdr) (c : CpyArgs)
  | cpyg (h : Hdr) (c : CpyArgs)
  | waitb (h : Hdr) (d : SReg) (k : BitVec 5)
  | acqb (h : Hdr) (f : Bool) (d : SReg) (k : BitVec 5)
  | relb (h : Hdr) (k : BitVec 5)
  -- matrix, 14 R278-R295
  | mma (h : Hdr) (ta : TyF) (tb : Ty) (uc : UC) (k : BitVec 6) (a : VReg) (src : MmaSrc) (vs : VReg) (za ru rl : Bool)
  | mzero (h : Hdr) (k : BitVec 6)
  | mld (h : Hdr) (ty : TyF) (d : VReg) (k : BitVec 6) (c0 nm1 : BitVec 5)
  | mst (h : Hdr) (td : TyF) (ts : Ty) (rnd : Rnd) (k : BitVec 6) (a b scr : SReg) (sp nc : Bool)
  | mscl (h : Hdr) (ty : TyF) (k : BitVec 6) (a : VReg) (cm : Word)
  -- teams, barriers, gears, 10 R189-R206
  | attach (h : Hdr) (role : RoleF) (a b : SReg)
  | detach (h : Hdr) (cond : Bool)
  | bara (h : Hdr) (d : SReg) (k : BitVec 7)
  | barw (h : Hdr) (k : BitVec 7) (a : SReg)
  | bars (h : Hdr) (k : BitVec 7)
  | barq (h : Hdr) (d : SReg) (k : BitVec 7)
  | gear (h : Hdr) (fast : Bool)
  | gearw (h : Hdr) (d : SReg)
  | nopre (h : Hdr)
  | pre (h : Hdr)
  | spawn (h : Hdr) (pd : PReg) (a : VReg)
  | slput (h : Hdr) (d a b : SReg)
  | slrel (h : Hdr) (a b : SReg)
  | slveto (h : Hdr) (a b : SReg)
  -- system, 18 R342-R348
  | sysc (h : Hdr) (imm : Imm24)
  | rft (h : Hdr)
  | stctx (h : Hdr) (item : BitVec 8) (a : SReg) (off : BitVec 10)
  | ldctx (h : Hdr) (item : BitVec 8) (a : SReg) (off : BitVec 10)
  | csrr (h : Hdr) (d : SReg) (num : BitVec 12)
  | csrw (h : Hdr) (num : BitVec 12) (a : SReg)
  | tlbinvAll (h : Hdr)
  | tlbinvAsid (h : Hdr) (b : SReg)
  | tlbinvPg (h : Hdr) (a b : SReg)
  | haltKill (h : Hdr)
  | haltSave (h : Hdr) (a : SReg)
  | haltSaveRls (h : Hdr) (a : SReg)
  | emret (h : Hdr)
  | emretDcl (h : Hdr)
  -- events within a kernel
  | resultWriteback (t slot slice i : Nat)
  | parkRelease (t slot slice : Nat)
  | rendezvousComplete (t slot : Nat)
  | setwGrant (t slot : Nat)
  | reedRingInjection (die : Nat)
  | shareArrival (t : Nat)
  | yieldPauseEnd (t slot slice : Nat)
  | waittWake (t slot slice : Nat)
  | barrierArrive (t slot k : Nat)
  | barrierLeave (i : Nat)
  | barrierRelease (t : Nat)
  | gearResolveChange (t : Nat)
  | gearSwitchStart (t : Nat)
  | gearSwitchEnd (t : Nat)
  | dozeStart (t : Nat)
  | dozeWake (t : Nat)
  | watchdog (t slot : Nat)
  | instructionFetchMiss (t slot slice : Nat)
  | icacheFill (t i : Nat)
  | storeQueuePerform (t slot : Nat)
  | engineIssue (t slot : Nat)
  | sluicePut (t slot : Nat)
  | copyCompletion (t e : Nat)
  | copyFailure (t e : Nat)
  | engineTranslationRetry (t e : Nat)
  | matrixAccept (t slot : Nat)
  | matrixComplete (t : Nat)
  | mstConvertDone (t : Nat)
  | burstEnd (t : Nat)
  | trapDelivery (t slot slice : Nat)
  | groupSaveLeave (t slot : Nat)
  | groupEnd (t slot : Nat)
  | faultRecordAccept (i : Nat)
  | faultRecordResend (i : Nat)
  -- events across launches
  | launchRecordRead (q : Nat)
  | launchRecordAccept (q : Nat)
  | dependenceRecheck (q : Nat)
  | growthGroupStart (t team : Nat)
  | shrinkRequest (t team : Nat)
  | gatherClose (i : Nat)
  | taskRetire (i : Nat)
  | launchCompletion (id : Nat)
  | teamKilled (t team : Nat)
  | msixMessage (v : Nat)
  | noRouteTimeout (peer : Nat)
  | tlbinvComplete (t slot slice : Nat)
  -- what comes from outside, or has no operands
  | qdb (q : Nat) (tail : Word)
  | qcfgWrite (q : Nat) (val : DWord)
  | qstatStopClear (q : Nat)
  | testFail (tiles : BitVec 8)
  | fenlinkRequest (peer : Nat) (req : FenReq)
  | laneShed (p : Nat)
  | portDown (p : Nat)
  | timeSource (e : TimeEvent) (src : Nat)
  | hostWrite (m : HostSpace) (off : Nat) (data : List Byte)
  | hostRead (peat : Bool) (off n : Nat)
  | slhostWrite (n : Nat) (val : DWord)
  | slcfgWrite (n : Nat) (val : DWord)
  | almcauseClear (val : DWord)
  | pwrlimWrite (val : DWord)
  | registerWrite (r : HostReg) (val : DWord)
  | alarm (bit die : Nat)
  | alarmQuietExpiry
  | powerOn
  | warmReset
  | rstctlWrite (val : DWord)
  | port1Reset
  | quoteRequest (nonce : BitVec 512)
  | measurementAppend (kind : Nat) (digest : BitVec 512)
  | fenlinkRouteReturn (peer : Nat)
  | powerOff
  | flridxWrite (el : Bool) (val : DWord)
  | residencyNotify (asid va : Nat)
  | preemptionRequest (t slot : Nat)
  | gangPromotion (t slot gang : Nat)
  | faultLogWrite
  | schedulerPlacement
  | preemptEscalation
  | testInterval
  | scanStart
  | testPass
  | errorLogWrite
  | burstTokenRotate
deriving DecidableEq, Repr

end Sys2Proof
end

