-- ==== Sys2Proof/Machine/State.lean ====
section
/-! DEFINITION. The state of the machine as plain data: package, tiles, teams, groups and slices, and `State.reset`. -/

namespace Sys2Proof.Machine

/-- Why a step stops. Both are safe: the hardware has no such step to take. -/
inductive Fault where
  /-- Raised by a beat when no gang is selected: `State.focus` names no live slice. Safe: nothing could issue. -/
  | noGang
  /-- Raised by an instruction of a program when the package is unpowered or its boot has failed (22 R396). Safe: the
  hardware executes nothing then. -/
  | notRunning
deriving DecidableEq, Repr

/-- Why the model gives an instruction no meaning. -/
inductive Refusal where
  /-- Raised by an arm of `exec` whose instruction has no meaning yet. Safe: nothing can be proved of it. -/
  | notModelled (mnemonic : String)
deriving DecidableEq, Repr

/-! ## Slices -/

/-- One V register of one lane: value and bound shadow (02 R22). -/
structure Reg where
  val : Word
  bnd : Eb16
deriving DecidableEq, Repr, Inhabited

/-- The reset value of a register and its shadow (02 R39). -/
def Reg.zero : Reg := { val := 0, bnd := 0 }

/-- A divergence entry (06, "Divergence within a slice"). `saved = 0` is an empty entry (18 R347). -/
structure DivEntry where
  calli : Bool
  join : DWord
  saved : BitVec 4
  pend : BitVec 4
  resume : DWord
  fmt : BitVec 8
deriving DecidableEq, Repr, Inhabited

/-- A return entry (06, "Calls and returns"). -/
structure RetEntry where
  addr : DWord
  flag : Bool
deriving DecidableEq, Repr, Inhabited

/-- A trap as raised: vector, CODE, LANES (none: the slice's active lanes), AUX0, AUX1, COLL, and RPC (none: the raising
instruction for a synchronous trap, the next one for an asynchronous trap) (18 R335, Table 18.2). -/
structure Trap where
  vec : Nat
  code : Nat
  lanes : Option (BitVec 96)
  aux0 : DWord
  aux1 : DWord
  coll : Bool
  bps : Bool
  rpc : Option DWord
deriving DecidableEq, Repr, Inhabited

/-- The stack state set aside at one level of trap depth, the vector delivered there (18 R338), and the lowest slice of the gang that was
interrupted (09 R173). The entry lists are bottom first, of three and eight entries, of which `dsn` and `rsn` are held (18 R347). -/
structure Level where
  vec : Nat
  gang : Nat
  dsn : Nat
  div : List DivEntry
  rsn : Nat
  ret : List RetEntry
  spill : Nat
deriving DecidableEq, Repr, Inhabited

/-- Where a register write goes. -/
inductive Dst where
  | v (reg lane : Nat)
  | p (reg lane : Nat)
  | s (reg : Nat)
deriving DecidableEq, Repr

/-- One register write of a result: P takes bit 0, V the low 32 bits. -/
structure RegWrite where
  dst : Dst
  val : DWord
  bnd : Eb16
deriving DecidableEq, Repr

/-- What one written lane gives update_hx (04 R70): the bound and ex(|value|), none for a value of 0. -/
structure HxItem where
  bnd : Eb16
  ex : Option Int
deriving DecidableEq, Repr

/-- The outstanding result of one instruction (09 R174): its writes, and `n`, the registers it writes; `hx` is given when its class
was selected automatically. `tok` names the queued atomic or held LDF that is to supply it; 0: the result is there. -/
structure Pend where
  writes : List RegWrite
  n : Nat
  hx : Option (List HxItem)
  tok : Nat
deriving DecidableEq, Repr

/-- What holds a slice (09 R177). -/
inductive Wait where
  /-- nothing -/
  | run
  /-- a park marker, until no result is outstanding (05 R83) -/
  | results
  /-- parked at a rendezvous point (06 R121) -/
  | rdv (i : Instr)
  /-- its group waits for room at a SETW (06 R122) -/
  | setw (i : Instr)
  /-- its group's collective has completed its rendezvous and is presented for its one issue (08 R158, 14 R282) -/
  | present (i : Instr)
  /-- held until the matrix unit has converted an MST's rows (14 R293) -/
  | convert
  /-- BARW or BARS, until the token is complete (10 R195) -/
  | barrier (k : Nat) (token : Word)
  /-- BARA or BARS, until the arrival in progress is made or GEN advances (10 R194) -/
  | arrive (k : Nat)
  /-- WAITB or ACQB (13 R264) -/
  | slot
  /-- a refused resource, a copy's slot among them (13 R264) -/
  | refused
  /-- GEARW (10 R201) -/
  | gear
  /-- lanes of an LDF held in a deferral buffer (11 R223) -/
  | future
  /-- WAITT (06 R125) -/
  | waitt (until_ : DWord)
  /-- YIELD's pause, up to the tile cycle given, in which the slice may issue again (06 R124) -/
  | pause (cycle : Nat)
  /-- a `.yield` copy (13 R274) -/
  | yieldCopy (id : Nat)
  /-- a PAGE_FAULT or PROTECT whose records are on their way (17 R327) -/
  | records (tr : Trap) (beat : Nat)
  /-- TLBINV of a kind (0 all, 1 ASID, 2 page), until every TLB has dropped the entries (18 R345) -/
  | tlbinv (kind asid va : Nat)
  /-- LDCTX, until its data returns (18 R347) -/
  | context (item : Nat) (data : List Byte)
  /-- HALT, until every live slice has halted, and then until the group leaves (18 R348) -/
  | halted (i : Instr) (addr : DWord)
  /-- after the RFT of a resume on a changed grant, or new in it (18 R350, R351) -/
  | regrant
deriving DecidableEq, Repr

/-- A slice (02, 06, 09, 18). `v` is keyed 4 × register + lane, `s` by register; P0 to P6 of lane l are bits 0 to 6 of
`p[7l+6:7l]`. Stacks have their top first; `wins` holds the column and base of each window (09 R170, 21 R384); `bad` marks the parts of
registers that hold an uncorrectable error, keyed as `v`: bit 0 the low half, bit 1 the high half, bit 2 the shadow (21 R377). -/
structure Slice where
  live : Bool
  pc : DWord
  lmask : BitVec 4
  s : Sparse DWord
  v : Sparse Reg
  p : BitVec 28
  fmt : BitVec 8
  ebud : BitVec 17
  hx : BitVec 8
  div : List DivEntry
  ret : List RetEntry
  spill : Nat
  cont : Bool
  pm : Bool
  td : Nat
  levels : List Level
  wait : Wait
  /-- the instruction a wait belongs to, executed again when the wait is interrupted (18 R337) -/
  parkPc : DWord
  stamp : Nat
  gang : Nat
  /-- the lowest slice of the gang that PREEMPT interrupts, until it is delivered (09 R173, 18 R347) -/
  lead : Option Nat
  /-- in a slice being resumed, the gang that its image records (09 R173, 18 R347), until the instruction after its return -/
  glead : Option Nat
  promo : Nat
  out : List Pend
  /-- nothing has been issued in the present run (09 R176) -/
  newRun : Bool
  wset : BitVec 256
  async : List Trap
  skipBp : Bool
  wins : List (Nat × Nat)
  /-- bit k: this slice has arrived at Bk while its group has not (10 R194) -/
  arrv : BitVec 128
  bad : Sparse (BitVec 3)
  /-- how often the two copies of its next dual-issued instruction are to differ: once, or again (21 R385) -/
  glitch : Nat
deriving DecidableEq, Repr

/-- FMT of an f32 slice in RNE (02 Table 2.4). -/
def fmtReset : BitVec 8 := 0x30

/-- HX at group start (02 R37). -/
def hxReset : BitVec 8 := 127

/-- A slice that does not exist. -/
def Slice.absent : Slice :=
  { live := false, pc := 0, lmask := 0, s := [], v := [], p := 0, fmt := fmtReset, ebud := 0, hx := hxReset, div := [],
    ret := [], spill := 0, cont := false, pm := false, td := 0, levels := [], wait := .run, parkPc := 0, stamp := 0,
    gang := 0, lead := none, glead := none, promo := 0, out := [], newRun := true, wset := 0, async := [], skipBp := false, wins := [], arrv := 0,
    bad := [], glitch := 0 }

/-! ## Memory -/

/-- A place in memory: its physical key (log 14), whether it is tagged (11 R217, R219), the L2 slice that serves it (11
R211), and its cache policy CP (17 Table 17.4), or 4 where nothing caches it (19 R363). -/
structure Loc where
  key : Nat
  tagged : Bool
  l2s : Nat
  cp : Nat
deriving DecidableEq, Repr

/-- One access of a store: place, bytes and bound. -/
structure Acc where
  loc : Loc
  data : List Byte
  bnd : Eb16
deriving DecidableEq, Repr

/-- One lane of an atomic: place, operand with bound, expected value of a compare and swap, slice, logical lane, the instruction's
address, and the destination. -/
structure AtomLane where
  loc : Loc
  val : DWord
  bnd : Eb16
  exp : DWord
  slice : Nat
  lane : Nat
  pc : DWord
  dst : Dst
deriving DecidableEq, Repr

/-- The function of an atomic: ATOM and ATOMS by operation and type, or CAS and CASS. -/
inductive AtomFn where
  | op (o : AtomOp) (t : AtomTy)
  | cas
deriving DecidableEq, Repr

/-- Copy kinds, 13 Table 13.2. -/
inductive CopyKind where
  | cin | cout | nb | g
deriving DecidableEq, Repr

/-- One side of a copy: a global virtual address, or a byte of a tile's scratchpad. -/
inductive Side where
  | glob (va : DWord)
  | pad (tile : Nat) (a : Nat)
deriving DecidableEq, Repr

/-- A copy (13 R267-R274). Rows are of `x0` bytes; `t1`, `t2` are the strides of the strided side, the source of CPYIN,
CPYNB and CPYG and the destination of CPYOUT. `ring` names the handle and slot; `gid` and `gidx` are its group's; `done` counts the 8-byte units written; `seq` orders engine issues;
`miss` is the address of the page it waits for. -/
structure Copy where
  id : Nat
  kind : CopyKind
  asid : Nat
  slot : Nat
  gid : Nat
  gidx : Nat
  slice : Nat
  pc : DWord
  team : Nat
  launch : Nat
  pm : Bool
  src : Side
  dst : Side
  x0 : Nat
  x1 : Nat
  x2 : Nat
  t1 : Int
  t2 : Int
  ring : Option (Nat × Nat)
  yld : Bool
  cont : DWord
  done : Nat
  seq : Nat
  miss : Option DWord
deriving DecidableEq, Repr

/-- Entries of a group's store queue, in group issue order (12 R240). `fence` stands for the order that a FENCE, an acquire or
release without a lane, and an LDF with held lanes make (12 R247-R252): while it is queued, later accesses of the kinds in
`hold` (bits of 11 R232) wait, when `full` until it leaves, else while an earlier atomic is queued or an LDF of `toks` has
lanes held; until those LDFs, the copies named and, for `mx`, the group's matrix operation are done, it holds later entries of those
kinds. One of scope sys holds them until it leaves, and what the context has stored in host memory is there then (12 R246). -/
inductive SqKind where
  | store (mst : Bool) (accs : List Acc)
  | stf (accs : List Acc)
  | clrf (locs : List Loc)
  | atomic (acq : Bool) (fn : AtomFn) (size tok : Nat) (lanes : List AtomLane)
  | cctl (op : Nat) (locs : List Loc)
  | copy (c : Copy)
  | spawn (tok pd : Nat) (recs : List (Nat × List DWord))
  | slput (s tok slice : Nat) (dst : SReg) (payload : List DWord)
  | slrel (s index : Nat)
  | slveto (s index : Nat)
  | fence (hold : BitVec 4) (full sys : Bool) (toks copies : List Nat) (mx : Bool)
deriving DecidableEq, Repr

/-- A lane of an LDF held in a deferral buffer (11 R223): granule key, who holds, and what it is to receive. -/
structure Held where
  loc : Loc
  size : Nat
  tile : Nat
  slot : Nat
  slice : Nat
  lane : Nat
  dst : Nat
  pa : Nat
  tok : Nat
deriving DecidableEq, Repr

/-- A cached entry of an ASID table (level 5) or a page table (levels 0 to 4): its ASID, the virtual address bits that
index down to it, and the entry as read (17 R323, R324). -/
structure TEnt where
  asid : Nat
  level : Nat
  prefix_ : Nat
  w0 : DWord
  w1 : DWord
deriving DecidableEq, Repr

/-- A line held by a cache: its place, at a multiple of 256, the sectors present and the dirty ones (11 R210), the ASID that wrote
it last, none for the hub (17 R334), and the launches whose LD.inv brought it in (11 R221). -/
structure Line where
  loc : Loc
  present : BitVec 4
  dirty : BitVec 4
  by_ : Option Nat
  inv : List Nat
deriving DecidableEq, Repr

/-- A line of the instruction cache with its bytes, and which of its 8-byte words came in poisoned (11 R210, 21 R378). -/
structure ILine where
  line : Nat
  data : List Byte
  bad : List Nat
deriving DecidableEq, Repr

/-- A location that a group of a launch has read by LD.inv, and whether it has been written since (11 R221). -/
structure InvMark where
  launch : Nat
  key : Nat
  n : Nat
  broken : Bool
deriving DecidableEq, Repr

/-- A value that an 8-byte unit of memory held, with its sector's tag, until it or the tag was overwritten at a moment of the counter
`nextId`; `wtag` is the tag written with the value, `gone` says that the value itself was overwritten, `bad` that it was poisoned, `badTag`
its tag. Kept while an LD.inv, a copy or an MMA may still read it (11 R221, 12 R254, 14 R288, 21 R378). -/
structure Past where
  at_ : Nat
  unit : Nat
  data : List Byte
  tag : Eb16
  wtag : Eb16
  gone : Bool
  bad : Bool
  badTag : Bool
deriving DecidableEq, Repr

/-- What memory holds of a sector (its key divided by 64) while caches hold newer values (00 R2, 11 R210): its bytes and poisoned units,
where the data is dirty in a cache; the tag in the peat-plane line of the L2 meanwhile; and the tag in memory, where that is older. With each
tag goes whether it is poisoned. -/
structure Behind where
  sec : Nat
  data : Option (List Byte × List Nat)
  plane : Option (Eb16 × Bool)
  tag : Option (Eb16 × Bool)
deriving DecidableEq, Repr

/-- An arrival on its way to barrier k, and how many entries of the store queue were issued before it (10 R198). -/
structure Arrival where
  k : Nat
  before : Nat
deriving DecidableEq, Repr

/-- A fault, request or error record on its way to a fault processor: the beat it belongs to, the package that is to
receive it, when a full buffer refused it, and its eight words (17 R326, R328, R329). -/
structure SentRec where
  beat : Nat
  home : Nat
  refused : Option DWord
  words : List DWord
deriving DecidableEq, Repr

/-! ## Groups and teams -/

/-- A group (02 R34, R38, 09, 10). `bm` holds for barrier k: bit 0 member, 1 joining, 2 arrived in GEN, 3 arrived in
GEN + 1 (18 Table 18.4); `regrant` is the grant before a resume that changed it, until REGRANT (18 R351), else 0; `arrTok` the token of the arrival in progress, `arrSent` the arrivals on their way; `left` says that
the group has left its barriers (10 R190), `born` the tile-cycle count at which it started (09 R171). -/
structure Group where
  gid : Nat
  team : Nat
  idx : Nat
  grant : Nat
  role : Nat
  attached : Bool
  allot : Nat
  gearReq : Bool
  hazchk : Bool
  dual : Bool
  asid : Nat
  elastic : Bool
  born : Nat
  rgh : DWord
  sect : Bool
  sectStart : DWord
  preReq : Bool
  image : DWord
  regrant : Nat
  bm : Sparse (BitVec 4)
  arrTok : Sparse Word
  arrSent : List Arrival
  left : Bool
  sq : List SqKind
  slices : Sparse Slice
deriving DecidableEq, Repr

/-- A named barrier (10, "Named barriers"). -/
structure Bar where
  gen : Word
  e : Nat
  c : Nat
  j : Nat
  x : Nat
  na : Nat
deriving DecidableEq, Repr, Inhabited

/-- A barrier at reset (10 R192). -/
def Bar.zero : Bar := { gen := 0, e := 0, c := 0, j := 0, x := 0, na := 0 }

/-- A team on its tile (10 R186, 16); `live` counts its groups that have not ended, saved ones among them; `grownAt` and `shrunkAt` are when it last grew and was last asked to shrink (16 R312,
R313). -/
structure Team where
  launch : Nat
  idx : Nat
  task : Option Nat
  roles : Bool
  allotP : Nat
  allotC : Nat
  scratchBase : Nat
  scratchSize : Nat
  accBase : Nat
  accCount : Nat
  nbars : Nat
  bars : Sparse Bar
  minGroups : Nat
  maxGroups : Nat
  live : Nat
  shrink : Nat
  grownAt : Option DWord
  shrunkAt : Option DWord
  doomed : Bool
deriving DecidableEq, Repr

/-! ## Tiles -/

inductive SlotSt where
  | free | filling | full | drainProg | drainEng
deriving DecidableEq, Repr, Inhabited

/-- A slot of a ring: its state and its FAIL bit (13 R263). -/
structure RSlot where
  st : SlotSt
  fail : Bool
deriving DecidableEq, Repr, Inhabited

/-- A defined handle (13 R263). -/
structure Handle where
  team : Nat
  base : Nat
  sz : Nat
  slots : List RSlot
  p : Nat
  q : Nat
  f : Nat
deriving DecidableEq, Repr

/-- The matrix instruction the unit is performing (14 R289): the group, what names its results, the instruction with its resolved
type and class, the A operand or the factors of MSCL as registers lane after lane, the S operands of MST, where B lies and its bytes
(14 R288), the moment of its issue, and the generator states of MST's blocks (14 R293). -/
structure MxOp where
  slot : Nat
  gid : Nat
  tok : Nat
  instr : Instr
  ty : Ty
  auto : Bool
  cls : Nat
  regs : List Reg
  svals : List DWord
  bKey : Nat
  bLen : Nat
  time : DWord
  sr : List DWord
deriving DecidableEq, Repr

/-- An A latch of a quarter (14 R287): the group, its grant, Va, A's type and Vs, and the registers held, `n` of each lane and
then its scale register where A has one, lane after lane. -/
structure ALatch where
  gid : Nat
  grant : Nat
  a : BitVec 8
  ta : Ty
  vs : BitVec 8
  n : Nat
  regs : List Reg
deriving DecidableEq, Repr

/-- A tile's gear: settled, stopping for a switch, switching to a gear (10 R203), or stopped at an alarm on its way to NT (22 R395). -/
inductive GearPhase where
  | idle | stopping | switching (fast : Bool) | forced
deriving DecidableEq, Repr

/-- Per-tile state. `incoming` is the part of the allowance that the next cycle sees; `qturn` counts the quarters that have had their turn
in the cycle, `slotHeld` gives for a quarter the last cycle in which its issue slot is held (09 R176), `token` the token interval that the
cycle sees (14 R298). `acc` is keyed 1024 × block + 32 × row + column, `rowBound` 32 × block + row; `accBad` lists what of them holds an
uncorrectable error: the 8-byte units, by key of `acc` divided by 2, and the row bounds, by key plus 32768 (21 R377). -/
structure Tile where
  groups : Sparse Group
  teams : Sparse Team
  scratch : Sparse Byte
  scratchTags : Sparse Eb16
  acc : Sparse Word
  rowBound : Sparse Eb16
  accBad : List Nat
  handles : Sparse Handle
  eng0 : List Copy
  eng1 : List Copy
  mx : Option MxOp
  mxLast : Nat
  alatch : Sparse ALatch
  inBurst : Bool
  burstIdle : Nat
  sr : Sparse DWord
  fast : Bool
  phase : GearPhase
  doze : Bool
  allow : Nat
  incoming : Nat
  reserve : Option (Nat × Nat × Nat)
  cycle : Nat
  qturn : Nat
  slotHeld : Sparse Nat
  token : Nat
  icache : List ILine
  icPend : List Nat
  l1 : List Line
  tlb : List (Nat × Nat)
deriving DecidableEq, Repr

/-- The stochastic-rounding state at reset (03 R58). -/
def srReset : DWord := 0x9E3779B97F4A7C15

/-- A tile after reset: NT gear (log 7), allowance 0 (09 R182), quarter 3 counted as last (09 R181). -/
def Tile.reset : Tile :=
  { groups := [], teams := [], scratch := [], scratchTags := [], acc := [], rowBound := [], accBad := [], handles := [], eng0 := [],
    eng1 := [], mx := none, mxLast := 3, alatch := [], inBurst := false, burstIdle := 0, sr := [], fast := false,
    phase := .idle, doze := false, allow := 0, incoming := 0, reserve := none, cycle := 0, qturn := 0, slotHeld := [], token := 0, icache := [], icPend := [],
    l1 := [], tlb := [] }

/-! ## The hub -/

/-- System registers that are a copy of their own (18 Table 18.3). -/
structure Csr where
  ptvec : DWord
  emvec : DWord
  tfbase : DWord
  asidtb : DWord
  bpa : Sparse DWord
  nearReq : Sparse DWord
  farReq : Sparse DWord
  flBase : DWord
  flCfg : DWord
  flW : Word
  flR : Word
  elBase : DWord
  elCfg : DWord
  elW : Word
  elR : Word
  testCfg : DWord
  testStat : DWord
  fldomId : BitVec 10
  fldomCount : Nat
  almCause : BitVec 16
  pwrLim : Nat
  bootStat : Byte
  cxlLo : Sparse DWord
  cxlHi : Sparse DWord
  ownLo : Sparse DWord
  ownHi : Sparse DWord
deriving DecidableEq, Repr

/-- The system registers after reset (18 Table 18.3, 17 Table 17.9, 21 Table 21.2, 22 Tables 22.2 and 22.3, 19 R364). -/
def Csr.reset : Csr :=
  { ptvec := 0, emvec := 0, tfbase := 0, asidtb := 0, bpa := [], nearReq := [], farReq := [], flBase := 0, flCfg := 6,
    flW := 0, flR := 0, elBase := 0, elCfg := 6, elW := 0, elR := 0, testCfg := 0x10036EE80, testStat := 31,
    fldomId := 0, fldomCount := 1, almCause := 0, pwrLim := 2800, bootStat := 0, cxlLo := [], cxlHi := [], ownLo := [],
    ownHi := [] }

/-- The record read at HEAD of a queue, whether its dependence has been met at the last reading, and whether the counter's page has
been requested (16 R305, R308). -/
structure QRec where
  words : List DWord
  depMet : Bool
  asked : Bool
deriving DecidableEq, Repr

/-- A host queue (16 Table 16.1); `since` is the moment of the counter `nextId` from which the record at HEAD can be read (16 R304), `last`
names the queue's previously accepted launch. -/
structure Queue where
  base : DWord
  cfg : DWord
  tail : Word
  head : Word
  stop : Bool
  err : Byte
  since : Nat
  cur : Option QRec
  last : Option Nat
deriving DecidableEq, Repr

/-- A queue at reset: WEIGHT 1, LOG2N 1 (16 Table 16.1). -/
def Queue.reset : Queue :=
  { base := 0, cfg := 0x1000002, tail := 0, head := 0, stop := false, err := 0, since := 0, cur := none, last := none }

/-- A retained launch (16 R309): its record, the teams placed and completed, the kill counts, whether a team was lost, and whether
DONE's page has been requested. -/
structure Launch where
  id : Nat
  queue : Nat
  level : Nat
  asid : Nat
  words : List DWord
  placed : Nat
  complete : Nat
  kills : Sparse Nat
  lost : Bool
  asked : Bool
deriving DecidableEq, Repr

/-- A task record with the launch it belongs to (16 R314). -/
structure Task where
  launch : Nat
  words : List DWord
deriving DecidableEq, Repr

/-- A gather of lane tasks, open or closed (16 R316), or a group task (one record). -/
structure Gather where
  id : Nat
  level : Nat
  start : DWord
  isOpen : Bool
  tasks : List Task
  kills : Nat
deriving DecidableEq, Repr

/-- A saved group (18 R348): the group as it left, its team's tile and level, whether it was saved with release, and, where its
cluster was being drained, when that drain began (21 R389). `away` names its team once that has been released. -/
structure Saved where
  tile : Nat
  away : Option Nat
  drained : Option DWord
  rls : Bool
  level : Nat
  grp : Group
deriving DecidableEq, Repr

/-- A team released from its tile: its barrier and handle records (18 R348). -/
structure Away where
  id : Nat
  tm : Team
  handles : Sparse Handle
deriving DecidableEq, Repr

/-- Resumed work (16 R310). -/
inductive Resume where
  | team (launch t : Nat)
  | task (g : Gather)
  | group (g : Saved)
deriving DecidableEq, Repr

/-- A record that retires: its launch, its task group and its words, the dependent record that waits for room, and whether the page of its counter has
been requested (16 R317). -/
structure Retire where
  launch : Nat
  grp : Nat
  words : List DWord
  dep : Option (List DWord)
  asked : Bool
deriving DecidableEq, Repr

/-- A loaded code object's code section in an ASID (18 R352, R353). -/
structure CodeObj where
  handle : Word
  asid : Nat
  base : Nat
  size : Nat
deriving DecidableEq, Repr

/-- A sluice (19 Table 19.4). -/
structure Sluice where
  base : DWord
  cfg : DWord
  put : DWord
  rel : DWord
  host : DWord
  vlost : Bool
deriving DecidableEq, Repr

/-- A sluice at reset: LOG2N 1 (19 Table 19.4). -/
def Sluice.reset : Sluice := { base := 0, cfg := 2, put := 0, rel := 0, host := 0, vlost := false }

/-- A leave on its way to a barrier: the barrier's tile (die- and cluster-scope barriers by number alone), the group, what it had done,
and its arrivals there that are still on their way (10 R193, R198). -/
structure Leave where
  tile : Nat
  team : Nat
  gid : Nat
  k : Nat
  bits : BitVec 4
  arrs : Nat
deriving DecidableEq, Repr

/-- A digest of the measurement log (22 R401). -/
inductive Digest where
  | rom
  | firmware
  | config
  | given (d : BitVec 512)
deriving DecidableEq, Repr

/-- The answer to a quote request (22 R401): nonce, SERIAL, ALMCAUSE, the log's entries, and the signature. -/
structure Quote where
  nonce : BitVec 512
  serial : DWord
  almCause : BitVec 16
  entries : List (Nat × Digest)
  sig : List Byte
deriving DecidableEq, Repr

/-- An answer to the host or to a peer package: bytes, the tag of the first sector, whether it is poisoned (19 R360, R364), and whether
an LDF has been refused (11 R223). -/
structure Answer where
  data : List Byte
  tag : Eb16
  poisoned : Bool
  refused : Bool
deriving DecidableEq, Repr

/-- The reed ring of a die (09 R184): one past the microsecond of the last grant, the share per tile, what full tiles have passed on,
and the tiles still to be visited. -/
structure Ring where
  us : Nat
  share : Nat
  carry : Nat
  todo : List Nat
deriving DecidableEq, Repr

/-- A ring before its first grant. -/
def Ring.reset : Ring := { us := 0, share := 0, carry := 0, todo := [] }

/-- Where a bit error strikes (21 R377): a part of a V register (0 the low half, 1 the high half, 2 the shadow), an 8-byte unit or a
row bound of an accumulator memory, a unit or a tag of a scratchpad, an L1, an L2 slice or HBM, a unit of a line of an instruction cache, an entry of an
L1 TLB or of the shared L2 TLB. -/
inductive ErrorSite where
  | reg (tile slot slice r lane part : Nat)
  | acc (tile unit : Nat)
  | row (tile row : Nat)
  | pad (tile a : Nat) (tag : Bool)
  | l1 (tile pa : Nat) (tag : Bool)
  | l2 (slice pa : Nat) (tag : Bool)
  | hbm (pa : Nat) (tag : Bool)
  | icache (tile i unit : Nat)
  | tlb (tile i : Nat)
  | l2tlb (i : Nat)
deriving DecidableEq, Repr

/-- What a particle or a failing cell does to the machine (21 R377, R385): a single-bit error that is found, an error that the code
cannot correct, or a difference between the copies of a slice's next dual-issued instruction, once or again. -/
inductive Upset where
  | single (c : ErrorSite)
  | double (c : ErrorSite)
  | differ (tile slot slice : Nat) (again : Bool)
deriving DecidableEq, Repr

/-- What happens next, where the spec leaves the moment open (log 3): an event of the part, the arrival of an error record at the hub, a beat of a tile's issue, the passing of
nanoseconds, or an error in the hardware. -/
inductive Act where
  | event (i : Instr)
  | arrive (i : Nat)
  | issue (tile : Nat)
  | tick (ns : Nat)
  | upset (u : Upset)
deriving DecidableEq, Repr

/-- How TIME stands to the domain's time source: kept to it, cut off from it, or converging to it after a rejoin (19 R367). -/
inductive TimeSync where
  | synced | cut | converging
deriving DecidableEq, Repr

/-- The last detection of alarm causes and the last write that cleared some, each with its TIME (22 R394). -/
structure AlmTie where
  seenAt : DWord
  seen : BitVec 16
  clearedAt : DWord
  cleared : BitVec 16
deriving DecidableEq, Repr

/-- Neither has happened. -/
def AlmTie.none : AlmTie := { seenAt := 0, seen := 0, clearedAt := 0, cleared := 0 }

/-- A source's last CORRECTED record: when it was written, and how many have been suppressed since (21 R390). -/
structure Corr where
  at_ : DWord
  cnt : Nat
deriving DecidableEq, Repr

/-- The gang whose beat is being executed (log 3). -/
structure Focus where
  tile : Nat
  slot : Nat
  slices : List Nat
deriving DecidableEq, Repr

/-- The whole machine. Memory is keyed by physical key: a data address or peat-window address of this package as it is, a
host address plus 2^66, an address of the G-FAM device d plus 2^66 + 2^52 × (d + 1), an address of package h plus 2^53 × (h + 1), byte a of
tile t's scratchpad 2^70 + 2^19 × t + a (log 14). `emptyGran` lists the EMPTY granules, by key divided by 8, with the L2 slice that serves each; `poison` lists the poisoned units, by key divided by 8, and
`badTags` the sectors whose tag is poisoned, by key divided by 64 (21 R378). `taskQ` holds the group tasks
and the closed gathers that wait for placement, `gathers` the open gathers, `running` those whose group runs. `rr` holds for each
level the participant whose turn it is in the round and the placements it has had (16 R310); `waitSince` since when a placement of a level
has waited. `errSent` are the error records on their way to the hub, `errBuf` those it holds (21 R390); `fenOut` what has been answered to
peers; `forcedAt` are the alarms of the last 150 ns that forced the tiles to NT, each with whether no tile could issue when it came (22
R395). -/
structure State where
  time : DWord
  mem : List Host.Cell
  tags : Sparse Eb16
  poison : List Nat
  badTags : List Nat
  emptyGran : List (Nat × Nat)
  behind : List Behind
  invMarks : List InvMark
  past : List Past
  deferral : List Held
  tents : List TEnt
  l2 : List Line
  counters : Sparse DWord
  csr : Csr
  almQuiet : DWord
  almTie : AlmTie
  forcedAt : List (DWord × Bool)
  tiles : Sparse Tile
  rings : Sparse Ring
  queues : Sparse Queue
  launches : List Launch
  taskQ : List Gather
  gathers : List Gather
  running : List Gather
  retiring : List Retire
  resumed : List Resume
  away : List Away
  rr : Sparse Nat
  waitSince : Sparse DWord
  objects : List CodeObj
  sharedBars : Sparse Bar
  leaves : List Leave
  sending : List SentRec
  mergeBuf : List SentRec
  errSent : List SentRec
  errBuf : List SentRec
  corr : Sparse Corr
  sluices : Sparse Sluice
  msixTable : Sparse DWord
  msixPend : BitVec 64
  msixLast : Sparse DWord
  msixSent : List Nat
  hdm : BitVec 2
  ports : Sparse Nat
  noRoute : List Nat
  downAt : DWord
  fenOut : List (Nat × Answer)
  timeSync : TimeSync
  measLog : List (Nat × Digest)
  powered : Bool
  booted : Bool
  testStart : DWord
  hostOut : Option Answer
  quoteOut : Option Quote
  agenda : List Act
  focus : Focus
  nextTile : Nat
  free : Nat
  nextId : Nat
deriving DecidableEq, Repr

/-- No gang selected. -/
def Focus.empty : Focus := { tile := 0, slot := 0, slices := [] }

/-- The machine right after reset, its boot having passed (log 2): every register at the value the spec states, or at the
value the assumption log names. -/
def State.reset : State :=
  { time := 0, mem := [], tags := [], poison := [], badTags := [], emptyGran := [], behind := [], invMarks := [], past := [], deferral := [], tents := [], l2 := [], counters := [],
    csr := Csr.reset, almQuiet := 0, almTie := AlmTie.none, forcedAt := [], tiles := [], rings := [], queues := [], launches := [], taskQ := [], gathers := [], running := [],
    retiring := [], resumed := [], away := [], rr := [], waitSince := [], objects := [], sharedBars := [], leaves := [], sending := [], mergeBuf := [],
    errSent := [], errBuf := [], corr := [], sluices := [], msixTable := [], msixPend := 0, msixLast := [], msixSent := [], hdm := 0, ports := [],
    noRoute := [], downAt := 0, fenOut := [], timeSync := .synced, measLog := [(1, .rom), (2, .firmware), (3, .config)],
    powered := true, booted := true, testStart := 0, hostOut := none, quoteOut := none, agenda := [],
    focus := Focus.empty, nextTile := 0, free := 0, nextId := 1 }

end Sys2Proof.Machine
end

