-- ==== Sys2Proof/WellFormed.lean ====
section
/-! DEFINITION. The field rules of 05 R84-R93 that an instruction must meet to pass decode, apart from those that depend
on the state of the slice (the register allotment, and FMT.TY under TY = 0xF), which `Sys2Proof.Machine` checks at issue
with the same `accepts`. -/

namespace Sys2Proof

namespace Ty

/-- Width in bits of the operation of a type: 64 for f64, i64 and n64, else 32 (02 R23). -/
def is64 : Ty → Bool
  | .f64 | .i64 | .n64 => true
  | _ => false

/-- The number of V registers that one operand of the type takes (02 R23). -/
def regs (t : Ty) : Nat := if t.is64 then 2 else 1

/-- The signed and natural integer types of set I, 07 R130. -/
def setI : Ty → Bool
  | .i32 | .n32 | .i64 | .n64 => true
  | _ => false

/-- Set P, 07 R130. -/
def setP : Ty → Bool
  | .i32 | .i64 => true
  | _ => false

/-- Set W, 07 R130. -/
def setW : Ty → Bool
  | .b32 | .i32 | .n32 | .i64 | .n64 => true
  | _ => false

/-- Set N, 07 R130. -/
def setN : Ty → Bool
  | .b32 | .i32 | .n32 => true
  | _ => false

/-- The types of VSEL, VMOV, VLID and VTOS, 07 R134, R136. -/
def setSel : Ty → Bool
  | .b32 | .i32 | .n32 | .f32 | .i64 | .n64 | .f64 => true
  | _ => false

/-- The types of CHKB and BTEST, 08 R154. -/
def setChk : Ty → Bool
  | .f16 | .bf16 => true
  | t => t.setSel

/-- The types RED and SCAN add and compare, 08 Table 8.4. -/
def setRed : RedOp → Ty → Bool
  | .add, t | .min, t | .max, t => t.setI || t = .f32 || t = .f64
  | .and, t | .or, t | .xor, t => t.setW

/-- The types CVT converts, 07 R143. -/
def setCvt : Ty → Bool
  | .f64 | .f32 | .f16 | .bf16 | .e4m3 | .e5m2 | .i32 | .n32 | .i64 | .n64 | .i8 | .n8 => true
  | _ => false

/-- The integer types. -/
def isInt : Ty → Bool
  | .i32 | .n32 | .i64 | .n64 | .i8 | .n8 => true
  | _ => false

/-- The 4-bit block formats (03 R47, R48). -/
def isBlk : Ty → Bool
  | .e2m1 | .i4x => true
  | _ => false

/-- The 8-bit floating-point types. -/
def isF8 : Ty → Bool
  | .e4m3 | .e5m2 => true
  | _ => false

/-- The 16-bit floating-point types. -/
def isF16 : Ty → Bool
  | .f16 | .bf16 => true
  | _ => false

/-- The narrow types of PACK and UNPK with their element count, 07 R145. -/
def packN : Ty → Nat
  | .f16 | .bf16 => 2
  | .e4m3 | .e5m2 | .i8 | .n8 => 4
  | _ => 0

/-- The wide types PACK takes and UNPK gives for a narrow type, 07 R145. -/
def packWide : Ty → Ty → Bool
  | .f16, t | .bf16, t | .e4m3, t | .e5m2, t => t = .f32
  | .i8, t | .n8, t => t = .i32 || t = .n32
  | _, _ => false

end Ty

/-- An even register (02 R23). -/
def VReg.even (v : VReg) : Bool := v.toNat % 2 = 0

/-- A register at a multiple of n. -/
def VReg.alignedTo (n : Nat) (v : VReg) : Bool := v.toNat % n = 0

/-- A V operand of a type: even for a 64-bit type. -/
def VReg.okTy (t : Ty) (v : VReg) : Bool := !t.is64 || v.even

/-- A source that may be an S register. -/
def VOpnd.okTy (t : Ty) : VOpnd → Bool
  | .v b => b.okTy t
  | .s _ => true

/-- K of an operand pair of MMA, 14 Table 14.1; 0 for a pair not listed. -/
def mmaK (ta tb : Ty) : Nat :=
  if ta.isF16 && tb.isF16 then 32
  else if ta = .i8 && tb = .i8 then 64
  else if ta.isBlk && tb.isBlk then 128
  else if (ta.isF8 || ta.isBlk) && (tb.isF8 || tb.isBlk) then 64
  else 0

/-- The number of registers that hold a row of A, 14 Table 14.1. -/
def mmaRegs (ta tb : Ty) : Nat := if ta.isBlk && tb.isF8 then 8 else 16

/-- The conversions of MST, destination first, 14 R293. -/
def mstPair (td ts : Ty) : Bool :=
  match ts with
  | .f32 => td = .f32 || td.isF16 || td.isF8 || td.isBlk
  | .i32 => td = .i32 || td = .i8
  | _ => false

/-- Bytes of an access, 05 R97. -/
def MSize.bytes : MSize → Nat
  | .b => 1 | .h => 2 | .w => 4 | .d => 8 | .q => 16

/-- V registers of an access's data (05 R89). -/
def MSize.regs : MSize → Nat
  | .d => 2 | .q => 4 | _ => 1

/-- The data register of an access, 05 R89. -/
def MSize.okReg (sz : MSize) (v : VReg) : Bool := v.alignedTo sz.regs

/-- The address base of a global access: a V base names an even pair, 05 R89. -/
def Base.okGlobal : Base → Bool
  | .s _ => true
  | .v a => a.even

/-- The data register of ATOM, ATOMS, CAS and CASS: a V register with a V base, an S register with an S base, whose
number lies below 32 (05 R86, R97). -/
def Base.okData (sz : MSize) (v : VReg) : Base → Bool
  | .s _ => v.toNat < 32
  | .v _ => sz.okReg v

/-- Size w or d. -/
def MSize.isWD : MSize → Bool
  | .w | .d => true
  | _ => false

/-- Orders of a load, 05 Table 5.9. -/
def Order.isLoad : Order → Bool
  | .rlx | .acq => true
  | _ => false

/-- Orders of a store, 05 Table 5.9. -/
def Order.isStore : Order → Bool
  | .rlx | .rel => true
  | _ => false

/-- With OD = rlx, SC is 0 on loads and stores (05 R89). -/
def rlxScope (sc : Scope) (od : Order) : Bool := od ≠ .rlx || sc = .grp

/-- Types of an ATOM operation, 11 Table 11.3. -/
def AtomOp.okTy : AtomOp → AtomTy → Bool
  | .add, _ | .min, _ | .max, _ => true
  | _, t => t = .nat

/-- Rounding codes 000 to 100 of the modifier byte (05 Table 5.3). -/
def Rnd.okMod : Rnd → Bool
  | .sr => false
  | _ => true

/-- Unit class of an f64 operation: automatic or F (04 R68). -/
def UC.okTy (t : Ty) : UC → Bool
  | .auto | .f => true
  | _ => t ≠ .f64

/-- Selectors of the special registers, 02 Table 2.2. -/
def srListed (sel : BitVec 8) : Bool := sel.toNat ≤ 0x11

/-- Selectors that MOVRS may write, 02 Table 2.2. -/
def srWritable (sel : BitVec 8) : Bool :=
  sel.toNat = 0x01 || sel.toNat = 0x0A || sel.toNat = 0x0B || sel.toNat = 0x0C

/-- Numbers of the system registers, 18 Table 18.3. -/
def csrListed (num : BitVec 12) : Bool :=
  let n := num.toNat
  n ≤ 0x004 || (0x010 ≤ n && n ≤ 0x013) || (0x020 ≤ n && n ≤ 0x02F) || (0x040 ≤ n && n ≤ 0x049) || n = 0x050 ||
    (0x058 ≤ n && n ≤ 0x05B) || (0x060 ≤ n && n ≤ 0x07F) || (0x400 ≤ n && n ≤ 0xBFF)

/-- Context items of STCTX, 18 Table 18.4. -/
def ctxListed (item : BitVec 8) : Bool := item.toNat ≤ 5 || (0x10 ≤ item.toNat && item.toNat ≤ 0x2F)

/-- Fields of a copy's second word, 13 Tables 13.3 and 13.4: strides and shape of dimensions the copy lacks are 0, and
so is the continuation without `.yield`; CPYG takes no handle. -/
def CpyArgs.ok (c : CpyArgs) : Bool :=
  c.nd ≠ 3#2 && (c.nd ≠ 0#2 || (c.x1 = 0#12 && c.b = 0#5)) && (c.nd = 2#2 || (c.x2 = 0#12 && c.c = 0#5)) &&
    (c.yl || c.cont = 0#20)

/-- Limits of SETW's grant range, 06 R122. -/
def setwOk (lo hi : BitVec 8) : Bool :=
  lo.toNat % 4 = 0 && hi.toNat % 4 = 0 && 4 ≤ lo.toNat && lo.toNat ≤ hi.toNat && hi.toNat ≤ 96

namespace Instr

/-- Guard kinds of 05 R84; `event` for a row that no program encodes. -/
inductive Kind where
  | lane | slice | none | event
deriving DecidableEq, Repr

/-- The leading fields of an instruction, absent on an event. -/
def hdr? : Instr → Option Hdr
  | sadd h .. | ssub h .. | saddi h .. | smul h .. | smulh h .. | smulhn h .. | sdiv h .. | sdivn h .. | srem h ..
  | sremn h .. | sand h .. | sandn h .. | sor h .. | sxor h .. | sshl h .. | sshr h .. | ssra h .. | srot h ..
  | smin h .. | smax h .. | sminn h .. | smaxn h .. | sclz h .. | sctz h .. | spop h .. | sbfe h .. | sbfi h ..
  | ssetc h .. | ssel h .. | smov h .. | sli h .. | sliw h .. | movsr h .. | movrs h .. | bra h .. | brs h ..
  | brv h .. | join h | call h .. | calli h .. | ret h | regang h | setw h .. | exit h | yield h | waitt h ..
  | nop h | trap h .. | vadd h .. | vsub h .. | vmul h .. | vmulh h .. | vmulhn h .. | vmad h .. | vdiv h ..
  | vdivn h .. | vand h .. | vor h .. | vxor h .. | vnot h .. | vshl h .. | vshr h .. | vsra h .. | vrot h ..
  | vmin h .. | vmax h .. | vminn h .. | vmaxn h .. | vabs h .. | vneg h .. | vclz h .. | vpop h .. | vbfe h ..
  | vbfi h .. | vbrev h .. | vprmb h .. | vsetp h .. | vsel h .. | vmov h .. | vli h .. | vlid h .. | plop h ..
  | vtos h .. | fadd h .. | fsub h .. | fmul h .. | ffma h .. | fmin h .. | fmax h .. | fsetp h .. | frcp h ..
  | frsq h .. | fsqrt h .. | fdiv h .. | fexp2 h .. | flog2 h .. | fsin h .. | fcos h .. | ftanh h .. | ffrc h ..
  | frnd h .. | hadd2 h .. | hmul2 h .. | hfma2 h .. | dadd h .. | dmul h .. | dfma h .. | ddiv h .. | cvt h ..
  | cvti h .. | pack h .. | unpk h .. | qnt h .. | dqnt h .. | srseed h .. | setfmt h .. | bget h .. | bset h ..
  | bzero h .. | bmax h .. | chkb h .. | btest h .. | setbud h .. | shfl h .. | shflu h .. | shfld h .. | shflx h ..
  | bcast h .. | red h .. | scan h .. | vote h .. | matchv h .. | first h .. | ld h .. | st h .. | lds h .. | sts h ..
  | sld h .. | sst h .. | atom h .. | atoms h .. | cas h .. | cass h .. | ldf h .. | stf h .. | clrf h .. | fence h ..
  | pref h .. | pgreq h .. | cctlCln1 h .. | cctlInv1 h .. | cctlClnm h .. | cctlFlsm h .. | cctlInvi h .. | bufdef h ..
  | cpyin h .. | cpyout h .. | cpynb h .. | cpyg h .. | waitb h .. | acqb h .. | relb h .. | mma h .. | mzero h ..
  | mld h .. | mst h .. | mscl h .. | attach h .. | detach h .. | bara h .. | barw h .. | bars h .. | barq h ..
  | gear h .. | gearw h .. | nopre h | pre h | spawn h .. | slput h .. | slrel h .. | slveto h .. | sysc h .. | rft h
  | stctx h .. | ldctx h .. | csrr h .. | csrw h .. | tlbinvAll h | tlbinvAsid h .. | tlbinvPg h .. | haltKill h
  | haltSave h .. | haltSaveRls h .. | emret h | emretDcl h => some h
  | _ => Option.none

/-- Guard kind of each opcode, 05 R96. UNDEFINED_OPCODE has no guard: it is taken before any is looked at (05 R94). -/
def kind : Instr → Kind
  | sadd .. | ssub .. | saddi .. | smul .. | smulh .. | smulhn .. | sdiv .. | sdivn .. | srem ..
  | sremn .. | sand .. | sandn .. | sor .. | sxor .. | sshl .. | sshr .. | ssra .. | srot ..
  | smin .. | smax .. | sminn .. | smaxn .. | sclz .. | sctz .. | spop .. | sbfe .. | sbfi ..
  | ssetc .. | ssel .. | smov .. | sli .. | sliw .. | movsr .. | movrs .. | bra .. | brs ..
  | call .. | ret _ | yield _ | waitt .. | nop _ | trap .. | vtos .. | srseed .. | setfmt .. | setbud ..
  | sld .. | sst .. | bufdef .. | cpyin .. | cpyout .. | cpynb .. | cpyg .. | waitb .. | acqb .. | relb ..
  | barq .. | gearw .. | slput .. | slrel .. | slveto .. | sysc .. | rft _ | stctx .. | ldctx .. | csrr .. | csrw ..
  | tlbinvAll _ | tlbinvAsid .. | tlbinvPg .. | haltKill _ | haltSave .. | haltSaveRls .. | emret _ | emretDcl _ => .slice
  | join _ | regang _ | setw .. | fence .. | mma .. | mzero .. | mld .. | mst .. | mscl .. | attach .. | detach ..
  | bara .. | barw .. | bars .. | gear .. | nopre _ | pre _ | undefinedOpcode .. => .none
  | brv .. | calli .. | exit _ | vadd .. | vsub .. | vmul .. | vmulh .. | vmulhn .. | vmad .. | vdiv ..
  | vdivn .. | vand .. | vor .. | vxor .. | vnot .. | vshl .. | vshr .. | vsra .. | vrot ..
  | vmin .. | vmax .. | vminn .. | vmaxn .. | vabs .. | vneg .. | vclz .. | vpop .. | vbfe ..
  | vbfi .. | vbrev .. | vprmb .. | vsetp .. | vsel .. | vmov .. | vli .. | vlid .. | plop ..
  | fadd .. | fsub .. | fmul .. | ffma .. | fmin .. | fmax .. | fsetp .. | frcp ..
  | frsq .. | fsqrt .. | fdiv .. | fexp2 .. | flog2 .. | fsin .. | fcos .. | ftanh .. | ffrc ..
  | frnd .. | hadd2 .. | hmul2 .. | hfma2 .. | dadd .. | dmul .. | dfma .. | ddiv .. | cvt ..
  | cvti .. | pack .. | unpk .. | qnt .. | dqnt .. | bget .. | bset .. | bzero .. | bmax .. | chkb .. | btest ..
  | shfl .. | shflu .. | shfld .. | shflx .. | bcast .. | red .. | scan .. | vote .. | matchv .. | first ..
  | ld .. | st .. | lds .. | sts .. | atom .. | atoms .. | cas .. | cass .. | ldf .. | stf .. | clrf ..
  | pref .. | pgreq .. | cctlCln1 .. | cctlInv1 .. | cctlClnm .. | cctlFlsm .. | cctlInvi .. | spawn .. => .lane
  | _ => .event

/-- The TY field of an opcode that takes a type. -/
def tyf? : Instr → Option TyF
  | vadd _ t .. | vsub _ t .. | vmul _ t .. | vmulh _ t .. | vmulhn _ t .. | vmad _ t .. | vdiv _ t .. | vdivn _ t ..
  | vand _ t .. | vor _ t .. | vxor _ t .. | vnot _ t .. | vshl _ t .. | vshr _ t .. | vsra _ t .. | vrot _ t ..
  | vmin _ t .. | vmax _ t .. | vminn _ t .. | vmaxn _ t .. | vabs _ t .. | vneg _ t .. | vclz _ t .. | vpop _ t ..
  | vbfe _ t .. | vbfi _ t .. | vbrev _ t .. | vprmb _ t .. | vsetp _ t .. | vsel _ t .. | vmov _ t .. | vlid _ t ..
  | vtos _ t .. | fadd _ t .. | fsub _ t .. | fmul _ t .. | ffma _ t .. | fmin _ t .. | fmax _ t .. | fsetp _ t ..
  | frcp _ t .. | frsq _ t .. | fsqrt _ t .. | fdiv _ t .. | fexp2 _ t .. | flog2 _ t .. | fsin _ t .. | fcos _ t ..
  | ftanh _ t .. | ffrc _ t .. | frnd _ t .. | hadd2 _ t .. | hmul2 _ t .. | hfma2 _ t .. | dadd _ t .. | dmul _ t ..
  | dfma _ t .. | ddiv _ t .. | cvt _ t .. | cvti _ t .. | pack _ t .. | unpk _ t .. | qnt _ t .. | dqnt _ t ..
  | bget _ t .. | bset _ t .. | bzero _ t .. | bmax _ t .. | chkb _ t .. | btest _ t .. | shfl _ t .. | shflu _ t ..
  | shfld _ t .. | shflx _ t .. | bcast _ t .. | red _ t .. | scan _ t .. | matchv _ t .. | mma _ t .. | mld _ t ..
  | mst _ t .. | mscl _ t .. => some t
  | _ => Option.none

/-- The opcode, with this instruction's operands, accepts type t: the type sets of 07, 08 and 14, and the register
alignment that a 64-bit or packed type asks (05 R86, 02 R23). True of an opcode without a type. VPRMB is taken to accept b32 alone, where 07
R133 and Table 7.1 differ (log 109). -/
def accepts (i : Instr) (t : Ty) : Bool :=
  match i with
  | vadd _ _ d a b | vsub _ _ d a b | vmul _ _ d a b => t.setI && d.okTy t && a.okTy t && b.okTy t
  | vmulh _ _ d a b | vmulhn _ _ d a b | vmin _ _ d a b | vmax _ _ d a b | vminn _ _ d a b | vmaxn _ _ d a b =>
    t.setP && d.okTy t && a.okTy t && b.okTy t
  | vmad _ _ d a b c => t.setI && d.okTy t && a.okTy t && b.okTy t && c.okTy t
  | vdiv _ _ d a b | vdivn _ _ d a b =>
    t.setP && a.okTy t && b.okTy t && (!t.is64 || d.alignedTo 4)
  | vand _ _ d a b | vor _ _ d a b | vxor _ _ d a b => t.setW && d.okTy t && a.okTy t && b.okTy t
  | vnot _ _ d a => t.setW && d.okTy t && a.okTy t
  | vshl _ _ d a y | vshr _ _ d a y | vsra _ _ d a y | vrot _ _ d a y =>
    t.setW && d.okTy t && a.okTy t &&
      (match y with
       | .v b => b.okTy t
       | .s _ => true
       | .imm c => c.toNat < (if t.is64 then 64 else 32))
  | vabs _ _ d a | vneg _ _ d a => t.setP && d.okTy t && a.okTy t
  | vclz .. | vpop .. | vbfe .. | vbfi .. | vbrev .. => t.setN
  | vprmb .. | bzero .. | bmax .. => t = .b32
  | vsetp _ _ _ a b _ => t.setI && a.okTy t && b.okTy t
  | vsel _ _ d a b _ => t.setSel && d.okTy t && a.okTy t && b.okTy t
  | vmov _ _ d b => t.setSel && d.okTy t && b.okTy t
  | vlid _ _ d imm => t.setSel && d.okTy t && (t.is64 || imm.toNat < 2 ^ 32)
  | vtos _ _ _ a _ => t.setSel && a.okTy t
  | fadd .. | fsub .. | fmul .. | ffma .. | fmin .. | fmax .. | fsetp .. | frcp .. | frsq .. | fsqrt .. | fdiv ..
  | fexp2 .. | flog2 .. | fsin .. | fcos .. | ftanh .. | ffrc .. | frnd .. => t = .f32
  | hadd2 .. | hmul2 .. | hfma2 .. => t.isF16
  | dadd _ _ uc _ d a b | dmul _ _ uc _ d a b | ddiv _ _ uc _ d a b =>
    t = .f64 && uc.okTy t && d.even && a.even && b.okTy t
  | dfma _ _ uc d a b c => t = .f64 && uc.okTy t && d.even && a.even && b.okTy t && c.okTy t
  | cvt _ _ src _ d a b =>
    if src.isBlk then t = .f32 || t.isF16
    else t.setCvt && src.setCvt && t ≠ src && d.okTy t && a.okTy src && b = .v 0
  | cvti _ _ src _ d a _ =>
    ((t.isInt && (src = .f64 || src = .f32 || src.isF16)) || (src.isInt && (t = .f64 || t = .f32 || t.isF16))) &&
      d.okTy t && a.okTy src
  | pack _ _ src _ _ a => t.packWide src && a.alignedTo t.packN
  | unpk _ _ src d _ => src.packWide t && d.alignedTo src.packN
  | qnt _ _ src _ d a vs =>
    t.isBlk && (src = .f32 || src.isF16) && d.alignedTo 4 && a.alignedTo 4 &&
      (vs.toNat < d.toNat || d.toNat + 4 ≤ vs.toNat)
  | dqnt _ _ src _ d a vs =>
    (t = .f32 || t.isF16) && src.isBlk && d.alignedTo 4 && a.alignedTo 4 &&
      (vs.toNat < d.toNat || d.toNat + (if t = .f32 then 32 else 16) ≤ vs.toNat)
  | bget .. | bset .. => t = .b32 || t = .f32
  | chkb _ _ a _ => t.setChk && a.okTy t
  | btest _ _ _ a _ => t.setChk && a.okTy t
  | shfl _ _ d a .. | shflu _ _ d a .. | shfld _ _ d a .. | shflx _ _ d a .. | bcast _ _ d a .. => d.okTy t && a.okTy t
  | red _ _ uc op d a _ _ | scan _ _ uc op _ d a _ _ =>
    Ty.setRed op t && d.okTy t && a.okTy t && (uc = .auto || ((t = .f32 || t = .f64) && uc.okTy t))
  | matchv _ _ _ a _ _ => a.okTy t
  | mma _ _ tb uc _ _ _ vs _ _ _ =>
    mmaK t tb ≠ 0 && (t ≠ .i8 || uc = .auto) && (t.isBlk || vs = 0#8)
  | mld .. => t = .f32 || t = .i32
  | mst _ _ ts _ _ _ _ scr _ _ => mstPair t ts && (t.isBlk || scr = 0#5)
  | mscl .. => t = .f32
  | _ => true

/-- The rules on the other fields: those of 05 R86-R89 and of each opcode's description. -/
def fieldsOk : Instr → Bool
  | sshl _ _ _ y | sshr _ _ _ y | ssra _ _ _ y | srot _ _ _ y =>
    match y with
    | .imm c => c.toNat < 64
    | .s _ => true
  | sbfe _ _ _ pos len | sbfi _ _ _ pos len => 1 ≤ len.toNat && pos.toNat + len.toNat ≤ 64
  | movsr _ _ sel => srListed sel
  | movrs _ sel _ => srWritable sel
  | setw _ lo hi _ => setwOk lo hi
  | calli _ a => a.even
  | vbfe _ _ _ _ pos len | vbfi _ _ _ _ pos len => 1 ≤ len.toNat && pos.toNat + len.toNat ≤ 32
  | vsetp _ _ _ _ _ cc => cc ≠ .ltn && cc ≠ .gen
  | fadd _ _ _ r .. | fsub _ _ _ r .. | fmul _ _ _ r .. | fsqrt _ _ _ r .. | fdiv _ _ _ r .. | frnd _ _ r ..
  | hadd2 _ _ _ r .. | hmul2 _ _ _ r .. | dadd _ _ _ r .. | dmul _ _ _ r .. | ddiv _ _ _ r .. | dqnt _ _ _ r .. => r.okMod
  | chkb _ _ _ n =>
    match n with
    | some n => 1 ≤ n.toNat && n.toNat ≤ 32
    | Option.none => true
  | bcast _ _ _ _ k _ =>
    match k with
    | .v _ => false
    | _ => true
  | vote _ m d .. => m = .ballot || d.toNat < 8
  | ld _ sz base d _ sc od _ _ => base.okGlobal && sz.okReg d && od.isLoad && rlxScope sc od
  | st _ sz base b _ sc od _ => base.okGlobal && sz.okReg b && od.isStore && rlxScope sc od
  | lds _ sz _ d _ sc od => sz.okReg d && od.isLoad && rlxScope sc od
  | sts _ sz _ b _ sc od _ => sz.okReg b && od.isStore && rlxScope sc od
  | sld _ sz _ _ _ sc od => sz ≠ .q && od.isLoad && rlxScope sc od
  | sst _ sz _ _ _ sc od => sz ≠ .q && od.isStore && rlxScope sc od
  | atom _ sz base d b op ty _ _ _ =>
    sz.isWD && base.okGlobal && base.okData sz d && base.okData sz b && op.okTy ty
  | atoms _ sz base d b op ty _ _ _ =>
    sz.isWD && base.okData sz d && base.okData sz b && op.okTy ty
  | cas _ sz base d b _ _ _ _ => sz.isWD && base.okGlobal && base.okData sz d && base.okData sz b
  | cass _ sz base d b _ _ _ _ => sz.isWD && base.okData sz d && base.okData sz b
  | ldf _ sz base d _ sc od _ => sz.isWD && base.okGlobal && sz.okReg d && od.isLoad && rlxScope sc od
  | stf _ sz base b _ sc od => sz.isWD && base.okGlobal && sz.okReg b && od.isStore && rlxScope sc od
  | clrf _ base _ sc od => base.okGlobal && od.isStore && rlxScope sc od
  | fence _ kinds _ od => kinds ≠ 0#4 && od ≠ .rlx
  | pref _ base .. | pgreq _ base .. | cctlCln1 _ base .. | cctlInv1 _ base .. | cctlClnm _ base .. | cctlFlsm _ base ..
  | cctlInvi _ base .. => base.okGlobal
  | bufdef _ _ base sz _ => base.toNat % 64 = 0 && sz.toNat % 64 = 0 && sz ≠ 0#19
  | cpyin _ c | cpyout _ c | cpynb _ c => c.ok
  | cpyg _ c => c.ok && !c.hd
  | mma _ _ _ _ _ a src _ _ _ rl =>
    a.alignedTo 8 &&
      (match src with
       | .h _ => true
       | .s _ => !rl)
  | mld _ _ _ _ c0 nm1 => c0.toNat + nm1.toNat + 1 ≤ 32
  | mscl _ _ _ _ cm => cm ≠ 0#32
  | spawn _ _ a => a.alignedTo 16
  | slput _ _ _ b => 1 ≤ b.toNat && b.toNat ≤ 26
  | stctx _ item .. => ctxListed item
  | ldctx _ item .. => ctxListed item && item ≠ 4#8
  | csrr _ _ num => csrListed num
  | csrw _ num _ => csrListed num
  | _ => true

/-- The guard of a guard-kind N opcode is the unguarded encoding (05 R84). -/
def guardOk (i : Instr) : Bool :=
  match i.kind, i.hdr? with
  | .none, some h => !h.pn && h.ps = 7#3
  | _, _ => true

/-- The rules of decode that the instruction's own words decide (05 R94 step 2). SC of PREF, PGREQ and CCTL may be any scope and has no
effect (log 94). -/
def wellFormed (i : Instr) : Bool :=
  i.guardOk && i.fieldsOk &&
    (match i.tyf? with
     | some (.ty t) => i.accepts t
     | _ => true)

end Instr

end Sys2Proof
end

