-- ==== Sys2Proof/Machine/Access.lean ====
section
/-! DEFINITION. Reading and writing the parts of the state: tiles, groups and slices; free choices; registers as an
instruction reads them (02 R22-R31, 09 R175); and guards (05 R84). -/

namespace Sys2Proof.Machine

/-! ## Tiles, groups, slices -/

def State.tile (s : State) (t : Nat) : Tile := Sparse.get Tile.reset s.tiles t

def State.setTile (s : State) (t : Nat) (x : Tile) : State := { s with tiles := Sparse.set Tile.reset s.tiles t x }

def State.updTile (s : State) (t : Nat) (f : Tile → Tile) : State := s.setTile t (f (s.tile t))

def Tile.group? (x : Tile) (slot : Nat) : Option Group := Sparse.find? x.groups slot

def Tile.setGroup (x : Tile) (slot : Nat) (g : Group) : Tile := { x with groups := Sparse.insert x.groups slot g }

def State.group? (s : State) (t slot : Nat) : Option Group := (s.tile t).group? slot

def State.setGroup (s : State) (t slot : Nat) (g : Group) : State := s.updTile t (·.setGroup slot g)

/-- Changes a resident group; a group that is not there stays absent. -/
def State.updGroup (s : State) (t slot : Nat) (f : Group → Group) : State :=
  match s.group? t slot with
  | some g => s.setGroup t slot (f g)
  | none => s

def Group.slice (g : Group) (i : Nat) : Slice := Sparse.get Slice.absent g.slices i

def Group.setSlice (g : Group) (i : Nat) (x : Slice) : Group := { g with slices := Sparse.insert g.slices i x }

def State.slice (s : State) (t slot i : Nat) : Slice :=
  match s.group? t slot with
  | some g => g.slice i
  | none => Slice.absent

def State.updSlice (s : State) (t slot i : Nat) (f : Slice → Slice) : State :=
  s.updGroup t slot fun g => g.setSlice i (f (g.slice i))

def State.setSlice (s : State) (t slot i : Nat) (x : Slice) : State := s.updSlice t slot i fun _ => x

/-- The indexes of a group's live slices, ascending. -/
def Group.liveIdx (g : Group) : List Nat := (g.slices.filter fun p => p.2.live).map Prod.fst

/-- The lowest-numbered live slice, whose values a collective reads (06 R121). -/
def Group.leader (g : Group) : Slice := g.slice (g.liveIdx.headD 0)

def Tile.team? (x : Tile) (k : Nat) : Option Team := Sparse.find? x.teams k

def Tile.setTeam (x : Tile) (k : Nat) (tm : Team) : Tile := { x with teams := Sparse.insert x.teams k tm }

def State.team? (s : State) (t k : Nat) : Option Team := (s.tile t).team? k

def State.updTeam (s : State) (t k : Nat) (f : Team → Team) : State :=
  match s.team? t k with
  | some tm => s.updTile t (·.setTeam k (f tm))
  | none => s

/-- The retained launch of an id. -/
def State.launch? (s : State) (id : Nat) : Option Launch := s.launches.find? fun l => l.id = id

/-- TAG of a launch record, word 12 (16 Table 16.2). -/
def State.launchTag (s : State) (id : Nat) : DWord :=
  match s.launch? id with
  | some l => l.words.getD 12 0
  | none => 0

/-- TAG of the group's launch. -/
def State.groupTag (s : State) (t : Nat) (g : Group) : DWord :=
  match s.team? t g.team with
  | some m => s.launchTag m.launch
  | none => 0

/-- The cause bits of ALMCAUSE (22 Table 22.3). -/
def almCauses (a : BitVec 16) : BitVec 16 := a &&& 0x7F

/-- The host and the hub's units act once boot has passed (22 R396). -/
def State.up (s : State) : Bool := s.powered && s.booted

/-! ## Free choices -/

/-- A free choice among n outcomes, told apart from the other choices of the step by `k` (log 11). -/
def State.choose (s : State) (k n : Nat) : Nat := if n ≤ 1 then 0 else Config.pick s.free k % n

/-- A fresh counter value for the next step's choices. -/
def State.fresh (s : State) : State := { s with free := s.free + 1 }

/-! ## Registers as read -/

/-- Where an instruction executes: the state it started from, and its tile, group and slice. -/
structure Ctx where
  st : State
  t : Nat
  slot : Nat
  i : Nat
  g : Group

/-- The context of slice k of a group. -/
def ctxOf (s : State) (t slot : Nat) (g : Group) (k : Nat) : Ctx := { st := s, t := t, slot := slot, i := k, g := g }

/-- The outstanding writes to a V register of a lane. -/
def Slice.pendV (x : Slice) (r lane : Nat) : List Reg :=
  x.out.flatMap fun p => p.writes.filterMap fun w =>
    if w.dst = .v r lane then some { val := w.val.setWidth 32, bnd := w.bnd } else none

def Slice.pendP (x : Slice) (r lane : Nat) : List Bool :=
  x.out.flatMap fun p => p.writes.filterMap fun w => if w.dst = .p r lane then some (w.val.getLsbD 0) else none

def Slice.pendS (x : Slice) (r : Nat) : List DWord :=
  x.out.flatMap fun p => p.writes.filterMap fun w => if w.dst = .s r then some w.val else none

/-- V register r of a lane as written back. -/
def Slice.vReg (x : Slice) (r lane : Nat) : Reg := Sparse.get Reg.zero x.v (4 * r + lane)

/-- S register r as written back; S0 is zero (02 R27). -/
def Slice.sReg (x : Slice) (r : Nat) : DWord := if r = 0 then 0 else Sparse.get 0 x.s r

/-- Predicate r of a lane as written back; P7 is true (02 R26). -/
def Slice.pReg (x : Slice) (r lane : Nat) : Bool := r = 7 || x.p.getLsbD (7 * lane + r)

/-- One of the old value and the outstanding new ones (02 R31, 09 R175). `site` tells the operand apart, `key` the register
and lane. -/
def Ctx.oldOrNew {α : Type} (c : Ctx) (site key : Nat) (old : α) (new : List α) : α :=
  match c.st.choose (64 * ((site * 32 + c.i) * 2048 + key) + 1) (new.length + 1) with
  | 0 => old
  | k + 1 => new.getD k old

/-- V register r of a lane, as this instruction reads it. -/
def Ctx.rdV (c : Ctx) (x : Slice) (site r lane : Nat) : Reg :=
  c.oldOrNew site (4 * r + lane) (x.vReg r lane) (x.pendV r lane)

/-- S register r, as this instruction reads it. -/
def Ctx.rdS (c : Ctx) (x : Slice) (site r : Nat) : DWord :=
  if r = 0 then 0 else c.oldOrNew site (1024 + r) (x.sReg r) (x.pendS r)

/-- Predicate r of a lane, as this instruction reads it. -/
def Ctx.rdP (c : Ctx) (x : Slice) (site r lane : Nat) : Bool :=
  if r = 7 then true else c.oldOrNew site (1056 + 4 * r + lane) (x.pReg r lane) (x.pendP r lane)

/-- The guard's truth in a lane (05 R84). -/
def Ctx.guardLane (c : Ctx) (x : Slice) (h : Hdr) (lane : Nat) : Bool := c.rdP x 15 h.ps.toNat lane != h.pn

/-- The active lanes that the guard selects. -/
def Ctx.guarded (c : Ctx) (x : Slice) (h : Hdr) : List Nat :=
  (List.range 4).filter fun l => x.lmask.getLsbD l && c.guardLane x h l

/-- A slice-guarded instruction is performed when the guard is true in an active lane (05 R84). -/
def Ctx.performs (c : Ctx) (x : Slice) (h : Hdr) : Bool := !(c.guarded x h).isEmpty

/-- The active lanes. -/
def Slice.active (x : Slice) : List Nat := (List.range 4).filter fun l => x.lmask.getLsbD l

/-! ## Results -/

/-- A register of a slice, whatever the lane. -/
def Dst.reg : Dst → Nat
  | .v r _ => r
  | .p r _ => 256 + r
  | .s r => 512 + r

/-- How many registers some writes write. -/
def regCount (ws : List RegWrite) : Nat :=
  (ws.foldl (fun (r : List Nat) w => if r.elem w.dst.reg then r else w.dst.reg :: r) []).length

/-- A result that is outstanding; one without writes is none. -/
def Slice.post (x : Slice) (ws : List RegWrite) : Slice :=
  if ws.isEmpty then x else { x with out := x.out ++ [{ writes := ws, n := regCount ws, hx := none, tok := 0 }] }

/-- A result of a floating-point instruction of automatic class, which is to set HX (04 R70). -/
def Slice.postHx (x : Slice) (ws : List RegWrite) (hx : Option (List HxItem)) : Slice :=
  if ws.isEmpty then x else { x with out := x.out ++ [{ writes := ws, n := regCount ws, hx := hx, tok := 0 }] }

/-- A bound as the hardware writes it: whatever reads as unbounded is written as 0x8000 (03 R52). -/
def ebWritten (b : Eb16) : Eb16 := if b.getLsbD 15 || (b >>> 7) &&& 0xFF = 0xFF then 0x8000 else b

def wV (r lane : Nat) (v : Word) (b : Eb16) : RegWrite := { dst := .v r lane, val := v.setWidth 64, bnd := ebWritten b }
def wP (r lane : Nat) (v : Bool) : RegWrite := { dst := .p r lane, val := if v then 1 else 0, bnd := 0 }
def wS (r : Nat) (v : DWord) : RegWrite := { dst := .s r, val := v, bnd := 0 }

/-- A pair, both halves with the pair's bound (02 R23). -/
def wV64 (r lane : Nat) (v : DWord) (b : Eb16) : List RegWrite :=
  [wV r lane (v.setWidth 32) b, wV (r + 1) lane ((v >>> 32).setWidth 32) b]

def setPbit (p : BitVec 28) (k : Nat) (v : Bool) : BitVec 28 :=
  if v then p ||| (1#28 <<< k) else p &&& ~~~(1#28 <<< k)

/-- Writes one register; writes to S0 and P7 are ignored (02 R26, R27). A V register written whole is sound again (21 R378). -/
def Slice.write (x : Slice) (w : RegWrite) : Slice :=
  match w.dst with
  | .v r lane =>
    { x with v := Sparse.set Reg.zero x.v (4 * r + lane) { val := w.val.setWidth 32, bnd := w.bnd },
             bad := Sparse.erase x.bad (4 * r + lane) }
  | .p r lane => if r = 7 then x else { x with p := setPbit x.p (7 * lane + r) (w.val.getLsbD 0) }
  | .s r => if r = 0 then x else { x with s := Sparse.set 0 x.s r w.val }

end Sys2Proof.Machine
end

