-- ==== Sys2Proof/Machine/Num.lean ====
section
/-! DEFINITION. Numbers: exact reals, the bound format eb16 (03 R52, R53), the floating-point formats (03 R45-R49), rounding
(03 R54, R55, R59, 07 R137), and the exact functions behind the special functions (04 R65, 07 R141). -/

namespace Sys2Proof.Machine

/-! ## Exact reals -/

/-- 2 to an integer power. -/
def pow2 (k : Int) : Rat := if 0 ≤ k then ((2 ^ k.toNat : Nat) : Rat) else mkRat 1 (2 ^ (-k).toNat)

/-- |x|. -/
def mag (x : Rat) : Rat := if x < 0 then -x else x

/-- floor(log2 x) of a positive x. -/
def ilog2 (x : Rat) : Int :=
  let k : Int := (Nat.log2 x.num.toNat : Int) - (Nat.log2 x.den : Int)
  if pow2 k ≤ x then k else k - 1

def ratMax (a b : Rat) : Rat := if a ≤ b then b else a
def ratMin (a b : Rat) : Rat := if a ≤ b then a else b

/-- The largest r below 2^k with r² ≤ x, found from the bit k-1 down, above a root r found so far. -/
def isqrtFrom (x : Nat) : Nat → Nat → Nat
  | 0, r => r
  | k + 1, r => isqrtFrom x k (if (r + 2 ^ k) * (r + 2 ^ k) ≤ x then r + 2 ^ k else r)

/-- floor(√x). -/
def isqrt (x : Nat) : Nat := isqrtFrom x (Nat.log2 x / 2 + 1) 0

/-! ## The bound format eb16 -/

/-- U, as the LZ9 writes it (03 R52). -/
def ebU : Eb16 := 0x8000

/-- Reads as unbounded: bit 15, or E = 255 (03 R52). -/
def ebIsU (b : Eb16) : Bool := b.getLsbD 15 || b.toNat / 128 % 256 = 255

/-- The value of a finite eb16 (03 R52). -/
def ebVal (b : Eb16) : Rat :=
  let e := b.toNat / 128 % 256
  let m := b.toNat % 128
  if e = 0 then (m : Rat) * pow2 (-133) else ((128 + m : Nat) : Rat) * pow2 ((e : Int) - 134)

/-- A bound as a real; none is U. -/
def ebReal (b : Eb16) : Option Rat := if ebIsU b then none else some (ebVal b)

/-- up(x): the smallest eb16 not below x (01 R6, 03 R53). -/
def up (x : Rat) : Eb16 :=
  if x ≤ 0 then 0
  else if x < pow2 (-126) then BitVec.ofNat 16 (x * pow2 133).ceil.toNat
  else
    let e := ilog2 x
    let n := (e + 127).toNat * 128 + ((x / pow2 (e - 7)).ceil.toNat - 128)
    if 0x7F80 ≤ n then ebU else BitVec.ofNat 16 n

/-- up of a bound that may be U. -/
def upO : Option Rat → Eb16
  | some x => up x
  | none => ebU

/-- The larger of two bounds; U dominates (03 R53). -/
def ebMax (a b : Eb16) : Eb16 :=
  if ebIsU a || ebIsU b then ebU else if a.toNat ≤ b.toNat then b else a

/-- The largest of a list of bounds, 0 for none. -/
def ebMaxL (l : List Eb16) : Eb16 := l.foldl ebMax 0

/-- The least n in [lo, hi] with p, for p that holds from some point up to hi: halving, k times. -/
def leastFrom (p : Nat → Bool) : Nat → Nat → Nat → Nat
  | 0, _, hi => hi
  | k + 1, lo, hi => let m := (lo + hi) / 2; if p m then leastFrom p k lo m else leastFrom p k (m + 1) hi

/-- The smallest eb16 whose value satisfies p, for p closed upward; U where no finite one does. -/
def upBy (p : Rat → Bool) : Eb16 :=
  if p (ebVal 0x7F7F#16) then BitVec.ofNat 16 (leastFrom (fun n => p (ebVal (BitVec.ofNat 16 n))) 15 0 0x7F7F) else ebU

/-- up(√r + d). -/
def upSqrt (r d : Rat) : Eb16 := upBy fun v => decide (d ≤ v) && decide (r ≤ (v - d) * (v - d))

/-- ex of an eb16 that is neither 0 nor U (04 R70). -/
def ebEx (b : Eb16) : Int := ilog2 (ebVal b)

/-! ## Floating-point formats -/

/-- The formats of 03 Table 3.1. -/
inductive FF where
  | f64 | f32 | f16 | bf16 | e5m2 | e4m3
deriving DecidableEq, Repr

/-- Exponent bits. -/
def FF.ew : FF → Nat
  | .f64 => 11 | .f32 => 8 | .f16 => 5 | .bf16 => 8 | .e5m2 => 5 | .e4m3 => 4

/-- Fraction bits. -/
def FF.fw : FF → Nat
  | .f64 => 52 | .f32 => 23 | .f16 => 10 | .bf16 => 7 | .e5m2 => 2 | .e4m3 => 3

def FF.bias : FF → Nat
  | .f64 => 1023 | .f32 => 127 | .f16 => 15 | .bf16 => 127 | .e5m2 => 15 | .e4m3 => 7

/-- Width in bits. -/
def FF.width (f : FF) : Nat := 1 + f.ew + f.fw

def FF.hasInf : FF → Bool
  | .e4m3 => false
  | _ => true

/-- Precision of the whole format, in bits of the significand. -/
def FF.prec (f : FF) : Nat := f.fw + 1

/-- log2 of the smallest subnormal. -/
def FF.qmin (f : FF) : Int := 1 - (f.bias : Int) - (f.fw : Int)

/-- The smallest normal value. -/
def FF.minNormal (f : FF) : Rat := pow2 (1 - (f.bias : Int))

/-- The largest value of at most p significant bits (03 Table 3.1, 07 R137). -/
def FF.maxMag (f : FF) (p : Nat) : Rat :=
  match f with
  | .e4m3 => 448
  | _ => ((2 ^ p - 1 : Nat) : Rat) * pow2 ((f.bias : Int) + 1 - (p : Int))

/-- The canonical quiet NaN (03 Table 3.1). -/
def FF.qnan : FF → Nat
  | .f64 => 0x7FF8000000000000 | .f32 => 0x7FC00000 | .f16 => 0x7E00 | .bf16 => 0x7FC0 | .e5m2 => 0x7E | .e4m3 => 0x7F

/-- The format of a floating-point type. -/
def tyFF : Ty → Option FF
  | .f64 => some .f64 | .f32 => some .f32 | .f16 => some .f16 | .bf16 => some .bf16 | .e5m2 => some .e5m2
  | .e4m3 => some .e4m3 | _ => none

/-- A value: NaN, an infinity, or a sign with an exact magnitude. -/
inductive FVal where
  | nan
  | inf (neg : Bool)
  | fin (neg : Bool) (m : Rat)
deriving DecidableEq, Repr

/-- The signed exact value of a finite one. -/
def signed (neg : Bool) (m : Rat) : Rat := if neg then -m else m

/-- A signed real as a finite value; zero takes the sign given. -/
def FVal.ofRat (zneg : Bool) (x : Rat) : FVal := if x = 0 then .fin zneg 0 else .fin (decide (x < 0)) (mag x)

/-- The value of an encoding (03 R45, R46). -/
def FF.decode (f : FF) (n : Nat) : FVal :=
  let s : Bool := decide (n / 2 ^ (f.ew + f.fw) % 2 = 1)
  let e := n / 2 ^ f.fw % 2 ^ f.ew
  let m := n % 2 ^ f.fw
  if f.hasInf && e = 2 ^ f.ew - 1 then if m = 0 then .inf s else .nan
  else if !f.hasInf && e = 15 && m = 7 then .nan
  else if e = 0 then .fin s ((m : Rat) * pow2 f.qmin)
  else .fin s (((2 ^ f.fw + m : Nat) : Rat) * pow2 ((e : Int) - 1 + f.qmin))

/-- The encoding of a value that the format holds; NaN is canonical (03 R46). -/
def FF.encode (f : FF) : FVal → Nat
  | .nan => f.qnan
  | .inf s => (if s then 2 ^ (f.ew + f.fw) else 0) + (if f.hasInf then (2 ^ f.ew - 1) * 2 ^ f.fw else f.qnan)
  | .fin s m =>
    (if s then 2 ^ (f.ew + f.fw) else 0) +
      (if m = 0 then 0
       else
         let e := max (ilog2 m) (1 - (f.bias : Int))
         let k := (m / pow2 (e - (f.fw : Int))).floor.toNat
         if k < 2 ^ f.fw then k else (e + (f.bias : Int)).toNat * 2 ^ f.fw + (k - 2 ^ f.fw))

def FVal.isNan : FVal → Bool
  | .nan => true
  | _ => false

/-- The sign of a value, false for NaN. -/
def FVal.neg : FVal → Bool
  | .nan => false
  | .inf s => s
  | .fin s _ => s

/-- The value with its sign turned. -/
def FVal.negate : FVal → FVal
  | .nan => .nan
  | .inf s => .inf (!s)
  | .fin s m => .fin (!s) m

/-! ## Rounding -/

/-- Rounding modes; a stochastic one holds the lane's draw t (03 R54, R59). -/
inductive RMode where
  | rne | rz | ru | rd
  | sr (t : Nat)
deriving DecidableEq, Repr

/-- A magnitude, in units of the grid, rounded to a whole number of units; `neg` is the value's sign. -/
def roundNat (m : RMode) (neg : Bool) (x : Rat) : Nat :=
  let lo := x.floor.toNat
  let f := x - (lo : Rat)
  if f = 0 then lo
  else
    match m with
    | .rne => if f < 1 / 2 then lo else if 1 / 2 < f then lo + 1 else lo + lo % 2
    | .rz => lo
    | .ru => if neg then lo else lo + 1
    | .rd => if neg then lo + 1 else lo
    | .sr t =>
      if neg then (if (t : Rat) < (1 - f) * pow2 24 then lo else lo + 1)
      else if (t : Rat) < f * pow2 24 then lo + 1 else lo

/-- What rounding delivers: the value, whether it equals the exact one, and whether it overflowed. -/
structure Rounded where
  val : FVal
  exact : Bool
  ovf : Bool
deriving DecidableEq, Repr

/-- The result of an overflow (03 Table 3.6), `mx` the largest magnitude. -/
def overflowed (f : FF) (m : RMode) (neg : Bool) (mx : Rat) : Rounded :=
  let toMax : Bool :=
    !f.hasInf ||
      (match m with
       | .rne | .sr _ => false
       | .rz => true
       | .ru => neg
       | .rd => !neg)
  { val := if toMax then .fin neg mx else .inf neg, exact := false, ovf := true }

/-- The exponent of the last place of a magnitude x in p significant bits of a format. -/
def FF.quantum (f : FF) (p : Nat) (x : Rat) : Int := max (ilog2 x - ((p : Int) - 1)) f.qmin

/-- A finite value rounded onto the values of the format with at most p significant bits (03 R54, R55, 07 R137). Overflow
is decided as IEEE 754 decides it, on the value rounded with no limit of range (log 21); a stochastic rounding beyond the
largest value overflows as RNE does. -/
def FF.round (f : FF) (p : Nat) (m : RMode) (neg : Bool) (x : Rat) : Rounded :=
  if x = 0 then { val := .fin neg 0, exact := true, ovf := false }
  else
    let q := f.quantum p x
    let m' := match m with
      | .sr t => if f.maxMag p < x then .rne else .sr t
      | m => m
    let r := (roundNat m' neg (x / pow2 q) : Rat) * pow2 q
    if f.maxMag p < r then overflowed f m neg (f.maxMag p)
    else { val := .fin neg r, exact := decide (r = x), ovf := false }

/-- √x of a positive x, rounded likewise. -/
def FF.roundSqrt (f : FF) (p : Nat) (m : RMode) (x : Rat) : Rounded :=
  let q := max (Int.fdiv (ilog2 x) 2 - ((p : Int) - 1)) f.qmin
  let z := x / pow2 (2 * q)
  let lo := isqrt z.floor.toNat
  let half : Rat := (lo : Rat) + 1 / 2
  let n :=
    if z = ((lo * lo : Nat) : Rat) then lo
    else
      match m with
      | .rne => if z < half * half then lo else if half * half < z then lo + 1 else lo + lo % 2
      | .ru => lo + 1
      | _ => lo
  { val := .fin false ((n : Rat) * pow2 q), exact := decide (z = ((lo * lo : Nat) : Rat)), ovf := false }

/-- A real rounded to an integer (03 R54). -/
def roundInt (m : RMode) (x : Rat) : Int :=
  let n := roundNat m (decide (x < 0)) (mag x)
  if x < 0 then -(n : Int) else (n : Int)

/-- The e2m1 grid, also that of i4x outliers (03 Table 3.2): a magnitude rounded onto it, saturating at 6. -/
def roundE2m1 (m : RMode) (neg : Bool) (x : Rat) : Rat :=
  if x = 0 then 0
  else
    let q := max (ilog2 x - 1) (-1)
    ratMin ((roundNat m neg (x / pow2 q) : Rat) * pow2 q) 6

/-- Magnitude of an e2m1 code, in halves: 0, 1, 2, 3, 4, 6, 8, 12. -/
def e2m1Halves (c : Nat) : Nat :=
  match c % 8 with
  | 0 => 0 | 1 => 1 | 2 => 2 | 3 => 3 | 4 => 4 | 5 => 6 | 6 => 8 | _ => 12

/-- The magnitude an e2m1 code stands for (03 Table 3.2). -/
def e2m1Mag (c : Nat) : Rat := mkRat (e2m1Halves c) 2

/-- The code of a magnitude on the grid. -/
def e2m1Code (x : Rat) : Nat :=
  ((List.range 8).find? fun c => decide (e2m1Mag c = x)).getD 0

/-! ## Block formats -/

/-- An element of an e2m1 block: nibble and scale (03 R47). −0 decodes as +0. -/
def decodeE2m1 (nib e : Nat) : FVal :=
  if e = 255 then .nan
  else
    let m := e2m1Mag nib
    .fin (decide (nib / 8 % 2 = 1) && decide (m ≠ 0)) (m * pow2 ((e : Int) - 127))

/-- A nibble as two's complement. -/
def sext4 (n : Nat) : Int := if n % 16 < 8 then (n % 16 : Nat) else ((n % 16 : Nat) : Int) - 16

/-- The two elements of an i4x payload byte under a scale (03 R48): elements 2j and 2j + 1. -/
def decodeI4x (q e : Nat) : FVal × FVal :=
  if e = 255 then (.nan, .nan)
  else
    let s := pow2 ((e : Int) - 127)
    let h := q / 16 % 16
    let l := q % 16
    if h = 8 then
      let m := e2m1Mag l * 16 * s
      (.fin (decide (l / 8 = 1) && decide (m ≠ 0)) m, .fin false 0)
    else (FVal.ofRat false ((sext4 h : Rat) * s), if l = 8 then .nan else FVal.ofRat false ((sext4 l : Rat) * s))

/-- The two elements of a payload byte of a block format: element 2j is the high nibble (03 R50). -/
def decodeBlkByte (t : Ty) (q e : Nat) : FVal × FVal :=
  if t = .e2m1 then (decodeE2m1 (q / 16 % 16) e, decodeE2m1 (q % 16) e) else decodeI4x q e

/-! ## Integers -/

/-- Width in bits of a type's value. -/
def tyWidth : Ty → Nat
  | .f64 | .i64 | .n64 => 64
  | .f16 | .bf16 => 16
  | .e4m3 | .e5m2 | .i8 | .n8 => 8
  | _ => 32

/-- A signed integer type. -/
def tySigned : Ty → Bool
  | .i8 | .i32 | .i64 => true
  | _ => false

/-- The least and largest values of an integer type (03 R44). -/
def tyMin (t : Ty) : Int := if tySigned t then -(2 ^ (tyWidth t - 1) : Nat) else 0
def tyMax (t : Ty) : Int := if tySigned t then (2 ^ (tyWidth t - 1) : Nat) - 1 else (2 ^ tyWidth t : Nat) - 1

/-- The integer that the low w bits of n hold, in two's complement where `sg`. -/
def intOf (sg : Bool) (w n : Nat) : Int :=
  let m := n % 2 ^ w
  if sg && 2 ^ (w - 1) ≤ m then (m : Int) - (2 ^ w : Nat) else (m : Int)

/-- An integer modulo 2^w, as a natural number. -/
def natOf (w : Nat) (x : Int) : Nat := (x % (2 ^ w : Nat)).toNat

/-! ## Enclosures of transcendental functions, in units of 2^-640 -/

/-- An interval that holds a real. -/
structure Iv where
  lo : Int
  hi : Int
deriving DecidableEq, Repr

def ivOne : Int := (2 ^ 640 : Nat)

def Iv.ofRat (x : Rat) : Iv := { lo := (x * (ivOne : Rat)).floor, hi := (x * (ivOne : Rat)).ceil }
def Iv.add (a b : Iv) : Iv := { lo := a.lo + b.lo, hi := a.hi + b.hi }
def Iv.sub (a b : Iv) : Iv := { lo := a.lo - b.hi, hi := a.hi - b.lo }

/-- ⌈a / n⌉ for a positive n. -/
def cdiv (a n : Int) : Int := -(Int.fdiv (-a) n)

def Iv.mul (a b : Iv) : Iv :=
  let l := min (min (a.lo * b.lo) (a.lo * b.hi)) (min (a.hi * b.lo) (a.hi * b.hi))
  let h := max (max (a.lo * b.lo) (a.lo * b.hi)) (max (a.hi * b.lo) (a.hi * b.hi))
  { lo := Int.fdiv l ivOne, hi := cdiv h ivOne }

def Iv.divNat (a : Iv) (n : Nat) : Iv := { lo := Int.fdiv a.lo n, hi := cdiv a.hi n }

/-- Bounds as reals. -/
def Iv.loR (a : Iv) : Rat := (a.lo : Rat) / (ivOne : Rat)
def Iv.hiR (a : Iv) : Rat := (a.hi : Rat) / (ivOne : Rat)

/-- e^t for |t| < 1: 1 + t/n (1 + t/(n+1) (…)), the tail within [0, 3]. -/
def expFrom (t : Iv) : Nat → Nat → Iv
  | 0, _ => { lo := 0, hi := 3 * ivOne }
  | k + 1, n => (Iv.ofRat 1).add ((t.mul (expFrom t k (n + 1))).divNat n)

def ivExp (t : Iv) : Iv := expFrom t 130 1

/-- sum of z^(2k) × sg^k / (2k + 1), for z² ≤ 1/9. -/
def oddFrom (z2 : Iv) (alt : Bool) : Nat → Nat → Iv
  | 0, _ => { lo := 0, hi := 2 * ivOne }
  | k + 1, n =>
    let r := z2.mul (oddFrom z2 alt k (n + 2))
    let one := (Iv.ofRat 1).divNat n
    if alt then one.sub r else one.add r

/-- ln m for 1 ≤ m < 2: 2 atanh((m−1)/(m+1)). -/
def ivLn (m : Rat) : Iv :=
  if m = 1 then { lo := 0, hi := 0 }
  else
    let z := Iv.ofRat ((m - 1) / (m + 1))
    let r := z.mul (oddFrom (z.mul z) false 210 1)
    { lo := 2 * r.lo, hi := 2 * r.hi }

/-- ln 2 = 2 atanh(1/3). -/
def ivLn2 : Iv :=
  let z := Iv.ofRat (1 / 3)
  let r := z.mul (oddFrom (z.mul z) false 210 1)
  { lo := 2 * r.lo, hi := 2 * r.hi }

/-- atan(1/n). -/
def ivAtanInv (n : Nat) : Iv :=
  let z := Iv.ofRat (mkRat 1 n)
  z.mul (oddFrom (z.mul z) true 150 1)

/-- π = 16 atan(1/5) − 4 atan(1/239). -/
def ivPi : Iv :=
  let a := ivAtanInv 5
  let b := ivAtanInv 239
  { lo := 16 * a.lo - 4 * b.hi, hi := 16 * a.hi - 4 * b.lo }

/-- 1 − t/(n(n+1)) (1 − t/((n+2)(n+3)) (…)), the tail within [0, 1]. -/
def trigFrom (t : Iv) : Nat → Nat → Iv
  | 0, _ => { lo := 0, hi := ivOne }
  | k + 1, n => (Iv.ofRat 1).sub ((t.mul (trigFrom t k (n + 2))).divNat (n * (n + 1)))

/-- sin x and cos x: x less the whole turns, then the power series. -/
def ivSinCos (cos : Bool) (x : Rat) : Iv :=
  let n : Int := (x * (ivOne : Rat) / ((2 * ivPi.lo : Int) : Rat)).floor
  let p := ivPi
  let turn : Iv :=
    if 0 ≤ n then { lo := 2 * n * p.lo, hi := 2 * n * p.hi } else { lo := 2 * n * p.hi, hi := 2 * n * p.lo }
  let r := (Iv.ofRat x).sub turn
  let r2 := r.mul r
  if cos then trigFrom r2 80 1 else r.mul (trigFrom r2 80 2)

/-- 2^x − 1 as real bounds. -/
def exp2m1 (x : Rat) : Rat × Rat :=
  let k := x.floor
  let f := x - (k : Rat)
  if f = 0 then (pow2 k - 1, pow2 k - 1)
  else
    let e := ivExp ((Iv.ofRat f).mul ivLn2)
    (pow2 k * e.loR - 1, pow2 k * e.hiR - 1)

/-- log2 x of a positive x, as real bounds. -/
def log2R (x : Rat) : Rat × Rat :=
  let k := ilog2 x
  let m := x / pow2 k
  if m = 1 then (k, k)
  else
    let l := ivLn m
    ((k : Rat) + l.loR / ivLn2.hiR, (k : Rat) + l.hiR / ivLn2.loR)

/-- x^(-1/2) of a positive x, as real bounds. -/
def rsqrtR (x : Rat) : Rat × Rat :=
  let n := isqrt ((pow2 1280 / x).floor.toNat)
  ((n : Rat) * pow2 (-640), ((n + 1 : Nat) : Rat) * pow2 (-640))

/-- The square, k times over. -/
def ivSquare (a : Iv) : Nat → Iv
  | 0 => a
  | k + 1 => ivSquare (a.mul a) k

/-- tanh of a positive x, as real bounds: (e^2x − 1)/(e^2x + 1). -/
def tanhR (x : Rat) : Rat × Rat :=
  if 64 ≤ x then (1 - pow2 (-150), 1)
  else
    let e := ivSquare (ivExp (Iv.ofRat (2 * x / 256))) 8
    ((e.loR - 1) / (e.loR + 1), (e.hiR - 1) / (e.hiR + 1))

/-! ## The stochastic-rounding generator -/

/-- The xorshift step (03 R58). -/
def srNext (s : DWord) : DWord :=
  let a := s ^^^ (s <<< 13)
  let b := a ^^^ (a >>> 7)
  b ^^^ (b <<< 17)

/-- rotl(s, n)[63:40] (03 R59). -/
def srDraw (s : DWord) (n : Nat) : Nat := (s.rotateLeft (n % 64)).toNat / 2 ^ 40

end Sys2Proof.Machine
end

