-- ==== Sys2Proof/Machine/Flags.lean ====
section
/-! DEFINITION. Values with their bounds: unit classes and the rounding charge (04 R63), the bound rules of floating-point
operations (04 R64, 07 R137, R139, R140), special functions (04 R65, 07 R141), integers (04 R66) and conversions (03 R57),
the comparison with a budget (04 R74), and headroom (04 R70, R71). -/

namespace Sys2Proof.Machine

/-! ## Unit classes -/

/-- The unit class that executes an operation (04 R68). -/
inductive UClass where
  | f | s | t
deriving DecidableEq, Repr

/-- p_c = −log2 ρ_c (04 Table 4.1, 07 R137). -/
def rhoBits (f : FF) (c : UClass) : Nat :=
  match f, c with
  | .f32, .s => 17
  | .f32, .t => 11
  | .f16, .s => 9
  | .f16, .t => 7
  | .bf16, .s => 7
  | .bf16, .t => 6
  | f, _ => f.prec

/-- The floor φ (04 Table 4.1). -/
def FF.floorPhi (f : FF) : Rat := pow2 f.qmin

/-- The rounding term δ for a result of magnitude y (04 R63). -/
def delta (f : FF) (c : UClass) (m : RMode) (exact : Bool) (y : Rat) : Rat :=
  if c = .f && exact then 0
  else ratMax ((if m = .rne then 1 else 2) * pow2 (-(rhoBits f c : Int)) * y) f.floorPhi

/-! ## Bounds as reals; none is U -/

def bAdd : Option Rat → Option Rat → Option Rat
  | some a, some b => some (a + b)
  | _, _ => none

def bScale (k : Rat) : Option Rat → Option Rat
  | some b => some (mag k * b)
  | none => none

def bMax : Option Rat → Option Rat → Option Rat
  | some a, some b => some (ratMax a b)
  | _, _ => none

/-- |x|·by + |y|·bx + bx·by. -/
def bMul (x : Rat) (bx : Option Rat) (y : Rat) (by_ : Option Rat) : Option Rat :=
  match bx, by_ with
  | some p, some q => some (mag x * q + mag y * p + p * q)
  | _, _ => none

/-! ## Floating-point operations -/

/-- An operand as a unit class takes it, with its bound. -/
structure FOp where
  v : FVal
  b : Option Rat
deriving DecidableEq, Repr

/-- A result with its bound. -/
structure FRes where
  v : FVal
  b : Eb16
deriving DecidableEq, Repr

/-- Classes S and T flush a subnormal input to zero, which enters the bound (03 R56). -/
def takeOp (f : FF) (c : UClass) (v : FVal) (b : Eb16) : FOp :=
  match v with
  | .fin s m =>
    if c ≠ .f ∧ m ≠ 0 ∧ m < f.minNormal then { v := .fin s 0, b := bAdd (ebReal b) (some m) } else { v := v, b := ebReal b }
  | _ => { v := v, b := ebReal b }

/-- The exact result z delivered in class c: rounded onto Q_c, with the bound b + δ (04 R62, R63, 07 R137). An overflow
delivered as ±max carries U (04 R62). -/
def finishF (f : FF) (c : UClass) (m : RMode) (z : FVal) (b : Option Rat) : FRes :=
  match z with
  | .fin s x =>
    let r := f.round (rhoBits f c) m s x
    match r.val with
    | .fin _ y => { v := r.val, b := if r.ovf then ebU else upO (bAdd b (some (delta f c m r.exact y))) }
    | v => { v := v, b := ebU }
  | v => { v := v, b := ebU }

/-- Exact sum (IEEE 754 signs of zero, 03 R46; the classes S and T take them too, log 22). -/
def addX (m : RMode) (a b : FVal) : FVal :=
  match a, b with
  | .nan, _ => .nan
  | _, .nan => .nan
  | .inf s, .inf t => if s = t then .inf s else .nan
  | .inf s, _ => .inf s
  | _, .inf t => .inf t
  | .fin s x, .fin t y =>
    FVal.ofRat (if x = 0 ∧ y = 0 ∧ s = t then s else decide (m = .rd)) (signed s x + signed t y)

/-- Exact product. -/
def mulX (a b : FVal) : FVal :=
  match a, b with
  | .nan, _ => .nan
  | _, .nan => .nan
  | .inf s, .inf t => .inf (s != t)
  | .inf s, .fin t y => if y = 0 then .nan else .inf (s != t)
  | .fin s x, .inf t => if x = 0 then .nan else .inf (s != t)
  | .fin s x, .fin t y => .fin (s != t) (x * y)

/-- Exact quotient with the special results of 07 R140. -/
def divX (a b : FVal) : FVal :=
  match a, b with
  | .nan, _ => .nan
  | _, .nan => .nan
  | .inf _, .inf _ => .nan
  | .inf s, .fin t _ => .inf (s != t)
  | .fin s _, .inf t => .fin (s != t) 0
  | .fin s x, .fin t y => if y = 0 then (if x = 0 then .nan else .inf (s != t)) else .fin (s != t) (x / y)

/-- The magnitude of a finite value, 0 otherwise. -/
def FVal.magD : FVal → Rat
  | .fin _ m => m
  | _ => 0

/-- Addition (04 Table 4.2). -/
def fAdd (f : FF) (c : UClass) (m : RMode) (a b : FOp) : FRes := finishF f c m (addX m a.v b.v) (bAdd a.b b.b)

/-- Subtraction (04 Table 4.2). FSUB from zero, which stands in the table's addition row and in its negation row, takes the addition row
(log 90). -/
def fSub (f : FF) (c : UClass) (m : RMode) (a b : FOp) : FRes := fAdd f c m a { b with v := b.v.negate }

/-- Multiplication (04 Table 4.2). -/
def fMul (f : FF) (c : UClass) (m : RMode) (a b : FOp) : FRes :=
  finishF f c m (mulX a.v b.v) (bMul a.v.magD a.b b.v.magD b.b)

/-- Fused multiply-add (04 Table 4.2). -/
def fFma (f : FF) (c : UClass) (m : RMode) (a b d : FOp) : FRes :=
  finishF f c m (addX m (mulX a.v b.v) d.v) (bAdd (bMul a.v.magD a.b b.v.magD b.b) d.b)

/-- Division (04 Table 4.2, 07 R140). -/
def fDiv (f : FF) (c : UClass) (m : RMode) (a b : FOp) : FRes :=
  match b.v with
  | .fin _ y =>
    finishF f c m (divX a.v b.v)
      (match a.b, b.b with
       | some p, some q => if q < y then some ((a.v.magD * q + y * p) / (y * (y - q))) else none
       | _, _ => none)
  | _ => { v := divX a.v b.v, b := ebU }

/-- Square root (04 Table 4.2, 07 R140). -/
def fSqrt (f : FF) (c : UClass) (m : RMode) (a : FOp) : FRes :=
  match a.v with
  | .fin s x =>
    if x = 0 then
      { v := .fin s 0,
        b := match a.b with
             | some p => upSqrt p (delta f c m true 0)
             | none => ebU }
    else if s then { v := .nan, b := ebU }
    else
      let r := f.roundSqrt (rhoBits f c) m x
      { v := r.val,
        b := match a.b with
             | some p => upSqrt (ratMin (p * p / x) p) (delta f c m r.exact r.val.magD)
             | none => ebU }
  | .inf false => { v := .inf false, b := ebU }
  | _ => { v := .nan, b := ebU }

/-- The order of FMIN and FMAX: −0 below +0 (07 R139). -/
def FVal.le : FVal → FVal → Bool
  | .nan, _ => false
  | _, .nan => false
  | .inf s, .inf t => s || !t
  | .inf s, _ => s
  | _, .inf t => !t
  | .fin s x, .fin t y => if x = 0 ∧ y = 0 then s || !t else decide (signed s x ≤ signed t y)

/-- Infinity and NaN carry U (03 R46); a finite value its own bound. -/
def withBound (v : FVal) (b : Option Rat) : FRes :=
  { v := v,
    b := match v with
         | .fin _ _ => upO b
         | _ => ebU }

/-- FMIN, or FMAX where `mx` (07 R139). -/
def fMinMax (mx : Bool) (a b : FOp) : FRes :=
  if a.v.isNan && b.v.isNan then { v := .nan, b := ebU }
  else if a.v.isNan then withBound b.v b.b
  else if b.v.isNan then withBound a.v a.b
  else withBound (if FVal.le a.v b.v != mx then a.v else b.v) (bMax a.b b.b)

/-- a = b and a < b of values that are not NaN; the zeros are equal (03 R46). -/
def FVal.eqv : FVal → FVal → Bool
  | .inf s, .inf t => s = t
  | .fin s x, .fin t y => decide (signed s x = signed t y)
  | _, _ => false

def FVal.lt (a b : FVal) : Bool := !a.isNan && !b.isNan && FVal.le a b && !FVal.eqv a b

/-- FSETP's conditions (07 Table 7.4). -/
def fcondHolds (cc : FCond) (a b : FVal) : Bool :=
  let nan := a.isNan || b.isNan
  match cc with
  | .eq => !nan && FVal.eqv a b
  | .ne => nan || !FVal.eqv a b
  | .lt => !nan && FVal.lt a b
  | .ge => !nan && (FVal.lt b a || FVal.eqv a b)
  | .le => !nan && (FVal.lt a b || FVal.eqv a b)
  | .gt => !nan && FVal.lt b a
  | .num => !nan
  | .nan => nan

/-! ## Special functions -/

/-- The functions of 04 Table 4.3. -/
inductive SpFn where
  | rcp | rsq | exp2 | log2 | sin | cos | tanh
deriving DecidableEq, Repr

def SpFn.code : SpFn → Nat
  | .rcp => 0 | .rsq => 1 | .exp2 => 2 | .log2 => 3 | .sin => 4 | .cos => 5 | .tanh => 6

/-- Results on ±0, ±∞ and NaN, and those of a negative argument outside the domain (07 Table 7.5). -/
def SpFn.fixed? (fn : SpFn) (x : FVal) : Option FVal :=
  match x with
  | .nan => some .nan
  | .inf s =>
    some
      (match fn with
       | .rcp => .fin s 0
       | .rsq => if s then .nan else .fin false 0
       | .exp2 => if s then .fin false 0 else .inf false
       | .log2 => if s then .nan else .inf false
       | .sin | .cos => .nan
       | .tanh => .fin s 1)
  | .fin s m =>
    if m = 0 then
      some
        (match fn with
         | .rcp | .rsq => .inf s
         | .exp2 | .cos => .fin false 1
         | .log2 => .inf true
         | .sin | .tanh => .fin s 0)
    else if s && (fn = .rsq || fn = .log2) then some .nan
    else none

/-- Real bounds of the exact value on a finite argument that is in the domain and not 0. -/
def SpFn.exact (fn : SpFn) (x : Rat) : Rat × Rat :=
  match fn with
  | .rcp => (1 / x, 1 / x)
  | .rsq => rsqrtR x
  | .exp2 =>
    if 200 ≤ x then (pow2 200, pow2 200) else if x ≤ -200 then (pow2 (-200), pow2 (-200))
    else let e := exp2m1 x; (1 + e.1, 1 + e.2)
  | .log2 => log2R x
  | .sin => let i := ivSinCos false x; (i.loR, i.hiR)
  | .cos => let i := ivSinCos true x; (i.loR, i.hiR)
  | .tanh => let t := tanhR (mag x); if x < 0 then (-t.2, -t.1) else t

/-- ε of 04 Table 4.3 for a delivered magnitude y. -/
def SpFn.eps (fn : SpFn) (x y : Rat) : Rat :=
  match fn with
  | .rcp | .rsq => pow2 (-23) * y
  | .exp2 => pow2 (-22) * y
  | .log2 => ratMax (pow2 (-22) * y) (pow2 (-24))
  | .sin | .cos => if mag x ≤ pow2 20 then pow2 (-21) else 2
  | .tanh => pow2 (-22)

/-- The delivered value: the fixed function of the bits that the hardware has, where that lies within ε of the exact value,
and otherwise the exact value rounded to nearest (07 R141, log 13). 2^x beyond the range of f32 is +∞ (07 R141). -/
def SpFn.deliver (fn : SpFn) (bits : Nat) (x : Rat) : FVal :=
  let e := fn.exact x
  if fn = .exp2 ∧ 128 ≤ x then .inf false else
  match FF.f32.decode (Config.special fn.code bits).toNat with
  | .fin s m =>
    if mag (signed s m - e.1) ≤ fn.eps x m ∧ mag (signed s m - e.2) ≤ fn.eps x m then .fin s m
    else (FF.f32.round 24 .rne (decide (e.1 < 0)) (mag e.1)).val
  | _ => (FF.f32.round 24 .rne (decide (e.1 < 0)) (mag e.1)).val

/-- The bound before up(ε + …), as the encoding (04 Table 4.3). -/
def SpFn.bound (fn : SpFn) (x : Rat) (b : Option Rat) (y : Rat) : Eb16 :=
  match b with
  | none => ebU
  | some p =>
    let e := fn.eps x y
    match fn with
    | .rcp => if p < mag x then up (p / (mag x * (mag x - p)) + e) else ebU
    | .rsq => if p < x then upSqrt (p * p / (4 * (x - p) * (x - p) * (x - p))) e else ebU
    | .exp2 => if 300 ≤ p then (if y = 0 then up e else ebU) else up (y * (exp2m1 p).2 + e)
    | .log2 => if p < x then up ((log2R (x / (x - p))).2 + e) else ebU
    | .sin | .cos | .tanh => up (ratMin p 2 + e)

/-- A special function of an f32 with its bound (04 R65, 07 R141). On ±0 the result of 07 Table 7.5 carries the bound of
04 Table 4.3; an infinite result carries U (04 R62), and so does one of an infinite argument. -/
def spApply (fn : SpFn) (bits : Nat) (b : Eb16) : FRes :=
  let x := FF.f32.decode bits
  match fn.fixed? x with
  | some r =>
    match x, r with
    | .fin _ _, .fin _ y => { v := r, b := fn.bound 0 (ebReal b) y }
    | _, _ => { v := r, b := ebU }
  | none =>
    match x with
    | .fin s m =>
      match fn.deliver bits (signed s m) with
      | .fin t y => { v := .fin t y, b := fn.bound (signed s m) (ebReal b) y }
      | v => { v := v, b := ebU }
    | _ => { v := .nan, b := ebU }

/-- FFRC (07 R141, 04 Table 4.3): a − floor(a) rounded down, the rounding error charged. -/
def fFrc (x : FVal) (b : Option Rat) : FRes :=
  match x with
  | .fin s m =>
    let a := signed s m
    let z := a - (a.floor : Rat)
    let r := FF.f32.round 24 .rd false z
    { v := r.val,
      b := match b with
           | none => ebU
           | some p =>
             up ((if p = 0 then 0 else if (a - p).ceil ≤ (a + p).floor then 1 else p) + (z - r.val.magD)) }
  | _ => { v := .nan, b := ebU }

/-- FRND (07 R141, 04 Table 4.3). A zero delivered for another value has that value's sign (log 92). -/
def fRnd (m : RMode) (x : FVal) (b : Option Rat) : FRes :=
  match x with
  | .fin s q =>
    let a := signed s q
    let y := roundInt m a
    { v := FVal.ofRat s (y : Rat),
      b := match b with
           | none => ebU
           | some p => if roundInt m (a - p) = y ∧ roundInt m (a + p) = y then 0 else up (p + 1) }
  | .inf s => { v := .inf s, b := ebU }
  | .nan => { v := .nan, b := ebU }

/-! ## Integers -/

/-- An integer result modulo 2^w with the bound of 04 R66: `b` while it does not wrap in the type; U when it wraps and an
input is not exact. -/
def intArith (t : Ty) (z : Int) (b : Option Rat) (inexact : Bool) : Nat × Eb16 :=
  (natOf (tyWidth t) z, if (z < tyMin t || tyMax t < z) && inexact then ebU else upO b)

/-- The bound of every other integer instruction: 0 when all inputs are exact, else U (04 R66). -/
def exactOnly (l : List Eb16) : Eb16 := if l.all (· = 0) then 0 else ebU

/-! ## Conversions (03 R57, Table 3.7) -/

/-- The distance between two finite values, none when either is not finite. -/
def finDist (x y : FVal) : Option Rat :=
  match x, y with
  | .fin s a, .fin t b => some (mag (signed s a - signed t b))
  | _, _ => none

/-- Conversion to a floating-point format. -/
def convF (f : FF) (m : RMode) (x : FVal) (b : Option Rat) : FRes :=
  match x with
  | .nan => { v := .nan, b := ebU }
  | .inf s => { v := if f.hasInf then .inf s else .nan, b := ebU }
  | .fin s q =>
    let y := (f.round f.prec m s q).val
    { v := y, b := upO (bAdd b (finDist x y)) }

/-- Conversion to an integer type, as its encoding. -/
def convI (t : Ty) (m : RMode) (x : FVal) (b : Option Rat) : Nat × Eb16 :=
  match x with
  | .nan => (0, ebU)
  | .inf s => (natOf (tyWidth t) (if s then tyMin t else tyMax t), ebU)
  | .fin s q =>
    let a := signed s q
    let y := max (tyMin t) (min (tyMax t) (roundInt m a))
    (natOf (tyWidth t) y, upO (bAdd b (some (mag ((y : Rat) - a)))))

/-- The value that an encoding has in a type: floating-point or integer. -/
def tyValue (t : Ty) (n : Nat) : FVal :=
  match tyFF t with
  | some f => f.decode n
  | none => FVal.ofRat false ((intOf (tySigned t) (tyWidth t) n : Int) : Rat)

/-- Conversion to any type of 07 R143, as the encoding. -/
def convTo (t : Ty) (m : RMode) (x : FVal) (b : Option Rat) : Nat × Eb16 :=
  match tyFF t with
  | some f => let r := convF f m x b; (f.encode r.v, r.b)
  | none => convI t m x b

/-! ## Budgets and headroom -/

/-- Whether a bound exceeds a budget, for a magnitude m (04 R74); none stands for an infinite magnitude (log 23). -/
def exceeds (ebud : BitVec 17) (b : Eb16) (m : Option Rat) : Bool :=
  let bud : Eb16 := ebud.setWidth 16
  if ebIsU bud then false
  else if ebIsU b then true
  else if !ebud.getLsbD 16 then decide (ebVal bud < ebVal b)
  else
    match m with
    | some m => decide (ebVal bud * m < ebVal b)
    | none => decide (ebVal bud = 0 ∧ 0 < ebVal b)

/-- The magnitude of a value for a relative budget; NaN gives 0 (log 23). -/
def FVal.budMag : FVal → Option Rat
  | .fin _ m => some m
  | .inf _ => none
  | .nan => some 0

/-- The smaller of two magnitudes, none being infinite. -/
def minMag : Option Rat → Option Rat → Option Rat
  | some a, some b => some (ratMin a b)
  | some a, none => some a
  | none, b => b

/-- The exponent of a magnitude, none for 0 (04 R70). The rule gives none for a value that is not finite: an infinity counts as 128 and
a NaN as a value of 0 does, where such a value keeps a finite bound (log 91). -/
def exOf (v : FVal) : Option Int :=
  match v with
  | .fin _ m => if m = 0 then none else some (ilog2 m)
  | .inf _ => some 128
  | .nan => none

/-- h of one written lane (04 R70). -/
def hxLane (ebud : BitVec 17) (i : HxItem) : Int :=
  let bud : Eb16 := ebud.setWidth 16
  if i.bnd = 0 then 127
  else if ebIsU i.bnd then -128
  else if ebIsU bud then 127
  else if ebVal bud = 0 then -128
  else if !ebud.getLsbD 16 then ebEx bud - ebEx i.bnd
  else
    match i.ex with
    | none => -128
    | some e => ebEx bud + e - ebEx i.bnd

/-- update_hx (04 R70); `old` for a slice that wrote no lane. -/
def updateHx (ebud : BitVec 17) (old : BitVec 8) : List HxItem → BitVec 8
  | [] => old
  | i :: rest =>
    BitVec.ofInt 8 (max (-128) (min 127 (rest.foldl (fun h j => min h (hxLane ebud j)) (hxLane ebud i))))

/-- The preferred class for a headroom (04 R71). -/
def preferred (h : Int) : UClass := if 12 ≤ h then .t else if 6 ≤ h then .s else .f

/-- The class that runs under UC = 00: the preferred one, or the most accurate permitted class cheaper than it, the first
that the allowance covers (04 R71); none: the gang waits. -/
def autoClass (h : Int) (covers : UClass → Bool) : Option UClass :=
  match preferred h with
  | .t => if covers .t then some .t else none
  | .s => if covers .s then some .s else if 9 ≤ h && covers .t then some .t else none
  | .f => if covers .f then some .f else if 3 ≤ h && covers .s then some .s else if 9 ≤ h && covers .t then some .t else none

end Sys2Proof.Machine
end

