-- ==== Sys2Proof/Machine/Memory.lean ====
section
/-! DEFINITION. Memory: bytes, tags and poison by physical key (log 14), stores as they are performed (11 R215, R217, R218,
21 R378), caches and accounting (11 R210, R213, 17 R333, R334), translation (17 R320-R325) and fault records (17 R326, R328). -/

namespace Sys2Proof.Machine

/-! ## Bytes -/

/-- The number that bytes hold, lowest first (00 R3). -/
def leNat : List Byte → Nat
  | [] => 0
  | b :: rest => b.toNat + 256 * leNat rest

/-- The n low bytes of a number, lowest first. -/
def leBytes : Nat → Nat → List Byte
  | 0, _ => []
  | n + 1, v => BitVec.ofNat 8 v :: leBytes n (v / 256)

/-! ## Physical keys -/

/-- The end of the data space: 496 GiB (01 R16, 11 R212). -/
def dataEnd : Nat := 496 * 2 ^ 30

/-- The peat window (11 R218): 16 GiB from 512 GiB. -/
def peatBase : Nat := 2 ^ 39
def isPeat (k : Nat) : Bool := peatBase ≤ k && k < peatBase + 2 ^ 34

/-- Host memory, device 0, and G-FAM device d, device d + 1 (19 R363, log 87). -/
def outerBase : Nat := 2 ^ 66
def outerKey (dev pa : Nat) : Nat := outerBase + 2 ^ 52 * dev + pa
def isOuter (k : Nat) : Bool := outerBase ≤ k && k < 2 ^ 67
def peerKey (h pa : Nat) : Nat := 2 ^ 53 * (h + 1) + pa
def padBase : Nat := 2 ^ 70
def padKey (t a : Nat) : Nat := padBase + 2 ^ 19 * t + a
def isPad (k : Nat) : Bool := padBase ≤ k
def isPeer (k : Nat) : Bool := 2 ^ 53 ≤ k && k < outerBase

/-- The peer package of a key. -/
def peerOf (k : Nat) : Nat := k / 2 ^ 53 - 1

/-- The stack and offset of a data address (11 R212). -/
def stackOf (pa : Nat) : Nat := (pa / 2 ^ 12 % 8) ^^^ (pa / 2 ^ 15 % 8)
def stackOff (pa : Nat) : Nat := pa / 2 ^ 15 * 2 ^ 12 + pa % 2 ^ 12

/-- The data sector whose tag lies at an address of the peat window, as the sector's address divided by 64 (11 R212, R218):
none above the 62 GiB of data. -/
def peatSector (k : Nat) : Option Nat :=
  let r := k - peatBase
  let o := r % 2 ^ 31 / 2 * 64
  if o < 62 * 2 ^ 30 then
    let hi := o / 2 ^ 12
    some ((hi * 2 ^ 15 + ((r / 2 ^ 31) ^^^ (hi % 8)) * 2 ^ 12 + o % 2 ^ 12) / 64)
  else none

/-- The peat-window address of a data sector's tag (11 R218). -/
def peatOf (pa : Nat) : Nat := peatBase + stackOf pa * 2 ^ 31 + 2 * (stackOff pa / 64)

/-- What an unlisted byte reads as (log 1). -/
def memDefault : Byte := 0

/-- The memory's canonical form: addresses strictly rising, no entry equal to what an unlisted address reads as. -/
def Memory.wf (m : List Host.Cell) : Bool := Sparse.wf memDefault m

/-- The tag of the sector at a key; unlisted, 0 (log 5). -/
def State.tagAt (s : State) (k : Nat) : Eb16 :=
  if isPad k then
    let r := k - padBase
    Sparse.get 0 (s.tile (r / 2 ^ 19)).scratchTags (r % 2 ^ 19 / 64)
  else Sparse.get 0 s.tags (k / 64)

def State.setTag (s : State) (k : Nat) (b : Eb16) : State :=
  if isPad k then
    let r := k - padBase
    s.updTile (r / 2 ^ 19) fun x => { x with scratchTags := Sparse.set 0 x.scratchTags (r % 2 ^ 19 / 64) b }
  else { s with tags := Sparse.set 0 s.tags (k / 64) b }

/-- One byte by key: of a scratchpad, of the tags through the peat window, or of memory. -/
def State.byte (s : State) (k : Nat) : Byte :=
  if isPad k then
    let r := k - padBase
    Sparse.get 0 (s.tile (r / 2 ^ 19)).scratch (r % 2 ^ 19)
  else if isPeat k then
    match peatSector k with
    | some sec =>
      let b := Sparse.get 0 s.tags sec
      if k % 2 = 0 then b.setWidth 8 else (b >>> 8).setWidth 8
    | none => Sparse.get memDefault s.mem k
  else Sparse.get memDefault s.mem k

/-- Writes one byte by key. -/
def State.setByte (s : State) (k : Nat) (b : Byte) : State :=
  if isPad k then
    let r := k - padBase
    s.updTile (r / 2 ^ 19) fun x => { x with scratch := Sparse.set 0 x.scratch (r % 2 ^ 19) b }
  else if isPeat k then
    match peatSector k with
    | some sec =>
      let o := Sparse.get 0 s.tags sec
      let n : Eb16 := if k % 2 = 0 then (o &&& 0xFF00) ||| b.setWidth 16 else (o &&& 0x00FF) ||| (b.setWidth 16 <<< 8)
      { s with tags := Sparse.set 0 s.tags sec n }
    | none => { s with mem := Sparse.set memDefault s.mem k b }
  else { s with mem := Sparse.set memDefault s.mem k b }

def State.readBytes (s : State) (k n : Nat) : List Byte := (List.range n).map fun i => s.byte (k + i)

/-- Writes bytes from a key on. -/
def State.writeBytes (s : State) (k : Nat) : List Byte → State
  | [] => s
  | b :: rest => (s.setByte k b).writeBytes (k + 1) rest

/-- n bytes as a number. -/
def State.readNat (s : State) (k n : Nat) : Nat := leNat (s.readBytes k n)

def State.read64 (s : State) (k : Nat) : DWord := BitVec.ofNat 64 (s.readNat k 8)

/-! ## Stores as they are performed -/

/-- The byte at key k, if one of the accesses writes it; the last one leaves its value (11 R215). -/
def accCovers (a : Acc) (k : Nat) : Bool := a.loc.key ≤ k && k < a.loc.key + a.data.length

/-- The sectors an access touches, as key divided by 64. -/
def accSectors (a : Acc) : List Nat :=
  (List.range ((a.loc.key % 64 + a.data.length + 63) / 64)).map fun i => a.loc.key / 64 + i

/-- Keeps one of each. -/
def nubNat (l : List Nat) : List Nat := l.foldl (fun r x => if r.elem x then r else r ++ [x]) []

/-- The tag of a sector after a store: the largest bound written into it, and the old tag unless the store writes the whole
sector (11 R217). -/
def storeTag (accs : List Acc) (sec : Nat) (old : Eb16) : Eb16 :=
  let here := accs.filter fun a => (accSectors a).elem sec
  let m := ebMaxL (here.map Acc.bnd)
  ebWritten (if (List.range 64).all fun i => here.any fun a => accCovers a (64 * sec + i) then m else ebMax m old)

/-- A write that replaces a whole 8-byte granule clears its poison (21 R378). -/
def clearPoison (poison : List Nat) (accs : List Acc) : List Nat :=
  poison.filter fun g => !((List.range 8).all fun i => accs.any fun a => accCovers a (8 * g + i))

/-- A tag that is replaced, with its whole sector or through the peat window, is sound again (21 R378). -/
def clearTags (bad : List Nat) (accs : List Acc) : List Nat :=
  bad.filter fun sec =>
    !((List.range 64).all fun i => accs.any fun a => a.loc.tagged && accCovers a (64 * sec + i)) &&
    !(64 * sec < dataEnd && (List.range 2).all fun i => accs.any fun a => accCovers a (peatOf (64 * sec) + i))

/-- The accesses of one store, performed: data, tags and poison together (11 R217, 12 R239). -/
def State.storeAccs (s : State) (accs : List Acc) : State :=
  let tagged := nubNat ((accs.filter fun a => a.loc.tagged).flatMap accSectors)
  let s1 := accs.foldl (fun s a => s.writeBytes a.loc.key a.data) s
  let s2 := tagged.foldl (fun r sec => r.setTag (64 * sec) (storeTag accs sec (s.tagAt (64 * sec)))) s1
  { s2 with poison := clearPoison s.poison accs, badTags := clearTags s.badTags accs }

/-- The tag that a read of a place delivers: 0 on an untagged page (11 R217, R219). -/
def State.locTag (s : State) (l : Loc) : Eb16 := if l.tagged then s.tagAt l.key else 0

/-- Whether n bytes at key k overlap m bytes at key j. -/
def overlap (k n j m : Nat) : Bool := k < j + m && j < k + n

/-- Whether any byte of n from a key on is poisoned: its unit is, or its sector's tag is, or it is such a tag in the peat window (21
R378). -/
def State.poisoned (s : State) (k n : Nat) : Bool :=
  (s.poison.any fun g => overlap (8 * g) 8 k n) ||
    s.badTags.any fun sec => overlap (64 * sec) 64 k n || (64 * sec < dataEnd && overlap (peatOf (64 * sec)) 2 k n)

/-! ## Values overwritten -/

/-- The 8-byte units that n bytes from a key on touch. -/
def unitsOf (k n : Nat) : List Nat := if n = 0 then [] else (List.range ((k % 8 + n + 7) / 8)).map fun i => k / 8 + i

/-- An LD.inv, a copy, an MMA or the scheduler's read of a record may still read values that are overwritten from now on. -/
def State.observed (s : State) : Bool :=
  !s.launches.isEmpty || !s.queues.isEmpty || s.tiles.any fun p => !p.2.eng0.isEmpty || !p.2.eng1.isEmpty || p.2.mx.isSome

/-- The tag that was written with the value a unit holds: the sector's, or the first of those it has had since (11 R221). -/
def State.writtenTag (s : State) (u : Nat) : Eb16 :=
  match (s.past.filter fun p => p.unit = u).getLast? with
  | some p => if p.gone then s.tagAt (8 * u) else p.wtag
  | none => s.tagAt (8 * u)

/-- What a unit holds, as a value of the past from now on. -/
def State.pastOf (s : State) (accs : List Acc) (u : Nat) : Past :=
  { at_ := s.nextId, unit := u, data := s.readBytes (8 * u) 8, tag := s.tagAt (8 * u), wtag := s.writtenTag u,
    gone := accs.any fun a => overlap (8 * u) 8 a.loc.key a.data.length, bad := s.poison.elem u, badTag := s.badTags.elem (u / 8) }

/-- The units whose value, or whose sector's tag, some accesses overwrite. -/
def pastUnits (accs : List Acc) : List Nat :=
  nubNat (accs.flatMap fun a =>
    if a.loc.tagged then (accSectors a).flatMap fun sec => unitsOf (64 * sec) 64 else unitsOf a.loc.key a.data.length)

/-- The values that some accesses overwrite are kept while they may be read, and the promises of LD.inv that they break are noted (11
R221, 12 R254, 14 R288). -/
def State.notePast (s : State) (accs : List Acc) : State :=
  if s.observed then
    { s with
        nextId := s.nextId + 1,
        past := s.past ++ (pastUnits accs).map (s.pastOf accs),
        invMarks := s.invMarks.map fun m =>
          if accs.any fun a => overlap m.key m.n a.loc.key a.data.length then { m with broken := true } else m }
  else { s with past := [] }

/-- A unit as a read finds it that may see any value held since a moment, with the sector's tag then: `k` tells the choice apart. -/
def State.unitSince (s : State) (since k u : Nat) : Past :=
  let now := { s.pastOf [] u with wtag := s.tagAt (8 * u) }
  let old := s.past.filter fun p => p.unit = u && decide (since < p.at_)
  match s.choose k (old.length + 1) with
  | 0 => now
  | j + 1 => old.getD j now

/-! ## Accounting -/

/-- Counters of a set (17 Table 17.10). -/
inductive Ctr where
  | hit | fill | wb | tlbmiss | walk | frec | fenreq
deriving DecidableEq, Repr

def Ctr.idx : Ctr → Nat
  | .hit => 0 | .fill => 1 | .wb => 2 | .tlbmiss => 3 | .walk => 4 | .frec => 5 | .fenreq => 6

/-- Adds to a counter of a set; counters wrap. -/
def State.bump (s : State) (set : Nat) (c : Ctr) (n : Nat) : State :=
  { s with counters :=
      Sparse.set 0 s.counters (8 * set + c.idx) (Sparse.get 0 s.counters (8 * set + c.idx) + BitVec.ofNat 64 n) }

/-- The ASID entry's words: as cached, or as memory holds them (17 R320, R333). -/
def State.asidWords (s : State) (asid : Nat) : DWord × DWord :=
  match s.tents.find? fun e => e.asid = asid ∧ e.level = 5 with
  | some e => (e.w0, e.w1)
  | none => (s.read64 (s.csr.asidtb.toNat + 16 * asid), s.read64 (s.csr.asidtb.toNat + 16 * asid + 8))

/-- Charges the counter set of an ASID, when its entry has CEN = 1, whatever its EN (17 R333). -/
def State.charge (s : State) (asid : Nat) (c : Ctr) (n : Nat) : State :=
  let w := s.asidWords asid
  if w.2.getLsbD 8 then s.bump (w.2.toNat % 256) c n else s

/-- Charges an ASID, or set 0 where there is none: the host and the hub's units carry no ASID (17 R333, log 79). -/
def State.chargeBy (s : State) (who : Option Nat) (c : Ctr) (n : Nat) : State :=
  match who with
  | some asid => s.charge asid c n
  | none => s.bump 0 c n

/-- One line request of a die's unit to an L2 slice: FARREQ also where the slice is a peer's (11 R213). -/
def State.countReq (s : State) (die : Nat) (l : Loc) : State :=
  if l.l2s / 8 = die && !isPeer l.key then
    { s with csr := { s.csr with nearReq := Sparse.set 0 s.csr.nearReq die (Sparse.get 0 s.csr.nearReq die + 1) } }
  else
    { s with csr := { s.csr with farReq := Sparse.set 0 s.csr.farReq die (Sparse.get 0 s.csr.farReq die + 1) } }

/-! ## Lines -/

/-- A line's number, and the place of the line that holds a place. -/
def Line.no (x : Line) : Nat := x.loc.key / 256
def Loc.line (l : Loc) : Loc := { l with key := l.key / 256 * 256 }

def findLine (l : List Line) (n : Nat) : Option Line := l.find? fun x => x.no = n
def dropLine (l : List Line) (n : Nat) : List Line := l.filter fun x => x.no ≠ n
def putLine (l : List Line) (x : Line) : List Line := x :: dropLine l x.no

/-- A line of the slice that serves a place. -/
def Line.serves (x : Line) (l : Loc) : Bool := x.no = l.key / 256 && x.loc.l2s = l.l2s
def findL2 (ls : List Line) (l : Loc) : Option Line := ls.find? fun x => x.serves l
def dropL2 (ls : List Line) (l : Loc) : List Line := ls.filter fun x => !x.serves l
def putL2 (ls : List Line) (x : Line) : List Line := x :: dropL2 ls x.loc

/-- The line of a place with nothing in it. -/
def emptyLine (l : Loc) : Line := { loc := l.line, present := 0, dirty := 0, by_ := none, inv := [] }

/-- The line of a place in a slice, empty where it is not held. -/
def lineAt (ls : List Line) (l : Loc) : Line := (findL2 ls l).getD (emptyLine l)

/-- The number of set bits. -/
def pop4 (b : BitVec 4) : Nat := ((List.range 4).filter fun i => b.getLsbD i).length

/-- The sectors of a line that a mask names, as keys divided by 64. -/
def sectorsOf (l : Loc) (mask : BitVec 4) : List Nat := ((List.range 4).filter fun i => mask.getLsbD i).map fun i => l.key / 256 * 4 + i

/-- A cache holds the sector of an address; a dirty copy of it. -/
def holdsSector (l : List Line) (pa : Nat) : Bool := (findLine l (pa / 256)).any fun x => x.present.getLsbD (pa % 256 / 64)
def dirtySector (l : List Line) (pa : Nat) : Bool := (findLine l (pa / 256)).any fun x => x.dirty.getLsbD (pa % 256 / 64)

/-- The array in which a tile finds a place (21 Table 21.4): its scratchpad, its L1, an L2 slice, or memory behind it. -/
def State.arrayOf (s : State) (t key : Nat) : Nat :=
  if isPad key then 1 else if holdsSector (s.tile t).l1 key then 3 else if holdsSector s.l2 key then 4 else 6

/-! ## Memory behind the caches -/

/-- A sector's data and its tag as they stand. -/
def State.dataNow (s : State) (sec : Nat) : List Byte × List Nat := (s.readBytes (64 * sec) 64, s.poison.filter fun u => u / 8 = sec)
def State.tagNow (s : State) (sec : Nat) : Eb16 × Bool := (s.tagAt (64 * sec), s.badTags.elem sec)

/-- What of a sector memory holds otherwise than the caches. -/
def State.behindAt (s : State) (sec : Nat) : Behind :=
  (s.behind.find? fun b => b.sec = sec).getD { sec := sec, data := none, plane := none, tag := none }

def State.setBehind (s : State) (b : Behind) : State :=
  let rest := s.behind.filter fun x => x.sec ≠ b.sec
  { s with behind := if b.data.isNone && b.tag.isNone then rest else rest ++ [b] }

/-- A sector's tag becomes dirty in the peat-plane line; a sector becomes dirty with its tag (00 R2). -/
def State.tagFalls (s : State) (sec : Nat) : State :=
  let b := s.behindAt sec
  s.setBehind { b with tag := some (b.tag.getD (s.tagNow sec)) }

def State.dataFalls (s : State) (sec : Nat) : State :=
  let b := s.behindAt sec
  s.setBehind
    { b with data := some (b.data.getD (s.dataNow sec)), plane := if b.data.isSome then b.plane else some (s.tagNow sec),
             tag := some (b.tag.getD (s.tagNow sec)) }

/-- The data sectors whose tags lie in a sector of the peat window. -/
def planeSectors (sec : Nat) : List Nat :=
  if isPeat (64 * sec) then (List.range 32).filterMap fun k => peatSector (64 * sec + 2 * k) else []

/-- The tags of a line's sectors have a place in the peat plane (11 R217, R218). -/
def Loc.hasTags (l : Loc) : Bool := l.tagged && decide (l.key < dataEnd)

/-- Sectors become dirty in a cache: memory keeps what they held (00 R2). -/
def State.fallBehind (s : State) (l : Loc) (mask : BitVec 4) : State :=
  (sectorsOf l mask).foldl
    (fun r n => match planeSectors n with
      | [] => r.dataFalls n
      | ts => ts.foldl State.tagFalls r) s

/-- Sectors have been written to memory; their tags go to the peat-plane line (17 R334). -/
def State.caughtUp (s : State) (l : Loc) (mask : BitVec 4) : State :=
  (sectorsOf l mask).foldl
    (fun r n => match planeSectors n with
      | [] => let b := r.behindAt n; r.setBehind { b with data := none, plane := none, tag := if l.hasTags then b.tag else none }
      | ts => ts.foldl (fun r m => let b := r.behindAt m; r.setBehind { b with tag := if b.data.isSome then b.plane else none }) r) s

/-! ## The L2 -/

/-- The peat-plane line of a line's tags, in the slice that serves the line (11 R218), after its sector has been read or written:
whether the sector had to be filled, and the line. -/
def State.peatLine (s : State) (l : Loc) (write : Bool) : Bool × Line :=
  let a := peatOf (l.key / 256 * 256)
  let m : BitVec 4 := 1#4 <<< (a / 64 % 4)
  let x := lineAt s.l2 { key := a, tagged := false, l2s := l.l2s, cp := 0 }
  (x.present &&& m = 0, { x with present := x.present ||| m, dirty := if write then x.dirty ||| m else x.dirty })

/-- The lines of an L2 slice of 8 MiB (01 R14). -/
def l2Lines : Nat := 32768

/-- A line enters its L2 slice. In a full slice another leaves, any one (log 20) that no EMPTY granule pins (11 R222): its dirty sectors go to memory and their tags to the
peat plane, charged to the evictor (17 R334). The number bounds how often a tag's line pushes out another. -/
def State.l2Insert (who : Option Nat) : Nat → Line → State → State
  | 0, x, s => { s with l2 := putL2 s.l2 x }
  | k + 1, x, s =>
    let mine := s.l2.filter fun y => y.loc.l2s = x.loc.l2s && y.no ≠ x.no
    if mine.length < l2Lines then { s with l2 := putL2 s.l2 x }
    else
      let loose := mine.filter fun y => !s.emptyGran.any fun p => p.1 / 32 = y.no
      let v := loose.getD (s.choose (64 * x.no + 12) loose.length) x
      let s1 : State := { s with l2 := putL2 (dropL2 s.l2 v.loc) x }
      if v.dirty = 0 then s1
      else
        let s2 := (s1.chargeBy who .wb (pop4 v.dirty)).caughtUp v.loc v.dirty
        if v.loc.hasTags then
          let p := s2.peatLine v.loc true
          State.l2Insert who k p.2 (if p.1 then s2.chargeBy who .fill 1 else s2)
        else s2

def State.l2Put (s : State) (who : Option Nat) (x : Line) : State := State.l2Insert who (s.l2.length + 1) x s

/-- The tags of a line are read from the peat plane, or written to it (17 R334). -/
def State.peatTouch (s : State) (who : Option Nat) (l : Loc) (write : Bool) : State :=
  if l.hasTags then
    let p := s.peatLine l write
    (if p.1 then s.chargeBy who .fill 1 else s).l2Put who p.2
  else s

/-- A line whose mappings disagree is taken from the slice that served it before (11 R211). -/
def State.l2Move (s : State) (who : Option Nat) (l : Loc) : State :=
  if isPeat l.key then s
  else
    match s.l2.find? fun x => x.no = l.key / 256 && x.loc.l2s ≠ l.l2s with
    | none => s
    | some x =>
      let s1 : State := { s with l2 := dropL2 s.l2 x.loc }
      if x.dirty = 0 then s1 else ((s1.chargeBy who .wb (pop4 x.dirty)).caughtUp x.loc x.dirty).peatTouch who x.loc true

/-- A place that no L2 slice keeps after a miss: under CP = 2, or where nothing caches it (17 Table 17.4, 19 R363). -/
def Loc.passesL2 (l : Loc) : Bool := l.cp = 2 || l.cp = 4

/-- The L2's part of a line request, charged by `who`: a hit, or a fill of the sectors that are missing and of their tags (17 R334).
Lines of a peer are not kept (19 R364). -/
def State.l2Serve (s : State) (who : Option Nat) (l : Loc) (mask : BitVec 4) : State :=
  if isPeer l.key then s.chargeBy who .fenreq 1
  else
    let s0 := s.l2Move who l
    let x := lineAt s0.l2 l
    let miss := mask &&& ~~~x.present
    if miss = 0 then s0.chargeBy who .hit 1
    else
      let s1 := s0.chargeBy who .fill (pop4 miss)
      (if l.passesL2 then s1
        else s1.l2Put who { x with loc := { l.line with tagged := l.tagged || x.loc.tagged }, present := x.present ||| mask }).peatTouch
        who l false

/-- A line request of an ASID at its L2 slice. -/
def State.l2Request (s : State) (asid : Nat) (l : Loc) (mask : BitVec 4) : State := s.l2Serve (some asid) l mask

/-- Sectors of a line are written at the L2 slice: they become dirty there, or memory is written where the slice does not keep the
line. -/
def State.l2Dirty (s : State) (who : Option Nat) (l : Loc) (mask : BitVec 4) : State :=
  match findL2 s.l2 l with
  | some x => let s1 := s.fallBehind l mask; { s1 with l2 := putL2 s1.l2 { x with dirty := x.dirty ||| mask, by_ := who } }
  | none =>
    if isPeer l.key then s
    else (if l.hasTags then (sectorsOf l mask).foldl State.tagFalls s else s).peatTouch who l true

/-- Dirty sectors written back from an L1 arrive at their slice, a line request that needs no fill (11 R213, 17 R334). -/
def State.l2Accept (s : State) (who : Option Nat) (die : Nat) (y : Line) : State :=
  let l := y.loc
  let mask := y.dirty
  let s1 := s.countReq die l
  if isPeer l.key then (s1.chargeBy who .fenreq 1).caughtUp l mask
  else
    let s2 := (s1.l2Move who l).chargeBy who .hit 1
    match findL2 s2.l2 l with
    | some x => { s2 with l2 := putL2 s2.l2 { x with present := x.present ||| mask, dirty := x.dirty ||| mask, by_ := y.by_ } }
    | none =>
      if l.passesL2 then (s2.caughtUp l mask).peatTouch who l true
      else s2.l2Put who { emptyLine l with present := mask, dirty := mask, by_ := y.by_ }

/-! ## The L1 -/

/-- The lines of a set of the L1, and its sets (11 R210). -/
def l1Ways : Nat := 12
def l1Sets : Nat := 64

/-- A line enters a tile's L1. From a full set another leaves, any one (log 20), its dirty sectors going to the L2. -/
def State.l1Put (s : State) (who : Option Nat) (t : Nat) (x : Line) : State :=
  let rest := dropLine (s.tile t).l1 x.no
  let mates := rest.filter fun y => y.no % l1Sets = x.no % l1Sets
  if mates.length < l1Ways then s.updTile t fun y => { y with l1 := x :: rest }
  else
    let v := mates.getD (s.choose (64 * x.no + 13) mates.length) x
    let s1 := s.updTile t fun y => { y with l1 := x :: dropLine rest v.no }
    if v.dirty = 0 then s1 else s1.l2Accept who (t / 32) v

/-- A tile's dirty sectors of a line go to its L2 slice (11 R213, R235); `drop`: the L1 copy goes. -/
def State.l1Clean (s : State) (who : Option Nat) (t : Nat) (drop : Bool) (n : Nat) : State :=
  match findLine (s.tile t).l1 n with
  | none => s
  | some x =>
    let s1 := s.updTile t fun y => { y with l1 := if drop then dropLine y.l1 n else putLine y.l1 { x with dirty := 0 } }
    if x.dirty = 0 then s1 else s1.l2Accept who (t / 32) x

/-- Takes the line from the L1s of the other tiles: their dirty sectors go to the L2, each write-back a line request of its
die (11 R210, R213). `drop`: the copies are invalidated too. -/
def State.recall (s : State) (who : Option Nat) (t : Nat) (l : Loc) (drop : Bool) : State :=
  s.tiles.foldl
    (fun r p => if p.1 = t || (findLine p.2.l1 (l.key / 256)).isNone then r else r.l1Clean who p.1 drop (l.key / 256)) s

/-- Lines of places, each with the sectors touched. -/
def lineMasks (ls : List (Loc × Nat)) : List (Loc × BitVec 4) :=
  ls.foldl
    (fun r p =>
      let m : BitVec 4 :=
        (List.range 4).foldl
          (fun m i => if p.1.key % 256 < 64 * (i + 1) && 64 * i < p.1.key % 256 + p.2 then m ||| (1#4 <<< i) else m) 0
      match r.find? fun q => q.1.key / 256 = p.1.key / 256 with
      | some _ => r.map fun q => if q.1.key / 256 = p.1.key / 256 then (q.1, q.2 ||| m) else q
      | none => r ++ [(p.1, m)])
    []

/-- One line reached through a tile's L1 (11 R210): a request where a sector is missing, or where a write finds no dirty
copy of its own (log 20). A line that needs no request stays of the slice that filled it (R211). -/
def State.touchLine (s : State) (t asid : Nat) (write : Bool) (l : Loc) (mask : BitVec 4) : State :=
  if isPad l.key then s
  else
    let who := some asid
    let x := (findLine (s.tile t).l1 (l.key / 256)).getD (emptyLine l)
    let held := x.present &&& mask = mask && (!write || x.dirty ≠ 0)
    let s1 := if held then s else ((s.recall who t l write).countReq (t / 32) l).l2Request asid l mask
    if l.cp = 1 || l.cp = 4 then (if write then s1.l2Dirty who l mask else s1)
    else
      let s2 := if write then s1.fallBehind l mask else s1
      s2.l1Put who t
        { x with
            loc := { (if held then x.loc else l.line) with tagged := l.tagged || x.loc.tagged }, present := x.present ||| mask,
            dirty := if write then x.dirty ||| mask else x.dirty, by_ := if write then who else x.by_ }

/-- The places of a beat, or of a queue entry, reached through the L1: one request per line. -/
def State.touch (s : State) (t asid : Nat) (write : Bool) (ls : List (Loc × Nat)) : State :=
  (lineMasks ls).foldl (fun r p => r.touchLine t asid write p.1 p.2) s

/-- No tile, so that a recall reaches all of them. -/
def noTile : Nat := 256

/-- One line reached at its L2 slice: every L1 copy is recalled, and dropped before a write (11 R210, 12 R245). -/
def State.sliceLine (s : State) (who : Option Nat) (write : Bool) (l : Loc) (mask : BitVec 4) : State :=
  let s1 := (s.recall who noTile l write).l2Serve who l mask
  if write then s1.l2Dirty who l mask else s1

/-- Places reached at their L2 slices by a die's units: one request per line (11 R213). -/
def State.atSlice (s : State) (die asid : Nat) (write : Bool) (ls : List (Loc × Nat)) : State :=
  (lineMasks (ls.filter fun p => !isPad p.1.key)).foldl
    (fun r p => (r.countReq die p.1).sliceLine (some asid) write p.1 p.2) s

/-- The same for a context's walks. -/
def State.walkTouch (s : State) (asid : Nat) (ls : List (Loc × Nat)) : State :=
  (lineMasks ls).foldl (fun r p => r.sliceLine (some asid) false p.1 p.2) s

/-- The same for the host and the hub's units. -/
def State.hubTouch (s : State) (write : Bool) (ls : List (Loc × Nat)) : State :=
  (lineMasks ls).foldl (fun r p => r.sliceLine none write p.1 p.2) s

/-- The line of a place, in the slice that last filled it where mappings disagree (11 R211); a line of tags in the place's own. -/
def findFilled (ls : List Line) (l : Loc) : Option Line := if isPeat l.key then findL2 ls l else findLine ls (l.key / 256)

/-- The L2 slice's dirty sectors of a line go to memory with their tags, charged to the context (17 R334); `drop`: the L2 copy goes. -/
def State.l2Clean (s : State) (who : Option Nat) (drop : Bool) (l : Loc) : State :=
  match findFilled s.l2 l with
  | none => s
  | some x =>
    let s1 : State := { s with l2 := if drop then dropL2 s.l2 x.loc else putL2 s.l2 { x with dirty := 0 } }
    if x.dirty = 0 then s1
    else
      let s2 := (s1.chargeBy who .wb (pop4 x.dirty)).caughtUp x.loc x.dirty
      if x.loc.hasTags then
        let p := s2.peatLine x.loc false
        let m : BitVec 4 := 1#4 <<< (peatOf x.loc.line.key / 64 % 4)
        (((if p.1 then s2.chargeBy who .fill 1 else s2).chargeBy who .wb 1).l2Put who { p.2 with dirty := p.2.dirty &&& ~~~m }).caughtUp p.2.loc m
      else s2

/-- What a context's stores have left in a tile's L1 and in the L2 of host memory goes there, charged to it (12 R246, R258, 17 R334). -/
def State.drainHost (s : State) (t asid : Nat) : State :=
  let mine (x : Line) : Bool := isOuter x.loc.key && decide (x.dirty ≠ 0) && x.by_ = some asid
  let s1 := ((s.tile t).l1.filter mine).foldl (fun r x => r.l1Clean (some asid) t false x.no) s
  (s1.l2.filter mine).foldl (fun r x => r.l2Clean (some asid) false x.loc) s1

/-- A tile's L1 holds every sector of n bytes. -/
def State.l1Holds (s : State) (t k n : Nat) : Bool :=
  (List.range ((k % 64 + n + 63) / 64)).all fun i => holdsSector (s.tile t).l1 (k / 64 * 64 + 64 * i)

/-! ## Translation -/

/-- What an access is, for 17 Table 17.5 and Table 17.7. -/
inductive AccKind where
  | load | store | atomic | fetch | csrc | cdst | mst | pgreq | cctl | pref | ldf | stf
deriving DecidableEq, Repr

/-- KIND of a fault record (17 Table 17.7). -/
def AccKind.code : AccKind → Nat
  | .load | .cctl | .pref => 0
  | .store => 1 | .atomic => 2 | .fetch => 3 | .csrc => 4 | .cdst => 5 | .mst => 6 | .pgreq => 7 | .ldf => 0 | .stf => 1

def AccKind.isWrite : AccKind → Bool
  | .store | .atomic | .cdst | .mst | .stf => true
  | _ => false

/-- How an entry reads. -/
inductive EntryKind where
  | invalid | malformed | table (base : Nat) | page
deriving DecidableEq, Repr

/-- log2 of the size of a leaf's page at a level, and bits of the index (17 Table 17.2). -/
def levelShift (lv : Nat) : Nat :=
  match lv with
  | 0 => 48 | 1 => 39 | 2 => 30 | 3 => 21 | _ => 16

def levelBits (lv : Nat) : Nat :=
  match lv with
  | 0 => 8 | 1 => 9 | 2 => 9 | 3 => 9 | _ => 5

/-- Bytes of the table that level lv indexes. -/
def tableSize (lv : Nat) : Nat := 8 * 2 ^ levelBits lv

/-- A bit field of a word, [hi:lo]. -/
def bits (w : DWord) (hi lo : Nat) : Nat := w.toNat / 2 ^ lo % 2 ^ (hi + 1 - lo)

/-- The ASID entry (17 Table 17.1). -/
def asidKind (w0 w1 : DWord) : EntryKind :=
  if !w0.getLsbD 0 then .invalid
  else
    let root := bits w0 51 11 * 2 ^ 11
    if bits w0 63 52 ≠ 0 || bits w0 10 1 ≠ 0 || bits w1 63 9 ≠ 0 || (w1.getLsbD 8 && bits w1 7 0 = 0) ||
        dataEnd < root + tableSize 0 then .malformed
    else .table root

/-- An entry of a table of level lv, read in package `id` (17 Tables 17.3 and 17.4, R321, R325). -/
def pteKind (id lv : Nat) (e : DWord) : EntryKind :=
  if !e.getLsbD 0 then .invalid
  else if !e.getLsbD 1 then
    let base := bits e 51 8 * 2 ^ 8
    if lv = 4 || bits e 63 52 ≠ 0 || bits e 7 2 ≠ 0 || base % tableSize (lv + 1) ≠ 0 ||
        dataEnd < base + tableSize (lv + 1) then .malformed
    else .table base
  else
    let pl := bits e 7 6
    if lv < 2 || bits e 53 52 ≠ 0 || bits e 15 14 ≠ 0 || bits e 51 16 * 2 ^ 16 % 2 ^ levelShift lv ≠ 0 || bits e 12 11 = 3 ||
        pl = 3 || (pl ≠ 1 && bits e 10 8 ≠ 0) || (pl = 2 && bits e 63 54 ≠ id) then .malformed
    else .page

/-- The entry a lookup uses: memory's, or one that a cache holds and no TLBINV has dropped (17 R324). -/
def State.pickEntry (s : State) (asid lv pre salt : Nat) (w0 w1 : DWord) : DWord × DWord :=
  let old := (s.tents.filter fun e => e.asid = asid ∧ e.level = lv ∧ e.prefix_ = pre ∧ ¬(e.w0 = w0 ∧ e.w1 = w1)).map
    fun e => (e.w0, e.w1)
  match s.choose salt (old.length + 1) with
  | 0 => (w0, w1)
  | k + 1 => old.getD k (w0, w1)

/-- What a walk comes to: where it stopped, or the page entry with its level; the entries it read that caches hold, and the level and
address of every entry it read. -/
structure Walk where
  kind : EntryKind
  entry : DWord
  level : Nat
  read : List TEnt
  places : List (Nat × Nat)
deriving DecidableEq, Repr

/-- The levels of a walk from lv on: k of them are left. -/
def State.walkFrom (s : State) (asid va : Nat) : Nat → Nat → Nat → List TEnt → List (Nat × Nat) → Walk
  | 0, lv, _, rd, ps => { kind := .malformed, entry := 0, level := lv, read := rd, places := ps }
  | k + 1, lv, table, rd, ps =>
    let pre := va / 2 ^ levelShift lv
    let a := table + 8 * (pre % 2 ^ levelBits lv)
    let e := (s.pickEntry asid lv pre ((va / 2 ^ 16 * 8 + lv) * 64 + 7) (s.read64 a) 0).1
    let rd' := { asid := asid, level := lv, prefix_ := pre, w0 := e, w1 := 0 } :: rd
    let ps' := (lv, a) :: ps
    match pteKind s.csr.fldomId.toNat lv e with
    | .invalid => { kind := .invalid, entry := e, level := lv, read := rd, places := ps' }
    | .malformed => { kind := .malformed, entry := e, level := lv, read := rd, places := ps' }
    | .page => { kind := .page, entry := e, level := lv, read := if e.getLsbD 2 then rd' else rd, places := ps' }
    | .table b => s.walkFrom asid va k (lv + 1) b rd' ps'

/-- The walk of an address (17 R321, R325). ENTRY is 0 when the ASID entry fails (17 Table 17.6). -/
def State.walk (s : State) (asid va : Nat) : Walk :=
  let k := s.csr.asidtb.toNat + 16 * asid
  let w := s.pickEntry asid 5 0 (asid * 64 + 6) (s.read64 k) (s.read64 (k + 8))
  match asidKind w.1 w.2 with
  | .table b => s.walkFrom asid va 5 0 b [{ asid := asid, level := 5, prefix_ := 0, w0 := w.1, w1 := w.2 }] [(5, k)]
  | e => { kind := e, entry := 0, level := 5, read := [], places := [(5, k)] }

/-- The route entry of a host or CXL address (19 R363). -/
def State.route? (s : State) (pa : Nat) : Option (DWord × DWord) :=
  ((List.range 16).find? fun i =>
      let lo := Sparse.get 0 s.csr.cxlLo i
      lo.getLsbD 0 && decide (bits lo 51 28 ≤ pa / 2 ^ 28) && decide (pa / 2 ^ 28 ≤ bits (Sparse.get 0 s.csr.cxlHi i) 51 28)).map
    fun i => (Sparse.get 0 s.csr.cxlLo i, Sparse.get 0 s.csr.cxlHi i)

/-- The memory that a host or CXL address names: the host's, or that of the G-FAM device with the entry's DPID, whichever port carries the
access (19 R363, log 87). -/
def State.outerDev (s : State) (pa : Nat) : Nat :=
  match s.route? pa with
  | some (_, hi) => if hi.getLsbD 1 then bits hi 27 16 + 1 else 0
  | none => 0

/-- One page of a lookup: base and size, the cause (0: none), ENTRY, and the page entry. -/
structure Page where
  base : Nat
  bits_ : Nat
  cause : Nat
  entry : DWord
  leaf : DWord
deriving DecidableEq, Repr

/-- A virtual address lies in the page. -/
def Page.holds (p : Page) (va : Nat) : Bool := p.base ≤ va && va < p.base + 2 ^ p.bits_

/-- The physical address of a virtual one in a page. -/
def Page.pa (p : Page) (va : Nat) : Nat := bits p.leaf 51 16 * 2 ^ 16 + va % 2 ^ p.bits_

/-- The interleaved slice (11 R211). -/
def interleaved (pa : Nat) : Nat :=
  (pa / 2 ^ 12 % 64) ^^^ (pa / 2 ^ 18 % 64) ^^^ (pa / 2 ^ 24 % 64) ^^^ (pa / 2 ^ 30 % 64) ^^^ (pa / 2 ^ 36 % 64) ^^^ (pa / 2 ^ 42 % 64)

/-- The slice near die d (11 R211). -/
def nearSlice (d pa : Nat) : Nat :=
  8 * d + ((pa / 2 ^ 12 % 8) ^^^ (pa / 2 ^ 15 % 8) ^^^ (pa / 2 ^ 18 % 8) ^^^ (pa / 2 ^ 21 % 8))

/-- The data granule whose slice serves an address: for the peat window, that of the tags' data (11 R218). -/
def servedAs (pa : Nat) : Nat :=
  if isPeat pa then (match peatSector pa with
    | some sec => 64 * sec
    | none => pa) else pa

/-- The place of a virtual address in a page that has no cause (11 R211, 17 R322, 19 R363, R364). -/
def State.locOf (s : State) (p : Page) (va : Nat) : Loc :=
  let pa := p.pa va
  let home := bits p.leaf 63 54
  let pl := bits p.leaf 7 6
  let tagged := p.leaf.getLsbD 5
  let cp := bits p.leaf 12 11
  if pl = 2 then
    let cached := match s.route? pa with
      | some (lo, hi) => lo.getLsbD 1 && !hi.getLsbD 1
      | none => false
    { key := outerKey (s.outerDev pa) pa, tagged := tagged, l2s := interleaved pa, cp := if cached then cp else 4 }
  else
    let q := servedAs pa
    let sl := if pl = 1 then nearSlice (bits p.leaf 10 8) q else interleaved q
    if home = s.csr.fldomId.toNat then { key := pa, tagged := tagged && !isPeat pa, l2s := sl, cp := cp }
    else { key := peerKey home pa, tagged := tagged, l2s := sl, cp := cp }

/-- The cause of an access to a page entry, orders 3 to 8 of 17 Table 17.5, with 19 R363; futures on a host or CXL page raise
PROTECT, under a code that no rule gives (11 R222, log 24). -/
def State.pageCause (s : State) (k : AccKind) (pm : Bool) (va : Nat) (p : Page) : Nat :=
  let pl := bits p.leaf 7 6
  let home := bits p.leaf 63 54
  let pa := p.pa va
  if k = .cctl || k = .pgreq then (if p.leaf.getLsbD 2 then 0 else 2)
  else if p.leaf.getLsbD 13 && !pm then 5
  else if k.isWrite && !p.leaf.getLsbD 3 then 3
  else if k = .fetch && !p.leaf.getLsbD 4 then 4
  else if pl ≠ 2 && home = s.csr.fldomId.toNat && dataEnd ≤ pa && !(isPeat pa && pm) then 6
  else if pl = 2 && (s.route? pa).isNone then 6
  else if s.csr.fldomCount ≤ home then 8
  else if (k = .ldf || k = .stf) && pl = 2 then 3 + s.choose (va / 2 ^ 16 * 64 + 5) 6
  else if !p.leaf.getLsbD 2 then 2
  else 0

/-- The lookup of one address (17 R323, R325). -/
def State.lookup (s : State) (asid : Nat) (k : AccKind) (pm : Bool) (va : Nat) : Page × Walk :=
  let w := s.walk asid va
  match w.kind with
  | .page =>
    let sh := levelShift w.level
    let p : Page := { base := va / 2 ^ sh * 2 ^ sh, bits_ := sh, cause := 0, entry := w.entry, leaf := w.entry }
    ({ p with cause := s.pageCause k pm va p }, w)
  | e =>
    ({ base := va / 2 ^ 16 * 2 ^ 16, bits_ := 16, cause := if e = .invalid then 1 else 7, entry := w.entry, leaf := 0 }, w)

/-- A tile's L1 TLB holds the page of an address. -/
def State.tlbHit (s : State) (t asid va : Nat) : Bool :=
  [2, 3, 4].any fun lv => (s.tile t).tlb.elem (8 * asid + lv, va / 2 ^ levelShift lv)

/-- An entry of a page, as the hub's L2 TLB holds them; the walkers' caches hold the others. -/
def TEnt.isPage (e : TEnt) : Bool := decide (2 ≤ e.level ∧ e.level ≤ 4) && e.w0.getLsbD 1

/-- The L2 TLB holds the page of an address. -/
def State.l2TlbHit (s : State) (asid va : Nat) : Bool :=
  s.tents.any fun e => e.asid = asid && e.isPage && e.prefix_ = va / 2 ^ levelShift e.level

/-- The entries of the L1 TLB and of the L2 TLB (17 R323). -/
def l1TlbSize : Nat := 512
def l2TlbSize : Nat := 32768

/-- Entries read enter the L2 TLB, where a full one loses any other (log 18), and the walkers' caches. -/
def State.cacheEntries (s : State) (es : List TEnt) : State :=
  es.foldl
    (fun r e =>
      if r.tents.elem e then r
      else
        let pages := r.tents.filter TEnt.isPage
        let gone := if e.isPage && l2TlbSize ≤ pages.length then pages[r.choose (64 * e.prefix_ + 14) pages.length]? else none
        { r with tents := (r.tents.filter fun x => some x ≠ gone) ++ [e] }) s

/-- A place of this package's tables, as the walkers address it (17 R321). -/
def tableLoc (pa : Nat) : Loc := { key := pa, tagged := false, l2s := interleaved pa, cp := 0 }

/-- The places of table entries that a lookup of the hub reads through the L2: none where the L2 TLB holds the page, and none of entries
that the walkers' caches hold. -/
def State.hubReads (s : State) (asid va : Nat) (w : Walk) : List (Loc × Nat) :=
  if s.l2TlbHit asid va then []
  else
    (w.places.filter fun p => !(w.read.any fun e => e.level = p.1 && s.tents.elem e)).map fun p =>
      (tableLoc p.2, if p.1 = 5 then 16 else 8)

/-- The same for a tile's lookup: none where its own TLB holds the page. -/
def State.walkReads (s : State) (t asid va : Nat) (w : Walk) : List (Loc × Nat) :=
  if s.tlbHit t asid va then [] else s.hubReads asid va w

/-- A page enters a tile's L1 TLB; from a full one any other leaves (17 R323, log 18). -/
def State.tlbInsert (s : State) (t : Nat) (e : Nat × Nat) : State :=
  s.updTile t fun x =>
    { x with tlb := e :: (if x.tlb.length < l1TlbSize then x.tlb else x.tlb.eraseIdx (s.choose (64 * e.2 + 15) x.tlb.length)) }

/-- What a lookup leaves in the TLBs and caches of table entries, with its charges (17 R321, R323, R324, R333). -/
def State.noteLookup (s : State) (t asid va : Nat) (w : Walk) : State :=
  if s.tlbHit t asid va then s
  else
    let s1 := (s.walkTouch asid (s.walkReads t asid va w)).cacheEntries w.read
    let s2 := s1.charge asid .tlbmiss 1
    let s3 := if s.l2TlbHit asid va then s2 else s2.charge asid .walk 1
    if w.kind = .page && w.entry.getLsbD 2 then s3.tlbInsert t (8 * asid + w.level, va / 2 ^ levelShift w.level) else s3

/-- A page of a beat with its lowest logical lane and that lane's address. -/
structure BeatPage where
  page : Page
  lane : Nat
  va : Nat
deriving DecidableEq, Repr

/-- The coalescer (`pm` says whether a lane's slice runs privileged code; a page is accessed by privileged code where all its lanes'
slices run it): the pages of a beat's addresses in ascending order of the lowest lane that touches each, and the state
after the lookups (17 R323, R326). A page of which a lane's address has no route has that cause, where none stands before it (19 R363). -/
def State.translate (s : State) (t asid : Nat) (k : AccKind) (pm : Nat → Bool) (vas : List (Nat × Nat)) :
    List BeatPage × State :=
  vas.foldl
    (fun (acc : List BeatPage × State) (q : Nat × Nat) =>
      if acc.1.any fun b => b.page.holds q.2 then acc
      else
        let p := (s.lookup asid k (pm q.1) q.2).1
        let mine := vas.filter fun v => p.holds v.2
        let all := mine.all fun v => pm v.1
        let r := s.lookup asid k all q.2
        let astray := r.2.kind = .page && mine.any fun v => s.pageCause k all v.2 r.1 = 6
        (acc.1 ++ [{ page := if astray then { r.1 with cause := 6 } else r.1, lane := q.1, va := q.2 }], acc.2.noteLookup t asid q.2 r.2))
    ([], s)

/-- The page of a beat that holds an address. -/
def pageOf (ps : List BeatPage) (va : Nat) : Option Page := (ps.find? fun b => b.page.holds va).map BeatPage.page

/-- The place of a translated address. -/
def State.locIn (s : State) (ps : List BeatPage) (va : Nat) : Loc :=
  match pageOf ps va with
  | some p => s.locOf p va
  | none => { key := 0, tagged := false, l2s := 0, cp := 0 }

/-! ## Fault records -/

/-- Places fields into a word. -/
def packBits (fs : List (Nat × Nat)) : DWord := BitVec.ofNat 64 (fs.foldl (fun r f => r + f.1 * 2 ^ f.2) 0)

/-- What a fault record says (17 Table 17.6). -/
structure RecInfo where
  time : DWord
  va : Nat
  asid : Nat
  src : Nat
  lane : Nat
  cause : Nat
  kind : Nat
  eng : Bool
  nrec : Nat
  idx : Nat
  pc : DWord
  group : Nat
  team : Nat
  slice : Nat
  pm : Bool
  tag : DWord
  entry : DWord

def b2n (b : Bool) : Nat := if b then 1 else 0

/-- The record's words (17 Table 17.6). -/
def RecInfo.words (r : RecInfo) : List DWord :=
  [ r.time, BitVec.ofNat 64 r.va,
    packBits [(r.asid % 2 ^ 15, 48), (r.src % 512, 39), (r.lane % 128, 32), (r.cause % 256, 24), (r.kind % 16, 20),
      (b2n r.eng, 16), (r.nrec % 256, 8), (r.idx % 256, 0)],
    r.pc, packBits [(r.group % 64, 10), (r.team % 16, 6), (r.slice % 32, 1), (b2n r.pm, 0)], r.tag, r.entry, 0 ]

/-- The package whose fault processor receives a record (17 R328). -/
def State.recordHome (s : State) (asid va : Nat) : Nat :=
  let hit := (List.range 1024).find? fun i =>
    let lo := Sparse.get 0 s.csr.ownLo i
    let hi := Sparse.get 0 s.csr.ownHi i
    lo.getLsbD 0 && decide (bits hi 53 39 = asid) && decide (bits lo 55 21 ≤ va / 2 ^ 21) && decide (va / 2 ^ 21 ≤ bits hi 34 0)
  match hit with
  | some i => bits (Sparse.get 0 s.csr.ownHi i) 63 54
  | none => s.csr.fldomId.toNat

/-- Sends records, in order, under one beat number. -/
def State.sendRecords (s : State) (beat : Nat) (rs : List RecInfo) : State :=
  { s with sending := s.sending ++ rs.map fun r => { beat := beat, home := s.recordHome r.asid r.va, refused := none, words := r.words } }

/-- A record of the error log (21 Table 21.3) is on its way to the hub. -/
def State.logError (s : State) (kind : Nat) (addr : DWord) (asid src lane group team slice : Nat) (pc tag detail : DWord) :
    State :=
  { s with errSent := s.errSent ++
      [{ beat := 0, home := 0, refused := none,
         words :=
          [ s.time, addr,
            packBits [(asid % 2 ^ 15, 48), (src % 512, 39), (lane % 128, 32), (kind % 256, 24), (group % 64, 10), (team % 16, 6),
              (slice % 32, 1)],
            pc, tag, detail, 0, 0 ] }] }

/-- CORRECTED: an array (21 Table 21.4), where no instruction is concerned. A source writes at most one in 1 µs; the next counts those
suppressed (21 R377, R390). -/
def State.logCorrected (s : State) (src : Nat) (addr : DWord) (array : Nat) : State :=
  let c := (Sparse.find? s.corr src).getD { at_ := s.time - 1000, cnt := 0 }
  if s.time - c.at_ < 1000 then { s with corr := Sparse.insert s.corr src { c with cnt := min 255 (c.cnt + 1) } }
  else
    { s with
        corr := Sparse.insert s.corr src { at_ := s.time, cnt := 0 },
        errSent := s.errSent ++
          [{ beat := 0, home := 0, refused := none,
             words := [s.time, addr, packBits [(src % 512, 39), (1, 24), (c.cnt, 16)], 0, 0, BitVec.ofNat 64 array, 0, 0] }] }

end Sys2Proof.Machine
end

