-- ==== Sys2Proof/Machine/CopyOps.lean ====
section
/-! DEFINITION. Copies: the places of their units (13 R267), the ownership of destinations (12 R253), and the transitions of
the buffer table (13 R264, R265). -/

namespace Sys2Proof.Machine

/-! ## Shape -/

/-- The number of 8-byte units. -/
def Copy.units (c : Copy) : Nat := c.x0 * c.x1 * c.x2 / 8

/-- The offset of unit u on the dense side, and on the strided side (13 R267). -/
def Copy.dense (u : Nat) : Int := 8 * (u : Int)
def Copy.strided (c : Copy) (u : Nat) : Int :=
  let row := 8 * u / c.x0
  ((8 * u % c.x0 : Nat) : Int) + ((row % c.x1 : Nat) : Int) * c.t1 + ((row / c.x1 : Nat) : Int) * c.t2

def Copy.srcOff (c : Copy) (u : Nat) : Int := if c.kind = .cout then Copy.dense u else c.strided u
def Copy.dstOff (c : Copy) (u : Nat) : Int := if c.kind = .cout then c.strided u else Copy.dense u

/-- A side's address moved by an offset; global addresses are of 56 bits. -/
def Side.at (x : Side) (o : Int) : Side :=
  match x with
  | .glob va => .glob (BitVec.ofInt 64 (((va.toNat : Int) + o) % (2 ^ 56 : Nat)))
  | .pad t a => .pad t ((a : Int) + o).toNat

/-! ## Ownership -/

/-- The place of a side's address as the copy's accesses see it: none where the page has a cause (13 R272). -/
def State.sideLoc (s : State) (c : Copy) (k : AccKind) (p : Side) : Option Loc :=
  match p with
  | .pad t a => some { key := padKey t a, tagged := true, l2s := 0, cp := 0 }
  | .glob va =>
    let q := (s.lookup c.asid k c.pm va.toNat).1
    if q.cause = 0 then some (s.locOf q va.toNat) else none

/-- Destination unit u, as parts of one page each: address, offset in the unit, and length. -/
def Copy.dstParts (c : Copy) (u : Nat) : List (Side × Nat × Nat) :=
  let p := c.dst.at (c.dstOff u)
  match p with
  | .glob va =>
    let n := 65536 - va.toNat % 65536
    if n < 8 then [(p, 0, n), (p.at n, n, 8 - n)] else [(p, 0, 8)]
  | .pad .. => [(p, 0, 8)]

/-- A destination location that the copy has yet to write lies within n bytes at key k (12 R253, log 29). -/
def State.copyOwns (s : State) (c : Copy) (k n : Nat) : Bool :=
  (List.range (c.units - c.done)).any fun j => (c.dstParts (c.done + j)).any fun p =>
    match s.sideLoc c .cdst p.1 with
    | some l => overlap l.key p.2.2 k n
    | none => false

/-- The copies that engines hold anywhere. -/
def State.engineCopies (s : State) : List Copy := s.tiles.flatMap fun x => x.2.eng0 ++ x.2.eng1

/-- A place that an engine owns: an access waits until it has been written (12 R253). -/
def State.owned (s : State) (k n : Nat) : Bool := s.engineCopies.any fun c => s.copyOwns c k n

/-- A lookup of a beat would read a table entry that a copy engine owns (12 R253, 17 R321). -/
def State.walkHeld (s : State) (t asid : Nat) (vas : List Nat) : Bool :=
  !s.engineCopies.isEmpty && vas.any fun va => (s.walkReads t asid va (s.walk asid va)).any fun p => s.owned p.1.key p.2

/-! ## Poison as reads find it -/

/-- A peer that no usable port reaches (19 R366): all 16 ports are down. -/
def State.unroutable (s : State) : Bool := (List.range 16).all fun p => Sparse.get 0 s.ports p = 2

/-- What a read from tile t, none for one at the slice, finds poisoned: the granules themselves, an address outside the peer's data space,
or, where the tile's L1 does not hold them, a peer given up on (19 R364, R366, 21 R378). -/
def State.poisonFrom (s : State) (t k n : Nat) : Bool :=
  s.poisoned k n ||
    (isPeer k && (decide (dataEnd ≤ k % 2 ^ 53) || (s.unroutable && s.noRoute.elem (peerOf k) && !s.l1Holds t k n)))

/-- The same at the slice. -/
def State.poisonAt (s : State) (k n : Nat) : Bool := s.poisonFrom noTile k n

/-- The physical address of a key, for a frame or record. -/
def physOf (k : Nat) : Nat := if isPad k then k % 2 ^ 19 else k % 2 ^ 52

/-- The first poisoned unit that n bytes from a key on touch, by its key, as a read from tile t finds it; one that holds the key where a
value held before was poisoned. -/
def State.badUnit (s : State) (t k n : Nat) : Nat :=
  match (unitsOf k n).find? fun u => s.poisonFrom t (8 * u) 8 with
  | some u => 8 * u
  | none => k / 8 * 8

/-- The table entry, if any, that a lookup of a tile reads poisoned (17 R321, 21 R379). -/
def State.walkPoison (s : State) (t asid va : Nat) : Option Nat :=
  ((s.walkReads t asid va (s.walk asid va)).find? fun p => s.poisoned p.1.key p.2).map fun p => s.badUnit t p.1.key p.2

/-! ## The buffer table -/

/-- F advances over the FREE slots below Q (13 R265), k times at most. -/
def Handle.advF (h : Handle) : Nat → Handle
  | 0 => h
  | k + 1 =>
    if h.f ≠ h.q && (h.slots.getD h.f { st := .free, fail := false }).st = .free then
      Handle.advF { h with f := (h.f + 1) % h.slots.length } k
    else h

/-- The slot at a pointer. -/
def Handle.at (h : Handle) (k : Nat) : RSlot := h.slots.getD k { st := .free, fail := false }

def Handle.setSlot (h : Handle) (k : Nat) (x : RSlot) : Handle := { h with slots := h.slots.set k x }

/-- Frees slot k, its FAIL bit cleared, and advances F. -/
def Handle.free (h : Handle) (k : Nat) : Handle := (h.setSlot k { st := .free, fail := false }).advF h.slots.length

/-- Team offset of slot k (13 R263). -/
def Handle.off (h : Handle) (k : Nat) : Nat := h.base + k * h.sz

def State.handle? (s : State) (t k : Nat) : Option Handle := Sparse.find? (s.tile t).handles k

def State.setHandle (s : State) (t k : Nat) (h : Handle) : State :=
  s.updTile t fun x => { x with handles := Sparse.insert x.handles k h }

end Sys2Proof.Machine
end

