-- ==== Sys2Proof/Decode.lean ====
section
/-! DEFINITION. Words of the instruction set: the five formats of 05 R82-R90 as records of their fields, the encoder
written from 05 Tables 5.2-5.9 and the chapters' field tables, and the decoder. The decoder reads the fields that an
opcode uses, and accepts the words only if they are exactly the encoding of the well-formed instruction read: so a field
or part of a field that the opcode does not use, or a code that names nothing, is a breach (05 R86, R93, R94). -/

namespace Sys2Proof

/-- Bit k of a number. -/
def bitOf (n k : Nat) : Bool := decide (n / 2 ^ k % 2 = 1)

/-- An 8-bit field that holds a code. -/
def code8 (n : Nat) : BitVec 8 := BitVec.ofNat 8 n

/-- A field that names an S register: bits [4:0], the rest 0 (05 R86). -/
def sf (r : SReg) : BitVec 8 := r.setWidth 8

/-- A field that names a predicate: bits [2:0], the rest 0 (05 R86). -/
def pf (p : PReg) : BitVec 8 := p.setWidth 8

/-! ## Codes -/

/-- 05 Table 5.6. -/
def Ty.code : Ty → Nat
  | .b32 => 0 | .i32 => 1 | .n32 => 2 | .f32 => 3 | .f16 => 4 | .bf16 => 5 | .f64 => 6 | .i64 => 7
  | .n64 => 8 | .e4m3 => 9 | .e5m2 => 10 | .e2m1 => 11 | .i4x => 12 | .i8 => 13 | .n8 => 14

/-- The type of a code; code 15 names none, and gives b32, whose code differs. -/
def Ty.ofCode : Nat → Ty
  | 1 => .i32 | 2 => .n32 | 3 => .f32 | 4 => .f16 | 5 => .bf16 | 6 => .f64 | 7 => .i64
  | 8 => .n64 | 9 => .e4m3 | 10 => .e5m2 | 11 => .e2m1 | 12 => .i4x | 13 => .i8 | 14 => .n8 | _ => .b32

/-- 05 Table 5.6: the TY field, where 15 is FMT. -/
def TyF.code : TyF → Nat
  | .ty t => t.code
  | .fmt => 15

def TyF.ofCode (n : Nat) : TyF := if n = 15 then .fmt else .ty (Ty.ofCode n)

/-- 05 Table 5.2. -/
def UC.code : UC → Nat
  | .auto => 0 | .f => 1 | .s => 2 | .t => 3

def UC.ofCode : Nat → UC
  | 1 => .f | 2 => .s | 3 => .t | _ => .auto

/-- 05 Table 5.3. -/
def Rnd.code : Rnd → Nat
  | .dflt => 0 | .rne => 1 | .rz => 2 | .ru => 3 | .rd => 4 | .sr => 5

def Rnd.ofCode : Nat → Rnd
  | 1 => .rne | 2 => .rz | 3 => .ru | 4 => .rd | 5 => .sr | _ => .dflt

/-- 06 Table 6.2. -/
def Cond.code : Cond → Nat
  | .eq => 0 | .ne => 1 | .lt => 2 | .ge => 3 | .le => 4 | .gt => 5 | .ltn => 6 | .gen => 7

def Cond.ofCode : Nat → Cond
  | 1 => .ne | 2 => .lt | 3 => .ge | 4 => .le | 5 => .gt | 6 => .ltn | 7 => .gen | _ => .eq

/-- 07 Table 7.4. -/
def FCond.code : FCond → Nat
  | .eq => 0 | .ne => 1 | .lt => 2 | .ge => 3 | .le => 4 | .gt => 5 | .num => 6 | .nan => 7

def FCond.ofCode : Nat → FCond
  | 1 => .ne | 2 => .lt | 3 => .ge | 4 => .le | 5 => .gt | 6 => .num | 7 => .nan | _ => .eq

/-- 05 Table 5.7. -/
def Scope.code : Scope → Nat
  | .grp => 0 | .team => 1 | .clu => 2 | .die => 3 | .pkg => 4 | .dom => 5 | .sys => 6

def Scope.ofCode : Nat → Scope
  | 1 => .team | 2 => .clu | 3 => .die | 4 => .pkg | 5 => .dom | 6 => .sys | _ => .grp

/-- 05 Table 5.4. -/
def Order.code : Order → Nat
  | .rlx => 0 | .acq => 1 | .rel => 2 | .ar => 3

def Order.ofCode : Nat → Order
  | 1 => .acq | 2 => .rel | 3 => .ar | _ => .rlx

/-- 08 Table 8.4. -/
def RedOp.code : RedOp → Nat
  | .add => 0 | .min => 1 | .max => 2 | .and => 3 | .or => 4 | .xor => 5

def RedOp.ofCode : Nat → RedOp
  | 1 => .min | 2 => .max | 3 => .and | 4 => .or | 5 => .xor | _ => .add

/-- 08 R165. -/
def VoteMode.code : VoteMode → Nat
  | .all => 0 | .any => 1 | .uni => 2 | .ballot => 3

def VoteMode.ofCode : Nat → VoteMode
  | 1 => .any | 2 => .uni | 3 => .ballot | _ => .all

/-- 11 Table 11.3. -/
def AtomOp.code : AtomOp → Nat
  | .add => 0 | .min => 1 | .max => 2 | .and => 3 | .or => 4 | .xor => 5 | .exch => 6

def AtomOp.ofCode : Nat → AtomOp
  | 1 => .min | 2 => .max | 3 => .and | 4 => .or | 5 => .xor | 6 => .exch | _ => .add

/-- 11 R228. -/
def AtomTy.code : AtomTy → Nat
  | .nat => 0 | .int => 1 | .flt => 2

def AtomTy.ofCode : Nat → AtomTy
  | 1 => .int | 2 => .flt | _ => .nat

/-- 10 R189. -/
def RoleF.code : RoleF → Nat
  | .none => 0 | .producer => 1 | .consumer => 2

def RoleF.ofCode : Nat → RoleF
  | 1 => .producer | 2 => .consumer | _ => .none

/-- The place of a size in the list b h w d q (05 R97). -/
def MSize.idx : MSize → Nat
  | .b => 0 | .h => 1 | .w => 2 | .d => 3 | .q => 4

def MSize.ofIdx : Nat → MSize
  | 1 => .h | 2 => .w | 3 => .d | 4 => .q | _ => .b

/-- k of 05 R97: 0 for an S base, 1 for a V base. -/
def Base.k : Base → Nat
  | .s _ => 0
  | .v _ => 1

/-- The A field of a base. -/
def Base.field : Base → BitVec 8
  | .s a => sf a
  | .v a => a

/-! ## The formats -/

/-- Format V, and the first word of format X (05 Tables 5.1 and 5.2). -/
structure VWord where
  pk : Bool
  w : Bool
  op : BitVec 10
  pn : Bool
  ps : BitVec 3
  d : BitVec 8
  a : BitVec 8
  b : BitVec 8
  c : BitVec 8
  uc : BitVec 2
  kb : Bool
  kc : Bool
  ty : BitVec 4
  hn : BitVec 4
  mz : BitVec 4
deriving DecidableEq, Repr

/-- Format I (05 Table 5.4). -/
structure IWord where
  pk : Bool
  w : Bool
  op : BitVec 10
  pn : Bool
  ps : BitVec 3
  d : BitVec 8
  a : BitVec 8
  imm : BitVec 24
  hn : BitVec 4
  mz : BitVec 4
deriving DecidableEq, Repr

/-- Format B (05 Table 5.4). -/
structure BWord where
  pk : Bool
  w : Bool
  op : BitVec 10
  pn : Bool
  ps : BitVec 3
  t20 : BitVec 20
  j20 : BitVec 20
  hn : BitVec 4
  mz : BitVec 4
deriving DecidableEq, Repr

/-- Format M (05 Table 5.4). -/
structure MWord where
  pk : Bool
  w : Bool
  op : BitVec 10
  pn : Bool
  ps : BitVec 3
  d : BitVec 8
  a : BitVec 8
  b : BitVec 8
  off : BitVec 10
  sc : BitVec 3
  od : BitVec 2
  fl : Bool
  hn : BitVec 4
  mz : BitVec 4
deriving DecidableEq, Repr

/-- The common fields of a first word, 05 Table 5.1, as a number. -/
def commonBits (pk w : Bool) (op : BitVec 10) (pn : Bool) (ps : BitVec 3) : Nat :=
  pk.toNat * 2 ^ 63 + w.toNat * 2 ^ 62 + op.toNat * 2 ^ 52 + pn.toNat * 2 ^ 51 + ps.toNat * 2 ^ 48

def VWord.word (f : VWord) : DWord :=
  BitVec.ofNat 64 (commonBits f.pk f.w f.op f.pn f.ps + f.d.toNat * 2 ^ 40 + f.a.toNat * 2 ^ 32 + f.b.toNat * 2 ^ 24 +
    f.c.toNat * 2 ^ 16 + f.uc.toNat * 2 ^ 14 + f.kb.toNat * 2 ^ 13 + f.kc.toNat * 2 ^ 12 + f.ty.toNat * 2 ^ 8 +
    f.hn.toNat * 2 ^ 4 + f.mz.toNat)

def VWord.of (w : DWord) : VWord :=
  let n := w.toNat
  { pk := bitOf n 63, w := bitOf n 62, op := BitVec.ofNat _ (n / 2 ^ 52), pn := bitOf n 51,
    ps := BitVec.ofNat _ (n / 2 ^ 48), d := BitVec.ofNat _ (n / 2 ^ 40), a := BitVec.ofNat _ (n / 2 ^ 32),
    b := BitVec.ofNat _ (n / 2 ^ 24), c := BitVec.ofNat _ (n / 2 ^ 16), uc := BitVec.ofNat _ (n / 2 ^ 14),
    kb := bitOf n 13, kc := bitOf n 12, ty := BitVec.ofNat _ (n / 2 ^ 8), hn := BitVec.ofNat _ (n / 2 ^ 4),
    mz := BitVec.ofNat _ n }

def IWord.word (f : IWord) : DWord :=
  BitVec.ofNat 64 (commonBits f.pk f.w f.op f.pn f.ps + f.d.toNat * 2 ^ 40 + f.a.toNat * 2 ^ 32 + f.imm.toNat * 2 ^ 8 +
    f.hn.toNat * 2 ^ 4 + f.mz.toNat)

def IWord.of (w : DWord) : IWord :=
  let n := w.toNat
  { pk := bitOf n 63, w := bitOf n 62, op := BitVec.ofNat _ (n / 2 ^ 52), pn := bitOf n 51,
    ps := BitVec.ofNat _ (n / 2 ^ 48), d := BitVec.ofNat _ (n / 2 ^ 40), a := BitVec.ofNat _ (n / 2 ^ 32),
    imm := BitVec.ofNat _ (n / 2 ^ 8), hn := BitVec.ofNat _ (n / 2 ^ 4), mz := BitVec.ofNat _ n }

def BWord.word (f : BWord) : DWord :=
  BitVec.ofNat 64 (commonBits f.pk f.w f.op f.pn f.ps + f.t20.toNat * 2 ^ 28 + f.j20.toNat * 2 ^ 8 +
    f.hn.toNat * 2 ^ 4 + f.mz.toNat)

def BWord.of (w : DWord) : BWord :=
  let n := w.toNat
  { pk := bitOf n 63, w := bitOf n 62, op := BitVec.ofNat _ (n / 2 ^ 52), pn := bitOf n 51,
    ps := BitVec.ofNat _ (n / 2 ^ 48), t20 := BitVec.ofNat _ (n / 2 ^ 28), j20 := BitVec.ofNat _ (n / 2 ^ 8),
    hn := BitVec.ofNat _ (n / 2 ^ 4), mz := BitVec.ofNat _ n }

def MWord.word (f : MWord) : DWord :=
  BitVec.ofNat 64 (commonBits f.pk f.w f.op f.pn f.ps + f.d.toNat * 2 ^ 40 + f.a.toNat * 2 ^ 32 + f.b.toNat * 2 ^ 24 +
    f.off.toNat * 2 ^ 14 + f.sc.toNat * 2 ^ 11 + f.od.toNat * 2 ^ 9 + f.fl.toNat * 2 ^ 8 + f.hn.toNat * 2 ^ 4 +
    f.mz.toNat)

def MWord.of (w : DWord) : MWord :=
  let n := w.toNat
  { pk := bitOf n 63, w := bitOf n 62, op := BitVec.ofNat _ (n / 2 ^ 52), pn := bitOf n 51,
    ps := BitVec.ofNat _ (n / 2 ^ 48), d := BitVec.ofNat _ (n / 2 ^ 40), a := BitVec.ofNat _ (n / 2 ^ 32),
    b := BitVec.ofNat _ (n / 2 ^ 24), off := BitVec.ofNat _ (n / 2 ^ 14), sc := BitVec.ofNat _ (n / 2 ^ 11),
    od := BitVec.ofNat _ (n / 2 ^ 9), fl := bitOf n 8, hn := BitVec.ofNat _ (n / 2 ^ 4), mz := BitVec.ofNat _ n }

/-! ## Putting operands into words -/

/-- A V word with its leading fields, all other fields 0. -/
def vh (op : Nat) (h : Hdr) : VWord :=
  { pk := h.pk, w := false, op := BitVec.ofNat 10 op, pn := h.pn, ps := h.ps, d := 0, a := 0, b := 0, c := 0, uc := 0,
    kb := false, kc := false, ty := 0, hn := h.hn, mz := 0 }

/-- A V word with S registers in D and A. -/
def vs (op : Nat) (h : Hdr) (d a : SReg) : VWord := { vh op h with d := sf d, a := sf a }

/-- A V word with a type, D and A. -/
def vt (op : Nat) (h : Hdr) (ty : TyF) (d a : BitVec 8) : VWord :=
  { vh op h with d := d, a := a, ty := BitVec.ofNat 4 ty.code }

/-- A V word of a floating-point operation: unit class, and rounding in the modifier byte (05 R87). -/
def vf (op : Nat) (h : Hdr) (ty : TyF) (uc : UC) (rnd : Rnd) (d a : BitVec 8) : VWord :=
  { vt op h ty d a with uc := BitVec.ofNat 2 uc.code, c := code8 rnd.code }

/-- A V word of a conversion: the source type stands in C[7:4] (05 R87). -/
def vc (op : Nat) (h : Hdr) (ty : TyF) (src : Ty) (rnd : Rnd) (d a : BitVec 8) : VWord :=
  { vt op h ty d a with c := code8 (src.code * 2 ^ 4 + rnd.code) }

def iw (op : Nat) (h : Hdr) (d a : BitVec 8) (imm : BitVec 24) : IWord :=
  { pk := h.pk, w := false, op := BitVec.ofNat 10 op, pn := h.pn, ps := h.ps, d := d, a := a, imm := imm, hn := h.hn,
    mz := 0 }

def bw (op : Nat) (h : Hdr) (t j : BitVec 20) : BWord :=
  { pk := h.pk, w := false, op := BitVec.ofNat 10 op, pn := h.pn, ps := h.ps, t20 := t, j20 := j, hn := h.hn, mz := 0 }

/-- An M word with its base, offset, scope and order. -/
def mm (op : Nat) (h : Hdr) (base : Base) (off : BitVec 10) (sc : Scope) (od : Order) : MWord :=
  { pk := h.pk, w := false, op := BitVec.ofNat 10 op, pn := h.pn, ps := h.ps, d := 0, a := base.field, b := 0, off := off,
    sc := BitVec.ofNat 3 sc.code, od := BitVec.ofNat 2 od.code, fl := false, hn := h.hn, mz := 0 }

/-- 05 R97. -/
def memOp (first sizeIdx : Nat) (base : Base) : Nat := first + 2 * sizeIdx + base.k

/-- OFF10 of ATOM and ATOMS, 11 R228. -/
def atomOff (op : AtomOp) (ty : AtomTy) : BitVec 10 := BitVec.ofNat 10 (ty.code * 2 ^ 4 + op.code)

/-- Y of a scalar opcode, 06 R106. -/
def VWord.putY (f : VWord) : SOpnd → VWord
  | .s b => { f with b := sf b }
  | .imm c => { f with c := c, kc := true }

/-- B as a V register, or as an S register with KB. -/
def VWord.putB (f : VWord) : VOpnd → VWord
  | .v b => { f with b := b }
  | .s b => { f with b := sf b, kb := true }

/-- C as a V register, or as an S register with KC. -/
def VWord.putC (f : VWord) : VOpnd → VWord
  | .v c => { f with c := c }
  | .s c => { f with c := sf c, kc := true }

/-- A shift count, 07 R131. -/
def VWord.putSh (f : VWord) : ShOpnd → VWord
  | .v b => { f with b := b }
  | .s b => { f with b := sf b, kb := true }
  | .imm c => { f with c := c.setWidth 8, kc := true }

/-- Index and validity predicate of a shuffle, 08 R161. -/
def VWord.putIdx (f : VWord) (k : LaneIdx) (pv : PReg) : VWord :=
  match k with
  | .v b => { f with b := b, c := pf pv }
  | .s b => { f with b := sf b, kb := true, c := pf pv }
  | .imm k => { f with b := k.setWidth 8, c := code8 (2 ^ 3 + pv.toNat) }

/-- The B source of MMA, 14 Table 14.3. -/
def VWord.putMma (f : VWord) : MmaSrc → VWord
  | .h k => { f with b := sf k }
  | .s b => { f with b := sf b, kb := true }

/-- A wide instruction: W = 1 and a second word (05 R90). -/
def wide (f : VWord) (w1 : DWord) : List DWord := [{ f with w := true }.word, w1]

def encY (op : Nat) (h : Hdr) (d a : SReg) (y : SOpnd) : List DWord := [((vs op h d a).putY y).word]

/-- A copy, 13 Tables 13.3 and 13.4. -/
def encCpy (op : Nat) (h : Hdr) (c : CpyArgs) : List DWord :=
  wide { vs op h c.d c.a with b := sf c.b, kb := decide (1 ≤ c.nd.toNat), c := sf c.c, kc := decide (c.nd.toNat = 2) }
    (BitVec.ofNat 64 (c.nd.toNat * 2 ^ 62 + c.yl.toNat * 2 ^ 61 + c.hd.toNat * 2 ^ 60 + c.x0.toNat * 2 ^ 47 +
      c.x1.toNat * 2 ^ 35 + c.x2.toNat * 2 ^ 23 + c.cont.toNat))

/-- B of LD: B[7] requests `.nr`, B[2:0] names the residency predicate (05 R89). -/
def nrField : Option PReg → BitVec 8
  | some p => code8 (0x80 + p.toNat)
  | none => 0

/-- C of VTOS: C[2] is SEL, C[1:0] the lane (07 R136). -/
def selField : Option (BitVec 2) → BitVec 8
  | some j => code8 (4 + j.toNat)
  | none => 0

/-- The words of an instruction; an event has none. -/
def encode : Instr → List DWord
  | .sadd h d a y => encY 0x000 h d a y
  | .ssub h d a y => encY 0x001 h d a y
  | .saddi h d a imm => [(iw 0x002 h (sf d) (sf a) imm).word]
  | .smul h d a y => encY 0x003 h d a y
  | .smulh h d a y => encY 0x004 h d a y
  | .smulhn h d a y => encY 0x005 h d a y
  | .sdiv h d a y => encY 0x006 h d a y
  | .sdivn h d a y => encY 0x007 h d a y
  | .srem h d a y => encY 0x008 h d a y
  | .sremn h d a y => encY 0x009 h d a y
  | .sand h d a y => encY 0x00A h d a y
  | .sandn h d a y => encY 0x00B h d a y
  | .sor h d a y => encY 0x00C h d a y
  | .sxor h d a y => encY 0x00D h d a y
  | .sshl h d a y => encY 0x00E h d a y
  | .sshr h d a y => encY 0x00F h d a y
  | .ssra h d a y => encY 0x010 h d a y
  | .srot h d a y => encY 0x011 h d a y
  | .smin h d a y => encY 0x012 h d a y
  | .smax h d a y => encY 0x013 h d a y
  | .sminn h d a y => encY 0x014 h d a y
  | .smaxn h d a y => encY 0x015 h d a y
  | .sclz h d a => [(vs 0x016 h d a).word]
  | .sctz h d a => [(vs 0x017 h d a).word]
  | .spop h d a => [(vs 0x018 h d a).word]
  | .sbfe h d a pos len => [{ vs 0x019 h d a with b := pos.setWidth 8, c := len, kc := true }.word]
  | .sbfi h d a pos len => [{ vs 0x01A h d a with b := pos.setWidth 8, c := len, kc := true }.word]
  | .ssetc h d a b cc => [{ vs 0x01B h d a with b := sf b, c := code8 cc.code }.word]
  | .ssel h d a b c => [{ vs 0x01C h d a with b := sf b, c := sf c }.word]
  | .smov h d a => [(vs 0x01D h d a).word]
  | .sli h d imm => [(iw 0x01E h (sf d) 0 imm).word]
  | .sliw h d imm => wide (vs 0x01F h d 0) imm
  | .movsr h d sel => [(iw 0x020 h (sf d) 0 (sel.setWidth 24)).word]
  | .movrs h sel a => [(iw 0x021 h 0 (sf a) (sel.setWidth 24)).word]
  | .bra h t => [(bw 0x040 h t 0).word]
  | .brs h t cc a => [(bw 0x041 h t (BitVec.ofNat 20 (cc.code * 2 ^ 5 + a.toNat))).word]
  | .brv h t j => [(bw 0x042 h t j).word]
  | .join h => [(bw 0x043 h 0 0).word]
  | .call h t => [(bw 0x044 h t 0).word]
  | .calli h a => [{ vh 0x045 h with a := a }.word]
  | .ret h => [(vh 0x046 h).word]
  | .regang h => [(vh 0x047 h).word]
  | .setw h lo hi e => [(iw 0x048 h 0 (sf (e.getD 0)) (BitVec.ofNat 24 (lo.toNat + hi.toNat * 2 ^ 8 + e.isSome.toNat * 2 ^ 16))).word]
  | .exit h => [(vh 0x049 h).word]
  | .yield h => [(vh 0x04A h).word]
  | .waitt h a => [{ vh 0x04B h with a := sf a }.word]
  | .nop h => [(vh 0x04C h).word]
  | .trap h imm => [(iw 0x04D h 0 0 imm).word]
  | .undefinedOpcode w0 w1 => if bitOf w0.toNat 62 then [w0, w1] else [w0]
  | .vadd h ty d a b => [((vt 0x080 h ty d a).putB b).word]
  | .vsub h ty d a b => [((vt 0x081 h ty d a).putB b).word]
  | .vmul h ty d a b => [((vt 0x082 h ty d a).putB b).word]
  | .vmulh h ty d a b => [((vt 0x083 h ty d a).putB b).word]
  | .vmulhn h ty d a b => [((vt 0x084 h ty d a).putB b).word]
  | .vmad h ty d a b c => [(((vt 0x085 h ty d a).putB b).putC c).word]
  | .vdiv h ty d a b => [((vt 0x086 h ty d a).putB b).word]
  | .vdivn h ty d a b => [((vt 0x087 h ty d a).putB b).word]
  | .vand h ty d a b => [((vt 0x088 h ty d a).putB b).word]
  | .vor h ty d a b => [((vt 0x089 h ty d a).putB b).word]
  | .vxor h ty d a b => [((vt 0x08A h ty d a).putB b).word]
  | .vnot h ty d a => [(vt 0x08B h ty d a).word]
  | .vshl h ty d a y => [((vt 0x08C h ty d a).putSh y).word]
  | .vshr h ty d a y => [((vt 0x08D h ty d a).putSh y).word]
  | .vsra h ty d a y => [((vt 0x08E h ty d a).putSh y).word]
  | .vrot h ty d a y => [((vt 0x08F h ty d a).putSh y).word]
  | .vmin h ty d a b => [((vt 0x090 h ty d a).putB b).word]
  | .vmax h ty d a b => [((vt 0x091 h ty d a).putB b).word]
  | .vminn h ty d a b => [((vt 0x092 h ty d a).putB b).word]
  | .vmaxn h ty d a b => [((vt 0x093 h ty d a).putB b).word]
  | .vabs h ty d a => [(vt 0x094 h ty d a).word]
  | .vneg h ty d a => [(vt 0x095 h ty d a).word]
  | .vclz h ty d a => [(vt 0x096 h ty d a).word]
  | .vpop h ty d a => [(vt 0x097 h ty d a).word]
  | .vbfe h ty d a pos len => [{ vt 0x098 h ty d a with b := pos.setWidth 8, c := len.setWidth 8, kc := true }.word]
  | .vbfi h ty d a pos len => [{ vt 0x099 h ty d a with b := pos.setWidth 8, c := len.setWidth 8, kc := true }.word]
  | .vbrev h ty d a => [(vt 0x09A h ty d a).word]
  | .vprmb h ty d a b c => [(((vt 0x09B h ty d a).putB b).putC c).word]
  | .vsetp h ty p a b cc => [({ vt 0x09C h ty (pf p) a with c := code8 cc.code }.putB b).word]
  | .vsel h ty d a b p => [({ vt 0x09D h ty d a with c := pf p }.putB b).word]
  | .vmov h ty d src =>
    match src with
    | .v a => [(vt 0x09E h ty d a).word]
    | .s b => [((vt 0x09E h ty d 0).putB (.s b)).word]
  | .vli h d imm => [(iw 0x09F h d 0 imm).word]
  | .vlid h ty d imm => wide (vt 0x0A0 h ty d 0) imm
  | .plop h d a b t => [{ vh 0x0A1 h with d := pf d, a := pf a, b := pf b, c := t.setWidth 8, kc := true }.word]
  | .vtos h ty d a sel => [{ vt 0x0A2 h ty (sf d) a with c := selField sel }.word]
  | .fadd h ty uc rnd d a b => [((vf 0x100 h ty uc rnd d a).putB b).word]
  | .fsub h ty uc rnd d a b => [((vf 0x101 h ty uc rnd d a).putB b).word]
  | .fmul h ty uc rnd d a b => [((vf 0x102 h ty uc rnd d a).putB b).word]
  | .ffma h ty uc d a b c => [(((vf 0x103 h ty uc .dflt d a).putB b).putC c).word]
  | .fmin h ty uc d a b => [((vf 0x104 h ty uc .dflt d a).putB b).word]
  | .fmax h ty uc d a b => [((vf 0x105 h ty uc .dflt d a).putB b).word]
  | .fsetp h ty uc p a b cc => [({ vf 0x106 h ty uc .dflt (pf p) a with c := code8 cc.code }.putB b).word]
  | .frcp h ty d a => [(vt 0x107 h ty d a).word]
  | .frsq h ty d a => [(vt 0x108 h ty d a).word]
  | .fsqrt h ty uc rnd d a => [(vf 0x109 h ty uc rnd d a).word]
  | .fdiv h ty uc rnd d a b => [((vf 0x10A h ty uc rnd d a).putB b).word]
  | .fexp2 h ty d a => [(vt 0x10B h ty d a).word]
  | .flog2 h ty d a => [(vt 0x10C h ty d a).word]
  | .fsin h ty d a => [(vt 0x10D h ty d a).word]
  | .fcos h ty d a => [(vt 0x10E h ty d a).word]
  | .ftanh h ty d a => [(vt 0x10F h ty d a).word]
  | .ffrc h ty d a => [(vt 0x110 h ty d a).word]
  | .frnd h ty rnd d a => [(vf 0x111 h ty .auto rnd d a).word]
  | .hadd2 h ty uc rnd d a b => [((vf 0x112 h ty uc rnd d a).putB b).word]
  | .hmul2 h ty uc rnd d a b => [((vf 0x113 h ty uc rnd d a).putB b).word]
  | .hfma2 h ty uc d a b c => [(((vf 0x114 h ty uc .dflt d a).putB b).putC c).word]
  | .dadd h ty uc rnd d a b => [((vf 0x115 h ty uc rnd d a).putB b).word]
  | .dmul h ty uc rnd d a b => [((vf 0x116 h ty uc rnd d a).putB b).word]
  | .dfma h ty uc d a b c => [(((vf 0x117 h ty uc .dflt d a).putB b).putC c).word]
  | .ddiv h ty uc rnd d a b => [((vf 0x118 h ty uc rnd d a).putB b).word]
  | .cvt h ty src rnd d a b => [((vc 0x180 h ty src rnd d a).putB b).word]
  | .cvti h ty src rnd d a b => [((vc 0x181 h ty src rnd d a).putB b).word]
  | .pack h ty src rnd d a => [(vc 0x182 h ty src rnd d a).word]
  | .unpk h ty src d a => [(vc 0x183 h ty src .dflt d a).word]
  | .qnt h ty src rc d a v => wide (vc 0x184 h ty src .dflt d a) (BitVec.ofNat 64 (rc.code * 2 ^ 8 + v.toNat))
  | .dqnt h ty src rnd d a v => wide (vc 0x185 h ty src rnd d a) (v.setWidth 64)
  | .srseed h a => [{ vh 0x186 h with a := sf a }.word]
  | .setfmt h ty rm => [(iw 0x187 h 0 0 (BitVec.ofNat 24 (ty.code * 2 ^ 4 + rm.toNat * 2 ^ 2))).word]
  | .bget h ty d a => [(vt 0x1A0 h ty d a).word]
  | .bset h ty d a b => [((vt 0x1A1 h ty d a).putB b).word]
  | .bzero h ty d a => [(vt 0x1A2 h ty d a).word]
  | .bmax h ty d a b => [{ vt 0x1A3 h ty d a with b := b }.word]
  | .chkb h ty a n => [{ vt 0x1A4 h ty 0 a with c := (n.getD 0).setWidth 8, kc := n.isSome }.word]
  | .btest h ty p a b => [{ vt 0x1A5 h ty (pf p) a with b := sf (b.getD 0), kb := b.isSome }.word]
  | .setbud h src =>
    match src with
    | .imm mode bud => [(iw 0x1A6 h 0 0 (BitVec.ofNat 24 (bud.toNat + mode.toNat * 2 ^ 16))).word]
    | .s a => [(iw 0x1A6 h 0 (sf a) (BitVec.ofNat 24 (2 ^ 17))).word]
  | .shfl h ty d a k pv => [((vt 0x1C0 h ty d a).putIdx k pv).word]
  | .shflu h ty d a k pv => [((vt 0x1C1 h ty d a).putIdx k pv).word]
  | .shfld h ty d a k pv => [((vt 0x1C2 h ty d a).putIdx k pv).word]
  | .shflx h ty d a k pv => [((vt 0x1C3 h ty d a).putIdx k pv).word]
  | .bcast h ty d a k pv => [((vt 0x1C7 h ty d a).putIdx k pv).word]
  | .red h ty uc op d a pc pd => [{ vf 0x1C4 h ty uc .dflt d a with b := pf pc, c := code8 (op.code * 2 ^ 4 + pd.toNat) }.word]
  | .scan h ty uc op ex d a pc pd => [{ vf 0x1C5 h ty uc .dflt d a with b := pf pc, c := code8 (op.code * 2 ^ 4 + ex.toNat * 2 ^ 3 + pd.toNat) }.word]
  | .vote h mode d pa pc => [{ vh 0x1C6 h with d := d, a := pf pa, b := pf pc, c := code8 mode.code }.word]
  | .matchv h ty d a pc pd => [{ vt 0x1C8 h ty d a with b := pf pc, c := pf pd }.word]
  | .first h d pc pd => [{ vh 0x1C9 h with d := d, b := pf pc, c := pf pd }.word]
  | .ld h sz base d off sc od inv nr =>
    [{ mm (memOp 0x1E0 sz.idx base) h base off sc od with d := d, fl := inv, b := nrField nr }.word]
  | .st h sz base b off sc od nc => [{ mm (memOp 0x1EA sz.idx base) h base off sc od with b := b, fl := nc }.word]
  | .lds h sz base d off sc od => [{ mm (memOp 0x1F4 sz.idx base) h base off sc od with d := d }.word]
  | .sts h sz base b off sc od nc => [{ mm (memOp 0x1FE sz.idx base) h base off sc od with b := b, fl := nc }.word]
  | .sld h sz a d off sc od => [{ mm (0x208 + sz.idx) h (.s a) off sc od with d := sf d }.word]
  | .sst h sz a b off sc od => [{ mm (0x20C + sz.idx) h (.s a) off sc od with b := sf b }.word]
  | .atom h sz base d b op ty sc od nc =>
    [{ mm (memOp 0x210 (sz.idx - 2) base) h base (atomOff op ty) sc od with d := d, b := b, fl := nc }.word]
  | .atoms h sz base d b op ty sc od nc =>
    [{ mm (memOp 0x214 (sz.idx - 2) base) h base (atomOff op ty) sc od with d := d, b := b, fl := nc }.word]
  | .cas h sz base d b off sc od nc =>
    [{ mm (memOp 0x218 (sz.idx - 2) base) h base off sc od with d := d, b := b, fl := nc }.word]
  | .cass h sz base d b off sc od nc =>
    [{ mm (memOp 0x21C (sz.idx - 2) base) h base off sc od with d := d, b := b, fl := nc }.word]
  | .ldf h sz base d off sc od pa => [{ mm (memOp 0x220 (sz.idx - 2) base) h base off sc od with d := d, b := pf pa }.word]
  | .stf h sz base b off sc od => [{ mm (memOp 0x224 (sz.idx - 2) base) h base off sc od with b := b }.word]
  | .clrf h base off sc od => [(mm (0x228 + base.k) h base off sc od).word]
  | .fence h kinds sc od => [{ mm 0x22A h (.s 0) 0 sc od with d := kinds.setWidth 8 }.word]
  | .pref h base l2 off sc => [{ mm (0x22B + base.k) h base off sc .rlx with d := code8 l2.toNat }.word]
  | .pgreq h base w off sc => [{ mm (0x22D + base.k) h base off sc .rlx with d := code8 w.toNat }.word]
  | .cctlCln1 h base off sc => [{ mm (0x22F + base.k) h base off sc .rlx with d := 0 }.word]
  | .cctlInv1 h base off sc => [{ mm (0x22F + base.k) h base off sc .rlx with d := 1 }.word]
  | .cctlClnm h base off sc => [{ mm (0x22F + base.k) h base off sc .rlx with d := 2 }.word]
  | .cctlFlsm h base off sc => [{ mm (0x22F + base.k) h base off sc .rlx with d := 3 }.word]
  | .cctlInvi h base off sc => [{ mm (0x22F + base.k) h base off sc .rlx with d := 4 }.word]
  | .bufdef h k base sz nm1 => wide { vh 0x240 h with d := sf k } (BitVec.ofNat 64 (nm1.toNat * 2 ^ 38 + sz.toNat * 2 ^ 19 + base.toNat))
  | .cpyin h c => encCpy 0x241 h c
  | .cpyout h c => encCpy 0x242 h c
  | .cpynb h c => encCpy 0x243 h c
  | .cpyg h c => encCpy 0x244 h c
  | .waitb h d k => [(vs 0x245 h d k).word]
  | .acqb h ff d k => [{ vs 0x246 h d k with c := code8 ff.toNat }.word]
  | .relb h k => [(vs 0x247 h 0 k).word]
  | .mma h ta tb uc k a src v za ru rl =>
    wide ({ vc 0x260 h ta tb .dflt (k.setWidth 8) a with uc := BitVec.ofNat 2 uc.code }.putMma src)
      (BitVec.ofNat 64 (v.toNat * 2 ^ 12 + za.toNat * 2 ^ 2 + ru.toNat * 2 + rl.toNat))
  | .mzero h k => [{ vh 0x261 h with d := k.setWidth 8 }.word]
  | .mld h ty d k c0 nm1 => wide (vt 0x262 h ty d (k.setWidth 8)) (BitVec.ofNat 64 (nm1.toNat * 2 ^ 5 + c0.toNat))
  | .mst h td ts rnd k a b scr sp nc =>
    wide ((vc 0x263 h td ts rnd (k.setWidth 8) (sf a)).putB (.s b))
      (BitVec.ofNat 64 (scr.toNat * 2 ^ 8 + sp.toNat * 2 + nc.toNat))
  | .mscl h ty k a cm => wide (vt 0x264 h ty (k.setWidth 8) a) (cm.setWidth 64)
  | .attach h role a b => [({ vs 0x280 h 0 a with c := code8 role.code }.putB (.s b)).word]
  | .detach h cond => [{ vh 0x281 h with c := code8 cond.toNat }.word]
  | .bara h d k => [{ vh 0x282 h with d := sf d, a := k.setWidth 8 }.word]
  | .barw h k a => [({ vh 0x283 h with a := k.setWidth 8 }.putB (.s a)).word]
  | .bars h k => [{ vh 0x284 h with a := k.setWidth 8 }.word]
  | .barq h d k => [{ vh 0x285 h with d := sf d, a := k.setWidth 8 }.word]
  | .gear h fast => [(iw 0x286 h 0 0 (BitVec.ofNat 24 fast.toNat)).word]
  | .gearw h d => [(vs 0x287 h d 0).word]
  | .nopre h => [(vh 0x288 h).word]
  | .pre h => [(vh 0x289 h).word]
  | .spawn h p a => [{ vh 0x28A h with d := pf p, a := a }.word]
  | .slput h d a b => [((vs 0x28B h d a).putB (.s b)).word]
  | .slrel h a b => [((vs 0x28C h 0 a).putB (.s b)).word]
  | .slveto h a b => [((vs 0x28D h 0 a).putB (.s b)).word]
  | .sysc h imm => [(iw 0x2A0 h 0 0 imm).word]
  | .rft h => [(vh 0x2A1 h).word]
  | .stctx h item a off => [{ mm 0x2A2 h (.s a) off .grp .rlx with d := item }.word]
  | .ldctx h item a off => [{ mm 0x2A3 h (.s a) off .grp .rlx with d := item }.word]
  | .csrr h d num => [(iw 0x2A4 h (sf d) 0 (num.setWidth 24)).word]
  | .csrw h num a => [(iw 0x2A5 h 0 (sf a) (num.setWidth 24)).word]
  | .tlbinvAll h => [(vh 0x2A6 h).word]
  | .tlbinvAsid h b => [({ vh 0x2A6 h with c := 1 }.putB (.s b)).word]
  | .tlbinvPg h a b => [({ vs 0x2A6 h 0 a with c := 2 }.putB (.s b)).word]
  | .haltKill h => [(vh 0x2A7 h).word]
  | .haltSave h a => [{ vs 0x2A7 h 0 a with c := 1 }.word]
  | .haltSaveRls h a => [{ vs 0x2A7 h 0 a with c := 2 }.word]
  | .emret h => [(vh 0x2A8 h).word]
  | .emretDcl h => [{ vh 0x2A8 h with c := 1 }.word]
  | _ => []

/-! ## Reading operands from words -/

namespace VWord

def hdr (f : VWord) : Hdr := { pk := f.pk, pn := f.pn, ps := f.ps, hn := f.hn }
def sd (f : VWord) : SReg := f.d.setWidth 5
def sa (f : VWord) : SReg := f.a.setWidth 5
def sb (f : VWord) : SReg := f.b.setWidth 5
def sc (f : VWord) : SReg := f.c.setWidth 5
def pd (f : VWord) : PReg := f.d.setWidth 3
def pa (f : VWord) : PReg := f.a.setWidth 3
def pb (f : VWord) : PReg := f.b.setWidth 3
def pc (f : VWord) : PReg := f.c.setWidth 3
def y (f : VWord) : SOpnd := if f.kc then .imm f.c else .s f.sb
def bOp (f : VWord) : VOpnd := if f.kb then .s f.sb else .v f.b
def cOp (f : VWord) : VOpnd := if f.kc then .s f.sc else .v f.c
def sh (f : VWord) : ShOpnd := if f.kc then .imm (f.c.setWidth 6) else if f.kb then .s f.sb else .v f.b
def idx (f : VWord) : LaneIdx :=
  if bitOf f.c.toNat 3 then .imm (f.b.setWidth 7) else if f.kb then .s f.sb else .v f.b
def tyf (f : VWord) : TyF := TyF.ofCode f.ty.toNat
def ucOp (f : VWord) : UC := UC.ofCode f.uc.toNat
def rnd (f : VWord) : Rnd := Rnd.ofCode (f.c.toNat % 8)
def src (f : VWord) : Ty := Ty.ofCode (f.c.toNat / 2 ^ 4)

end VWord

namespace IWord

def hdr (f : IWord) : Hdr := { pk := f.pk, pn := f.pn, ps := f.ps, hn := f.hn }
def sd (f : IWord) : SReg := f.d.setWidth 5
def sa (f : IWord) : SReg := f.a.setWidth 5

end IWord

def BWord.hdr (f : BWord) : Hdr := { pk := f.pk, pn := f.pn, ps := f.ps, hn := f.hn }

namespace MWord

def hdr (f : MWord) : Hdr := { pk := f.pk, pn := f.pn, ps := f.ps, hn := f.hn }
def sd (f : MWord) : SReg := f.d.setWidth 5
def sa (f : MWord) : SReg := f.a.setWidth 5
def sb (f : MWord) : SReg := f.b.setWidth 5
def scope (f : MWord) : Scope := Scope.ofCode f.sc.toNat
def order (f : MWord) : Order := Order.ofCode f.od.toNat
def base (f : MWord) (k : Nat) : Base := if k = 1 then .v f.a else .s f.sa

end MWord

/-- The second word of a copy, 13 Table 13.4. -/
def cpyArgs (f : VWord) (w1 : DWord) : CpyArgs :=
  let n := w1.toNat
  { nd := BitVec.ofNat 2 (n / 2 ^ 62), hd := bitOf n 60, d := f.sd, a := f.sa, b := f.sb, c := f.sc,
    x0 := BitVec.ofNat 13 (n / 2 ^ 47), x1 := BitVec.ofNat 12 (n / 2 ^ 35), x2 := BitVec.ofNat 12 (n / 2 ^ 23),
    yl := bitOf n 61, cont := BitVec.ofNat 20 n }

/-! ## The opcode map, 05 Tables 5.8 and 5.9: the fields of an assigned opcode, before any check -/

def readScalar (op : Nat) (w0 w1 : DWord) : Option Instr :=
  let f := VWord.of w0
  let g := IWord.of w0
  match op with
  | 0x000 => some (.sadd f.hdr f.sd f.sa f.y)
  | 0x001 => some (.ssub f.hdr f.sd f.sa f.y)
  | 0x002 => some (.saddi g.hdr g.sd g.sa g.imm)
  | 0x003 => some (.smul f.hdr f.sd f.sa f.y)
  | 0x004 => some (.smulh f.hdr f.sd f.sa f.y)
  | 0x005 => some (.smulhn f.hdr f.sd f.sa f.y)
  | 0x006 => some (.sdiv f.hdr f.sd f.sa f.y)
  | 0x007 => some (.sdivn f.hdr f.sd f.sa f.y)
  | 0x008 => some (.srem f.hdr f.sd f.sa f.y)
  | 0x009 => some (.sremn f.hdr f.sd f.sa f.y)
  | 0x00A => some (.sand f.hdr f.sd f.sa f.y)
  | 0x00B => some (.sandn f.hdr f.sd f.sa f.y)
  | 0x00C => some (.sor f.hdr f.sd f.sa f.y)
  | 0x00D => some (.sxor f.hdr f.sd f.sa f.y)
  | 0x00E => some (.sshl f.hdr f.sd f.sa f.y)
  | 0x00F => some (.sshr f.hdr f.sd f.sa f.y)
  | 0x010 => some (.ssra f.hdr f.sd f.sa f.y)
  | 0x011 => some (.srot f.hdr f.sd f.sa f.y)
  | 0x012 => some (.smin f.hdr f.sd f.sa f.y)
  | 0x013 => some (.smax f.hdr f.sd f.sa f.y)
  | 0x014 => some (.sminn f.hdr f.sd f.sa f.y)
  | 0x015 => some (.smaxn f.hdr f.sd f.sa f.y)
  | 0x016 => some (.sclz f.hdr f.sd f.sa)
  | 0x017 => some (.sctz f.hdr f.sd f.sa)
  | 0x018 => some (.spop f.hdr f.sd f.sa)
  | 0x019 => some (.sbfe f.hdr f.sd f.sa (f.b.setWidth 6) f.c)
  | 0x01A => some (.sbfi f.hdr f.sd f.sa (f.b.setWidth 6) f.c)
  | 0x01B => some (.ssetc f.hdr f.sd f.sa f.sb (Cond.ofCode (f.c.toNat % 8)))
  | 0x01C => some (.ssel f.hdr f.sd f.sa f.sb f.sc)
  | 0x01D => some (.smov f.hdr f.sd f.sa)
  | 0x01E => some (.sli g.hdr g.sd g.imm)
  | 0x01F => some (.sliw f.hdr f.sd w1)
  | 0x020 => some (.movsr g.hdr g.sd (g.imm.setWidth 8))
  | 0x021 => some (.movrs g.hdr (g.imm.setWidth 8) g.sa)
  | _ => none

def readControl (op : Nat) (w0 : DWord) : Option Instr :=
  let f := VWord.of w0
  let g := IWord.of w0
  let b := BWord.of w0
  match op with
  | 0x040 => some (.bra b.hdr b.t20)
  | 0x041 => some (.brs b.hdr b.t20 (Cond.ofCode (b.j20.toNat / 2 ^ 5 % 8)) (b.j20.setWidth 5))
  | 0x042 => some (.brv b.hdr b.t20 b.j20)
  | 0x043 => some (.join b.hdr)
  | 0x044 => some (.call b.hdr b.t20)
  | 0x045 => some (.calli f.hdr f.a)
  | 0x046 => some (.ret f.hdr)
  | 0x047 => some (.regang f.hdr)
  | 0x048 => some (.setw g.hdr (g.imm.setWidth 8) (BitVec.ofNat 8 (g.imm.toNat / 2 ^ 8)) (if bitOf g.imm.toNat 16 then some g.sa else none))
  | 0x049 => some (.exit f.hdr)
  | 0x04A => some (.yield f.hdr)
  | 0x04B => some (.waitt f.hdr f.sa)
  | 0x04C => some (.nop f.hdr)
  | 0x04D => some (.trap g.hdr g.imm)
  | _ => none

def readVecInt (op : Nat) (w0 w1 : DWord) : Option Instr :=
  let f := VWord.of w0
  let g := IWord.of w0
  match op with
  | 0x080 => some (.vadd f.hdr f.tyf f.d f.a f.bOp)
  | 0x081 => some (.vsub f.hdr f.tyf f.d f.a f.bOp)
  | 0x082 => some (.vmul f.hdr f.tyf f.d f.a f.bOp)
  | 0x083 => some (.vmulh f.hdr f.tyf f.d f.a f.bOp)
  | 0x084 => some (.vmulhn f.hdr f.tyf f.d f.a f.bOp)
  | 0x085 => some (.vmad f.hdr f.tyf f.d f.a f.bOp f.cOp)
  | 0x086 => some (.vdiv f.hdr f.tyf f.d f.a f.bOp)
  | 0x087 => some (.vdivn f.hdr f.tyf f.d f.a f.bOp)
  | 0x088 => some (.vand f.hdr f.tyf f.d f.a f.bOp)
  | 0x089 => some (.vor f.hdr f.tyf f.d f.a f.bOp)
  | 0x08A => some (.vxor f.hdr f.tyf f.d f.a f.bOp)
  | 0x08B => some (.vnot f.hdr f.tyf f.d f.a)
  | 0x08C => some (.vshl f.hdr f.tyf f.d f.a f.sh)
  | 0x08D => some (.vshr f.hdr f.tyf f.d f.a f.sh)
  | 0x08E => some (.vsra f.hdr f.tyf f.d f.a f.sh)
  | 0x08F => some (.vrot f.hdr f.tyf f.d f.a f.sh)
  | 0x090 => some (.vmin f.hdr f.tyf f.d f.a f.bOp)
  | 0x091 => some (.vmax f.hdr f.tyf f.d f.a f.bOp)
  | 0x092 => some (.vminn f.hdr f.tyf f.d f.a f.bOp)
  | 0x093 => some (.vmaxn f.hdr f.tyf f.d f.a f.bOp)
  | 0x094 => some (.vabs f.hdr f.tyf f.d f.a)
  | 0x095 => some (.vneg f.hdr f.tyf f.d f.a)
  | 0x096 => some (.vclz f.hdr f.tyf f.d f.a)
  | 0x097 => some (.vpop f.hdr f.tyf f.d f.a)
  | 0x098 => some (.vbfe f.hdr f.tyf f.d f.a (f.b.setWidth 5) (f.c.setWidth 6))
  | 0x099 => some (.vbfi f.hdr f.tyf f.d f.a (f.b.setWidth 5) (f.c.setWidth 6))
  | 0x09A => some (.vbrev f.hdr f.tyf f.d f.a)
  | 0x09B => some (.vprmb f.hdr f.tyf f.d f.a f.bOp f.cOp)
  | 0x09C => some (.vsetp f.hdr f.tyf f.pd f.a f.bOp (Cond.ofCode (f.c.toNat % 8)))
  | 0x09D => some (.vsel f.hdr f.tyf f.d f.a f.bOp f.pc)
  | 0x09E => some (.vmov f.hdr f.tyf f.d (if f.kb then .s f.sb else .v f.a))
  | 0x09F => some (.vli g.hdr g.d g.imm)
  | 0x0A0 => some (.vlid f.hdr f.tyf f.d w1)
  | 0x0A1 => some (.plop f.hdr f.pd f.pa f.pb (f.c.setWidth 4))
  | 0x0A2 => some (.vtos f.hdr f.tyf f.sd f.a (if bitOf f.c.toNat 2 then some (f.c.setWidth 2) else none))
  | _ => none

def readFloat (op : Nat) (w0 : DWord) : Option Instr :=
  let f := VWord.of w0
  match op with
  | 0x100 => some (.fadd f.hdr f.tyf f.ucOp f.rnd f.d f.a f.bOp)
  | 0x101 => some (.fsub f.hdr f.tyf f.ucOp f.rnd f.d f.a f.bOp)
  | 0x102 => some (.fmul f.hdr f.tyf f.ucOp f.rnd f.d f.a f.bOp)
  | 0x103 => some (.ffma f.hdr f.tyf f.ucOp f.d f.a f.bOp f.cOp)
  | 0x104 => some (.fmin f.hdr f.tyf f.ucOp f.d f.a f.bOp)
  | 0x105 => some (.fmax f.hdr f.tyf f.ucOp f.d f.a f.bOp)
  | 0x106 => some (.fsetp f.hdr f.tyf f.ucOp f.pd f.a f.bOp (FCond.ofCode (f.c.toNat % 8)))
  | 0x107 => some (.frcp f.hdr f.tyf f.d f.a)
  | 0x108 => some (.frsq f.hdr f.tyf f.d f.a)
  | 0x109 => some (.fsqrt f.hdr f.tyf f.ucOp f.rnd f.d f.a)
  | 0x10A => some (.fdiv f.hdr f.tyf f.ucOp f.rnd f.d f.a f.bOp)
  | 0x10B => some (.fexp2 f.hdr f.tyf f.d f.a)
  | 0x10C => some (.flog2 f.hdr f.tyf f.d f.a)
  | 0x10D => some (.fsin f.hdr f.tyf f.d f.a)
  | 0x10E => some (.fcos f.hdr f.tyf f.d f.a)
  | 0x10F => some (.ftanh f.hdr f.tyf f.d f.a)
  | 0x110 => some (.ffrc f.hdr f.tyf f.d f.a)
  | 0x111 => some (.frnd f.hdr f.tyf f.rnd f.d f.a)
  | 0x112 => some (.hadd2 f.hdr f.tyf f.ucOp f.rnd f.d f.a f.bOp)
  | 0x113 => some (.hmul2 f.hdr f.tyf f.ucOp f.rnd f.d f.a f.bOp)
  | 0x114 => some (.hfma2 f.hdr f.tyf f.ucOp f.d f.a f.bOp f.cOp)
  | 0x115 => some (.dadd f.hdr f.tyf f.ucOp f.rnd f.d f.a f.bOp)
  | 0x116 => some (.dmul f.hdr f.tyf f.ucOp f.rnd f.d f.a f.bOp)
  | 0x117 => some (.dfma f.hdr f.tyf f.ucOp f.d f.a f.bOp f.cOp)
  | 0x118 => some (.ddiv f.hdr f.tyf f.ucOp f.rnd f.d f.a f.bOp)
  | _ => none

def readConvCross (op : Nat) (w0 w1 : DWord) : Option Instr :=
  let f := VWord.of w0
  let g := IWord.of w0
  match op with
  | 0x180 => some (.cvt f.hdr f.tyf f.src f.rnd f.d f.a f.bOp)
  | 0x181 => some (.cvti f.hdr f.tyf f.src f.rnd f.d f.a f.bOp)
  | 0x182 => some (.pack f.hdr f.tyf f.src f.rnd f.d f.a)
  | 0x183 => some (.unpk f.hdr f.tyf f.src f.d f.a)
  | 0x184 => some (.qnt f.hdr f.tyf f.src (Rnd.ofCode (w1.toNat / 2 ^ 8 % 8)) f.d f.a (w1.setWidth 8))
  | 0x185 => some (.dqnt f.hdr f.tyf f.src f.rnd f.d f.a (w1.setWidth 8))
  | 0x186 => some (.srseed f.hdr f.sa)
  | 0x187 => some (.setfmt g.hdr (Ty.ofCode (g.imm.toNat / 2 ^ 4 % 16)) (BitVec.ofNat 2 (g.imm.toNat / 2 ^ 2)))
  | 0x1A0 => some (.bget f.hdr f.tyf f.d f.a)
  | 0x1A1 => some (.bset f.hdr f.tyf f.d f.a f.bOp)
  | 0x1A2 => some (.bzero f.hdr f.tyf f.d f.a)
  | 0x1A3 => some (.bmax f.hdr f.tyf f.d f.a f.b)
  | 0x1A4 => some (.chkb f.hdr f.tyf f.a (if f.kc then some (f.c.setWidth 6) else none))
  | 0x1A5 => some (.btest f.hdr f.tyf f.pd f.a (if f.kb then some f.sb else none))
  | 0x1A6 => some (.setbud g.hdr (if bitOf g.imm.toNat 17 then .s g.sa else .imm (bitOf g.imm.toNat 16) (g.imm.setWidth 16)))
  | 0x1C0 => some (.shfl f.hdr f.tyf f.d f.a f.idx f.pc)
  | 0x1C1 => some (.shflu f.hdr f.tyf f.d f.a f.idx f.pc)
  | 0x1C2 => some (.shfld f.hdr f.tyf f.d f.a f.idx f.pc)
  | 0x1C3 => some (.shflx f.hdr f.tyf f.d f.a f.idx f.pc)
  | 0x1C4 => some (.red f.hdr f.tyf f.ucOp (RedOp.ofCode (f.c.toNat / 2 ^ 4 % 8)) f.d f.a f.pb f.pc)
  | 0x1C5 => some (.scan f.hdr f.tyf f.ucOp (RedOp.ofCode (f.c.toNat / 2 ^ 4 % 8)) (bitOf f.c.toNat 3) f.d f.a f.pb f.pc)
  | 0x1C6 => some (.vote f.hdr (VoteMode.ofCode (f.c.toNat % 4)) f.d f.pa f.pb)
  | 0x1C7 => some (.bcast f.hdr f.tyf f.d f.a f.idx f.pc)
  | 0x1C8 => some (.matchv f.hdr f.tyf f.d f.a f.pb f.pc)
  | 0x1C9 => some (.first f.hdr f.d f.pb f.pc)
  | _ => none

/-- Opcodes 0x1E0 to 0x230, composed by 05 R97. -/
def readMemory (op : Nat) (w0 : DWord) : Option Instr :=
  let m := MWord.of w0
  let base := m.base (op % 2)
  let odd := m.base ((op + 1) % 2)
  if op < 0x1EA then
    some (.ld m.hdr (.ofIdx ((op - 0x1E0) / 2)) base m.d m.off m.scope m.order m.fl
      (if bitOf m.b.toNat 7 then some (m.b.setWidth 3) else none))
  else if op < 0x1F4 then some (.st m.hdr (.ofIdx ((op - 0x1EA) / 2)) base m.b m.off m.scope m.order m.fl)
  else if op < 0x1FE then some (.lds m.hdr (.ofIdx ((op - 0x1F4) / 2)) base m.d m.off m.scope m.order)
  else if op < 0x208 then some (.sts m.hdr (.ofIdx ((op - 0x1FE) / 2)) base m.b m.off m.scope m.order m.fl)
  else if op < 0x20C then some (.sld m.hdr (.ofIdx (op - 0x208)) m.sa m.sd m.off m.scope m.order)
  else if op < 0x210 then some (.sst m.hdr (.ofIdx (op - 0x20C)) m.sa m.sb m.off m.scope m.order)
  else if op < 0x218 then
    let aop := AtomOp.ofCode (m.off.toNat % 16)
    let aty := AtomTy.ofCode (m.off.toNat / 2 ^ 4 % 4)
    if op < 0x214 then some (.atom m.hdr (.ofIdx ((op - 0x210) / 2 + 2)) base m.d m.b aop aty m.scope m.order m.fl)
    else some (.atoms m.hdr (.ofIdx ((op - 0x214) / 2 + 2)) base m.d m.b aop aty m.scope m.order m.fl)
  else if op < 0x21C then
    some (.cas m.hdr (.ofIdx ((op - 0x218) / 2 + 2)) base m.d m.b m.off m.scope m.order m.fl)
  else if op < 0x220 then
    some (.cass m.hdr (.ofIdx ((op - 0x21C) / 2 + 2)) base m.d m.b m.off m.scope m.order m.fl)
  else if op < 0x224 then
    some (.ldf m.hdr (.ofIdx ((op - 0x220) / 2 + 2)) base m.d m.off m.scope m.order (m.b.setWidth 3))
  else if op < 0x228 then some (.stf m.hdr (.ofIdx ((op - 0x224) / 2 + 2)) base m.b m.off m.scope m.order)
  else if op < 0x22A then some (.clrf m.hdr base m.off m.scope m.order)
  else if op = 0x22A then some (.fence m.hdr (m.d.setWidth 4) m.scope m.order)
  else if op < 0x22D then some (.pref m.hdr odd (bitOf m.d.toNat 0) m.off m.scope)
  else if op < 0x22F then some (.pgreq m.hdr odd (bitOf m.d.toNat 0) m.off m.scope)
  else
    match m.d.toNat with
    | 0 => some (.cctlCln1 m.hdr odd m.off m.scope)
    | 1 => some (.cctlInv1 m.hdr odd m.off m.scope)
    | 2 => some (.cctlClnm m.hdr odd m.off m.scope)
    | 3 => some (.cctlFlsm m.hdr odd m.off m.scope)
    | _ => some (.cctlInvi m.hdr odd m.off m.scope)

def readCopyMatrix (op : Nat) (w0 w1 : DWord) : Option Instr :=
  let f := VWord.of w0
  match op with
  | 0x240 => some (.bufdef f.hdr f.sd (w1.setWidth 19) (BitVec.ofNat 19 (w1.toNat / 2 ^ 19)) (BitVec.ofNat 6 (w1.toNat / 2 ^ 38)))
  | 0x241 => some (.cpyin f.hdr (cpyArgs f w1))
  | 0x242 => some (.cpyout f.hdr (cpyArgs f w1))
  | 0x243 => some (.cpynb f.hdr (cpyArgs f w1))
  | 0x244 => some (.cpyg f.hdr (cpyArgs f w1))
  | 0x245 => some (.waitb f.hdr f.sd f.sa)
  | 0x246 => some (.acqb f.hdr (bitOf f.c.toNat 0) f.sd f.sa)
  | 0x247 => some (.relb f.hdr f.sa)
  | 0x260 => some (.mma f.hdr f.tyf f.src f.ucOp (f.d.setWidth 6) f.a (if f.kb then .s f.sb else .h f.sb)
      (BitVec.ofNat 8 (w1.toNat / 2 ^ 12)) (bitOf w1.toNat 2) (bitOf w1.toNat 1) (bitOf w1.toNat 0))
  | 0x261 => some (.mzero f.hdr (f.d.setWidth 6))
  | 0x262 => some (.mld f.hdr f.tyf f.d (f.a.setWidth 6) (w1.setWidth 5) (BitVec.ofNat 5 (w1.toNat / 2 ^ 5)))
  | 0x263 => some (.mst f.hdr f.tyf f.src f.rnd (f.d.setWidth 6) f.sa f.sb (BitVec.ofNat 5 (w1.toNat / 2 ^ 8))
      (bitOf w1.toNat 1) (bitOf w1.toNat 0))
  | 0x264 => some (.mscl f.hdr f.tyf (f.d.setWidth 6) f.a (w1.setWidth 32))
  | _ => none

def readTeamSystem (op : Nat) (w0 : DWord) : Option Instr :=
  let f := VWord.of w0
  let g := IWord.of w0
  let m := MWord.of w0
  match op with
  | 0x280 => some (.attach f.hdr (RoleF.ofCode (f.c.toNat % 4)) f.sa f.sb)
  | 0x281 => some (.detach f.hdr (bitOf f.c.toNat 0))
  | 0x282 => some (.bara f.hdr f.sd (f.a.setWidth 7))
  | 0x283 => some (.barw f.hdr (f.a.setWidth 7) f.sb)
  | 0x284 => some (.bars f.hdr (f.a.setWidth 7))
  | 0x285 => some (.barq f.hdr f.sd (f.a.setWidth 7))
  | 0x286 => some (.gear g.hdr (bitOf g.imm.toNat 0))
  | 0x287 => some (.gearw f.hdr f.sd)
  | 0x288 => some (.nopre f.hdr)
  | 0x289 => some (.pre f.hdr)
  | 0x28A => some (.spawn f.hdr f.pd f.a)
  | 0x28B => some (.slput f.hdr f.sd f.sa f.sb)
  | 0x28C => some (.slrel f.hdr f.sa f.sb)
  | 0x28D => some (.slveto f.hdr f.sa f.sb)
  | 0x2A0 => some (.sysc g.hdr g.imm)
  | 0x2A1 => some (.rft f.hdr)
  | 0x2A2 => some (.stctx m.hdr m.d m.sa m.off)
  | 0x2A3 => some (.ldctx m.hdr m.d m.sa m.off)
  | 0x2A4 => some (.csrr g.hdr g.sd (g.imm.setWidth 12))
  | 0x2A5 => some (.csrw g.hdr (g.imm.setWidth 12) g.sa)
  | 0x2A6 =>
    match f.c.toNat with
    | 0 => some (.tlbinvAll f.hdr)
    | 1 => some (.tlbinvAsid f.hdr f.sb)
    | _ => some (.tlbinvPg f.hdr f.sa f.sb)
  | 0x2A7 =>
    match f.c.toNat with
    | 0 => some (.haltKill f.hdr)
    | 1 => some (.haltSave f.hdr f.sa)
    | _ => some (.haltSaveRls f.hdr f.sa)
  | 0x2A8 => some (if f.c = 0 then .emret f.hdr else .emretDcl f.hdr)
  | _ => none

/-- The opcode of a first word (05 Table 5.1). -/
def opcodeOf (w0 : DWord) : Nat := w0.toNat / 2 ^ 52 % 2 ^ 10

/-- The fields of an assigned opcode, or none where the opcode is unassigned (05 R95). -/
def readFields (w0 w1 : DWord) : Option Instr :=
  let op := opcodeOf w0
  if op < 0x040 then readScalar op w0 w1
  else if op < 0x080 then readControl op w0
  else if op < 0x100 then readVecInt op w0 w1
  else if op < 0x180 then readFloat op w0
  else if op < 0x1E0 then readConvCross op w0 w1
  else if op ≤ 0x230 then readMemory op w0
  else if op < 0x280 then readCopyMatrix op w0 w1
  else readTeamSystem op w0

/-- W of a first word. -/
def wBit (w0 : DWord) : Bool := bitOf w0.toNat 62

/-- The opcodes of format X (05 R96). -/
def isX (op : Nat) : Bool :=
  op = 0x01F || op = 0x0A0 || op = 0x184 || op = 0x185 || (0x240 ≤ op && op ≤ 0x244) || op = 0x260 ||
    (0x262 ≤ op && op ≤ 0x264)

/-- A second word is read where W = 1, except on an assigned opcode that is never wide, whose trap is taken at the first
word (05 R90, R94, R98). -/
def needsSecond (w0 : DWord) : Bool := wBit w0 && (isX (opcodeOf w0) || (readFields w0 0).isNone)

/-- Why words are not an instruction: a breach of 05 R84-R93, or too few bytes for the words. -/
inductive DecodeError where
  | illegal
  | truncated
deriving DecidableEq, Repr

/-- Decodes an instruction's words; `w1` counts only where `needsSecond` says so. An unassigned opcode is UNDEFINED_OPCODE
(05 R94, R98). -/
def decodeWords (w0 w1 : DWord) : Except DecodeError Instr :=
  let w1 := if needsSecond w0 then w1 else 0
  match readFields w0 w1 with
  | none => .ok (.undefinedOpcode w0 w1)
  | some i =>
    let words := if wBit w0 then [w0, w1] else [w0]
    if encode i = words ∧ i.wellFormed then .ok i else .error .illegal

/-- A little-endian 64-bit word from the first eight bytes (05 R81). -/
def wordOf : List Byte → Option (DWord × List Byte)
  | b0 :: b1 :: b2 :: b3 :: b4 :: b5 :: b6 :: b7 :: rest =>
    some (BitVec.ofNat 64 (b0.toNat + b1.toNat * 2 ^ 8 + b2.toNat * 2 ^ 16 + b3.toNat * 2 ^ 24 + b4.toNat * 2 ^ 32 +
      b5.toNat * 2 ^ 40 + b6.toNat * 2 ^ 48 + b7.toNat * 2 ^ 56), rest)
  | _ => none

/-- Decodes the instruction at the head of a list of bytes, with the bytes after it. -/
def decodeBytes (bytes : List Byte) : Except DecodeError (Instr × List Byte) :=
  match wordOf bytes with
  | none => .error .truncated
  | some (w0, rest) =>
    if needsSecond w0 then
      match wordOf rest with
      | none => .error .truncated
      | some (w1, rest') =>
        match decodeWords w0 w1 with
        | .ok i => .ok (i, rest')
        | .error e => .error e
    else
      match decodeWords w0 0 with
      | .ok i => .ok (i, rest)
      | .error e => .error e

/-- The bytes of a word, lowest address first (05 R81). -/
def bytesOfWord (w : DWord) : List Byte := (List.range 8).map fun k => BitVec.ofNat 8 (w.toNat / 2 ^ (8 * k))

/-- The bytes of an instruction's words. -/
def encodeBytes (i : Instr) : List Byte := (encode i).flatMap bytesOfWord

/-- The first two words of an instruction whose bits are w, numbered with bit 0 the least significant bit of the first
word and the second word's bits from 64 on; the bits at and above nbits are 0. -/
def tableWords (nbits w : Nat) : DWord × DWord :=
  let n := w % 2 ^ nbits
  (BitVec.ofNat 64 n, BitVec.ofNat 64 (n / 2 ^ 64))

/-- The instruction the decoder reads from an instruction whose bits are w (host interface). -/
def decodeTableWord (nbits w : Nat) : Option Instr :=
  let (w0, w1) := tableWords nbits w
  match decodeBytes (bytesOfWord w0 ++ bytesOfWord w1) with
  | .ok (i, _) => some i
  | .error _ => none

end Sys2Proof
end

