-- ==== Sys2Proof/Machine/Operands.lean ====
section
/-! DEFINITION. Operands of an instruction: its type and rounding (02 R35, 03 R54), the V registers it reads and writes
(05 R86, 09 R176), its operand values by lane (02 R23, R27, 07 R129), its cost (09 Table 9.1) and its unit class (04 R68). -/

namespace Sys2Proof.Machine

/-! ## Types and rounding -/

/-- The type of a TY field: FMT.TY for 0xF (02 R35). -/
def Slice.ty (x : Slice) : TyF → Ty
  | .ty t => t
  | .fmt => Ty.ofCode (x.fmt.toNat / 16)

/-- A rounding code of the register FMT.RM (02 Table 2.4). -/
def rmOf (n : Nat) : RMode :=
  match n % 4 with
  | 0 => .rne | 1 => .rz | 2 => .ru | _ => .rd

/-- The rounding mode of an instruction: its modifier, or FMT.RM under TY = 0xF, or RNE (03 R54, 05 R87). `t` is the lane's
draw under .sr. -/
def Slice.rmode (x : Slice) (ty : TyF) (r : Rnd) (t : Nat) : RMode :=
  match r with
  | .rne => .rne | .rz => .rz | .ru => .ru | .rd => .rd
  | .sr => .sr t
  | .dflt => if ty = .fmt then rmOf (x.fmt.toNat / 4) else .rne

/-! ## Registers named -/

/-- A V register range: first register and count. -/
abbrev VRange := Nat × Nat

def VOpnd.range (n : Nat) : VOpnd → List VRange
  | .v b => [(b.toNat, n)]
  | .s _ => []

def Base.range (n : Nat) : Base → List VRange
  | .v a => [(a.toNat, n)]
  | .s _ => []

/-- The data registers of an atomic: V registers with a V base only (05 R89). -/
def Base.dataRange (n : Nat) (d : VReg) : Base → List VRange
  | .v _ => [(d.toNat, n)]
  | .s _ => []

/-- Registers that MMA's A takes (14 Table 14.1). -/
def mmaRange (ta tb : Ty) (a : VReg) (vs : VReg) : List VRange :=
  (a.toNat, mmaRegs ta tb) :: (if ta.isBlk then [(vs.toNat, 1)] else [])

/-- The V registers an instruction reads and those it writes, as ranges, for its resolved type (05 R86, 09 R176). -/
def Instr.vUse (i : Instr) (t : Ty) : List VRange × List VRange :=
  let n := t.regs
  match i with
  | .calli _ a => ([(a.toNat, 2)], [])
  | .vadd _ _ d a b | .vsub _ _ d a b | .vmul _ _ d a b | .vmulh _ _ d a b | .vmulhn _ _ d a b | .vand _ _ d a b | .vor _ _ d a b
  | .vxor _ _ d a b | .vmin _ _ d a b | .vmax _ _ d a b | .vminn _ _ d a b | .vmaxn _ _ d a b | .vsel _ _ d a b _ =>
    ((a.toNat, n) :: VOpnd.range n b, [(d.toNat, n)])
  | .vmad _ _ d a b c => ((a.toNat, n) :: VOpnd.range n b ++ VOpnd.range n c, [(d.toNat, n)])
  | .vdiv _ _ d a b | .vdivn _ _ d a b => ((a.toNat, n) :: VOpnd.range n b, [(d.toNat, 2 * n)])
  | .vnot _ _ d a | .vabs _ _ d a | .vneg _ _ d a | .vclz _ _ d a | .vpop _ _ d a | .vbrev _ _ d a | .vbfe _ _ d a _ _ =>
    ([(a.toNat, n)], [(d.toNat, n)])
  | .vbfi _ _ d a _ _ => ([(a.toNat, n), (d.toNat, n)], [(d.toNat, n)])
  | .vshl _ _ d a y | .vshr _ _ d a y | .vsra _ _ d a y | .vrot _ _ d a y =>
    ((a.toNat, n) ::
      (match y with
       | .v b => [(b.toNat, n)]
       | _ => []), [(d.toNat, n)])
  | .vprmb _ _ d a b c => ((a.toNat, 1) :: VOpnd.range 1 b ++ VOpnd.range 1 c, [(d.toNat, 1)])
  | .vsetp _ _ _ a b _ => ((a.toNat, n) :: VOpnd.range n b, [])
  | .vmov _ _ d b => (VOpnd.range n b, [(d.toNat, n)])
  | .vli _ d _ => ([], [(d.toNat, 1)])
  | .vlid _ _ d _ => ([], [(d.toNat, n)])
  | .vtos _ _ _ a _ => ([(a.toNat, n)], [])
  | .fadd _ _ _ _ d a b | .fsub _ _ _ _ d a b | .fmul _ _ _ _ d a b | .fdiv _ _ _ _ d a b | .hadd2 _ _ _ _ d a b
  | .hmul2 _ _ _ _ d a b | .dadd _ _ _ _ d a b | .dmul _ _ _ _ d a b | .ddiv _ _ _ _ d a b =>
    ((a.toNat, n) :: VOpnd.range n b, [(d.toNat, n)])
  | .ffma _ _ _ d a b c | .hfma2 _ _ _ d a b c | .dfma _ _ _ d a b c =>
    ((a.toNat, n) :: VOpnd.range n b ++ VOpnd.range n c, [(d.toNat, n)])
  | .fmin _ _ _ d a b | .fmax _ _ _ d a b => ((a.toNat, n) :: VOpnd.range n b, [(d.toNat, n)])
  | .fsetp _ _ _ _ a b _ => ((a.toNat, n) :: VOpnd.range n b, [])
  | .frcp _ _ d a | .frsq _ _ d a | .fexp2 _ _ d a | .flog2 _ _ d a | .fsin _ _ d a | .fcos _ _ d a | .ftanh _ _ d a
  | .ffrc _ _ d a | .frnd _ _ _ d a | .fsqrt _ _ _ _ d a => ([(a.toNat, n)], [(d.toNat, n)])
  | .cvt _ _ src _ d a b =>
    if src.isBlk then ((a.toNat, 1) :: VOpnd.range 1 b, [(d.toNat, if t = .f32 then 2 else 1)])
    else ([(a.toNat, src.regs)], [(d.toNat, n)])
  | .cvti _ _ src _ d a b => ((a.toNat, src.regs) :: VOpnd.range 1 b, [(d.toNat, n)])
  | .pack _ _ _ _ d a => ([(a.toNat, t.packN)], [(d.toNat, 1)])
  | .unpk _ _ src d a => ([(a.toNat, 1)], [(d.toNat, src.packN)])
  | .qnt _ _ src _ d a vs => ([(a.toNat, if src = .f32 then 32 else 16)], [(d.toNat, 4), (vs.toNat, 1)])
  | .dqnt _ _ _ _ d a vs => ([(a.toNat, 4), (vs.toNat, 1)], [(d.toNat, if t = .f32 then 32 else 16)])
  | .bget _ _ d a | .bzero _ _ d a => ([(a.toNat, 1)], [(d.toNat, 1)])
  | .bset _ _ d a b => ((a.toNat, 1) :: VOpnd.range 1 b, [(d.toNat, 1)])
  | .bmax _ _ d a b => ([(a.toNat, 1), (b.toNat, 1)], [(d.toNat, 1)])
  | .chkb _ _ a k => ([(a.toNat, (match k with | some m => m.toNat | none => 1) * n)], [])
  | .btest _ _ _ a _ => ([(a.toNat, n)], [])
  | .shfl _ _ d a k _ | .shflu _ _ d a k _ | .shfld _ _ d a k _ | .shflx _ _ d a k _ | .bcast _ _ d a k _ =>
    ((a.toNat, n) ::
      (match k with
       | .v b => [(b.toNat, 1)]
       | _ => []), [(d.toNat, n)])
  | .red _ _ _ _ d a _ _ | .scan _ _ _ _ _ d a _ _ => ([(a.toNat, n)], [(d.toNat, n)])
  | .vote _ m d _ _ => ([], if m = .ballot then [(d.toNat, 3)] else [])
  | .matchv _ _ d a _ _ => ([(a.toNat, n)], [(d.toNat, 3)])
  | .first _ d _ _ => ([], [(d.toNat, 1)])
  | .ld _ sz base d .. => (Base.range 2 base, [(d.toNat, sz.regs)])
  | .ldf _ sz base d .. => (Base.range 2 base, [(d.toNat, sz.regs)])
  | .st _ sz base b .. | .stf _ sz base b .. => ((b.toNat, sz.regs) :: Base.range 2 base, [])
  | .lds _ sz base d .. => (Base.range 1 base, [(d.toNat, sz.regs)])
  | .sts _ sz base b .. => ((b.toNat, sz.regs) :: Base.range 1 base, [])
  | .atom _ sz base d b .. => (Base.range 2 base ++ Base.dataRange sz.regs b base, Base.dataRange sz.regs d base)
  | .atoms _ sz base d b .. => (Base.range 1 base ++ Base.dataRange sz.regs b base, Base.dataRange sz.regs d base)
  | .cas _ sz base d b .. =>
    (Base.range 2 base ++ Base.dataRange sz.regs b base ++ Base.dataRange sz.regs d base, Base.dataRange sz.regs d base)
  | .cass _ sz base d b .. =>
    (Base.range 1 base ++ Base.dataRange sz.regs b base ++ Base.dataRange sz.regs d base, Base.dataRange sz.regs d base)
  | .clrf _ base .. | .pref _ base .. | .pgreq _ base .. | .cctlCln1 _ base .. | .cctlInv1 _ base .. | .cctlClnm _ base ..
  | .cctlFlsm _ base .. | .cctlInvi _ base .. => (Base.range 2 base, [])
  | .mma _ _ tb _ _ a _ vs .. => (mmaRange t tb a vs, [])
  | .mld _ _ d _ _ nm1 => ([], [(d.toNat, nm1.toNat + 1)])
  | .mscl _ _ _ a _ => ([(a.toNat, 1)], [])
  | .spawn _ _ a => ([(a.toNat, 16)], [])
  | _ => ([], [])

/-- The V registers that an instruction reads and writes, those of a context item among them, whose limits are its own (09 R176, 18
R347). -/
def Instr.vTouch (i : Instr) (t : Ty) : List VRange × List VRange :=
  match i with
  | .stctx _ item .. => if 0x10 ≤ item.toNat then ([(8 * (item.toNat - 0x10), 8)], []) else ([], [])
  | .ldctx _ item .. => if 0x10 ≤ item.toNat then ([], [(8 * (item.toNat - 0x10), 8)]) else ([], [])
  | i => Instr.vUse i t

/-- How many registers an instruction's result writes in a slice, whatever its guard selects (09 R174). -/
def Instr.resultRegs (i : Instr) (t : Ty) : Nat :=
  ((Instr.vUse i t).2.map Prod.snd).foldl (· + ·) 0 +
    match i with
    | .vsetp .. | .plop .. | .fsetp .. | .btest .. | .shfl .. | .shflu .. | .shfld .. | .shflx .. | .bcast .. | .red .. | .scan .. | .matchv ..
    | .first .. | .ldf .. | .spawn .. | .vtos .. | .sld .. | .bara .. | .barq .. | .gearw .. | .waitb .. | .acqb .. | .slput .. | .csrr .. => 1
    | .sadd .. | .ssub .. | .saddi .. | .smul .. | .smulh .. | .smulhn .. | .sdiv .. | .sdivn .. | .srem .. | .sremn .. | .sand .. | .sandn ..
    | .sor .. | .sxor .. | .sshl .. | .sshr .. | .ssra .. | .srot .. | .smin .. | .smax .. | .sminn .. | .smaxn .. | .sclz .. | .sctz ..
    | .spop .. | .sbfe .. | .sbfi .. | .ssetc .. | .ssel .. | .smov .. | .sli .. | .sliw .. | .movsr .. => 1
    | .vote _ mode .. => if mode = .ballot then 0 else 1
    | .ld _ _ _ _ _ _ _ _ nr => if nr.isSome then 1 else 0
    | .atom _ _ (.s _) .. | .atoms _ _ (.s _) .. | .cas _ _ (.s _) .. | .cass _ _ (.s _) .. => 1
    | _ => 0

/-- Every register of some ranges. -/
def rangeRegs (l : List VRange) : List Nat := l.flatMap fun r => (List.range r.2).map fun k => r.1 + k

/-- The resolved type of an instruction in a slice; b32 for one without a type. -/
def Slice.tyOf (x : Slice) (i : Instr) : Ty :=
  match i.tyf? with
  | some f => x.ty f
  | none => .b32

/-- The registers an instruction names lie below the allotment, and the opcode accepts the resolved type (02 R22, R35,
05 R94). -/
def Slice.legal (x : Slice) (allot : Nat) (i : Instr) : Bool :=
  let t := x.tyOf i
  let u := Instr.vUse i t
  i.accepts t && (u.1 ++ u.2).all fun r => r.1 + r.2 ≤ allot

/-! ## Values by lane -/

/-- A value with its bound; a pair has one (02 R23). -/
structure Val where
  n : Nat
  b : Eb16
deriving DecidableEq, Repr

/-- V register r of a lane as one 32-bit value. -/
def Ctx.val32 (c : Ctx) (x : Slice) (site r lane : Nat) : Val :=
  let q := c.rdV x site r lane
  { n := q.val.toNat, b := q.bnd }

/-- A V operand of a type: a pair for a 64-bit one, with the larger of its shadows (02 R23). -/
def Ctx.valV (c : Ctx) (x : Slice) (t : Ty) (site r lane : Nat) : Val :=
  if t.is64 then
    let lo := c.rdV x site r lane
    let hi := c.rdV x site (r + 1) lane
    { n := lo.val.toNat + 2 ^ 32 * hi.val.toNat, b := ebMax lo.bnd hi.bnd }
  else c.val32 x site r lane

/-- An operand that may be an S register, which reads with bound 0 (02 R27, 07 R129). -/
def Ctx.valO (c : Ctx) (x : Slice) (t : Ty) (site : Nat) (o : VOpnd) (lane : Nat) : Val :=
  match o with
  | .v b => c.valV x t site b.toNat lane
  | .s b =>
    let v := (c.rdS x site b.toNat).toNat
    { n := if t.is64 then v else v % 2 ^ 32, b := 0 }

/-- An S operand or immediate of the scalar class, sign-extended (06 R106). -/
def Ctx.sY (c : Ctx) (x : Slice) (site : Nat) : SOpnd → DWord
  | .s b => c.rdS x site b.toNat
  | .imm v => v.signExtend 64

/-- The write of a value of a type to a register or pair. -/
def wTy (t : Ty) (r lane : Nat) (n : Nat) (b : Eb16) : List RegWrite :=
  if t.is64 then wV64 r lane (BitVec.ofNat 64 n) b else [wV r lane (BitVec.ofNat 32 n) b]

/-- The bytes an instruction takes: 8, or 16 for a wide one (05 R81, R90). -/
def Instr.len : Instr → Nat
  | .sliw .. | .vlid .. | .qnt .. | .dqnt .. | .bufdef .. | .cpyin .. | .cpyout .. | .cpynb .. | .cpyg .. | .mma .. | .mld .. | .mst ..
  | .mscl .. => 16
  | .undefinedOpcode w0 _ => if wBit w0 then 16 else 8
  | _ => 8

/-- The slice at the instruction after this one. -/
def Slice.adv (x : Slice) (i : Instr) : Slice := { x with pc := x.pc + BitVec.ofNat 64 (Instr.len i) }

/-! ## Unit class and cost -/

/-- The UC field of an instruction that executes in a unit class (04 R68). -/
def Instr.uc? : Instr → Option UC
  | .fadd _ _ uc .. | .fsub _ _ uc .. | .fmul _ _ uc .. | .ffma _ _ uc .. | .fmin _ _ uc .. | .fmax _ _ uc ..
  | .fsetp _ _ uc .. | .fsqrt _ _ uc .. | .fdiv _ _ uc .. | .hadd2 _ _ uc .. | .hmul2 _ _ uc .. | .hfma2 _ _ uc ..
  | .dadd _ _ uc .. | .dmul _ _ uc .. | .dfma _ _ uc .. | .ddiv _ _ uc .. | .red _ _ uc .. | .scan _ _ uc ..
  | .mma _ _ _ uc .. => some uc
  | _ => none

/-- The entry of a class. -/
def pick3 (f s t : Nat) : UClass → Nat
  | .f => f | .s => s | .t => t

/-- The cost of one beat, one beat row or one block (09 Table 9.1). -/
def Instr.cost (i : Instr) (t : Ty) (fast : Bool) (c : UClass) : Nat :=
  match i with
  | .plop .. => 0
  | .vadd .. | .vsub .. | .vand .. | .vor .. | .vxor .. | .vnot .. | .vshl .. | .vshr .. | .vsra .. | .vrot .. | .vmin ..
  | .vmax .. | .vminn .. | .vmaxn .. | .vabs .. | .vneg .. | .vclz .. | .vpop .. | .vbfe .. | .vbfi .. | .vbrev ..
  | .vprmb .. | .vsetp .. | .vsel .. | .vmov .. | .vli .. | .vlid .. | .vtos .. | .fsetp .. => 1
  | .vmul .. | .vmulh .. | .vmulhn .. | .vmad .. => if fast then 2 else 1
  | .vdiv .. | .vdivn .. => if fast then 4 else 2
  | .fadd .. | .fsub .. | .fmul .. | .ffma .. | .fmin .. | .fmax .. | .hadd2 .. | .hmul2 .. | .hfma2 .. =>
    if fast then pick3 3 2 1 c else pick3 2 1 1 c
  | .fdiv .. | .fsqrt .. => if fast then pick3 8 6 4 c else pick3 4 3 2 c
  | .frcp .. | .frsq .. | .fexp2 .. | .flog2 .. | .fsin .. | .fcos .. | .ftanh .. | .ffrc .. | .frnd .. => if fast then 4 else 2
  | .dadd .. | .dmul .. | .dfma .. => if fast then 8 else 4
  | .ddiv .. => if fast then 24 else 12
  | .cvt .. | .cvti .. | .pack .. | .unpk .. => if fast then 2 else 1
  | .qnt .. | .dqnt .. => if fast then 6 else 3
  | .shfl .. | .shflu .. | .shfld .. | .shflx .. | .bcast .. | .vote .. | .matchv .. | .first .. => if fast then 2 else 1
  | .red .. | .scan .. => if fast then 4 else 2
  | .ld .. | .st .. | .atom .. | .cas .. | .ldf .. | .stf .. | .clrf .. | .pref .. | .pgreq .. | .cctlCln1 .. | .cctlInv1 ..
  | .cctlClnm .. | .cctlFlsm .. | .cctlInvi .. => if fast then 4 else 2
  | .lds .. | .sts .. | .atoms .. | .cass .. => if fast then 2 else 1
  | .bufdef .. | .cpyin .. | .cpyout .. | .cpynb .. | .cpyg .. | .waitb .. | .acqb .. | .relb .. | .spawn .. | .slput ..
  | .slrel .. | .slveto .. => 1
  | .mma _ _ tb .. =>
    let k := mmaK t tb
    if t = .i8 then (if fast then 246 else 117)
    else if k = 32 then (if fast then pick3 384 307 230 c else pick3 182 146 109 c)
    else if k = 64 then (if fast then pick3 308 246 185 c else pick3 146 117 88 c)
    else (if fast then pick3 410 328 246 c else pick3 194 156 117 c)
  | .mzero .. | .mld .. | .mst .. | .mscl .. => if fast then 4 else 2
  | _ => 0

end Sys2Proof.Machine
end

