-- ==== Sys2Proof/Machine/Lanes.lean ====
section
/-! DEFINITION. What cross-lane instructions read: the lanes of a group (08 R158), the sources of a shuffle (08 R161, R162), and the
lanes that contribute to a reduction (08 R163). -/

namespace Sys2Proof.Machine

/-- The reading of a slice of a group. -/
def laneCtx (s : State) (t slot : Nat) (g : Group) (lane : Nat) : Ctx × Slice :=
  (ctxOf s t slot g (lane / 4), g.slice (lane / 4))

/-- An active lane of a live slice. -/
def Group.laneActive (g : Group) (lane : Nat) : Bool :=
  (g.slice (lane / 4)).live && (g.slice (lane / 4)).lmask.getLsbD (lane % 4)

/-- The forms of 08 Table 8.3. -/
inductive ShflFn where
  | idx | up | down | xor
deriving DecidableEq, Repr

/-- The source lane as an exact integer. -/
def ShflFn.src (f : ShflFn) (lane k : Nat) : Int :=
  match f with
  | .idx => k
  | .up => (lane : Int) - k
  | .down => (lane + k : Nat)
  | .xor => (lane ^^^ k : Nat)

/-- The index or delta of a lane with its bound: S and immediate are one for the group (08 R161). -/
def laneIdx (s : State) (t slot : Nat) (g : Group) (k : LaneIdx) (lane : Nat) : Nat × Eb16 :=
  match k with
  | .v b => let p := laneCtx s t slot g lane; let v := p.1.val32 p.2 1 b.toNat (lane % 4); (v.n, v.b)
  | .s b => ((g.leader.sReg b.toNat).toNat, 0)
  | .imm k => (k.toNat, 0)

/-- The contributing lanes (08 R163). -/
def contributes (s : State) (t slot : Nat) (g : Group) (pc : PReg) (lane : Nat) : Bool :=
  g.laneActive lane && (let p := laneCtx s t slot g lane; p.1.rdP p.2 2 pc.toNat (lane % 4))

/-- The contributing lanes below G, ascending. -/
def contributors (s : State) (t slot : Nat) (g : Group) (pc : PReg) : List Nat :=
  (List.range g.grant).filter (contributes s t slot g pc)

end Sys2Proof.Machine
end

