-- ==== Sys2Proof/Machine/Upset.lean ====
section
/-! DEFINITION. Errors in registers as instructions meet them: which parts of which V registers an instruction uses (21 R379, R380),
the lanes that consume an uncorrectable error, and the records of the error log. -/

namespace Sys2Proof.Machine

/-! ## Sound slices -/

/-- No register of the slice holds an error, and its copies agree. -/
def Slice.sound (x : Slice) : Bool := x.bad.isEmpty && x.glitch = 0

/-- Every slice of the group is sound. -/
def Group.sound (g : Group) : Bool := g.slices.all fun p => p.2.sound

/-- The parts of a register of a lane that hold an uncorrectable error: bit 0 the low half, bit 1 the high half, bit 2 the shadow. -/
def Slice.badOf (x : Slice) (r lane : Nat) : BitVec 3 := Sparse.get 0 x.bad (4 * r + lane)

/-! ## What an instruction uses -/

/-- Whether an instruction's slices meet at a rendezvous, which they reach at no cost (08 R158). -/
def Instr.meets : Instr → Bool
  | .regang .. | .setw .. | .attach .. | .detach .. | .shfl .. | .shflu .. | .shfld .. | .shflx .. | .bcast .. | .red .. | .scan .. | .vote ..
  | .matchv .. | .first .. | .mma .. | .mzero .. | .mld .. | .mst .. | .mscl .. => true
  | _ => false

/-- The instructions of the matrix unit. -/
def Instr.isMatrix : Instr → Bool
  | .mma .. | .mzero .. | .mld .. | .mst .. | .mscl .. => true
  | _ => false

/-- The cross-lane instructions. -/
def Instr.isCross : Instr → Bool
  | .shfl .. | .shflu .. | .shfld .. | .shflx .. | .bcast .. | .red .. | .scan .. | .vote .. | .matchv .. | .first .. => true
  | _ => false

/-- Registers with the parts of them that are used. -/
abbrev VParts := VRange × BitVec 3

/-- The low half and the shadow; both halves; the shadow. -/
def lowParts : BitVec 3 := 0b101
def valParts : BitVec 3 := 0b011
def bndPart : BitVec 3 := 0b100

/-- Ranges with the same parts of each. -/
def withParts (p : BitVec 3) (l : List VRange) : List VParts := l.map fun r => (r, p)

/-- The parts of an element of a width, and its bound. -/
def elemParts (w : Nat) : BitVec 3 := if w ≤ 16 then lowParts else 7

/-- The parts that a comparison with a budget uses: of an absolute one, or where the magnitude is 0, the shadow alone (04 R74). -/
def chkParts (rel : Bool) (t : Ty) : BitVec 3 := if rel && t ≠ .b32 then 7 else bndPart

/-- The V registers that decide what a lane of an instruction does, with their parts (21 R379, R380; log 39): a narrow conversion, a
scale and a sub-word store leave the upper half out, addresses, comparisons and records the bound. A collective reads its registers
only once its rendezvous completes. -/
def Instr.vParts (i : Instr) (t : Ty) (rel : Bool) : List VParts :=
  let n := t.regs
  match i with
  | .calli _ a => withParts valParts [(a.toNat, 2)]
  | .vsetp _ _ _ a b _ | .fsetp _ _ _ _ a b _ => withParts valParts ((a.toNat, n) :: VOpnd.range n b)
  | .cvt _ _ src _ _ a b =>
    if src.isBlk then withParts lowParts ((a.toNat, 1) :: VOpnd.range 1 b) else withParts (elemParts (tyWidth src)) [(a.toNat, src.regs)]
  | .cvti _ _ src _ _ a b => withParts (elemParts (tyWidth src)) [(a.toNat, src.regs)] ++ withParts lowParts (VOpnd.range 1 b)
  | .pack _ _ src _ _ a => withParts (elemParts (tyWidth src)) [(a.toNat, t.packN)]
  | .dqnt _ _ _ _ _ a vs => withParts 7 [(a.toNat, 4)] ++ withParts lowParts [(vs.toNat, 1)]
  | .bget _ _ _ a => withParts bndPart [(a.toNat, 1)]
  | .bzero _ _ _ a => withParts valParts [(a.toNat, 1)]
  | .bset _ _ _ a b => withParts valParts [(a.toNat, 1)] ++ withParts (if t = .f32 then 7 else lowParts) (VOpnd.range 1 b)
  | .bmax _ _ _ a b => withParts 7 [(a.toNat, 1)] ++ withParts bndPart [(b.toNat, 1)]
  | .chkb .. | .btest .. => withParts (chkParts rel t) (Instr.vUse i t).1
  | .ld _ _ base .. | .ldf _ _ base .. => withParts valParts (Base.range 2 base)
  | .st _ sz base b .. | .stf _ sz base b .. => withParts (elemParts (8 * sz.bytes)) [(b.toNat, sz.regs)] ++ withParts valParts (Base.range 2 base)
  | .lds _ _ base .. => withParts valParts (Base.range 1 base)
  | .sts _ sz base b .. => withParts (elemParts (8 * sz.bytes)) [(b.toNat, sz.regs)] ++ withParts valParts (Base.range 1 base)
  | .atom _ sz base _ b .. => withParts valParts (Base.range 2 base) ++ withParts 7 (Base.dataRange sz.regs b base)
  | .atoms _ sz base _ b .. => withParts valParts (Base.range 1 base) ++ withParts 7 (Base.dataRange sz.regs b base)
  | .cas _ sz base d b .. =>
    withParts valParts (Base.range 2 base ++ Base.dataRange sz.regs d base) ++ withParts 7 (Base.dataRange sz.regs b base)
  | .cass _ sz base d b .. =>
    withParts valParts (Base.range 1 base ++ Base.dataRange sz.regs d base) ++ withParts 7 (Base.dataRange sz.regs b base)
  | .clrf _ base .. | .pref _ base .. | .pgreq _ base .. | .cctlCln1 _ base .. | .cctlInv1 _ base .. | .cctlClnm _ base ..
  | .cctlFlsm _ base .. | .cctlInvi _ base .. => withParts valParts (Base.range 2 base)
  | .spawn _ _ a => withParts valParts [(a.toNat, 16)]
  | .stctx _ item .. => if 0x10 ≤ item.toNat then withParts 7 [(8 * (item.toNat - 0x10), 8)] else []
  | i => if Instr.meets i then [] else withParts 7 (Instr.vUse i t).1

/-- What a lane of a slice uses: of VSEL the operand selected, of BTEST with an S register that budget's mode (07 R134, 08 R156). -/
def Ctx.uses (c : Ctx) (x : Slice) (i : Instr) (l : Nat) : List VParts :=
  let t := x.tyOf i
  match i with
  | .vsel _ _ _ a b p => withParts 7 (if c.rdP x 4 p.toNat l then [(a.toNat, t.regs)] else VOpnd.range t.regs b)
  | .btest _ _ _ _ (some r) => Instr.vParts i t ((c.rdS x 2 r.toNat).getLsbD 16)
  | _ => Instr.vParts i t (x.ebud.getLsbD 16)

/-- The lanes of a slice whose registers an instruction uses: those its guard selects, the one that VTOS reads, and all four of a
context item's (07 R136, 18 R347). -/
def Ctx.usingLanes (c : Ctx) (x : Slice) (i : Instr) : List Nat :=
  match i with
  | .vtos h _ _ _ sel => (match c.guarded x h, sel with
    | [], _ => []
    | _, some j => [j.toNat]
    | low :: _, none => [low])
  | .stctx h .. => if c.performs x h && x.pm then [0, 1, 2, 3] else []
  | i => (match i.hdr? with
    | some h => c.guarded x h
    | none => [])

/-- A range holds an error in a part that is used. -/
def Slice.meetsBad (x : Slice) (l : Nat) (u : VParts) : Bool :=
  (List.range u.1.2).any fun k => x.badOf (u.1.1 + k) l &&& u.2 ≠ 0

/-- The lanes of the group in which slice `c.i` consumes an error (21 R379). -/
def Ctx.consumers (c : Ctx) (x : Slice) (i : Instr) : List Nat :=
  ((c.usingLanes x i).filter fun l => (c.uses x i l).any (x.meetsBad l)).map fun l => 4 * c.i + l

/-- The parts of register r that some uses take. -/
def usedParts (us : List VParts) (r : Nat) : BitVec 3 :=
  us.foldl (fun m u => if u.1.1 ≤ r && r < u.1.1 + u.1.2 then m ||| u.2 else m) 0

/-- A lane reads, in some ranges, an error that none of the uses takes (21 R380). -/
def Slice.ignoresBad (x : Slice) (l : Nat) (read : List VRange) (us : List VParts) : Bool :=
  read.any fun g => (List.range g.2).any fun k => x.badOf (g.1 + k) l &&& ~~~(usedParts us (g.1 + k)) ≠ 0

/-- The lanes in which an instruction reads an error in a register that it does not consume (21 R380). -/
def Ctx.badReaders (c : Ctx) (x : Slice) (i : Instr) : List Nat :=
  if Instr.meets i then []
  else
    ((List.range 4).filter fun l =>
      x.ignoresBad l (Instr.vTouch i (x.tyOf i)).1 (if (c.usingLanes x i).elem l then c.uses x i l else [])).map fun l => 4 * c.i + l

/-- The register that lane n of a shuffle delivers lies in which lane (08 R162). -/
def shflFrom (f : ShflFn) (s : State) (t slot : Nat) (g : Group) (k : LaneIdx) (n : Nat) : Nat :=
  let src := f.src n (laneIdx s t slot g k n).1
  if 0 ≤ src ∧ src < g.grant then src.toNat else n

/-- The form of a shuffle. -/
def Instr.shfl? : Instr → Option (ShflFn × VReg × LaneIdx)
  | .shfl _ _ _ a k _ | .bcast _ _ _ a k _ => some (.idx, a, k)
  | .shflu _ _ _ a k _ => some (.up, a, k)
  | .shfld _ _ _ a k _ => some (.down, a, k)
  | .shflx _ _ _ a k _ => some (.xor, a, k)
  | _ => none

/-- The lanes whose registers decide what lane n of a cross-lane instruction writes, each with what of it is used (08 R161-R166): for
SCAN the contributing ones up to it. -/
def collUses (s : State) (t slot : Nat) (g : Group) (i : Instr) (n : Nat) : List (Nat × VParts) :=
  let w := (g.leader.tyOf i).regs
  match Instr.shfl? i, i with
  | some (f, a, k), _ =>
    (shflFrom f s t slot g k n, (a.toNat, w), 7) :: (match k with
      | .v b => [(n, (b.toNat, 1), 7)]
      | _ => [])
  | none, .red _ _ _ _ _ a pc _ => (contributors s t slot g pc).map fun m => (m, (a.toNat, w), 7)
  | none, .scan _ _ _ _ ex _ a pc _ =>
    ((contributors s t slot g pc).filter fun m => m < n || (!ex && m = n)).map fun m => (m, (a.toNat, w), 7)
  | none, .matchv _ _ _ a pc _ => (n :: contributors s t slot g pc).map fun m => (m, (a.toNat, w), valParts)
  | none, _ => []

/-- The lanes in which a cross-lane instruction consumes an error in a register, and those in which it reads one (21 R379, R380). -/
def collBad (s : State) (t slot : Nat) (g : Group) (i : Instr) : List Nat × List Nat :=
  let lanes := g.liveIdx.flatMap fun k =>
    (match i.hdr? with
     | some h => (ctxOf s t slot g k).guarded (g.slice k) h
     | none => []).map fun l => 4 * k + l
  let held (m : Nat) (u : VParts) : Bool := (g.slice (m / 4)).meetsBad (m % 4) u
  let used := lanes.flatMap (collUses s t slot g i)
  let own := if Instr.isMatrix i then [] else (Instr.vUse i (g.leader.tyOf i)).1
  (lanes.filter fun n => (collUses s t slot g i n).any fun q => held q.1 q.2,
   (List.range g.grant).filter fun m => (g.slice (m / 4)).ignoresBad (m % 4) own ((used.filter fun q => q.1 = m).map Prod.snd))

/-! ## Records -/

/-- A record of an instruction of the group: all ones as the address of a register (21 Table 21.3). -/
def State.logSlice (s : State) (t : Nat) (g : Group) (kind : Nat) (addr : DWord) (lane : Nat) (detail : DWord) : State :=
  s.logError kind addr g.asid t lane g.idx g.team (lane / 4) (g.slice (lane / 4)).pc (s.groupTag t g) detail

/-- Copies of slice k's instruction that differ: REDUNDANT_RETRY, and at the second attempt REDUNDANT_FAIL (21 R385). -/
def State.noteDiffer (s : State) (t slot : Nat) (g : Group) (k : Nat) : State :=
  let x := g.slice k
  if g.dual && 0 < x.glitch then
    let s1 := s.logSlice t g 0x05 0 (4 * k) 0
    let s2 := if 1 < x.glitch then s1.logSlice t g 0x06 0 (4 * k) 0 else s1
    s2.updSlice t slot k fun x => { x with glitch := 0 }
  else s

/-- Errors in registers: CONSUMED for the first lane that consumes one, DEFERRED for the first that reads one and does not (21 R379,
R380). -/
def State.noteBad (s : State) (t : Nat) (g : Group) (use read : List Nat) : State :=
  let s1 := match use with
    | l :: _ => s.logSlice t g 0x03 (BitVec.allOnes 64) l 0
    | [] => s
  match read with
  | l :: _ => s1.logSlice t g 0x02 (BitVec.allOnes 64) l 0
  | [] => s1

end Sys2Proof.Machine
end

