-- ==== Sys2Proof/Machine/Ops.lean ====
section
/-! DEFINITION. The operations that instructions share: writing back results (09 R174, 04 R70), gangs (09 R171-R173), taking a
trap and returning from one (18 R337-R342), one beat of a gang (09 R172, R174-R176, R182-R185), and the rendezvous of a
collective (06 R121, 18 R339). -/

namespace Sys2Proof.Machine

/-! ## Traps as raised -/

/-- A trap with no operand of its own. -/
def mkTrap (vec code : Nat) : Trap :=
  { vec := vec, code := code, lanes := none, aux0 := 0, aux1 := 0, coll := false, bps := decide (vec = 0x11), rpc := none }

/-- ILLEGAL with a code of 18 Table 18.2. -/
def illegal (code : Nat) : Trap := mkTrap 0x01 code

/-- A lane mask over the group. -/
def laneMask (l : List Nat) : BitVec 96 := l.foldl (fun m k => m ||| (1#96 <<< k)) 0

/-- MISALIGN: the lanes and the lowest address (18 Table 18.2). -/
def misalign (lanes : List Nat) (addr : Nat) : Trap :=
  { mkTrap 0x06 0 with lanes := some (laneMask lanes), aux0 := BitVec.ofNat 64 addr }

/-- BOUND_BREACH: the lanes and the largest breaching bound (04 R76, 18 Table 18.2). -/
def breach (lanes : List Nat) (b : Eb16) : Trap :=
  { mkTrap 0x0A 0 with lanes := some (laneMask lanes), aux0 := b.setWidth 64 }

/-- MACHINE_CHECK with CODE 0x01: the consuming lanes and the address of the first unit consumed (21 R379). -/
def poisonTrap (lanes : List Nat) (addr : Nat) : Trap :=
  { mkTrap 0x0E 0x01 with lanes := some (laneMask lanes), aux0 := BitVec.ofNat 64 addr }

/-- MACHINE_CHECK for an error consumed in a register: AUX0 is all ones (21 R379). -/
def regTrap (lanes : List Nat) : Trap := { poisonTrap lanes 0 with aux0 := BitVec.allOnes 64 }

/-- Consumed poison (21 R379), its first unit and array given: every slice of the beat takes MACHINE_CHECK, and CONSUMED is logged (log
30). -/
def State.consumeIn (s : State) (t : Nat) (g : Group) (ad array : Nat) (lanes : List Nat) : State × Trap :=
  let ln := lanes.headD 0
  let x := g.slice (ln / 4)
  (s.logError 0x03 (BitVec.ofNat 64 (physOf ad)) g.asid t ln g.idx g.team (ln / 4) x.pc (s.groupTag t g) (BitVec.ofNat 64 array),
   poisonTrap lanes (physOf ad))

/-- MACHINE_CHECK of copies that differ a second time (21 R385). -/
def differTrap : Trap := mkTrap 0x0E 0x02

/-! ## Results -/

/-- A result writes back; an automatic class sets HX (04 R70). -/
def Slice.writeback (x : Slice) (p : Pend) : Slice :=
  let y := p.writes.foldl Slice.write x
  match p.hx with
  | some items => { y with hx := updateHx y.ebud y.hx items }
  | none => y

/-- A number that tells the registers of a slice's results apart. -/
def Dst.code : Dst → Nat
  | .v r l => 4 * r + l
  | .p r l => 1056 + 4 * r + l
  | .s r => 1024 + r

/-- Of several results outstanding for one register, one is kept; `c` chooses it, for each register and lane (09 R175). -/
def Slice.resolve (x : Slice) (c : Nat → Nat → Nat) : Slice :=
  let writers (d : Dst) : List Nat := (x.out.zipIdx.filter fun q => q.1.writes.any fun w => w.dst = d).map Prod.snd
  { x with out := x.out.zipIdx.map fun q =>
      { q.1 with writes := q.1.writes.filter fun w =>
          let js := writers w.dst
          js.length ≤ 1 || js.getD (c w.dst.code js.length) q.2 = q.2 } }

/-- Every result that is there returns, in issue order. -/
def Slice.drain (x : Slice) : Slice :=
  (x.out.filter fun p => p.tok = 0).foldl Slice.writeback { x with out := x.out.filter fun p => p.tok ≠ 0 }

/-- Every result of slice k that is there returns. -/
def State.drained (s : State) (k : Nat) (x : Slice) : Slice :=
  (x.resolve fun d n => s.choose (64 * (k * 2048 + d) + 9) n).drain

/-- No result is still to come from a queued atomic, a held LDF or the like. -/
def Slice.drainable (x : Slice) : Bool := x.out.all fun p => p.tok = 0

/-- How many register writes are outstanding (09 R174). -/
def Slice.outCount (x : Slice) : Nat := (x.out.map Pend.n).foldl (· + ·) 0

/-- A slice whose wait has ended: it stays parked while results are outstanding (09 R175). -/
def Slice.wake (x : Slice) : Slice :=
  if x.out.isEmpty then { x with wait := .run, newRun := true, wset := 0 } else { x with wait := .results }

/-! ## Gangs -/

/-- Makes one gang of the slices listed, ascending. -/
def Group.setGang (g : Group) (l : List Nat) : Group :=
  l.foldl (fun g k => g.setSlice k { g.slice k with gang := l.headD 0 }) g

/-- The gang of slice i, as PREEMPT finds it, is noted in its slices, of which each leaves it alone (09 R172, R173). -/
def Group.noteGang (g : Group) (i : Nat) : Group :=
  if (g.slice i).lead.isSome then g
  else
    let l := g.liveIdx.filter fun k => (g.slice k).gang = (g.slice i).gang
    l.foldl (fun g k => g.setSlice k { g.slice k with lead := some (l.headD i) }) g

/-- A slice leaves its gang alone (09 R172). -/
def Group.leaveGang (g : Group) (i : Nat) : Group :=
  let rest := g.liveIdx.filter fun k => k ≠ i ∧ (g.slice k).gang = (g.slice i).gang
  (g.setGang rest).setGang [i]

/-- Every beat row forms one gang of its live slices (09 R173). -/
def Group.regang (g : Group) : Group :=
  (List.range 3).foldl (fun g r => g.setGang (g.liveIdx.filter fun k => k / 8 = r)) g

/-- What tells the gangs after a beat apart: the next PC, and for slices that have just been resumed the gang recorded in their beat row
(09 R172, R173). -/
def Group.gangKey (g : Group) (k : Nat) : Nat × Option (Nat × Nat) :=
  let x := g.slice k
  (x.pc.toNat, if x.td = 0 then x.glead.map fun l => (k / 8, l) else none)

/-- A slice that has been resumed waits for those of its beat row that have yet to return, whose gang may be its own (09 R173, log 34). -/
def Group.gathers (g : Group) (k : Nat) : Bool :=
  let x := g.slice k
  decide (x.td = 0) && x.glead.isSome && g.liveIdx.any fun j => decide (j / 8 = k / 8 ∧ 1 ≤ (g.slice j).td) && (g.slice j).glead.isSome

/-- After a beat: one gang per distinct next PC; a slice that yielded stands alone (09 R172). A slice that has been resumed joins those of
the gang recorded that have not issued since (09 R173). -/
def Group.splitGang (g : Group) (l : List Nat) : Group :=
  let paused (k : Nat) : Bool :=
    match (g.slice k).wait with
    | .pause _ => true
    | _ => false
  let here := l.filter fun k => (g.slice k).live
  let g1 := (here.filter paused).foldl (fun g k => g.setGang [k]) g
  let rest := here.filter fun k => !paused k
  let keys := rest.foldl (fun (r : List (Nat × Option (Nat × Nat))) k => if r.elem (g1.gangKey k) then r else r ++ [g1.gangKey k]) []
  keys.foldl (fun g q => g.setGang ((if q.2.isSome then g.liveIdx else rest).filter fun k => g.gangKey k = q)) g1

/-- The slices of a gang, ascending. -/
def Group.gangSlices (g : Group) (id : Nat) : List Nat := g.liveIdx.filter fun k => (g.slice k).gang = id

/-! ## Taking a trap -/

/-- GSLOT is 16 × quarter + slot, as the tile keys its groups (18 R338). -/
def frameAddr (tfbase : DWord) (ptn gslot idx td : Nat) : Nat :=
  (tfbase.toNat + 128 * ((((ptn * 64 + gslot) * 24 + idx) * 2) + td)) % 2 ^ 56

/-- An entry that holds nothing (18 R347). -/
def DivEntry.none : DivEntry := { calli := false, join := 0, saved := 0, pend := 0, resume := 0, fmt := 0 }
def RetEntry.none : RetEntry := { addr := 0, flag := false }

/-- Lengthens a list to n entries. -/
def padTo {α : Type} (n : Nat) (d : α) (l : List α) : List α := (l ++ List.replicate n d).take n

/-- The stacks of slice i as they are set aside, with the vector delivered (18 R338), and the gang that PREEMPT interrupted: a slice that
takes another trap has left its gang alone (09 R172, R173). -/
def Slice.setAside (x : Slice) (vec i : Nat) : Level :=
  { vec := vec, gang := if vec = 0x0D then x.lead.getD i else i, dsn := x.div.length, div := padTo 3 DivEntry.none x.div.reverse, rsn := x.ret.length,
    ret := padTo 8 RetEntry.none x.ret.reverse, spill := x.spill }

/-- The lanes of a slice, as logical lanes of the group. -/
def Slice.laneSet (x : Slice) (i : Nat) : List Nat := x.active.map fun l => 4 * i + l

/-- The frame's words (18 Table 18.2). -/
def frameWords (x : Slice) (i : Nat) (tr : Trap) (vec : Nat) (pc rpc : DWord) : List DWord :=
  let lanes := (tr.lanes.getD (laneMask (x.laneSet i))).toNat
  [ pc, rpc,
    packBits [(vec % 256, 56), (b2n tr.coll, 55), (b2n tr.bps, 54), (x.td % 2, 53), (i % 32, 48), (tr.code % 2 ^ 32, 0)],
    BitVec.ofNat 64 lanes, BitVec.ofNat 64 (lanes / 2 ^ 64), tr.aux0, tr.aux1,
    packBits [(b2n (x.ebud.getLsbD 16), 40), (x.ebud.toNat % 2 ^ 16, 24), (x.hx.toNat, 16), (x.fmt.toNat, 8), (b2n x.cont, 7),
      (b2n x.pm, 6), (x.lmask.toNat, 0)] ] ++
    (List.range 8).map fun k => x.sReg (4 + k)

/-- Words as bytes, lowest first. -/
def wordBytes (ws : List DWord) : List Byte := ws.flatMap fun w => leBytes 8 w.toNat

/-- Enters the group's store queue (12 R240). -/
def State.push (s : State) (t slot : Nat) (e : SqKind) : State := s.updGroup t slot fun g => { g with sq := g.sq ++ [e] }

/-- The team is to be killed (21 R382). -/
def State.doom (s : State) (t team : Nat) : State := s.updTeam t team fun m => { m with doomed := true }

/-- Where the vector goes (18 R338): under EMVEC = 0 an unassigned opcode is delivered as ILLEGAL with CODE 0x00 (18 R343). -/
def State.vecOf (s : State) (tr : Trap) : Nat := if tr.vec = 0x02 && s.csr.emvec = 0 then 0x01 else tr.vec

/-- MACHINE_CHECK with CODE 0x02 or 0x03 (21 R381). -/
def killsTeam (tr : Trap) : Bool := tr.vec = 0x0E && (tr.code = 2 || tr.code = 3)

/-- Delivers a trap in one slice (18 R338). TD = 2, or a frame that cannot be stored, kills the team, and so does a trap after which it
cannot go on. A frame whose table entries are read poisoned cannot be stored (21 R379, log 45). -/
def State.deliver (s : State) (t slot i : Nat) (tr0 : Trap) : State :=
  match s.group? t slot with
  | none => s
  | some g =>
    let v := s.vecOf tr0
    let tr : Trap := if v = tr0.vec then tr0 else { tr0 with code := 0, aux0 := 0, aux1 := 0 }
    let g1 := g.leaveGang i
    let x := s.drained i (g1.slice i)
    let f := frameAddr s.csr.tfbase t slot i x.td
    let tx := s.translate t g.asid .store (fun _ => true) [(4 * i, f)]
    let ok := (s.walkPoison t g.asid f).isNone && tx.1.all fun b => b.page.cause = 0
    if x.td = 2 || !ok || killsTeam tr0 then
      (s.setGroup t slot (g1.setSlice i { x with wait := .records tr 0 })).doom t g.team
    else
      let s1 := tx.2
      let rpc := tr.rpc.getD x.pc
      let acc : Acc :=
        { loc := { s1.locIn tx.1 f with tagged := false }, data := wordBytes (frameWords x i tr v x.pc rpc), bnd := 0 }
      let y : Slice :=
        { x with
            levels := x.levels.take x.td ++ [x.setAside v i], div := [], ret := [], spill := 0, pm := true, td := x.td + 1,
            lmask := 0b1111, fmt := fmtReset, ebud := 0x08000, hx := hxReset, cont := false, wait := .run, newRun := true, wset := 0,
            skipBp := false, promo := 0, lead := none, glead := if x.td = 0 then none else x.glead,
            pc := if v = 0x02 then s.csr.emvec else s.csr.ptvec + BitVec.ofNat 64 (256 * v) }
      let z := (y.write (wS 4 (BitVec.ofNat 64 f))).write (wS 5 (BitVec.ofNat 64 v))
      (s1.setGroup t slot (g1.setSlice i z)).push t slot (.store false [acc])

/-- A lookup of the frame of a slice would read a table entry that a copy engine owns (12 R253, 17 R321). -/
def State.frameHeld (s : State) (t slot i : Nat) : Bool :=
  let x := s.slice t slot i
  match s.group? t slot with
  | none => false
  | some g => decide (x.td < 2) && s.walkHeld t g.asid [frameAddr s.csr.tfbase t slot i x.td]

/-- The trap of a slice in delivery is taken once its records are accepted, its results have returned (17 R327, 18 R337) and its frame can
be looked up. -/
def State.tryDeliver (s : State) (t slot i : Nat) : State :=
  let x := s.slice t slot i
  match x.wait with
  | .records tr beat =>
    if x.live && x.drainable && (beat = 0 || s.sending.all fun r => r.beat ≠ beat) && !s.frameHeld t slot i then s.deliver t slot i tr
    else s
  | _ => s

/-- A slice takes a synchronous trap: it leaves its gang and enters delivery. -/
def State.raise (s : State) (t slot i : Nat) (tr : Trap) (beat : Nat) : State :=
  let s1 := s.updGroup t slot fun g =>
    let g1 := g.leaveGang i
    g1.setSlice i { g1.slice i with wait := .records tr beat }
  s1.tryDeliver t slot i

/-- The order of pending asynchronous traps: MACHINE_CHECK, WATCHDOG, copy failure (MISALIGN among them, log 85), PREEMPT (18 R337). -/
def asyncRank (tr : Trap) : Nat :=
  match tr.vec with
  | 0x0E => 0 | 0x0F => 1 | 0x0D => 3 | _ => 2

/-- The asynchronous trap that comes first. -/
def firstAsync (l : List Trap) : Option Trap :=
  l.foldl
    (fun r tr =>
      match r with
      | none => some tr
      | some b => if asyncRank tr < asyncRank b then some tr else r)
    none

/-- The asynchronous trap that the slice is to take: PREEMPT is held at trap depth 1 and above (18 R340). -/
def Slice.asyncNow (x : Slice) : Option Trap := firstAsync (x.async.filter fun tr => !(tr.vec = 0x0D && 1 ≤ x.td))

/-- Whether an asynchronous trap may interrupt what the slice waits for (18 R337): not a delivery, or an MST's conversion, which holds the
slice at issue (14 R293). A slice that waits for REGRANT resumes at its RPC, where it waits again (18 R351). -/
def Wait.interruptible : Wait → Bool
  | .records .. | .convert => false
  | _ => true

/-- Where RFT resumes an interrupted slice (18 R337); TLBINV, LDCTX and HALT, which the rule does not list, execute again (log 83). -/
def Slice.resumePc (x : Slice) : DWord :=
  match x.wait with
  | .run | .results | .pause _ | .yieldCopy _ => x.pc
  | _ => x.parkPc

/-- Takes the first pending asynchronous trap; a held LDF withdraws its entries (11 R223). -/
def State.takeAsync (s : State) (t slot i : Nat) : State :=
  let x := s.slice t slot i
  match x.asyncNow with
  | none => s
  | some tr =>
    if x.live && x.wait.interruptible then
      let mine (h : Held) : Bool := decide (h.tile = t ∧ h.slot = slot ∧ h.slice = i)
      let toks := if x.wait = .future then (s.deferral.filter mine).map Held.tok else []
      let rpc := tr.rpc.getD x.resumePc
      let y : Slice :=
        { x with pc := rpc, async := x.async.erase tr, out := x.out.filter fun p => !toks.elem p.tok,
                 wait := .records { tr with rpc := some rpc } 0 }
      let s1 : State :=
        if x.wait = .future then { s with deferral := s.deferral.filter fun h => !mine h } else s
      let s2 := (s1.setSlice t slot i y).updGroup t slot fun g =>
        { (if tr.vec = 0x0D then g.noteGang i else g).leaveGang i with sq := g.sq.map fun e =>
            match e with
            | .fence hold full sys ts copies mx => .fence hold full sys (ts.filter fun k => !toks.elem k) copies mx
            | e => e }
      s2.tryDeliver t slot i
    else s

/-! ## Returning from a trap -/

/-- The stacks of a level, restored (18 R342). -/
def Slice.restoreLevel (x : Slice) (l : Level) : Slice :=
  { x with div := (l.div.take l.dsn).reverse, ret := (l.ret.take l.rsn).reverse, spill := l.spill }

/-- A divergence entry below DSN that is empty (18 R342). -/
def Level.badDiv (l : Level) : Bool := (l.div.take l.dsn).any fun e => e.saved = 0

/-- The return itself, from the frame's words: the stacks, word 7 and S4 to S11 are restored, TD falls and the slice goes on
at RPC (18 R342). None where RFT raises ILLEGAL. -/
def Slice.rft (x : Slice) (l : Level) (ws : List DWord) (rpc : DWord) : Option Slice :=
  let w2 := ws.getD 2 0
  let w7 := ws.getD 7 0
  if bits w7 3 0 = 0 || bits w7 15 12 = 15 || rpc.toNat % 8 ≠ 0 || l.badDiv then none
  else
    let y : Slice :=
      { x.restoreLevel l with
          lmask := BitVec.ofNat 4 (bits w7 3 0), fmt := BitVec.ofNat 8 (bits w7 15 8) &&& 0xFC,
          ebud := BitVec.ofNat 17 (bits w7 40 24), hx := BitVec.ofNat 8 (bits w7 23 16), cont := w7.getLsbD 7, pm := w7.getLsbD 6,
          td := x.td - 1, levels := x.levels.take (x.td - 1), pc := rpc,
          glead := if x.td = 1 then x.glead.map fun _ => l.gang else x.glead, skipBp := w2.getLsbD 54, newRun := true, wset := 0 }
    some ((List.range 8).foldl (fun z k => z.write (wS (4 + k) (ws.getD (8 + k) 0))) y)

/-! ## The allowance -/

/-- A beat of a cost is covered (09 R185). -/
def Tile.covers (x : Tile) (slot gang cost : Nat) : Bool :=
  cost = 0 ||
    (match x.reserve with
     | some (sl, gg, c) => if sl = slot && gg = gang then cost ≤ x.allow else cost + c ≤ x.allow
     | none => cost ≤ x.allow)

/-- The gang's headroom: the smallest HX of its slices (04 R71). -/
def Group.headroom (g : Group) (l : List Nat) : Int := (l.map fun k => (g.slice k).hx.toInt).foldl min 127

/-- The class that runs and its cost, `n` times the entry of 09 Table 9.1; none while the allowance does not cover it (04 R68,
R71, 09 R185). A copy of a dual issue pays too, but a matrix instruction is
issued once for the group (09 R182). -/
def State.classCost (s : State) (t slot : Nat) (g : Group) (l : List Nat) (i : Instr) (n : Nat) : Option (UClass × Nat) :=
  let x := s.tile t
  let ty := (g.slice (l.headD 0)).tyOf i
  let gang := (g.slice (l.headD 0)).gang
  let cost (c : UClass) : Nat := n * (if g.dual && !Instr.isMatrix i then 2 else 1) * Instr.cost i ty x.fast c
  let covers (c : UClass) : Bool := x.covers slot gang (cost c)
  let one (c : UClass) : Option (UClass × Nat) := if covers c then some (c, cost c) else none
  match Instr.uc? i with
  | some .f => one .f
  | some .s => one .s
  | some .t => one .t
  | some .auto =>
    if ty = .f32 || ty.isF16 || ty.isF8 || ty.isBlk then (autoClass (g.headroom l) covers).map fun c => (c, cost c) else one .f
  | none => one .f

/-- Debits the allowance; a reservation ends when its gang issues (09 R182, R185). -/
def Tile.debit (x : Tile) (slot gang cost : Nat) : Tile :=
  { x with
      allow := x.allow - cost,
      reserve :=
        match x.reserve with
        | some (sl, gg, c) => if sl = slot && gg = gang then none else some (sl, gg, c)
        | none => none }

/-! ## One beat -/

/-- What a meaning does in a beat: given the class and the slices that issue, the state after, and for each slice that traps its
trap with the beat number of its fault records (0: none). -/
abbrev Plan := UClass → State → List Nat → State × List (Nat × Trap × Nat)

/-- A meaning that each slice carries out by itself. -/
def perSlice (t slot : Nat) (f : UClass → Ctx → Slice → Except Trap Slice) : Plan := fun c s l =>
  l.foldl
    (fun (r : State × List (Nat × Trap × Nat)) k =>
      match s.group? t slot with
      | none => r
      | some g =>
        match f c { st := s, t := t, slot := slot, i := k, g := g } (g.slice k) with
        | .ok x => (r.1.setSlice t slot k x, r.2)
        | .error tr => (r.1, r.2 ++ [(k, tr, 0)]))
    (s, [])

/-- A meaning that the slices carry out in turn on the state; each reads its registers as they stood before the beat. -/
def eachSlice (t slot : Nat) (f : State → Ctx → Slice → State × Option (Trap × Nat)) : Plan := fun _ s l =>
  l.foldl
    (fun (r : State × List (Nat × Trap × Nat)) k =>
      match s.group? t slot with
      | none => r
      | some g =>
        let q := f r.1 { st := s, t := t, slot := slot, i := k, g := g } (g.slice k)
        (q.1, match q.2 with
          | some tr => r.2 ++ [(k, tr.1, tr.2)]
          | none => r.2))
    (s, [])

/-- An enabled breakpoint at an address (18 R343, Table 18.3). -/
def State.breakAt (s : State) (pc : DWord) : Bool :=
  (List.range 4).any fun n =>
    let b := Sparse.get 0 s.csr.bpa n
    b.getLsbD 0 && decide (bits b 55 3 = pc.toNat % 2 ^ 56 / 8)

/-- V registers as a set. -/
def regSet (l : List Nat) : BitVec 256 := l.foldl (fun m k => m ||| (1#256 <<< k)) 0

/-- An instruction passes decode in a slice (05 R94). What the type of a collective decides through FMT is checked once its rendezvous is
complete, with the FMT of the lowest live slice (06 R121); all that the matrix unit checks comes then (14 R282). -/
def Slice.decodes (x : Slice) (allot : Nat) (i : Instr) : Bool :=
  if !Instr.meets i then x.legal allot i
  else if Instr.isMatrix i then true
  else if i.tyf? = some .fmt then
    let u := Instr.vUse i .b32
    (u.1 ++ u.2).all fun r => r.1 + r.2 ≤ allot
  else x.legal allot i

/-- The checks before an instruction's own traps (18 R337, 05 R94, 09 R176): none where it may issue. A breakpoint is taken
in user mode only, and once suppressed after RFT (18 R343). What a collective writes is compared with the write set under the slice's own
FMT (log 80). -/
def State.preTrap (s : State) (g : Group) (x : Slice) (i : Instr) : Option Trap :=
  let u := Instr.vTouch i (x.tyOf i)
  if !x.pm && !x.skipBp && s.breakAt x.pc then some (mkTrap 0x11 0)
  else if !x.decodes g.allot i then some (illegal 0)
  else if g.hazchk && decide (x.wset &&& regSet (rangeRegs (u.1 ++ u.2)) ≠ 0) then some (mkTrap 0x03 0)
  else none

/-- A wait whose instruction executes again when it ends. -/
def Wait.retries : Wait → Bool
  | .refused | .slot | .gear | .arrive _ => true
  | _ => false

/-- RFT and EMRET. -/
def Instr.isReturn : Instr → Bool
  | .rft .. | .emret .. => true
  | _ => false

/-- What a slice does next begins a run: it has come to a rendezvous, or its instruction has taken it back from a handler (09 R176). -/
def Slice.newBegins (x old : Slice) : Bool :=
  decide (x.td < old.td) ||
    match x.wait with
    | .rdv _ => true
    | _ => false

/-- A slice after its instruction, `old` before it: its write set, and its park (05 R83, 09 R174-R176, 21 R385). An instruction that is to
be executed again has issued nothing. The hardware parks a slice by its own choice at the limit of outstanding results alone (log 99). -/
def Slice.finish (x old : Slice) (g : Group) (i : Instr) : Slice :=
  if x.wait.retries then { x with promo := 0 }
  else
    let y : Slice :=
      { x with
          newRun := x.newBegins old, skipBp := x.skipBp && decide (x.td < old.td), promo := 0,
          wset := if x.newBegins old then 0 else if g.hazchk then x.wset ||| regSet (rangeRegs (Instr.vTouch i (x.tyOf i)).2) else x.wset,
          glead := if x.td = 0 && !Instr.isReturn i then none else x.glead }
    let pk := match i.hdr? with
      | some h => h.pk || g.dual
      | none => g.dual
    if y.wait = .run && pk then y.wake else y

/-- A write by the group that an A latch is tagged with invalidates it (14 R287). -/
def Tile.touchLatch (x : Tile) (q : Nat) (g : Group) (regs : List Nat) : Tile :=
  match Sparse.find? x.alatch q with
  | some a =>
    if a.gid = g.gid && regs.any fun r => (a.a.toNat ≤ r && r < a.a.toNat + a.n) || (a.ta.isBlk && r = a.vs.toNat) then
      { x with alatch := Sparse.erase x.alatch q }
    else x
  | none => x

/-- One beat of the slices l of a group, in a class and at a cost. -/
def State.beat (s : State) (t slot : Nat) (g : Group) (l : List Nat) (i : Instr) (c : UClass) (cost : Nat) (plan : Plan) :
    State :=
  let isAsync (k : Nat) : Bool := (g.slice k).asyncNow.isSome
  let pre := (l.filter fun k => !isAsync k).map fun k => (k, s.preTrap g (g.slice k) i)
  let ok := (pre.filter fun p => p.2.isNone).map Prod.fst
  let bad := pre.filterMap fun p => p.2.map fun tr => (p.1, tr, 0)
  let r := if ok.isEmpty then (s, []) else plan c s ok
  let good := ok.filter fun k => !(r.2.any fun q => q.1 = k)
  let gang := (g.slice (l.headD 0)).gang
  let paid := good.any fun k => !(r.1.slice t slot k).wait.retries
  let s1 := if paid then r.1.updTile t fun x => x.debit slot gang cost else r.1
  let s2 := good.foldl (fun s k => s.updSlice t slot k fun x => x.finish (g.slice k) g i) s1
  let s3 := s2.updTile t fun x =>
    x.touchLatch (slot / 16) g (good.flatMap fun k => rangeRegs (Instr.vUse i ((g.slice k).tyOf i)).2)
  let s4 := s3.updGroup t slot fun g => g.splitGang good
  let s5 := (bad ++ r.2).foldl (fun s q => s.raise t slot q.1 q.2.1 q.2.2) s4
  let s6 := (l.filter isAsync).foldl (fun s k => s.takeAsync t slot k) s5
  s6.fresh

/-- Slice k's trap for an error it meets: its copies differ again, or it consumes an error in a register (21 R379, R385). -/
def State.upsetTrap (s : State) (t slot : Nat) (g : Group) (i : Instr) (k : Nat) : Option Trap :=
  let c : Ctx := { st := s, t := t, slot := slot, i := k, g := g }
  if g.dual && 1 < (g.slice k).glitch then some differTrap
  else
    match c.consumers (g.slice k) i with
    | [] => none
    | ls => some (regTrap ls)

/-- What slice k's errors add to the log; copies that differed once are executed again, and agree (21 R385);
the repetition draws from the same generator state as the issue that was discarded, and the two advance it once (log 93). -/
def State.noteUpset (s : State) (t slot : Nat) (g : Group) (i : Instr) (k : Nat) : State :=
  let c : Ctx := { st := s, t := t, slot := slot, i := k, g := g }
  (s.noteDiffer t slot g k).noteBad t g (if g.dual && 1 < (g.slice k).glitch then [] else c.consumers (g.slice k) i)
    (c.badReaders (g.slice k) i)

/-- What the slices do that meet no error in their registers, the traps of the others beside (21 R377-R380, R385). -/
def upsetPlan (t slot : Nat) (g : Group) (i : Instr) (plan : Plan) : Plan := fun c s l =>
  if l.all fun k => (g.slice k).sound then plan c s l
  else
    let hard := l.filterMap fun k => (s.upsetTrap t slot g i k).map fun tr => (k, tr, 0)
    let s1 := l.foldl (fun r k => r.noteUpset t slot g i k) s
    let go := l.filter fun k => !(hard.any fun q => q.1 = k)
    let r := if go.isEmpty then (s1, []) else plan c s1 go
    (r.1, hard ++ r.2)

/-- One beat of the gang in focus. Without a live gang, or in a package that does not run, it is a fault; while the allowance
does not cover the beat, the gang waits. -/
def runBeat (s : State) (i : Instr) (plan : Nat → Nat → Plan) : Host.Outcome State Fault Refusal :=
  if !(s.powered && s.booted) then .fault .notRunning
  else
    match s.group? s.focus.tile s.focus.slot with
    | none => .fault .noGang
    | some g =>
      match s.focus.slices.filter fun k => (g.slice k).live with
      | [] => .fault .noGang
      | k :: rest =>
        match s.classCost s.focus.tile s.focus.slot g (k :: rest) i 1 with
        | none => .next s
        | some (c, cost) =>
          .next (s.beat s.focus.tile s.focus.slot g (k :: rest) i c cost
            (upsetPlan s.focus.tile s.focus.slot g i (plan s.focus.tile s.focus.slot)))

/-- A beat whose slices act each for themselves. -/
def runSlices (s : State) (i : Instr) (f : UClass → Ctx → Slice → Except Trap Slice) : Host.Outcome State Fault Refusal :=
  runBeat s i fun t slot => perSlice t slot f

/-! ## Collectives -/

/-- The fields without the hint, which is ignored (05 R93): as the machine keeps an instruction at which slices wait. -/
def plainHdr (h : Hdr) : Hdr := { h with hn := 0 }

/-- The meaning of a collective once its rendezvous completes; a trap is the whole group's (18 R339). -/
abbrev Coll := State → Nat → Nat → Except Trap State

/-- A collective's trap is taken by every live slice, with the same LANES in every frame: those it names, or the group's active
lanes (18 R339, log 25). -/
def State.raiseAll (s : State) (t slot : Nat) (tr : Trap) (beat : Nat) : State :=
  match s.group? t slot with
  | none => s
  | some g =>
    let lanes := tr.lanes.getD (laneMask (g.liveIdx.flatMap fun k => (g.slice k).laneSet k))
    g.liveIdx.foldl (fun s k => s.raise t slot k { tr with coll := true, lanes := some lanes } beat) s

/-- The collective at which a wait holds its slice. -/
def Wait.coll? : Wait → Option Instr
  | .rdv i | .setw i | .present i => some i
  | _ => none

/-- The collective that a group presents for its one issue, while no asynchronous trap is to be taken first (08 R158, 14 R282). -/
def Group.presented? (g : Group) : Option Instr :=
  if !g.liveIdx.isEmpty && g.liveIdx.all fun k =>
      match (g.slice k).wait with
      | .present _ => (g.slice k).asyncNow.isNone
      | _ => false then
    g.leader.wait.coll?
  else none

/-- Every live slice stands at its collective, which is presented from now on. -/
def Group.present (g : Group) (i : Instr) : Group :=
  g.liveIdx.foldl (fun r k => let x := r.slice k; r.setSlice k { x with wait := .present i, parkPc := x.pc }) g

/-- Every live slice is parked at a rendezvous, its results can return, and no asynchronous trap is to be taken first; one at
least has arrived since the group last stood there together. -/
def Group.atRendezvous (g : Group) : Bool :=
  (g.liveIdx.any fun k =>
    match (g.slice k).wait with
    | .rdv _ => true
    | _ => false) &&
  g.liveIdx.all fun k => (g.slice k).wait.coll?.isSome && (g.slice k).drainable && (g.slice k).asyncNow.isNone

/-- Every live slice's outstanding results return (08 R158); those of a slice that has exited may come later (log 98). -/
def Group.drainLive (g : Group) (s : State) : Group := g.liveIdx.foldl (fun g k => g.setSlice k (s.drained k (g.slice k))) g

/-- A gathered group some of whose slices are not sound: what is logged as its collective executes, and the trap of the whole group, if
any (21 R379, R385). -/
def State.collUpset (s : State) (t slot : Nat) (g : Group) (i : Instr) : State × Option Trap :=
  let s1 := g.liveIdx.foldl (fun r k => r.noteDiffer t slot g k) s
  if g.dual && g.liveIdx.any fun k => 1 < (g.slice k).glitch then (s1, some differTrap)
  else
    let b := collBad s t slot g i
    (s1.noteBad t g b.1 b.2, if b.1.isEmpty then none else some (regTrap b.1))

/-- A collective that is presented for an issue of its own once it has met: cross-lane and matrix instructions. -/
def Instr.presents (i : Instr) : Bool := Instr.isMatrix i || Instr.isCross i

/-- Completes the rendezvous of a group if every live slice has come: differing addresses give RDV_MISMATCH (06 R121), else the
collective proceeds. `body` is asked for the instruction of the lowest live slice; its operands are checked with that slice's FMT, those
of the matrix unit in their own order (14 R282). -/
def State.rendezvous (s : State) (t slot : Nat) (body : Instr → Coll) : State :=
  match s.group? t slot with
  | none => s
  | some g0 =>
    if g0.atRendezvous then
      let g := g0.drainLive s
      let s1 := s.setGroup t slot g
      if g.liveIdx.all fun k => (g.slice k).pc = g.leader.pc then
        match g.leader.wait.coll? with
        | some i =>
          if !Instr.isMatrix i && !g.leader.legal g.allot i then s1.raiseAll t slot (illegal 0) 0
          else
            let r := if g.sound || Instr.presents i then (s1, none) else s1.collUpset t slot g i
            match r.2 with
            | some tr => r.1.raiseAll t slot tr 0
            | none =>
              match body i r.1 t slot with
              | .ok s2 => s2
              | .error tr => r.1.raiseAll t slot tr 0
        | none => s1
      else s1.raiseAll t slot (mkTrap 0x05 0) 0
    else s

/-- The arrival of slices at a rendezvous point, which costs nothing (08 R158). -/
def arrivePlan (t slot : Nat) (i : Instr) : Plan := fun _ s l =>
  (l.foldl (fun s k => s.updSlice t slot k fun x => { x with wait := .rdv i, parkPc := x.pc, newRun := true, wset := 0 }) s, [])

/-- A collective. Where the group presents it, this is its one issue; else a beat that brings its slices to the rendezvous point, which
is complete at once when they are the last. -/
def runColl (s : State) (i : Instr) (body : Coll) (issue : State → Nat → Nat → State) : Host.Outcome State Fault Refusal :=
  if !(s.powered && s.booted) then .fault .notRunning
  else
    match s.group? s.focus.tile s.focus.slot with
    | none => .fault .noGang
    | some g =>
      match s.focus.slices.filter fun k => (g.slice k).live with
      | [] => .fault .noGang
      | k :: rest =>
        if g.presented? = some i then .next (issue s s.focus.tile s.focus.slot).fresh
        else
          let s1 := s.beat s.focus.tile s.focus.slot g (k :: rest) i .f 0 (arrivePlan s.focus.tile s.focus.slot i)
          .next (s1.rendezvous s.focus.tile s.focus.slot fun _ => body)

/-- A collective that is over once its rendezvous is complete. -/
def noIssue : State → Nat → Nat → State := fun s _ _ => s

/-- Every live slice continues after its collective instruction. -/
def Group.contAll (g : Group) (i : Instr) : Group :=
  g.liveIdx.foldl (fun g k => g.setSlice k { (g.slice k).adv i with wait := .run, newRun := true, wset := 0 }) g

end Sys2Proof.Machine
end

