-- ==== Sys2Proof/Machine/Scalar.lean ====
section
/-! DEFINITION. The scalar class (06 R106-R113): one meaning per instruction over the shapes they share. -/

namespace Sys2Proof.Machine

/-! ## Shapes -/

/-- Sd := the value f gives, when the guard selects an active lane (06 R106). -/
def scalarPlan (i : Instr) (h : Hdr) (d : SReg) (f : Ctx → Slice → DWord) : UClass → Ctx → Slice → Except Trap Slice :=
  fun _ c x => .ok ((if c.performs x h then x.post [wS d.toNat (f c x)] else x).adv i)

/-- An instruction of Sa and Y. -/
def scalarY (s : State) (i : Instr) (h : Hdr) (d a : SReg) (y : SOpnd) (f : DWord → DWord → DWord) :
    Host.Outcome State Fault Refusal :=
  runSlices s i (scalarPlan i h d fun c x => f (c.rdS x 0 a.toNat) (c.sY x 1 y))

/-- An instruction of Sa alone. -/
def scalar1 (s : State) (i : Instr) (h : Hdr) (d a : SReg) (f : DWord → DWord) : Host.Outcome State Fault Refusal :=
  runSlices s i (scalarPlan i h d fun c x => f (c.rdS x 0 a.toNat))

/-! ## Values -/

/-- Bits [127:64] of a product. -/
def mulHigh (x y : Int) : DWord := BitVec.ofInt 64 (Int.fdiv (x * y) (2 ^ 64 : Nat))

/-- Signed quotient and remainder, truncated toward zero; by zero −1 and the dividend; −2^63 by −1 wraps (06 R108). -/
def sQuot (a b : DWord) : DWord := if b = 0 then BitVec.ofInt 64 (-1) else BitVec.ofInt 64 (Int.tdiv a.toInt b.toInt)
def sRem (a b : DWord) : DWord := if b = 0 then a else BitVec.ofInt 64 (Int.tmod a.toInt b.toInt)

/-- Natural quotient and remainder; by zero all ones and the dividend (06 R108). -/
def nQuot (a b : DWord) : DWord := if b = 0 then BitVec.ofInt 64 (-1) else BitVec.ofNat 64 (a.toNat / b.toNat)
def nRem (a b : DWord) : DWord := if b = 0 then a else BitVec.ofNat 64 (a.toNat % b.toNat)

/-- The count c := Y[5:0] (06 R107). -/
def cnt6 (y : DWord) : Nat := y.toNat % 64

/-- The number of leading zeros among the low w bits. -/
def clzFrom (n : Nat) : Nat → Nat
  | 0 => 0
  | w + 1 => if n.testBit w then 0 else clzFrom n w + 1

/-- The number of trailing zeros, at most k, counting from bit b. -/
def ctzFrom (n b : Nat) : Nat → Nat
  | 0 => 0
  | k + 1 => if n.testBit b then 0 else ctzFrom n (b + 1) k + 1

/-- The number of ones among the low w bits. -/
def popFrom (n : Nat) : Nat → Nat
  | 0 => 0
  | w + 1 => popFrom n w + (if n.testBit w then 1 else 0)

/-- The field [pos+len-1:pos]. -/
def fieldOf (n pos len : Nat) : Nat := n / 2 ^ pos % 2 ^ len

/-- n with its field [pos+len-1:pos] replaced by the low bits of v. -/
def putField (n v pos len : Nat) : Nat := n - fieldOf n pos len * 2 ^ pos + v % 2 ^ len * 2 ^ pos

/-- Conditions of SSETC and BRS (06 Table 6.2). -/
def condHolds (cc : Cond) (a b : DWord) : Bool :=
  match cc with
  | .eq => decide (a = b)
  | .ne => decide (a ≠ b)
  | .lt => decide (a.toInt < b.toInt)
  | .ge => decide (b.toInt ≤ a.toInt)
  | .le => decide (a.toInt ≤ b.toInt)
  | .gt => decide (b.toInt < a.toInt)
  | .ltn => decide (a.toNat < b.toNat)
  | .gen => decide (b.toNat ≤ a.toNat)

/-! ## Meanings -/

def execSadd (h : Hdr) (d a : SReg) (y : SOpnd) (s : State) : Host.Outcome State Fault Refusal :=
  scalarY s (.sadd h d a y) h d a y fun p q => p + q

def execSsub (h : Hdr) (d a : SReg) (y : SOpnd) (s : State) : Host.Outcome State Fault Refusal :=
  scalarY s (.ssub h d a y) h d a y fun p q => p - q

/-- 06 R109. -/
def execSaddi (h : Hdr) (d a : SReg) (imm : Imm24) (s : State) : Host.Outcome State Fault Refusal :=
  scalar1 s (.saddi h d a imm) h d a fun p => p + imm.signExtend 64

def execSmul (h : Hdr) (d a : SReg) (y : SOpnd) (s : State) : Host.Outcome State Fault Refusal :=
  scalarY s (.smul h d a y) h d a y fun p q => p * q

def execSmulh (h : Hdr) (d a : SReg) (y : SOpnd) (s : State) : Host.Outcome State Fault Refusal :=
  scalarY s (.smulh h d a y) h d a y fun p q => mulHigh p.toInt q.toInt

def execSmulhn (h : Hdr) (d a : SReg) (y : SOpnd) (s : State) : Host.Outcome State Fault Refusal :=
  scalarY s (.smulhn h d a y) h d a y fun p q => mulHigh (p.toNat : Int) (q.toNat : Int)

def execSdiv (h : Hdr) (d a : SReg) (y : SOpnd) (s : State) : Host.Outcome State Fault Refusal :=
  scalarY s (.sdiv h d a y) h d a y sQuot

def execSdivn (h : Hdr) (d a : SReg) (y : SOpnd) (s : State) : Host.Outcome State Fault Refusal :=
  scalarY s (.sdivn h d a y) h d a y nQuot

def execSrem (h : Hdr) (d a : SReg) (y : SOpnd) (s : State) : Host.Outcome State Fault Refusal :=
  scalarY s (.srem h d a y) h d a y sRem

def execSremn (h : Hdr) (d a : SReg) (y : SOpnd) (s : State) : Host.Outcome State Fault Refusal :=
  scalarY s (.sremn h d a y) h d a y nRem

def execSand (h : Hdr) (d a : SReg) (y : SOpnd) (s : State) : Host.Outcome State Fault Refusal :=
  scalarY s (.sand h d a y) h d a y fun p q => p &&& q

def execSandn (h : Hdr) (d a : SReg) (y : SOpnd) (s : State) : Host.Outcome State Fault Refusal :=
  scalarY s (.sandn h d a y) h d a y fun p q => p &&& ~~~q

def execSor (h : Hdr) (d a : SReg) (y : SOpnd) (s : State) : Host.Outcome State Fault Refusal :=
  scalarY s (.sor h d a y) h d a y fun p q => p ||| q

def execSxor (h : Hdr) (d a : SReg) (y : SOpnd) (s : State) : Host.Outcome State Fault Refusal :=
  scalarY s (.sxor h d a y) h d a y fun p q => p ^^^ q

def execSshl (h : Hdr) (d a : SReg) (y : SOpnd) (s : State) : Host.Outcome State Fault Refusal :=
  scalarY s (.sshl h d a y) h d a y fun p q => p <<< cnt6 q

def execSshr (h : Hdr) (d a : SReg) (y : SOpnd) (s : State) : Host.Outcome State Fault Refusal :=
  scalarY s (.sshr h d a y) h d a y fun p q => p >>> cnt6 q

def execSsra (h : Hdr) (d a : SReg) (y : SOpnd) (s : State) : Host.Outcome State Fault Refusal :=
  scalarY s (.ssra h d a y) h d a y fun p q => p.sshiftRight (cnt6 q)

def execSrot (h : Hdr) (d a : SReg) (y : SOpnd) (s : State) : Host.Outcome State Fault Refusal :=
  scalarY s (.srot h d a y) h d a y fun p q => p.rotateLeft (cnt6 q)

def execSmin (h : Hdr) (d a : SReg) (y : SOpnd) (s : State) : Host.Outcome State Fault Refusal :=
  scalarY s (.smin h d a y) h d a y fun p q => if p.toInt ≤ q.toInt then p else q

def execSmax (h : Hdr) (d a : SReg) (y : SOpnd) (s : State) : Host.Outcome State Fault Refusal :=
  scalarY s (.smax h d a y) h d a y fun p q => if p.toInt ≤ q.toInt then q else p

def execSminn (h : Hdr) (d a : SReg) (y : SOpnd) (s : State) : Host.Outcome State Fault Refusal :=
  scalarY s (.sminn h d a y) h d a y fun p q => if p.toNat ≤ q.toNat then p else q

def execSmaxn (h : Hdr) (d a : SReg) (y : SOpnd) (s : State) : Host.Outcome State Fault Refusal :=
  scalarY s (.smaxn h d a y) h d a y fun p q => if p.toNat ≤ q.toNat then q else p

def execSclz (h : Hdr) (d a : SReg) (s : State) : Host.Outcome State Fault Refusal :=
  scalar1 s (.sclz h d a) h d a fun p => BitVec.ofNat 64 (clzFrom p.toNat 64)

def execSctz (h : Hdr) (d a : SReg) (s : State) : Host.Outcome State Fault Refusal :=
  scalar1 s (.sctz h d a) h d a fun p => BitVec.ofNat 64 (ctzFrom p.toNat 0 64)

def execSpop (h : Hdr) (d a : SReg) (s : State) : Host.Outcome State Fault Refusal :=
  scalar1 s (.spop h d a) h d a fun p => BitVec.ofNat 64 (popFrom p.toNat 64)

/-- 06 R111. -/
def execSbfe (h : Hdr) (d a : SReg) (pos : BitVec 6) (len : BitVec 8) (s : State) : Host.Outcome State Fault Refusal :=
  scalar1 s (.sbfe h d a pos len) h d a fun p => BitVec.ofNat 64 (fieldOf p.toNat pos.toNat len.toNat)

/-- 06 R111. -/
def execSbfi (h : Hdr) (d a : SReg) (pos : BitVec 6) (len : BitVec 8) (s : State) : Host.Outcome State Fault Refusal :=
  runSlices s (.sbfi h d a pos len) (scalarPlan (.sbfi h d a pos len) h d fun c x =>
    BitVec.ofNat 64 (putField (c.rdS x 1 d.toNat).toNat (c.rdS x 0 a.toNat).toNat pos.toNat len.toNat))

/-- 06 R110. -/
def execSsetc (h : Hdr) (d a b : SReg) (cc : Cond) (s : State) : Host.Outcome State Fault Refusal :=
  scalarY s (.ssetc h d a b cc) h d a (.s b) fun p q => if condHolds cc p q then 1 else 0

def execSsel (h : Hdr) (d a b k : SReg) (s : State) : Host.Outcome State Fault Refusal :=
  runSlices s (.ssel h d a b k) (scalarPlan (.ssel h d a b k) h d fun c x =>
    if c.rdS x 2 k.toNat ≠ 0 then c.rdS x 0 a.toNat else c.rdS x 1 b.toNat)

def execSmov (h : Hdr) (d a : SReg) (s : State) : Host.Outcome State Fault Refusal :=
  scalar1 s (.smov h d a) h d a fun p => p

/-- 06 R109. -/
def execSli (h : Hdr) (d : SReg) (imm : Imm24) (s : State) : Host.Outcome State Fault Refusal :=
  runSlices s (.sli h d imm) (scalarPlan (.sli h d imm) h d fun _ _ => imm.signExtend 64)

/-- 06 R109. -/
def execSliw (h : Hdr) (d : SReg) (imm : DWord) (s : State) : Host.Outcome State Fault Refusal :=
  runSlices s (.sliw h d imm) (scalarPlan (.sliw h d imm) h d fun _ _ => imm)

/-! ## Special registers -/

/-- LMk: the activity of lanes 32k to 32k + 31 (02 R33); a retired slice's lanes read as inactive (06 R123). -/
def Group.activity (g : Group) (k : Nat) : DWord :=
  BitVec.ofNat 64
    (((List.range 8).map fun j =>
      let x := g.slice (8 * k + j)
      (if x.live then x.lmask.toNat else 0) * 2 ^ (4 * j)).foldl (· + ·) 0)

/-- GEARREQ (02 Table 2.6). -/
def gearWord (x : Tile) (g : Group) : DWord := packBits [(b2n x.fast, 8), (b2n g.gearReq, 0)]

/-- A special register as MOVSR reads it (02 R30-R38, Tables 2.2 to 2.6). -/
def Ctx.special (c : Ctx) (x : Slice) (sel : Nat) : DWord :=
  match sel with
  | 0x00 => x.pc
  | 0x01 => x.lmask.setWidth 64
  | 0x02 => c.g.activity 0
  | 0x03 => c.g.activity 1
  | 0x04 => c.g.activity 2
  | 0x05 => BitVec.ofNat 64 c.g.grant
  | 0x06 => BitVec.ofNat 64 c.i
  | 0x07 => BitVec.ofNat 64 c.g.idx
  | 0x08 => BitVec.ofNat 64 c.g.team
  | 0x09 => BitVec.ofNat 64 c.g.role
  | 0x0A => x.fmt.setWidth 64
  | 0x0B => x.ebud.setWidth 64
  | 0x0C => x.hx.signExtend 64
  | 0x0D => gearWord (c.st.tile c.t) c.g
  | 0x0E => c.st.time
  | 0x0F => packBits [(c.t / 32, 13), (c.t % 32, 8), (c.t, 0)]
  | 0x10 => packBits [(c.t / 32, 5), (c.t / 8, 0)]
  | _ => BitVec.ofNat 64 (b2n c.g.hazchk)

/-- MOVRS (02 R30, R32, R35-R37): at once, for every later instruction of the slice (06 R112). -/
def Slice.setSpecial (x : Slice) (sel : Nat) (v : DWord) : Except Trap Slice :=
  match sel with
  | 0x01 => if x.lmask &&& v.setWidth 4 = 0 then .error (illegal 3) else .ok { x with lmask := x.lmask &&& v.setWidth 4 }
  | 0x0A => if bits v 7 4 = 15 then .error (illegal 0) else .ok { x with fmt := v.setWidth 8 &&& 0xFC }
  | 0x0B => .ok { x with ebud := v.setWidth 17 }
  | 0x0C => .ok { x with hx := v.setWidth 8 }
  | _ => .error (illegal 0)

/-- 06 R112. -/
def execMovsr (h : Hdr) (d : SReg) (sel : BitVec 8) (s : State) : Host.Outcome State Fault Refusal :=
  runSlices s (.movsr h d sel) (scalarPlan (.movsr h d sel) h d fun c x => c.special x sel.toNat)

/-- 06 R112. -/
def execMovrs (h : Hdr) (sel : BitVec 8) (a : SReg) (s : State) : Host.Outcome State Fault Refusal :=
  runSlices s (.movrs h sel a) fun _ c x =>
    if c.performs x h then
      match x.setSpecial sel.toNat (c.rdS x 0 a.toNat) with
      | .ok y => .ok (y.adv (.movrs h sel a))
      | .error tr => .error tr
    else .ok (x.adv (.movrs h sel a))

end Sys2Proof.Machine
end

