-- ==== Sys2Proof/Machine/VecInt.lean ====
section
/-! DEFINITION. The vector integer class (07 R129-R136) with the bounds of 04 R66. -/

namespace Sys2Proof.Machine

/-! ## Shapes -/

/-- A lane-guarded instruction: the writes of each selected lane, for the resolved type (05 R84, 07 R129). -/
def lanePlan (i : Instr) (h : Hdr) (f : Ctx → Slice → Ty → Nat → List RegWrite) :
    UClass → Ctx → Slice → Except Trap Slice := fun _ c x =>
  .ok ((x.post ((c.guarded x h).flatMap fun l => f c x (x.tyOf i) l)).adv i)

/-- One source. -/
def vec1 (s : State) (i : Instr) (h : Hdr) (d a : VReg) (f : Ty → Val → Nat × Eb16) : Host.Outcome State Fault Refusal :=
  runSlices s i (lanePlan i h fun c x t l =>
    let r := f t (c.valV x t 0 a.toNat l)
    wTy t d.toNat l r.1 r.2)

/-- Two sources, the second a V or an S register. -/
def vec2 (s : State) (i : Instr) (h : Hdr) (d a : VReg) (b : VOpnd) (f : Ty → Val → Val → Nat × Eb16) :
    Host.Outcome State Fault Refusal :=
  runSlices s i (lanePlan i h fun c x t l =>
    let r := f t (c.valV x t 0 a.toNat l) (c.valO x t 2 b l)
    wTy t d.toNat l r.1 r.2)

/-- Three sources. -/
def vec3 (s : State) (i : Instr) (h : Hdr) (d a : VReg) (b k : VOpnd) (f : Ty → Val → Val → Val → Nat × Eb16) :
    Host.Outcome State Fault Refusal :=
  runSlices s i (lanePlan i h fun c x t l =>
    let r := f t (c.valV x t 0 a.toNat l) (c.valO x t 2 b l) (c.valO x t 4 k l)
    wTy t d.toNat l r.1 r.2)

/-- The count of a shift, with its bound (07 R131): of a pair the low word. -/
def Ctx.shiftCount (c : Ctx) (x : Slice) (t : Ty) (y : ShOpnd) (l : Nat) : Nat × Eb16 :=
  match y with
  | .v b => let v := c.valV x t 2 b.toNat l; (v.n % 2 ^ 32 % tyWidth t, v.b)
  | .s b => ((c.rdS x 2 b.toNat).toNat % tyWidth t, 0)
  | .imm k => (k.toNat % tyWidth t, 0)

/-- A shift of a value of w bits by a count. -/
def vecSh (s : State) (i : Instr) (h : Hdr) (d a : VReg) (y : ShOpnd) (f : Nat → Nat → Nat → Nat) :
    Host.Outcome State Fault Refusal :=
  runSlices s i (lanePlan i h fun c x t l =>
    let v := c.valV x t 0 a.toNat l
    let k := c.shiftCount x t y l
    wTy t d.toNat l (f (tyWidth t) v.n k.1) (exactOnly [v.b, k.2]))

/-! ## Values -/

/-- The integer a value is in its type. -/
def Val.int (v : Val) (t : Ty) : Int := intOf (tySigned t) (tyWidth t) v.n

/-- An input is not exact. -/
def Val.inexact (v : Val) : Bool := v.b ≠ 0

/-- Sum, difference and product with the bounds of 04 R66. -/
def vAdd (t : Ty) (a b : Val) : Nat × Eb16 :=
  intArith t (a.int t + b.int t) (bAdd (ebReal a.b) (ebReal b.b)) (a.inexact || b.inexact)
def vSub (t : Ty) (a b : Val) : Nat × Eb16 :=
  intArith t (a.int t - b.int t) (bAdd (ebReal a.b) (ebReal b.b)) (a.inexact || b.inexact)
def vMulBound (t : Ty) (a b : Val) : Option Rat := bMul ((a.int t : Int) : Rat) (ebReal a.b) ((b.int t : Int) : Rat) (ebReal b.b)
def vMul (t : Ty) (a b : Val) : Nat × Eb16 :=
  intArith t (a.int t * b.int t) (vMulBound t a b) (a.inexact || b.inexact)
def vMad (t : Ty) (a b c : Val) : Nat × Eb16 :=
  intArith t (a.int t * b.int t + c.int t) (bAdd (vMulBound t a b) (ebReal c.b)) (a.inexact || b.inexact || c.inexact)

/-- The high half of a product, signed or natural (07 Table 7.1). -/
def vMulH (sg : Bool) (t : Ty) (a b : Val) : Nat × Eb16 :=
  let w := tyWidth t
  (natOf w (Int.fdiv (intOf sg w a.n * intOf sg w b.n) ((2 ^ w : Nat) : Int)), exactOnly [a.b, b.b])

/-- Quotient and remainder (07 R132). -/
def vDivide (sg : Bool) (t : Ty) (a b : Val) : Nat × Nat :=
  let w := tyWidth t
  let p := intOf sg w a.n
  let q := intOf sg w b.n
  if q = 0 then (2 ^ w - 1, a.n) else (natOf w (Int.tdiv p q), natOf w (Int.tmod p q))

/-- Minimum, or maximum where `mx` (04 R66). -/
def vMinMax (mx sg : Bool) (t : Ty) (a b : Val) : Nat × Eb16 :=
  let w := tyWidth t
  (if decide (intOf sg w a.n ≤ intOf sg w b.n) != mx then a.n else b.n, ebMax a.b b.b)

/-- A bitwise function of two words. -/
def vBits (f : Nat → Nat → Nat) (_ : Ty) (a b : Val) : Nat × Eb16 := (f a.n b.n, exactOnly [a.b, b.b])

/-- Rotation left of w bits. -/
def rotW (w n k : Nat) : Nat := (n * 2 ^ k + n / 2 ^ (w - k)) % 2 ^ w

/-- Bit i moves to bit w - 1 - i. -/
def revFrom (n w : Nat) : Nat → Nat
  | 0 => 0
  | k + 1 => revFrom n w k + (if n.testBit k then 2 ^ (w - 1 - k) else 0)

/-- VPRMB's result (07 R133). -/
def permBytes (a b c : Nat) : Nat :=
  let src := a % 2 ^ 32 + 2 ^ 32 * (b % 2 ^ 32)
  let byte (i : Nat) : Nat := if c.testBit (4 * i + 3) then 0 else src / 2 ^ (8 * (c / 2 ^ (4 * i) % 8)) % 256
  byte 0 + 256 * byte 1 + 65536 * byte 2 + 16777216 * byte 3

/-! ## Meanings -/

def execVadd (h : Hdr) (ty : TyF) (d a : VReg) (b : VOpnd) (s : State) : Host.Outcome State Fault Refusal :=
  vec2 s (.vadd h ty d a b) h d a b vAdd

def execVsub (h : Hdr) (ty : TyF) (d a : VReg) (b : VOpnd) (s : State) : Host.Outcome State Fault Refusal :=
  vec2 s (.vsub h ty d a b) h d a b vSub

def execVmul (h : Hdr) (ty : TyF) (d a : VReg) (b : VOpnd) (s : State) : Host.Outcome State Fault Refusal :=
  vec2 s (.vmul h ty d a b) h d a b vMul

def execVmulh (h : Hdr) (ty : TyF) (d a : VReg) (b : VOpnd) (s : State) : Host.Outcome State Fault Refusal :=
  vec2 s (.vmulh h ty d a b) h d a b (vMulH true)

def execVmulhn (h : Hdr) (ty : TyF) (d a : VReg) (b : VOpnd) (s : State) : Host.Outcome State Fault Refusal :=
  vec2 s (.vmulhn h ty d a b) h d a b (vMulH false)

def execVmad (h : Hdr) (ty : TyF) (d a : VReg) (b c : VOpnd) (s : State) : Host.Outcome State Fault Refusal :=
  vec3 s (.vmad h ty d a b c) h d a b c vMad

/-- 07 R132: the quotient to Vd, the remainder to the next register or pair. -/
def vecDiv (sg : Bool) (s : State) (i : Instr) (h : Hdr) (d a : VReg) (b : VOpnd) : Host.Outcome State Fault Refusal :=
  runSlices s i (lanePlan i h fun c x t l =>
    let p := c.valV x t 0 a.toNat l
    let q := c.valO x t 2 b l
    let r := vDivide sg t p q
    let e := exactOnly [p.b, q.b]
    wTy t d.toNat l r.1 e ++ wTy t (d.toNat + t.regs) l r.2 e)

def execVdiv (h : Hdr) (ty : TyF) (d a : VReg) (b : VOpnd) (s : State) : Host.Outcome State Fault Refusal :=
  vecDiv true s (.vdiv h ty d a b) h d a b

def execVdivn (h : Hdr) (ty : TyF) (d a : VReg) (b : VOpnd) (s : State) : Host.Outcome State Fault Refusal :=
  vecDiv false s (.vdivn h ty d a b) h d a b

def execVand (h : Hdr) (ty : TyF) (d a : VReg) (b : VOpnd) (s : State) : Host.Outcome State Fault Refusal :=
  vec2 s (.vand h ty d a b) h d a b (vBits fun p q => p &&& q)

def execVor (h : Hdr) (ty : TyF) (d a : VReg) (b : VOpnd) (s : State) : Host.Outcome State Fault Refusal :=
  vec2 s (.vor h ty d a b) h d a b (vBits fun p q => p ||| q)

def execVxor (h : Hdr) (ty : TyF) (d a : VReg) (b : VOpnd) (s : State) : Host.Outcome State Fault Refusal :=
  vec2 s (.vxor h ty d a b) h d a b (vBits fun p q => p ^^^ q)

def execVnot (h : Hdr) (ty : TyF) (d a : VReg) (s : State) : Host.Outcome State Fault Refusal :=
  vec1 s (.vnot h ty d a) h d a fun t v => (2 ^ tyWidth t - 1 - v.n, exactOnly [v.b])

def execVshl (h : Hdr) (ty : TyF) (d a : VReg) (y : ShOpnd) (s : State) : Host.Outcome State Fault Refusal :=
  vecSh s (.vshl h ty d a y) h d a y fun w n k => n * 2 ^ k % 2 ^ w

def execVshr (h : Hdr) (ty : TyF) (d a : VReg) (y : ShOpnd) (s : State) : Host.Outcome State Fault Refusal :=
  vecSh s (.vshr h ty d a y) h d a y fun _ n k => n / 2 ^ k

def execVsra (h : Hdr) (ty : TyF) (d a : VReg) (y : ShOpnd) (s : State) : Host.Outcome State Fault Refusal :=
  vecSh s (.vsra h ty d a y) h d a y fun w n k => natOf w (Int.fdiv (intOf true w n) ((2 ^ k : Nat) : Int))

def execVrot (h : Hdr) (ty : TyF) (d a : VReg) (y : ShOpnd) (s : State) : Host.Outcome State Fault Refusal :=
  vecSh s (.vrot h ty d a y) h d a y rotW

def execVmin (h : Hdr) (ty : TyF) (d a : VReg) (b : VOpnd) (s : State) : Host.Outcome State Fault Refusal :=
  vec2 s (.vmin h ty d a b) h d a b (vMinMax false true)

def execVmax (h : Hdr) (ty : TyF) (d a : VReg) (b : VOpnd) (s : State) : Host.Outcome State Fault Refusal :=
  vec2 s (.vmax h ty d a b) h d a b (vMinMax true true)

def execVminn (h : Hdr) (ty : TyF) (d a : VReg) (b : VOpnd) (s : State) : Host.Outcome State Fault Refusal :=
  vec2 s (.vminn h ty d a b) h d a b (vMinMax false false)

def execVmaxn (h : Hdr) (ty : TyF) (d a : VReg) (b : VOpnd) (s : State) : Host.Outcome State Fault Refusal :=
  vec2 s (.vmaxn h ty d a b) h d a b (vMinMax true false)

def execVabs (h : Hdr) (ty : TyF) (d a : VReg) (s : State) : Host.Outcome State Fault Refusal :=
  vec1 s (.vabs h ty d a) h d a fun t v => intArith t ((v.int t).natAbs : Int) (ebReal v.b) v.inexact

def execVneg (h : Hdr) (ty : TyF) (d a : VReg) (s : State) : Host.Outcome State Fault Refusal :=
  vec1 s (.vneg h ty d a) h d a fun t v => intArith t (-(v.int t)) (ebReal v.b) v.inexact

def execVclz (h : Hdr) (ty : TyF) (d a : VReg) (s : State) : Host.Outcome State Fault Refusal :=
  vec1 s (.vclz h ty d a) h d a fun _ v => (clzFrom v.n 32, exactOnly [v.b])

def execVpop (h : Hdr) (ty : TyF) (d a : VReg) (s : State) : Host.Outcome State Fault Refusal :=
  vec1 s (.vpop h ty d a) h d a fun _ v => (popFrom v.n 32, exactOnly [v.b])

/-- 07 R133: sign-extended for i32. -/
def execVbfe (h : Hdr) (ty : TyF) (d a : VReg) (pos : BitVec 5) (len : BitVec 6) (s : State) :
    Host.Outcome State Fault Refusal :=
  vec1 s (.vbfe h ty d a pos len) h d a fun t v =>
    let f := fieldOf v.n pos.toNat len.toNat
    (if t = .i32 then natOf 32 (intOf true len.toNat f) else f, exactOnly [v.b])

/-- 07 R133. -/
def execVbfi (h : Hdr) (ty : TyF) (d a : VReg) (pos : BitVec 5) (len : BitVec 6) (s : State) :
    Host.Outcome State Fault Refusal :=
  vec2 s (.vbfi h ty d a pos len) h d a (.v d) fun _ v o =>
    (putField o.n v.n pos.toNat len.toNat, exactOnly [v.b, o.b])

def execVbrev (h : Hdr) (ty : TyF) (d a : VReg) (s : State) : Host.Outcome State Fault Refusal :=
  vec1 s (.vbrev h ty d a) h d a fun _ v => (revFrom v.n 32 32, exactOnly [v.b])

/-- 07 R133. -/
def execVprmb (h : Hdr) (ty : TyF) (d a : VReg) (b c : VOpnd) (s : State) : Host.Outcome State Fault Refusal :=
  vec3 s (.vprmb h ty d a b c) h d a b c fun _ p q r => (permBytes p.n q.n r.n, exactOnly [p.b, q.b, r.b])

/-- The comparison of VSETP: signed for i types, natural for n types (07 R134). -/
def vCompare (cc : Cond) (t : Ty) (a b : Val) : Bool :=
  let p := a.int t
  let q := b.int t
  match cc with
  | .eq => p = q
  | .ne => p ≠ q
  | .lt | .ltn => p < q
  | .ge | .gen => q ≤ p
  | .le => p ≤ q
  | .gt => q < p

/-- 07 R134. -/
def execVsetp (h : Hdr) (ty : TyF) (p : PReg) (a : VReg) (b : VOpnd) (cc : Cond) (s : State) :
    Host.Outcome State Fault Refusal :=
  runSlices s (.vsetp h ty p a b cc) (lanePlan (.vsetp h ty p a b cc) h fun c x t l =>
    [wP p.toNat l (vCompare cc t (c.valV x t 0 a.toNat l) (c.valO x t 2 b l))])

/-- 07 R134: the value selected with its own bound. -/
def execVsel (h : Hdr) (ty : TyF) (d a : VReg) (b : VOpnd) (p : PReg) (s : State) : Host.Outcome State Fault Refusal :=
  runSlices s (.vsel h ty d a b p) (lanePlan (.vsel h ty d a b p) h fun c x t l =>
    let v := if c.rdP x 4 p.toNat l then c.valV x t 0 a.toNat l else c.valO x t 2 b l
    wTy t d.toNat l v.n v.b)

/-- 07 R134. -/
def execVmov (h : Hdr) (ty : TyF) (d : VReg) (src : VOpnd) (s : State) : Host.Outcome State Fault Refusal :=
  runSlices s (.vmov h ty d src) (lanePlan (.vmov h ty d src) h fun c x t l =>
    let v := c.valO x t 2 src l
    wTy t d.toNat l v.n v.b)

/-- 07 R134. -/
def execVli (h : Hdr) (d : VReg) (imm : Imm24) (s : State) : Host.Outcome State Fault Refusal :=
  runSlices s (.vli h d imm) (lanePlan (.vli h d imm) h fun _ _ _ l => [wV d.toNat l (imm.signExtend 32) 0])

/-- 07 R134. -/
def execVlid (h : Hdr) (ty : TyF) (d : VReg) (imm : DWord) (s : State) : Host.Outcome State Fault Refusal :=
  runSlices s (.vlid h ty d imm) (lanePlan (.vlid h ty d imm) h fun _ _ t l => wTy t d.toNat l imm.toNat 0)

/-- 07 R135. -/
def execPlop (h : Hdr) (d a b : PReg) (t : BitVec 4) (s : State) : Host.Outcome State Fault Refusal :=
  runSlices s (.plop h d a b t) (lanePlan (.plop h d a b t) h fun c x _ l =>
    [wP d.toNat l (t.getLsbD (2 * b2n (c.rdP x 0 a.toNat l) + b2n (c.rdP x 1 b.toNat l)))])

/-- The magnitude of a value at a checkpoint, in its type; b32 gives 0 (04 R74, 08 R154). -/
def tyMag (t : Ty) (n : Nat) : Option Rat := if t = .b32 then some 0 else (tyValue t n).budMag

/-- A value as it enters an S register (07 R136). -/
def toScalar (t : Ty) (n : Nat) : DWord := if t = .i32 then BitVec.ofInt 64 (intOf true 32 n) else BitVec.ofNat 64 n

/-- 07 R136: a checkpoint. -/
def execVtos (h : Hdr) (ty : TyF) (d : SReg) (a : VReg) (sel : Option (BitVec 2)) (s : State) :
    Host.Outcome State Fault Refusal :=
  runSlices s (.vtos h ty d a sel) fun _ c x =>
    match c.guarded x h with
    | [] => .ok (x.adv (.vtos h ty d a sel))
    | low :: _ =>
      let t := x.ty ty
      let l := match sel with
        | some j => j.toNat
        | none => low
      let v := c.valV x t 0 a.toNat l
      if exceeds x.ebud v.b (tyMag t v.n) then .error (breach [4 * c.i + l] v.b)
      else .ok ((x.post [wS d.toNat (toScalar t v.n)]).adv (.vtos h ty d a sel))

end Sys2Proof.Machine
end

