-- ==== Sys2Proof/Machine/Float.lean ====
section
/-! DEFINITION. The floating-point class (07 R137-R142): f32, packed and f64 arithmetic, with bounds (04 R64, R65, R67) and
headroom (04 R70). -/

namespace Sys2Proof.Machine

/-! ## Elements -/

/-- The floating-point format of a type that is one; f32 otherwise. -/
def fmtOf (t : Ty) : FF := (tyFF t).getD .f32

/-- The elements of an operand: two of a packed type, else one (07 R142). -/
def elems (t : Ty) (n : Nat) : List Nat := if t.isF16 then [n % 2 ^ 16, n / 2 ^ 16 % 2 ^ 16] else [n]

/-- An operand's elements as a unit class takes them; every element has the register's bound (04 R67). -/
def opElems (t : Ty) (c : UClass) (v : Val) : List FOp :=
  (elems t v.n).map fun e => takeOp (fmtOf t) c ((fmtOf t).decode e) v.b

/-- The encoding of a result's elements. -/
def joinElems (t : Ty) (rs : List FRes) : Nat :=
  (rs.zipIdx.map fun p => (fmtOf t).encode p.1.v * 2 ^ (16 * p.2)).foldl (· + ·) 0

/-- The bound of a result: the larger of its elements' (04 R67). -/
def joinBound (rs : List FRes) : Eb16 := ebMaxL (rs.map FRes.b)

/-- The exponent of the smallest element, none where one is 0 (04 R70). -/
def joinEx (rs : List FRes) : Option Int :=
  match rs.map fun r => exOf r.v with
  | [] => none
  | e :: rest => rest.foldl
      (fun a b =>
        match a, b with
        | some p, some q => some (min p q)
        | _, _ => none) e

/-! ## Shapes -/

/-- A lane-guarded floating-point operation; one of automatic class sets HX when it writes back (04 R70). -/
def fpPlan (i : Instr) (h : Hdr) (uc : UC) (d : VReg) (f : UClass → Ctx → Slice → Ty → Nat → List FRes) :
    UClass → Ctx → Slice → Except Trap Slice := fun k c x =>
  let t := x.tyOf i
  let rs := (c.guarded x h).map fun l => (l, f k c x t l)
  let ws := rs.flatMap fun p => wTy t d.toNat p.1 (joinElems t p.2) (joinBound p.2)
  let hx := if uc = .auto then some (rs.map fun p => { bnd := joinBound p.2, ex := joinEx p.2 }) else none
  .ok ((x.postHx ws hx).adv i)

/-- One source. -/
def fp1 (s : State) (i : Instr) (h : Hdr) (uc : UC) (ty : TyF) (rnd : Rnd) (d a : VReg)
    (f : FF → UClass → RMode → FOp → FRes) : Host.Outcome State Fault Refusal :=
  runSlices s i (fpPlan i h uc d fun k c x t l =>
    (opElems t k (c.valV x t 0 a.toNat l)).map fun p => f (fmtOf t) k (x.rmode ty rnd 0) p)

/-- Two sources. -/
def fp2 (s : State) (i : Instr) (h : Hdr) (uc : UC) (ty : TyF) (rnd : Rnd) (d a : VReg) (b : VOpnd)
    (f : FF → UClass → RMode → FOp → FOp → FRes) : Host.Outcome State Fault Refusal :=
  runSlices s i (fpPlan i h uc d fun k c x t l =>
    List.zipWith (fun p q => f (fmtOf t) k (x.rmode ty rnd 0) p q) (opElems t k (c.valV x t 0 a.toNat l))
      (opElems t k (c.valO x t 2 b l)))

/-- A fused multiply-add: no rounding code (07 R138). -/
def fp3 (s : State) (i : Instr) (h : Hdr) (uc : UC) (ty : TyF) (d a : VReg) (b k : VOpnd) :
    Host.Outcome State Fault Refusal :=
  runSlices s i (fpPlan i h uc d fun u c x t l =>
    List.zipWith (fun p q => fFma (fmtOf t) u (x.rmode ty .dflt 0) p q.1 q.2) (opElems t u (c.valV x t 0 a.toNat l))
      (List.zip (opElems t u (c.valO x t 2 b l)) (opElems t u (c.valO x t 4 k l))))

/-- A special function of an f32: no class, no headroom (04 R65). -/
def fpSp (s : State) (i : Instr) (h : Hdr) (d a : VReg) (f : Val → FRes) : Host.Outcome State Fault Refusal :=
  runSlices s i (lanePlan i h fun c x _ l =>
    let r := f (c.val32 x 0 a.toNat l)
    [wV d.toNat l (BitVec.ofNat 32 (FF.f32.encode r.v)) r.b])

/-! ## f32 -/

def execFadd (h : Hdr) (ty : TyF) (uc : UC) (rnd : Rnd) (d a : VReg) (b : VOpnd) (s : State) :
    Host.Outcome State Fault Refusal :=
  fp2 s (.fadd h ty uc rnd d a b) h uc ty rnd d a b fAdd

def execFsub (h : Hdr) (ty : TyF) (uc : UC) (rnd : Rnd) (d a : VReg) (b : VOpnd) (s : State) :
    Host.Outcome State Fault Refusal :=
  fp2 s (.fsub h ty uc rnd d a b) h uc ty rnd d a b fSub

def execFmul (h : Hdr) (ty : TyF) (uc : UC) (rnd : Rnd) (d a : VReg) (b : VOpnd) (s : State) :
    Host.Outcome State Fault Refusal :=
  fp2 s (.fmul h ty uc rnd d a b) h uc ty rnd d a b fMul

def execFfma (h : Hdr) (ty : TyF) (uc : UC) (d a : VReg) (b c : VOpnd) (s : State) : Host.Outcome State Fault Refusal :=
  fp3 s (.ffma h ty uc d a b c) h uc ty d a b c

/-- 07 R139: exact on the inputs as taken. -/
def execFmin (h : Hdr) (ty : TyF) (uc : UC) (d a : VReg) (b : VOpnd) (s : State) : Host.Outcome State Fault Refusal :=
  fp2 s (.fmin h ty uc d a b) h uc ty .dflt d a b fun _ _ _ => fMinMax false

/-- 07 R139. -/
def execFmax (h : Hdr) (ty : TyF) (uc : UC) (d a : VReg) (b : VOpnd) (s : State) : Host.Outcome State Fault Refusal :=
  fp2 s (.fmax h ty uc d a b) h uc ty .dflt d a b fun _ _ _ => fMinMax true

/-- 07 R139: no bound, no headroom. -/
def execFsetp (h : Hdr) (ty : TyF) (uc : UC) (p : PReg) (a : VReg) (b : VOpnd) (cc : FCond) (s : State) :
    Host.Outcome State Fault Refusal :=
  runSlices s (.fsetp h ty uc p a b cc) fun u c x =>
    .ok ((x.post ((c.guarded x h).map fun l =>
      let va := c.val32 x 0 a.toNat l
      let vb := c.valO x .f32 2 b l
      wP p.toNat l (fcondHolds cc (takeOp .f32 u (FF.f32.decode va.n) va.b).v (takeOp .f32 u (FF.f32.decode vb.n) vb.b).v))).adv
      (.fsetp h ty uc p a b cc))

def execFrcp (h : Hdr) (ty : TyF) (d a : VReg) (s : State) : Host.Outcome State Fault Refusal :=
  fpSp s (.frcp h ty d a) h d a fun v => spApply .rcp v.n v.b

def execFrsq (h : Hdr) (ty : TyF) (d a : VReg) (s : State) : Host.Outcome State Fault Refusal :=
  fpSp s (.frsq h ty d a) h d a fun v => spApply .rsq v.n v.b

/-- 07 R140. -/
def execFsqrt (h : Hdr) (ty : TyF) (uc : UC) (rnd : Rnd) (d a : VReg) (s : State) : Host.Outcome State Fault Refusal :=
  fp1 s (.fsqrt h ty uc rnd d a) h uc ty rnd d a fSqrt

/-- 07 R140. -/
def execFdiv (h : Hdr) (ty : TyF) (uc : UC) (rnd : Rnd) (d a : VReg) (b : VOpnd) (s : State) :
    Host.Outcome State Fault Refusal :=
  fp2 s (.fdiv h ty uc rnd d a b) h uc ty rnd d a b fDiv

def execFexp2 (h : Hdr) (ty : TyF) (d a : VReg) (s : State) : Host.Outcome State Fault Refusal :=
  fpSp s (.fexp2 h ty d a) h d a fun v => spApply .exp2 v.n v.b

def execFlog2 (h : Hdr) (ty : TyF) (d a : VReg) (s : State) : Host.Outcome State Fault Refusal :=
  fpSp s (.flog2 h ty d a) h d a fun v => spApply .log2 v.n v.b

def execFsin (h : Hdr) (ty : TyF) (d a : VReg) (s : State) : Host.Outcome State Fault Refusal :=
  fpSp s (.fsin h ty d a) h d a fun v => spApply .sin v.n v.b

def execFcos (h : Hdr) (ty : TyF) (d a : VReg) (s : State) : Host.Outcome State Fault Refusal :=
  fpSp s (.fcos h ty d a) h d a fun v => spApply .cos v.n v.b

def execFtanh (h : Hdr) (ty : TyF) (d a : VReg) (s : State) : Host.Outcome State Fault Refusal :=
  fpSp s (.ftanh h ty d a) h d a fun v => spApply .tanh v.n v.b

/-- 07 R141. -/
def execFfrc (h : Hdr) (ty : TyF) (d a : VReg) (s : State) : Host.Outcome State Fault Refusal :=
  fpSp s (.ffrc h ty d a) h d a fun v => fFrc (FF.f32.decode v.n) (ebReal v.b)

/-- 07 R141. -/
def execFrnd (h : Hdr) (ty : TyF) (rnd : Rnd) (d a : VReg) (s : State) : Host.Outcome State Fault Refusal :=
  runSlices s (.frnd h ty rnd d a) (lanePlan (.frnd h ty rnd d a) h fun c x _ l =>
    let v := c.val32 x 0 a.toNat l
    let r := fRnd (x.rmode ty rnd 0) (FF.f32.decode v.n) (ebReal v.b)
    [wV d.toNat l (BitVec.ofNat 32 (FF.f32.encode r.v)) r.b])

/-! ## Packed and f64 (07 R142) -/

def execHadd2 (h : Hdr) (ty : TyF) (uc : UC) (rnd : Rnd) (d a : VReg) (b : VOpnd) (s : State) :
    Host.Outcome State Fault Refusal :=
  fp2 s (.hadd2 h ty uc rnd d a b) h uc ty rnd d a b fAdd

def execHmul2 (h : Hdr) (ty : TyF) (uc : UC) (rnd : Rnd) (d a : VReg) (b : VOpnd) (s : State) :
    Host.Outcome State Fault Refusal :=
  fp2 s (.hmul2 h ty uc rnd d a b) h uc ty rnd d a b fMul

def execHfma2 (h : Hdr) (ty : TyF) (uc : UC) (d a : VReg) (b c : VOpnd) (s : State) : Host.Outcome State Fault Refusal :=
  fp3 s (.hfma2 h ty uc d a b c) h uc ty d a b c

def execDadd (h : Hdr) (ty : TyF) (uc : UC) (rnd : Rnd) (d a : VReg) (b : VOpnd) (s : State) :
    Host.Outcome State Fault Refusal :=
  fp2 s (.dadd h ty uc rnd d a b) h uc ty rnd d a b fAdd

def execDmul (h : Hdr) (ty : TyF) (uc : UC) (rnd : Rnd) (d a : VReg) (b : VOpnd) (s : State) :
    Host.Outcome State Fault Refusal :=
  fp2 s (.dmul h ty uc rnd d a b) h uc ty rnd d a b fMul

def execDfma (h : Hdr) (ty : TyF) (uc : UC) (d a : VReg) (b c : VOpnd) (s : State) : Host.Outcome State Fault Refusal :=
  fp3 s (.dfma h ty uc d a b c) h uc ty d a b c

def execDdiv (h : Hdr) (ty : TyF) (uc : UC) (rnd : Rnd) (d a : VReg) (b : VOpnd) (s : State) :
    Host.Outcome State Fault Refusal :=
  fp2 s (.ddiv h ty uc rnd d a b) h uc ty rnd d a b fDiv

end Sys2Proof.Machine
end

