-- ==== Sys2Proof/Machine/Bound.lean ====
section
/-! DEFINITION. The bound class (08 R151-R157). -/

namespace Sys2Proof.Machine

/-- 08 R152. -/
def execBget (h : Hdr) (ty : TyF) (d a : VReg) (s : State) : Host.Outcome State Fault Refusal :=
  runSlices s (.bget h ty d a) (lanePlan (.bget h ty d a) h fun c x t l =>
    let b := (c.rdV x 0 a.toNat l).bnd
    if t = .f32 then
      if ebIsU b then [wV d.toNat l 0x7F800000 ebU] else [wV d.toNat l (b.setWidth 32 <<< 16) 0]
    else [wV d.toNat l (b.setWidth 32) 0])

/-- The bound that BSET writes (08 R152). -/
def bsetBound (t : Ty) (v : Val) : Eb16 :=
  if t = .f32 then
    match FF.f32.decode v.n with
    | .fin _ m => upO (bAdd (some m) (ebReal v.b))
    | _ => ebU
  else
    let e := BitVec.ofNat 16 v.n
    if v.b ≠ 0 || ebIsU e then ebU else e

/-- 08 R152. -/
def execBset (h : Hdr) (ty : TyF) (d a : VReg) (b : VOpnd) (s : State) : Host.Outcome State Fault Refusal :=
  runSlices s (.bset h ty d a b) (lanePlan (.bset h ty d a b) h fun c x t l =>
    [wV d.toNat l (c.rdV x 0 a.toNat l).val (bsetBound t (c.valO x .b32 2 b l))])

/-- 08 R152. -/
def execBzero (h : Hdr) (ty : TyF) (d a : VReg) (s : State) : Host.Outcome State Fault Refusal :=
  runSlices s (.bzero h ty d a) (lanePlan (.bzero h ty d a) h fun c x _ l => [wV d.toNat l (c.rdV x 0 a.toNat l).val 0])

/-- 08 R152. -/
def execBmax (h : Hdr) (ty : TyF) (d a b : VReg) (s : State) : Host.Outcome State Fault Refusal :=
  runSlices s (.bmax h ty d a b) (lanePlan (.bmax h ty d a b) h fun c x _ l =>
    let p := c.rdV x 0 a.toNat l
    [wV d.toNat l p.val (ebMax p.bnd (c.rdV x 1 b.toNat l).bnd)])

/-- The magnitude of a value for CHKB and BTEST: of a packed type the smaller of its elements' (08 R154). -/
def chkMag (t : Ty) (n : Nat) : Option Rat :=
  match (elems t n).map (tyMag t) with
  | [] => some 0
  | m :: rest => rest.foldl minMag m

/-- The registers that CHKB compares (08 R155). -/
def chkRegs (t : Ty) (a : VReg) (n : Option (BitVec 6)) : List Nat :=
  (List.range (match n with
    | some k => k.toNat
    | none => 1)).map fun k => a.toNat + k * t.regs

/-- 08 R155: a checkpoint; each slice compares with its own budget, and traps by itself for the lanes and the largest bound of its own (04
R76, log 108). -/
def execChkb (h : Hdr) (ty : TyF) (a : VReg) (n : Option (BitVec 6)) (s : State) : Host.Outcome State Fault Refusal :=
  runSlices s (.chkb h ty a n) fun _ c x =>
    let t := x.ty ty
    let bad := (c.guarded x h).flatMap fun l => (chkRegs t a n).filterMap fun r =>
      let v := c.valV x t 0 r l
      if exceeds x.ebud v.b (chkMag t v.n) then some (4 * c.i + l, v.b) else none
    if bad.isEmpty then .ok (x.adv (.chkb h ty a n)) else .error (breach (bad.map Prod.fst) (ebMaxL (bad.map Prod.snd)))

/-- 08 R156. -/
def execBtest (h : Hdr) (ty : TyF) (p : PReg) (a : VReg) (b : Option SReg) (s : State) : Host.Outcome State Fault Refusal :=
  runSlices s (.btest h ty p a b) (lanePlan (.btest h ty p a b) h fun c x t l =>
    let v := c.valV x t 0 a.toNat l
    let bud : BitVec 17 := match b with
      | some r => (c.rdS x 2 r.toNat).setWidth 17
      | none => x.ebud
    [wP p.toNat l (!exceeds bud v.b (chkMag t v.n))])

/-- 08 R157: at once, for every later instruction. -/
def execSetbud (h : Hdr) (src : BudSrc) (s : State) : Host.Outcome State Fault Refusal :=
  runSlices s (.setbud h src) fun _ c x =>
    let y := x.adv (.setbud h src)
    let e : BitVec 17 := match src with
      | .imm mode bud => (if mode then 0x10000 else 0) ||| bud.setWidth 17
      | .s a => (c.rdS x 0 a.toNat).setWidth 17
    .ok (if c.performs x h then { y with ebud := e } else y)

end Sys2Proof.Machine
end

