-- ==== Sys2Proof/Machine/LoadStore.lean ====
section
/-! DEFINITION. The memory beat (11 R209, R224): addresses by lane, the checks made over the whole beat, and how loads read and
stores enter the store queue (12 R240-R254). -/

namespace Sys2Proof.Machine

/-! ## Addresses -/

/-- One lane's access: slice, lane in the slice, address. -/
structure LaneReq where
  k : Nat
  l : Nat
  va : Nat
deriving DecidableEq, Repr

/-- The logical lane. -/
def LaneReq.lane (r : LaneReq) : Nat := 4 * r.k + r.l

/-- The scaled offset: OFF10 is signed, in units of the access size (05 R89). -/
def offBytes (off : BitVec 10) (size : Nat) : Int := off.toInt * (size : Int)

/-- An address modulo 2^64, or of 56 bits for the global window (11 R207, log 27). -/
def addrOf (glob : Bool) (x : Int) : Nat := (x % ((if glob then 2 ^ 56 else 2 ^ 64 : Nat) : Int)).toNat

/-- The addresses of the guarded lanes of a slice (11 R209): `step` bytes a lane with an S base; with a V base the lane's pair,
or for the scratchpad its register as n32. -/
def Ctx.addrs (c : Ctx) (x : Slice) (h : Hdr) (base : Base) (off : Int) (step : Nat) (glob : Bool) : List LaneReq :=
  (c.guarded x h).map fun l =>
    { k := c.i, l := l,
      va := match base with
        | .s a => addrOf glob (((c.rdS x 0 a.toNat).toNat : Int) + off + ((4 * c.i + l) * step : Nat))
        | .v a =>
          if glob then addrOf true (((c.valV x .n64 0 a.toNat l).n : Int) + off)
          else addrOf false (((c.val32 x 0 a.toNat l).n : Int) + off) }

/-- One address for a slice whose guard selects an active lane, given to the lowest such lane (11 R209, R227). -/
def Ctx.addr1 (c : Ctx) (x : Slice) (h : Hdr) (a : SReg) (off : Int) (glob : Bool) : List LaneReq :=
  match c.guarded x h with
  | [] => []
  | l :: _ => [{ k := c.i, l := l, va := addrOf glob (((c.rdS x 0 a.toNat).toNat : Int) + off) }]

/-- The accesses of a beat, in ascending logical lane. -/
def beatReqs (s : State) (t slot : Nat) (g : Group) (l : List Nat) (f : Ctx → Slice → List LaneReq) : List LaneReq :=
  l.flatMap fun k => f (ctxOf s t slot g k) (g.slice k)

/-! ## Checks of the whole beat -/

/-- What a beat gives its slices: each takes the same trap (11 R224). -/
def trapAll (l : List Nat) (tr : Trap) (beat : Nat) : List (Nat × Trap × Nat) := l.map fun k => (k, tr, beat)

/-- MISALIGN for the lanes whose address is not a multiple of the size (11 R209). -/
def alignTrap (reqs : List LaneReq) (size : Nat) : Option Trap :=
  match reqs.filter fun r => r.va % size ≠ 0 with
  | [] => none
  | r :: rest => some (misalign ((r :: rest).map LaneReq.lane) ((rest.map LaneReq.va).foldl min r.va))

/-- The launch a group runs for. -/
def State.groupLaunch (s : State) (t : Nat) (g : Group) : Nat :=
  match s.team? t g.team with
  | some m => m.launch
  | none => 0

/-- The record of one page of a beat (17 R326). -/
def State.beatRec (s : State) (t : Nat) (g : Group) (k : AccKind) (cause nrec idx : Nat) (b : BeatPage) : RecInfo :=
  let x := g.slice (b.lane / 4)
  { time := s.time, va := b.va, asid := g.asid, src := t, lane := b.lane, cause := cause, kind := k.code, eng := false,
    nrec := nrec, idx := idx, pc := x.pc, group := g.idx, team := g.team, slice := b.lane / 4, pm := x.pm,
    tag := s.groupTag t g, entry := b.page.entry }

/-- The vector of a cause; CCTL raises no PROTECT (11 R235, 17 Table 17.5, log 28). -/
def causeVec (k : AccKind) (cause : Nat) : Nat := if cause = 1 || cause = 2 || k = .cctl then 0x08 else 0x09

/-- Sends the records of a beat's pages that have a cause, in order, under one beat number and with the TIME of the beat's issue (17 R326). -/
def State.sendPages (s : State) (t : Nat) (g : Group) (k : AccKind) (beat : Nat) (at_ : DWord) (bad : List BeatPage) : State :=
  s.sendRecords beat (bad.zipIdx.map fun p => { s.beatRec t g k p.1.page.cause bad.length p.2 p.1 with time := at_ })

/-- The trap of a beat some of whose pages have a cause: the vector of record 0 (17 R327). -/
def pageTrap (k : AccKind) (reqs : List LaneReq) (bad : List BeatPage) : Trap :=
  let b0 := bad.headD { page := { base := 0, bits_ := 0, cause := 0, entry := 0, leaf := 0 }, lane := 0, va := 0 }
  let lanes := (reqs.filter fun r => bad.any fun b => b.page.base ≤ r.va && r.va < b.page.base + 2 ^ b.page.bits_).map
    LaneReq.lane
  { mkTrap (causeVec k b0.page.cause) 0 with
      lanes := some (laneMask lanes), aux0 := BitVec.ofNat 64 b0.va, aux1 := packBits [(bad.length, 8), (b0.page.cause, 0)] }

/-- The fault of a beat some of whose pages have a cause: its records are sent, and every slice takes the vector of record 0
(17 R326, R327). -/
def State.pageFault (s : State) (t : Nat) (g : Group) (k : AccKind) (reqs : List LaneReq) (bad : List BeatPage) :
    State × Trap × Nat :=
  ({ s.sendPages t g k s.nextId s.time bad with nextId := s.nextId + 1 }, pageTrap k reqs bad, s.nextId)

/-- Translates a beat: the pages, or the fault. `nr` lets non-resident pages pass (11 R220). -/
def State.beatPages (s : State) (t : Nat) (g : Group) (k : AccKind) (nr : Bool) (reqs : List LaneReq) :
    Except (State × Trap × Nat) (List BeatPage × State) :=
  let r := s.translate t g.asid k (fun lane => (g.slice (lane / 4)).pm) (reqs.map fun q => (q.lane, q.va))
  match r.1.filter fun b => b.page.cause ≠ 0 && !(nr && b.page.cause = 2) with
  | [] => .ok r
  | bad => .error (r.2.pageFault t g k reqs bad)

/-- The size of the group's scratchpad; an unattached group has none (10 R187, 11 R208). -/
def State.padSize (s : State) (t : Nat) (g : Group) : Nat :=
  if g.attached then (match s.team? t g.team with
    | some m => m.scratchSize
    | none => 0) else 0

/-- Where the team's scratchpad begins on its tile. -/
def State.padStart (s : State) (t : Nat) (g : Group) : Nat :=
  match s.team? t g.team with
  | some m => m.scratchBase
  | none => 0

/-- SP_RANGE: an access of n bytes reaches the declared size (11 R208). Every frame of the beat names the active lanes of all its slices
(11 R224, log 81). -/
def State.padTrap (s : State) (t : Nat) (g : Group) (l : List Nat) (reqs : List LaneReq) (n : Nat) : Option Trap :=
  if reqs.any fun r => s.padSize t g < r.va + n then
    some { mkTrap 0x07 0 with lanes := some (laneMask (l.flatMap fun k => (g.slice k).laneSet k)) }
  else none

/-- The place of a team offset. -/
def State.padLoc (s : State) (t : Nat) (g : Group) (x : Nat) : Loc :=
  { key := padKey t (s.padStart t g + x), tagged := true, l2s := 0, cp := 0 }

/-! ## Store queue and loads -/

/-- A queued access that writes a scratchpad. -/
def SqKind.padWrite : SqKind → Bool
  | .store _ accs => accs.any fun a => isPad a.loc.key
  | .atomic _ _ _ _ ls => ls.any fun a => isPad a.loc.key
  | _ => false

/-- What a load of the group sees: memory with the group's queued stores over it (12 R241). -/
def State.view (s : State) (g : Group) : State :=
  g.sq.foldl
    (fun r e =>
      match e with
      | .store _ accs => r.storeAccs accs
      | .stf accs => r.storeAccs accs
      | _ => r)
    s

/-- A queue entry that a load of n bytes at a place waits for: an atomic or future operation on that place (12 R241), or a copy that is to
write it (12 R253). -/
def State.meets (s : State) (future : Bool) (k n : Nat) : SqKind → Bool
  | .atomic _ _ size _ lanes => lanes.any fun a => overlap k n a.loc.key size
  | .stf accs => future && accs.any fun a => overlap (k / 8 * 8) 8 a.loc.key a.data.length
  | .clrf locs => future && locs.any fun l => overlap k n (l.key / 8 * 8) 8
  | .copy c => s.copyOwns c k n
  | _ => false

/-- An LDF among those named has lanes held. -/
def State.tokHeld (s : State) (toks : List Nat) : Bool := s.deferral.any fun h => toks.elem h.tok

/-- Whether entries of a queue hold a later access of a kind, a bit of R232's kinds: an acquiring atomic, or a fence (12 R248,
R252). `at` says that an atomic stands before them. -/
def State.fenceHolds (s : State) (kind : Nat) : List SqKind → Bool → Bool
  | [], _ => false
  | .fence hold full _ toks _ _ :: rest, at_ =>
    (hold.getLsbD kind && (full || at_ || s.tokHeld toks)) || s.fenceHolds kind rest at_
  | .atomic acq .. :: rest, _ => acq || s.fenceHolds kind rest true
  | _ :: rest, at_ => s.fenceHolds kind rest at_

/-- A load of places must wait. -/
def State.loadHeld (s : State) (g : Group) (future : Bool) (ls : List (Loc × Nat)) : Bool :=
  s.fenceHolds 0 g.sq false || (g.sq.any fun e => ls.any fun p => s.meets future p.1.key p.2 e) || ls.any fun p => s.owned p.1.key p.2

/-- The LDFs of a group that have lanes held. -/
def State.heldToks (s : State) (t slot : Nat) : List Nat :=
  nubNat ((s.deferral.filter fun h => h.tile = t && h.slot = slot).map Held.tok)

/-- The fence of an acquire or release that performs no access: kinds ld and st (12 R251). -/
def State.idleFence (s : State) (t slot : Nat) (od : Order) (sc : Scope) : State :=
  match od with
  | .rlx => s
  | .acq => s.push t slot (.fence 3 false false (s.heldToks t slot) [] false)
  | .rel => s.push t slot (.fence 2 false (sc = .sys) (s.heldToks t slot) [] false)
  | .ar => s.push t slot (.fence 3 true (sc = .sys) (s.heldToks t slot) [] false)

/-- A release waits for the LDFs held before it, and at scope sys for the context's stores in host memory (12 R246, R247). -/
def State.relFence (s : State) (t slot : Nat) (od : Order) (sc : Scope) : State :=
  if od.isLoad || ((s.heldToks t slot).isEmpty && sc ≠ .sys) then s
  else s.push t slot (.fence 2 false (sc = .sys) (s.heldToks t slot) [] false)

/-- An access to a peer without a route is held until a route returns, or until the peer's time has run out (19 R366). -/
def State.linkHeld (s : State) (ls : List (Loc × Nat)) : Bool :=
  ls.any fun p => isPeer p.1.key && s.unroutable && !s.noRoute.elem (peerOf p.1.key)

/-- The places that a load of a tile has to request: its L1 holds the others (11 R210, 19 R364). -/
def State.l1Misses (s : State) (t : Nat) (ls : List (Loc × Nat)) : List (Loc × Nat) := ls.filter fun p => !s.l1Holds t p.1.key p.2

/-- The slices wait, parked, and execute the instruction again (09 R177). -/
def State.refuse (s : State) (t slot : Nat) (l : List Nat) (w : Wait) : State :=
  l.foldl (fun s k => s.updSlice t slot k fun x => { x with wait := w, parkPc := x.pc }) s

/-- Consumed poison in accesses of n bytes, which tile v reads; `noTile` where they are performed at the L2 slice. -/
def State.consumeFrom (s : State) (t v : Nat) (g : Group) (n : Nat) (bad : List (LaneReq × Loc)) : State × Trap :=
  let ad := s.badUnit v ((bad.map fun p => p.2.key).headD 0) n
  s.consumeIn t g ad (s.arrayOf v ad) (bad.map fun p => p.1.lane)

/-- The same where the tile itself reads. -/
def State.consume (s : State) (t : Nat) (g : Group) (n : Nat) (bad : List (LaneReq × Loc)) : State × Trap := s.consumeFrom t t g n bad

/-- The accesses of a beat whose addresses poisoned table entries decide, with the first such unit (21 R379). -/
def State.walkBad (s : State) (t asid : Nat) (reqs : List LaneReq) : Option (Nat × List LaneReq) :=
  match reqs.filter fun r => (s.walkPoison t asid r.va).isSome with
  | [] => none
  | r :: rest => some ((s.walkPoison t asid r.va).getD 0, r :: rest)

/-- The accesses of a store into whose sectors it makes a tag from a poisoned one (11 R217, 21 R379). -/
def State.tagBad (s : State) (accs : List Acc) (a : Acc) : Bool :=
  a.loc.tagged && (accSectors a).any fun sec =>
    s.badTags.elem sec && !((List.range 64).all fun i => accs.any fun b => b.loc.tagged && accCovers b (64 * sec + i))

/-- The lookups of a beat: they wait for a copy engine that owns an entry (12 R253, 17 R321), consume a poisoned one, or are made. -/
def State.lookBeat (s : State) (t slot : Nat) (g : Group) (l : List Nat) (reqs : List LaneReq)
    (act : State × List (Nat × Trap × Nat)) : State × List (Nat × Trap × Nat) :=
  if s.walkHeld t g.asid (reqs.map LaneReq.va) then (s.refuse t slot l .refused, [])
  else
    match s.walkBad t g.asid reqs with
    | some b => let r := s.consumeIn t g b.1 (s.arrayOf noTile b.1) (b.2.map LaneReq.lane); (r.1, trapAll l r.2 0)
    | none => act

/-- A beat whose slices access memory beside the memory instructions (return stacks, frames, context items): all its pages are translated
together, a record gives every slice its trap (17 R326, R327), and else each slice goes on for itself with the pages. -/
def accessBeat (t slot : Nat) (k : AccKind) (reqs : Ctx → Slice → List LaneReq)
    (f : List BeatPage → State → Ctx → Slice → State × Option (Trap × Nat)) : Plan := fun c s l =>
  match s.group? t slot with
  | none => (s, [])
  | some g =>
    let qs := beatReqs s t slot g l reqs
    s.lookBeat t slot g l qs
      (match s.beatPages t g k false qs with
       | .error e => (e.1, trapAll l e.2.1 e.2.2)
       | .ok p => eachSlice t slot (f p.1) c p.2 l)

/-- DEFERRED of a slice's instruction: poison that it reads and does not consume (21 R380). -/
def State.deferAt (s : State) (t : Nat) (g : Group) (k : Nat) (pc : DWord) (ad array : Nat) : State :=
  s.logError 0x02 (BitVec.ofNat 64 (physOf ad)) g.asid t (4 * k) g.idx g.team k pc (s.groupTag t g) (BitVec.ofNat 64 array)

/-- Poison in a line that is read but not consumed, in units that the accesses of n bytes do not touch, logs DEFERRED (21 R380). -/
def State.deferPoison (s : State) (t : Nat) (g : Group) (k : Nat) (pc : DWord) (n : Nat) (ls : List Loc) : State :=
  let used := ls.flatMap fun l => unitsOf l.key n
  let others := ls.flatMap fun l => if isPad l.key then [] else (unitsOf (l.key / 256 * 256) 256).filter fun u => !used.elem u
  match others.find? fun u => s.poisoned (8 * u) 8 with
  | some u => s.deferAt t g k pc (8 * u) (s.arrayOf t (8 * u))
  | none => s

/-- LD.inv's promises, in `s` after its requests; `old` is the state before them, which tells the lines of tile t that they brought in (11
R221). -/
def State.noteInv (old s : State) (t launch n : Nat) (ls : List Loc) : State :=
  let add (r : List InvMark) (l : Loc) : List InvMark :=
    if isPad l.key || r.any (fun q => q.launch = launch && q.key = l.key && q.n = n) then r
    else r ++ [{ launch := launch, key := l.key, n := n, broken := false }]
  let brought (y : Line) : Bool := !y.inv.elem launch && ls.any fun l => l.key / 256 = y.no && !old.l1Holds t l.key n
  { s with invMarks := ls.foldl add s.invMarks }.updTile t fun x =>
    { x with l1 := x.l1.map fun y => if brought y then { y with inv := launch :: y.inv } else y }

/-- A promise of LD.inv on a place has been broken (11 R221). -/
def State.invBroken (s : State) (launch k n : Nat) : Bool :=
  s.invMarks.any fun m => m.broken && m.launch = launch && overlap m.key m.n k n

/-- What a load receives: bytes, tag, and whether they are poisoned. -/
structure Got where
  data : List Byte
  tag : Eb16
  bad : Bool
deriving DecidableEq, Repr

/-- A place as a load of tile t receives it: as it stands, or, in the bytes that a broken promise of an LD.inv of the launch covers, as units
that it has held since the launch began, each with the tag written with it (11 R221); a launch's number is a moment of the counter. -/
def State.loadBytes (v : State) (t launch salt : Nat) (strict : Bool) (l : Loc) (n : Nat) : Got :=
  let stands : Got := { data := v.readBytes l.key n, tag := v.locTag l, bad := v.poisonFrom t l.key n }
  if strict || isPad l.key || !v.invBroken launch l.key n then stands
  else
    let us := (unitsOf l.key n).zipIdx.map fun p => v.unitSince launch (64 * (2 * salt + p.2) + 3) p.1
    let old (k : Nat) : Option Past := if v.invBroken launch k 1 then us.find? fun p => p.unit = k / 8 else none
    let from_ := (List.range n).map fun i => (l.key + i, old (l.key + i))
    let some_ := us.filter fun p => v.invBroken launch (max l.key (8 * p.unit)) (min (l.key + n) (8 * p.unit + 8) - max l.key (8 * p.unit))
    let rest := from_.filter fun q => q.2.isNone
    { data := from_.map fun q => match q.2 with
        | some p => p.data.getD (q.1 % 8) 0
        | none => v.byte q.1,
      tag := if l.tagged then ebMaxL (some_.map Past.wtag ++ if rest.isEmpty then [] else [v.tagAt l.key]) else 0,
      bad := (some_.any fun p => p.bad || p.badTag) || rest.any fun q => v.poisonFrom t q.1 1 }

/-- The writes of a load of n bytes into registers from d on: 1 and 2 bytes zero-extend, 8 and 16 fill a pair or four
registers, in order (11 R224). -/
def loadWrites (d lane : Nat) (bs : List Byte) (tag : Eb16) : List RegWrite :=
  (List.range ((bs.length + 3) / 4)).map fun j => wV (d + j) lane (BitVec.ofNat 32 (leNat ((bs.drop (4 * j)).take 4))) tag

/-- The bytes of a store of n bytes from registers b on, with the largest of their bounds (11 R226). -/
def Ctx.storeData (c : Ctx) (x : Slice) (b lane n : Nat) : List Byte × Eb16 :=
  let rs := (List.range ((n + 3) / 4)).map fun j => c.rdV x (1 + j) (b + j) lane
  ((rs.flatMap fun r => leBytes 4 r.val.toNat).take n, ebMaxL (rs.map Reg.bnd))

/-- The magnitude of stored bytes for a relative budget (04 R74): the smallest among the elements of FMT.TY wholly written; 0
for none, and for b32 and the block formats. -/
def storedMag (t : Ty) (bs : List Byte) : Option Rat :=
  let w := tyWidth t / 8
  if t = .b32 || t.isBlk || bs.length < w then some 0
  else
    let ms := (List.range (bs.length / w)).map fun j => (tyValue t (leNat ((bs.drop (w * j)).take w))).budMag
    ms.tail.foldl minMag (ms.headD (some 0))

/-- BOUND_BREACH of a beat: the lanes that exceed their slice's budget (04 R76). -/
def breachOf (l : List (LaneReq × Eb16 × BitVec 17 × Option Rat)) : Option Trap :=
  match l.filter fun p => exceeds p.2.2.1 p.2.1 p.2.2.2 with
  | [] => none
  | bad => some (breach (bad.map fun p => p.1.lane) (ebMaxL (bad.map fun p => p.2.1)))

/-- Every slice of the beat goes on to its next instruction. -/
def State.advAll (s : State) (t slot : Nat) (i : Instr) (l : List Nat) : State :=
  l.foldl (fun s k => s.updSlice t slot k fun x => x.adv i) s

/-- Gives a slice an outstanding result. -/
def State.postTo (s : State) (t slot k : Nat) (ws : List RegWrite) : State := s.updSlice t slot k fun x => x.post ws

/-- Gives a slice a result of n registers that something queued or held is to supply. -/
def State.postTok (s : State) (t slot k tok n : Nat) : State :=
  s.updSlice t slot k fun x => { x with out := x.out ++ [{ writes := [], n := n, hx := none, tok := tok }] }

/-- Makes of a slice's results from the m-th on one result of n registers that something held is to complete. -/
def State.gatherTok (s : State) (t slot k tok n m : Nat) : State :=
  s.updSlice t slot k fun x =>
    { x with out := x.out.take m ++ [{ writes := (x.out.drop m).flatMap Pend.writes, n := n, hx := none, tok := tok }] }

/-- A store as it is performed: what it overwrites is kept where it may still be read (11 R221, 12 R254, 14 R288). -/
def State.perform (s : State) (accs : List Acc) : State := (s.notePast accs).storeAccs accs

end Sys2Proof.Machine
end

