-- ==== Sys2Proof/Machine/CrossLane.lean ====
section
/-! DEFINITION. The cross-lane class (08 R158-R168): rendezvous of the whole group, then one issue that reads every lane below G. -/

namespace Sys2Proof.Machine

/-! ## The single issue after the rendezvous -/

/-- What a cross-lane instruction writes in a lane, given the class that runs, the state and the group; the type and rounding
are those of the lowest live slice (06 R121). -/
abbrev LaneFn := UClass → State → Nat → Nat → Group → Ty → Nat → List RegWrite × Option HxItem

/-- The completed collective is presented, as the beat of the gang that holds the lowest live slice (08 R158). -/
def crossColl (i : Instr) : Coll := fun s t slot => .ok (s.updGroup t slot fun g => g.present i)

/-- The beat rows of a group. -/
def Group.rows (g : Group) : Nat := (g.grant + 31) / 32

/-- What the issue writes (08 R158). -/
def State.crossWrite (s : State) (t slot : Nat) (g : Group) (i : Instr) (h : Hdr) (f : LaneFn) (c : UClass) (cost : Nat) : State :=
  let ty := g.leader.tyOf i
  let res := g.liveIdx.map fun k =>
    let x := g.slice k
    let ls := (ctxOf s t slot g k).guarded x h
    (k, ls.map fun l => f c s t slot g ty (4 * k + l))
  let g1 := res.foldl
    (fun r q =>
      let ws := q.2.flatMap Prod.fst
      let hx := q.2.filterMap Prod.snd
      let x : Slice := { (r.slice q.1).adv i with wait := .run }
      r.setSlice q.1 ((x.postHx ws (if hx.isEmpty then none else some hx)).finish (r.slice q.1) r i)) g
  (s.setGroup t slot g1).updTile t fun x => x.debit slot g.leader.gang cost

/-- The one issue of a cross-lane instruction, at its cost for every beat row (08 R158, 09 R183); it waits while the allowance does not
cover that. -/
def crossIssue (i : Instr) (h : Hdr) (f : LaneFn) (s : State) (t slot : Nat) : State :=
  match s.group? t slot with
  | none => s
  | some g =>
    match s.classCost t slot g g.liveIdx i g.rows with
    | none => s
    | some (c, cost) =>
      if g.sound then s.crossWrite t slot g i h f c cost
      else
        let r := s.collUpset t slot g i
        match r.2 with
        | some tr => r.1.raiseAll t slot tr 0
        | none => r.1.crossWrite t slot ((r.1.group? t slot).getD g) i h f c cost

/-! ## Shuffles -/

/-- 08 R162. -/
def shflLane (fn : ShflFn) (d a : VReg) (k : LaneIdx) (pv : PReg) : LaneFn := fun _ s t slot g ty lane =>
  let ix := laneIdx s t slot g k lane
  let src := fn.src lane ix.1
  let val (n : Nat) : Val := let p := laneCtx s t slot g n; p.1.valV p.2 ty 0 a.toNat (n % 4)
  if 0 ≤ src ∧ src < g.grant then
    let v := val src.toNat
    (wTy ty d.toNat (lane % 4) v.n (if ix.2 = 0 then v.b else ebU) ++ [wP pv.toNat (lane % 4) true], none)
  else
    let v := val lane
    (wTy ty d.toNat (lane % 4) v.n v.b ++ [wP pv.toNat (lane % 4) false], none)

def shflIssue (i : Instr) (h : Hdr) (fn : ShflFn) (d a : VReg) (k : LaneIdx) (pv : PReg) : State → Nat → Nat → State :=
  crossIssue i h (shflLane fn d a k pv)

def execShfl (h : Hdr) (ty : TyF) (d a : VReg) (k : LaneIdx) (pv : PReg) (s : State) : Host.Outcome State Fault Refusal :=
  runColl s (.shfl (plainHdr h) ty d a k pv) (crossColl (.shfl (plainHdr h) ty d a k pv)) (shflIssue (.shfl (plainHdr h) ty d a k pv) (plainHdr h) .idx d a k pv)

def execShflu (h : Hdr) (ty : TyF) (d a : VReg) (k : LaneIdx) (pv : PReg) (s : State) : Host.Outcome State Fault Refusal :=
  runColl s (.shflu (plainHdr h) ty d a k pv) (crossColl (.shflu (plainHdr h) ty d a k pv)) (shflIssue (.shflu (plainHdr h) ty d a k pv) (plainHdr h) .up d a k pv)

def execShfld (h : Hdr) (ty : TyF) (d a : VReg) (k : LaneIdx) (pv : PReg) (s : State) : Host.Outcome State Fault Refusal :=
  runColl s (.shfld (plainHdr h) ty d a k pv) (crossColl (.shfld (plainHdr h) ty d a k pv)) (shflIssue (.shfld (plainHdr h) ty d a k pv) (plainHdr h) .down d a k pv)

def execShflx (h : Hdr) (ty : TyF) (d a : VReg) (k : LaneIdx) (pv : PReg) (s : State) : Host.Outcome State Fault Refusal :=
  runColl s (.shflx (plainHdr h) ty d a k pv) (crossColl (.shflx (plainHdr h) ty d a k pv)) (shflIssue (.shflx (plainHdr h) ty d a k pv) (plainHdr h) .xor d a k pv)

def execBcast (h : Hdr) (ty : TyF) (d a : VReg) (k : LaneIdx) (pv : PReg) (s : State) : Host.Outcome State Fault Refusal :=
  runColl s (.bcast (plainHdr h) ty d a k pv) (crossColl (.bcast (plainHdr h) ty d a k pv)) (shflIssue (.bcast (plainHdr h) ty d a k pv) (plainHdr h) .idx d a k pv)

/-! ## Reductions and scans -/

/-- A node of the tree on two values (08 Table 8.4). -/
def redNode (op : RedOp) (t : Ty) (c : UClass) (m : RMode) (a b : Val) : Val :=
  let flt (r : FRes) : Val := { n := (fmtOf t).encode r.v, b := r.b }
  let num (r : Nat × Eb16) : Val := { n := r.1, b := r.2 }
  let take (v : Val) : FOp := takeOp (fmtOf t) c ((fmtOf t).decode v.n) v.b
  match op with
  | .add => if (tyFF t).isSome then flt (fAdd (fmtOf t) c m (take a) (take b)) else num (vAdd t a b)
  | .min => if (tyFF t).isSome then flt (fMinMax false (take a) (take b)) else num (vMinMax false (tySigned t) t a b)
  | .max => if (tyFF t).isSome then flt (fMinMax true (take a) (take b)) else num (vMinMax true (tySigned t) t a b)
  | .and => num (vBits (fun p q => p &&& q) t a b)
  | .or => num (vBits (fun p q => p ||| q) t a b)
  | .xor => num (vBits (fun p q => p ^^^ q) t a b)

/-- A node: an identity passes the other operand through (04 R77). -/
def redOpt (f : Val → Val → Val) : Option Val → Option Val → Option Val
  | some a, some b => some (f a b)
  | some a, none => some a
  | none, b => b

/-- One level of the up-sweep. -/
def pairUp {α : Type} (f : α → α → α) : List α → List α
  | a :: b :: rest => f a b :: pairUp f rest
  | l => l

/-- The root of the tree over 2^k leaves (04 R77). -/
def treeRoot {α : Type} (f : α → α → α) : Nat → List α → List α
  | 0, l => l
  | k + 1, l => treeRoot f k (pairUp f l)

/-- The down-sweep: the prefixes of 2^k leaves below a prefix (08 R164). -/
def scanPre {α : Type} (f : α → α → α) (pre : α) : Nat → List α → List α
  | 0, _ => [pre]
  | k + 1, l =>
    let ps := scanPre f pre k (pairUp f l)
    (ps.zipIdx.map fun p =>
      match l[2 * p.2]? with
      | some x => [p.1, f p.1 x]
      | none => [p.1]).flatten

/-- log2 of P, the smallest power of two at or above G. -/
def log2Up (g : Nat) : Nat := if g ≤ 1 then 0 else Nat.log2 (g - 1) + 1

/-- The identity of an operation (08 Table 8.4). -/
def redIdentity (op : RedOp) (t : Ty) : Nat :=
  match op with
  | .add | .or | .xor => 0
  | .and => 2 ^ tyWidth t - 1
  | .min => match tyFF t with
    | some f => f.encode (.inf false)
    | none => natOf (tyWidth t) (tyMax t)
  | .max => match tyFF t with
    | some f => f.encode (.inf true)
    | none => natOf (tyWidth t) (tyMin t)

/-- The leaves: the contributing lanes' values, identities elsewhere up to P. -/
def redLeaves (s : State) (t slot : Nat) (g : Group) (ty : Ty) (a : VReg) (pc : PReg) : List (Option Val) :=
  (List.range (2 ^ log2Up g.grant)).map fun n =>
    if decide (n < g.grant) && contributes s t slot g pc n then
      let p := laneCtx s t slot g n
      some (p.1.valV p.2 ty 0 a.toNat (n % 4))
    else none

/-- The writes of a reduction's or scan's lane. -/
def redWrites (op : RedOp) (ty : Ty) (uc : UC) (d : VReg) (pd : PReg) (any : Bool) (v : Option Val) (lane : Nat) :
    List RegWrite × Option HxItem :=
  let r := v.getD { n := redIdentity op ty, b := 0 }
  (wTy ty d.toNat (lane % 4) r.n r.b ++ [wP pd.toNat (lane % 4) any],
   if uc = .auto && (tyFF ty).isSome then some { bnd := r.b, ex := exOf ((fmtOf ty).decode r.n) } else none)

/-- 08 R163, R164. -/
def redLane (tyf : TyF) (uc : UC) (op : RedOp) (d a : VReg) (pc pd : PReg) : LaneFn := fun c s t slot g ty lane =>
  let ls := redLeaves s t slot g ty a pc
  let root := treeRoot (redOpt (redNode op ty c (g.leader.rmode tyf .dflt 0))) (log2Up g.grant) ls
  redWrites op ty uc d pd (ls.any Option.isSome) (root.headD none) lane

def redIssue (i : Instr) (h : Hdr) (tyf : TyF) (uc : UC) (op : RedOp) (d a : VReg) (pc pd : PReg) : State → Nat → Nat → State :=
  crossIssue i h (redLane tyf uc op d a pc pd)

def execRed (h : Hdr) (ty : TyF) (uc : UC) (op : RedOp) (d a : VReg) (pc pd : PReg) (s : State) :
    Host.Outcome State Fault Refusal :=
  runColl s (.red (plainHdr h) ty uc op d a pc pd) (crossColl (.red (plainHdr h) ty uc op d a pc pd)) (redIssue (.red (plainHdr h) ty uc op d a pc pd) (plainHdr h) ty uc op d a pc pd)

/-- 08 R164. -/
def scanLane (tyf : TyF) (uc : UC) (op : RedOp) (ex : Bool) (d a : VReg) (pc pd : PReg) : LaneFn := fun c s t slot g ty lane =>
  let ls := redLeaves s t slot g ty a pc
  let f := redOpt (redNode op ty c (g.leader.rmode tyf .dflt 0))
  let pre := (scanPre f none (log2Up g.grant) ls).getD lane none
  redWrites op ty uc d pd (ls.any Option.isSome) (if ex then pre else f pre (ls.getD lane none)) lane

def scanIssue (i : Instr) (h : Hdr) (tyf : TyF) (uc : UC) (op : RedOp) (ex : Bool) (d a : VReg) (pc pd : PReg) : State → Nat → Nat → State :=
  crossIssue i h (scanLane tyf uc op ex d a pc pd)

def execScan (h : Hdr) (ty : TyF) (uc : UC) (op : RedOp) (ex : Bool) (d a : VReg) (pc pd : PReg) (s : State) :
    Host.Outcome State Fault Refusal :=
  runColl s (.scan (plainHdr h) ty uc op ex d a pc pd) (crossColl (.scan (plainHdr h) ty uc op ex d a pc pd)) (scanIssue (.scan (plainHdr h) ty uc op ex d a pc pd) (plainHdr h) ty uc op ex d a pc pd)

/-! ## Vote, match and first -/

/-- A set of lanes as the three words of a ballot (08 R165). -/
def ballotWrites (d lane : Nat) (set : List Nat) : List RegWrite :=
  (List.range 3).map fun w =>
    wV (d + w) (lane % 4) (BitVec.ofNat 32 ((set.filter fun n => n / 32 = w).foldl (fun r n => r + 2 ^ (n % 32)) 0)) 0

/-- 08 R165. -/
def voteLane (mode : VoteMode) (d : BitVec 8) (pa pc : PReg) : LaneFn := fun _ s t slot g _ lane =>
  let cs := contributors s t slot g pc
  let yes := cs.filter fun n => let p := laneCtx s t slot g n; p.1.rdP p.2 3 pa.toNat (n % 4)
  let out (b : Bool) : List RegWrite := [wP d.toNat (lane % 4) b]
  (match mode with
   | .all => out (yes.length = cs.length)
   | .any => out (!yes.isEmpty)
   | .uni => out (yes.isEmpty || yes.length = cs.length)
   | .ballot => ballotWrites d.toNat lane yes, none)

def voteIssue (i : Instr) (h : Hdr) (mode : VoteMode) (d : BitVec 8) (pa pc : PReg) : State → Nat → Nat → State :=
  crossIssue i h (voteLane mode d pa pc)

def execVote (h : Hdr) (mode : VoteMode) (d : BitVec 8) (pa pc : PReg) (s : State) : Host.Outcome State Fault Refusal :=
  runColl s (.vote (plainHdr h) mode d pa pc) (crossColl (.vote (plainHdr h) mode d pa pc)) (voteIssue (.vote (plainHdr h) mode d pa pc) (plainHdr h) mode d pa pc)

/-- 08 R166. -/
def matchLane (d a : VReg) (pc pd : PReg) : LaneFn := fun _ s t slot g ty lane =>
  let val (n : Nat) : Nat := let p := laneCtx s t slot g n; (p.1.valV p.2 ty 0 a.toNat (n % 4)).n
  let cs := contributors s t slot g pc
  let same := cs.filter fun n => val n = val lane
  (ballotWrites d.toNat lane same ++ [wP pd.toNat (lane % 4) (same.head? = some lane)], none)

def matchIssue (i : Instr) (h : Hdr) (d a : VReg) (pc pd : PReg) : State → Nat → Nat → State :=
  crossIssue i h (matchLane d a pc pd)

def execMatchv (h : Hdr) (ty : TyF) (d a : VReg) (pc pd : PReg) (s : State) : Host.Outcome State Fault Refusal :=
  runColl s (.matchv (plainHdr h) ty d a pc pd) (crossColl (.matchv (plainHdr h) ty d a pc pd)) (matchIssue (.matchv (plainHdr h) ty d a pc pd) (plainHdr h) d a pc pd)

/-- 08 R167. -/
def firstLane (d : VReg) (pc pd : PReg) : LaneFn := fun _ s t slot g _ lane =>
  match contributors s t slot g pc with
  | [] => ([wV d.toNat (lane % 4) 0xFFFFFFFF 0, wP pd.toNat (lane % 4) false], none)
  | n :: _ => ([wV d.toNat (lane % 4) (BitVec.ofNat 32 n) 0, wP pd.toNat (lane % 4) true], none)

def firstIssue (i : Instr) (h : Hdr) (d : VReg) (pc pd : PReg) : State → Nat → Nat → State :=
  crossIssue i h (firstLane d pc pd)

def execFirst (h : Hdr) (d : VReg) (pc pd : PReg) (s : State) : Host.Outcome State Fault Refusal :=
  runColl s (.first (plainHdr h) d pc pd) (crossColl (.first (plainHdr h) d pc pd)) (firstIssue (.first (plainHdr h) d pc pd) (plainHdr h) d pc pd)

end Sys2Proof.Machine
end

