-- ==== Sys2Proof/Machine/Convert.lean ====
section
/-! DEFINITION. Conversions (07 R143-R148, 03 R57), the stochastic-rounding generator (03 R58, 07 R149) and SETFMT (07 R150). -/

namespace Sys2Proof.Machine

/-! ## The generator -/

/-- The state of a quarter's generator (03 R58). -/
def Tile.srOf (x : Tile) (q : Nat) : DWord := Sparse.get srReset x.sr q

/-- Writes a generator; 0 is replaced (03 R58). -/
def Tile.setSr (x : Tile) (q : Nat) (v : DWord) : Tile :=
  { x with sr := Sparse.set srReset x.sr q (if v = 0 then srReset else v) }

/-- A conversion's beat: under .sr every lane draws from the quarter's one state, which then advances (03 R58). `f` gives the
writes of a lane from the rounding mode of its k-th draw, rotated by `2 L + k`. -/
def convBeat (i : Instr) (h : Hdr) (ty : TyF) (rnd : Rnd) (f : Ctx → Slice → Ty → Nat → (Nat → RMode) → List RegWrite)
    (t slot : Nat) : Plan := fun u s l =>
  let q := slot / 16
  let st := (s.tile t).srOf q
  let r := perSlice t slot (lanePlan i h fun c x tt ln =>
    f c x tt ln fun k => x.rmode ty rnd (srDraw st (2 * ((4 * c.i + ln) % 32) + k))) u s l
  (if rnd = .sr then r.1.updTile t fun x => x.setSr q (srNext st) else r.1, r.2)

/-- One lane's conversion. -/
def conv (s : State) (i : Instr) (h : Hdr) (ty : TyF) (rnd : Rnd)
    (f : Ctx → Slice → Ty → Nat → (Nat → RMode) → List RegWrite) : Host.Outcome State Fault Refusal :=
  runBeat s i (convBeat i h ty rnd f)

/-! ## CVT, CVTI, PACK, UNPK -/

/-- A bound under a scale register: U when that register's bound is not 0 (07 R143, R144, R148). -/
def scaledBound (scale : Eb16) (b : Eb16) : Eb16 := if scale = 0 then b else ebU

/-- Several encodings of a width packed into a register, element 0 lowest (03 R50). -/
def packElems (w : Nat) (es : List Nat) : Word :=
  BitVec.ofNat 32 ((es.zipIdx.map fun p => p.1 % 2 ^ w * 2 ^ (w * p.2)).foldl (· + ·) 0)

/-- Element k of a width in a register. -/
def elemOf (w n k : Nat) : Nat := n / 2 ^ (w * k) % 2 ^ w

/-- 07 R143. -/
def cvtLane (src : Ty) (d a : VReg) (b : VOpnd) (c : Ctx) (x : Slice) (t : Ty) (l : Nat) (m : Nat → RMode) : List RegWrite :=
  if src.isBlk then
    let v := c.val32 x 0 a.toNat l
    let sc := c.valO x .b32 2 b l
    let e := decodeBlkByte src (v.n % 256) (sc.n % 256)
    let r0 := convTo t (m 0) e.1 (ebReal v.b)
    let r1 := convTo t (m 16) e.2 (ebReal v.b)
    if t = .f32 then
      [wV d.toNat l (BitVec.ofNat 32 r0.1) (scaledBound sc.b r0.2), wV (d.toNat + 1) l (BitVec.ofNat 32 r1.1) (scaledBound sc.b r1.2)]
    else [wV d.toNat l (packElems 16 [r0.1, r1.1]) (scaledBound sc.b (ebMax r0.2 r1.2))]
  else
    let v := c.valV x src 0 a.toNat l
    let r := convTo t (m 0) (tyValue src v.n) (ebReal v.b)
    wTy t d.toNat l r.1 r.2

def execCvt (h : Hdr) (ty : TyF) (src : Ty) (rnd : Rnd) (d a : VReg) (b : VOpnd) (s : State) :
    Host.Outcome State Fault Refusal :=
  conv s (.cvt h ty src rnd d a b) h ty rnd (cvtLane src d a b)

/-- A value times 2^k. -/
def FVal.scale (v : FVal) (k : Int) : FVal :=
  match v with
  | .fin s m => .fin s (m * pow2 k)
  | v => v

/-- 07 R144. -/
def execCvti (h : Hdr) (ty : TyF) (src : Ty) (rnd : Rnd) (d a : VReg) (b : VOpnd) (s : State) :
    Host.Outcome State Fault Refusal :=
  conv s (.cvti h ty src rnd d a b) h ty rnd fun c x t l m =>
    let v := c.valV x src 0 a.toNat l
    let y := c.valO x .b32 2 b l
    let k := intOf true 8 y.n
    let r := convTo t (m 0) ((tyValue src v.n).scale k) (bScale (pow2 k) (ebReal v.b))
    wTy t d.toNat l r.1 (scaledBound y.b r.2)

/-- 07 R145. -/
def execPack (h : Hdr) (ty : TyF) (src : Ty) (rnd : Rnd) (d a : VReg) (s : State) : Host.Outcome State Fault Refusal :=
  conv s (.pack h ty src rnd d a) h ty rnd fun c x t l m =>
    let rs := (List.range t.packN).map fun k =>
      let v := c.val32 x 0 (a.toNat + k) l
      convTo t (m (16 * k)) (tyValue src v.n) (ebReal v.b)
    [wV d.toNat l (packElems (tyWidth t) (rs.map Prod.fst)) (ebMaxL (rs.map Prod.snd))]

/-- 07 R145. A negative i8 element in an n32 register is delivered as 0, the distance charged (log 95). -/
def execUnpk (h : Hdr) (ty : TyF) (src : Ty) (d a : VReg) (s : State) : Host.Outcome State Fault Refusal :=
  runSlices s (.unpk h ty src d a) (lanePlan (.unpk h ty src d a) h fun c x t l =>
    let v := c.val32 x 0 a.toNat l
    (List.range src.packN).flatMap fun k =>
      let r := convTo t .rne (tyValue src (elemOf (tyWidth src) v.n k)) (ebReal v.b)
      wTy t (d.toNat + k) l r.1 r.2)

/-! ## Block quantisation -/

/-- The smallest integer X with x ≤ c × 2^X, for positive x and c. -/
def ceilExp (x c : Rat) : Int := let e := ilog2 (x / c); if pow2 e = x / c then e else e + 1

/-- The magnitudes of finite elements with their indexes. -/
def finMags (xs : List FVal) : List (Nat × Rat) :=
  xs.zipIdx.filterMap fun p =>
    match p.1 with
    | .fin _ m => some (p.2, m)
    | _ => none

def maxMagOf (l : List (Nat × Rat)) : Rat := (l.map Prod.snd).foldl ratMax 0

/-- The lowest index whose magnitude is largest. -/
def largestAt (l : List (Nat × Rat)) : Option Nat := (l.find? fun p => p.2 = maxMagOf l).map Prod.fst

/-- X of a block (07 R147). -/
def blockExp (t : Ty) (xs : List FVal) : Int :=
  let fin := finMags xs
  let amax := maxMagOf fin
  if amax = 0 then -127
  else
    let e :=
      if t = .e2m1 then ceilExp amax 6
      else
        let a2 := match largestAt (fin.filter fun p => p.1 % 2 = 0) with
          | some o => maxMagOf (fin.filter fun p => p.1 ≠ o)
          | none => amax
        if a2 = 0 then ceilExp amax 96 else max (ceilExp amax 96) (ceilExp a2 7)
    max (-127) (min 127 e)

/-- The e2m1 code of an element in units of the scale (03 Table 3.7). A code that rounds to zero keeps the element's sign (log 96). -/
def codeE2m1 (m : RMode) (u : FVal) : Nat :=
  match u with
  | .nan => 0
  | .inf s => (if s then 8 else 0) + 7
  | .fin s x => (if s then 8 else 0) + e2m1Code (roundE2m1 m s x)

/-- An i4x element in units of the scale as a real: NaN is 0 and ±∞ are ±7 (07 R147). -/
def unitsI4x : FVal → Rat
  | .nan => 0
  | .inf s => if s then -7 else 7
  | .fin s m => signed s m

/-- Two nibbles in two's complement (07 R147, normal). -/
def normalByte (n0 n1 : Int) : Nat := 16 * natOf 4 n0 + natOf 4 n1

/-- The larger error of a byte's two elements (07 R147, err). -/
def byteErr (q : Nat) (u0 u1 : Rat) : Rat :=
  let e := decodeI4x q 127
  let one (v : FVal) (u : Rat) : Rat :=
    match v with
    | .fin s m => mag (signed s m - u)
    | _ => 0
  ratMax (one e.1 u0) (one e.2 u1)

/-- An i4x payload byte (07 R147): m0 and m1 are the elements' rounding modes. -/
def byteI4x (m0 m1 : RMode) (v0 v1 : FVal) : Nat :=
  let u0 := unitsI4x v0
  let u1 := unitsI4x v1
  let n0 := roundInt m0 u0
  let n1 := roundInt m1 u1
  if n0.natAbs ≤ 7 && n1.natAbs ≤ 7 then normalByte n0 n1
  else
    let cn := normalByte (max (-7) (min 7 n0)) (max (-7) (min 7 n1))
    let g := roundE2m1 m0 (decide (u0 < 0)) (mag u0 / 16)
    let co := 128 + (if u0 < 0 ∧ g ≠ 0 then 8 else 0) + e2m1Code g
    if byteErr co u0 u1 < byteErr cn u0 u1 then co else cn

/-- The 16 payload bytes of 32 elements under X; `m k` is element k's rounding mode (07 R147). -/
def blockBytes (t : Ty) (m : Nat → RMode) (e : Int) (xs : List FVal) : List Nat :=
  (List.range 16).map fun j =>
    let u0 := (xs.getD (2 * j) .nan).scale (-e)
    let u1 := (xs.getD (2 * j + 1) .nan).scale (-e)
    if t = .e2m1 then 16 * codeE2m1 (m (2 * j)) u0 + codeE2m1 (m (2 * j + 1)) u1
    else byteI4x (m (2 * j)) (m (2 * j + 1)) u0 u1

/-- The elements that payload bytes stand for. -/
def blockVals (t : Ty) (e : Nat) (bytes : List Nat) : List FVal := bytes.flatMap fun q => let p := decodeBlkByte t q e; [p.1, p.2]

/-- The bound of a quantised element (07 R147). -/
def quantBound (x y : FVal) (b : Eb16) : Eb16 := upO (bAdd (ebReal b) (finDist x y))

/-- Source elements of QNT with their bounds. -/
def blockSource (c : Ctx) (x : Slice) (src : Ty) (a l : Nat) : List (FVal × Eb16) :=
  (List.range 32).map fun k =>
    if src = .f32 then
      let v := c.val32 x 0 (a + k) l
      (tyValue .f32 v.n, v.b)
    else
      let v := c.val32 x 0 (a + k / 2) l
      (tyValue src (elemOf 16 v.n (k % 2)), v.b)

/-- Payload registers from bytes and element bounds: value and the largest of its eight elements' bounds. -/
def payloadRegs (bytes : List Nat) (bs : List Eb16) : List (Word × Eb16) :=
  (List.range 4).map fun r => (packElems 8 ((bytes.drop (4 * r)).take 4), ebMaxL ((bs.drop (8 * r)).take 8))

/-- 07 R147. -/
def execQnt (h : Hdr) (ty : TyF) (src : Ty) (rc : Rnd) (d a vs : VReg) (s : State) : Host.Outcome State Fault Refusal :=
  conv s (.qnt h ty src rc d a vs) h ty rc fun c x t l m =>
    let xs := blockSource c x src a.toNat l
    let vals := xs.map Prod.fst
    let e := blockExp t vals
    let bytes := blockBytes t (fun k => m (2 * k)) e vals
    let ys := blockVals t (e + 127).toNat bytes
    let bs := (xs.zip ys).map fun p => quantBound p.1.1 p.2 p.1.2
    (payloadRegs bytes bs).zipIdx.map (fun p => wV (d.toNat + p.2) l p.1.1 p.1.2) ++
      [wV vs.toNat l (BitVec.ofNat 32 (e + 127).toNat) 0]

/-- 07 R148. -/
def execDqnt (h : Hdr) (ty : TyF) (src : Ty) (rnd : Rnd) (d a vs : VReg) (s : State) : Host.Outcome State Fault Refusal :=
  conv s (.dqnt h ty src rnd d a vs) h ty rnd fun c x t l m =>
    let sc := c.val32 x 3 vs.toNat l
    let rs := (List.range 4).flatMap fun r =>
      let v := c.val32 x 0 (a.toNat + r) l
      (blockVals src (sc.n % 256) ((List.range 4).map fun k => elemOf 8 v.n k)).map fun y =>
        let q := convTo t (m 0) y (ebReal v.b)
        (q.1, scaledBound sc.b q.2)
    if t = .f32 then rs.zipIdx.map fun p => wV (d.toNat + p.2) l (BitVec.ofNat 32 p.1.1) p.1.2
    else (List.range 16).map fun j =>
      let p := rs.getD (2 * j) (0, 0)
      let q := rs.getD (2 * j + 1) (0, 0)
      wV (d.toNat + j) l (packElems 16 [p.1, q.1]) (ebMax p.2 q.2)

/-! ## Generator and format register -/

/-- 07 R149: in ascending slice index, each performing slice writes its quarter's state. -/
def execSrseed (h : Hdr) (a : SReg) (s : State) : Host.Outcome State Fault Refusal :=
  runBeat s (.srseed h a) fun t slot => eachSlice t slot fun r c x =>
    let r1 := if c.performs x h then r.updTile t fun y => y.setSr (slot / 16) (c.rdS x 0 a.toNat) else r
    (r1.setSlice t slot c.i (x.adv (.srseed h a)), none)

/-- 07 R150: at once, for every later instruction. -/
def execSetfmt (h : Hdr) (ty : Ty) (rm : BitVec 2) (s : State) : Host.Outcome State Fault Refusal :=
  runSlices s (.setfmt h ty rm) fun _ c x =>
    let y := x.adv (.setfmt h ty rm)
    .ok (if c.performs x h then { y with fmt := BitVec.ofNat 8 (16 * ty.code + 4 * rm.toNat) } else y)

end Sys2Proof.Machine
end

