-- ==== Sys2Proof/Machine/MemInstr.lean ====
section
/-! DEFINITION. The memory instructions (11 R224-R235) and FENCE (12 R252): one meaning per instruction over shared shapes. -/

namespace Sys2Proof.Machine

/-! ## Shapes -/

/-- What becomes of a beat: the state after, and the traps of its slices. -/
abbrev BeatRes := State × List (Nat × Trap × Nat)

/-- The group of a beat. -/
def withGroup (s : State) (t slot : Nat) (f : Group → BeatRes) : BeatRes :=
  match s.group? t slot with
  | some g => f g
  | none => (s, [])

/-- The checks of a global access in the order of 04 R76 and 11 R224, then the access with the pages found. -/
def globalBeat (s : State) (t slot : Nat) (g : Group) (l : List Nat) (k : AccKind) (nr : Bool) (n : Nat) (reqs : List LaneReq)
    (chk : Option Trap) (act : State → List BeatPage → BeatRes) : BeatRes :=
  match alignTrap reqs n with
  | some tr => (s, trapAll l tr 0)
  | none =>
    match chk with
    | some tr => (s, trapAll l tr 0)
    | none =>
      s.lookBeat t slot g l reqs
        (match s.beatPages t g k nr reqs with
         | .error e => (e.1, trapAll l e.2.1 e.2.2)
         | .ok r => act r.2 r.1)

/-- The same for the scratchpad. -/
def padBeat (s : State) (t : Nat) (g : Group) (l : List Nat) (n : Nat) (reqs : List LaneReq) (chk : Option Trap)
    (act : BeatRes) : BeatRes :=
  match alignTrap reqs n with
  | some tr => (s, trapAll l tr 0)
  | none =>
    match chk with
    | some tr => (s, trapAll l tr 0)
    | none =>
      match s.padTrap t g l reqs n with
      | some tr => (s, trapAll l tr 0)
      | none => act

/-- The place of a request on one of the pages found. -/
def State.placed (s : State) (ps : List BeatPage) (reqs : List LaneReq) : List (LaneReq × Loc) :=
  reqs.map fun r => (r, s.locIn ps r.va)

/-- The place of a request in the scratchpad. -/
def State.padPlaced (s : State) (t : Nat) (g : Group) (reqs : List LaneReq) : List (LaneReq × Loc) :=
  reqs.map fun r => (r, s.padLoc t g r.va)

/-- The traps of a beat some of whose accesses of n bytes consume poison (21 R379), if any; tile v, or the L2 slice, reads. -/
def State.poisonCheck (s : State) (t v : Nat) (g : Group) (l : List Nat) (n : Nat) (pl : List (LaneReq × Loc))
    (isBad : LaneReq × Loc → Bool) (act : BeatRes) : BeatRes :=
  match pl.filter isBad with
  | [] => act
  | bad => let r := s.consumeFrom t v g n bad; (r.1, trapAll l r.2 0)

/-- The results of a load of n bytes (`strict`: what stands now is read, whatever LD.inv promised): `wr` makes the writes of a request from its bytes and tag; `more` those beside. -/
def State.deliverLoads (s : State) (t slot : Nat) (g : Group) (i : Instr) (l : List Nat) (strict : Bool) (n : Nat)
    (pl : List (LaneReq × Loc)) (wr : LaneReq → List Byte → Eb16 → List RegWrite) (more : Nat → List RegWrite) : State :=
  let v := s.view g
  let la := s.groupLaunch t g
  let got := pl.map fun p => (p.1.k, let b := v.loadBytes t la p.1.lane strict p.2 n; wr p.1 b.data b.tag)
  (l.foldl (fun r k => r.postTo t slot k ((got.filter fun q => q.1 = k).flatMap Prod.snd ++ more k)) s).advAll t slot i l

/-- A load of a beat that passed its checks: it waits, consumes poison, or delivers (11 R224, 12 R241, R253). `inv` is given for LD, which
alone may see a broken promise, and says whether it is an LD.inv (11 R221). -/
def State.loadBeat (s : State) (t slot : Nat) (g : Group) (i : Instr) (l : List Nat) (od : Order) (sc : Scope) (inv : Option Bool) (n : Nat)
    (pl : List (LaneReq × Loc)) (wr : LaneReq → List Byte → Eb16 → List RegWrite) (more : Nat → List RegWrite) :
    BeatRes :=
  let ls := pl.map fun p => (p.2, n)
  let strict : Bool := od = .acq || inv.isNone
  if pl.isEmpty then ((s.idleFence t slot od sc).deliverLoads t slot g i l true n [] wr more, [])
  else if s.loadHeld g false ls || s.linkHeld (s.l1Misses t ls) then (s.refuse t slot l .refused, [])
  else
    s.poisonCheck t t g l n pl (fun p => ((s.view g).loadBytes t (s.groupLaunch t g) p.1.lane strict p.2 n).bad)
      (let s1 := s.touch t g.asid false ls
       let s2 := if inv = some true then s.noteInv s1 t (s1.groupLaunch t g) n (pl.map Prod.snd) else s1
       let s3 := s2.deferPoison t g (l.headD 0) (g.slice (l.headD 0)).pc n (pl.map Prod.snd)
       (s3.deliverLoads t slot g i l strict n pl wr more, []))

/-- One lane's store: place, bytes and bound. -/
def accOf (data : LaneReq → List Byte × Eb16) (p : LaneReq × Loc) : Acc := { loc := p.2, data := (data p.1).1, bnd := (data p.1).2 }

/-- The stores of a beat. -/
def accsOf (pl : List (LaneReq × Loc)) (data : LaneReq → List Byte × Eb16) : List Acc := pl.map (accOf data)

/-- A store of n bytes a lane, of a beat that passed its checks, consumes a poisoned tag or enters the store queue (12 R240, 21 R379);
`enter` queues the accesses. -/
def State.storeWith (s : State) (t slot : Nat) (g : Group) (i : Instr) (l : List Nat) (od : Order) (sc : Scope) (n : Nat)
    (pl : List (LaneReq × Loc)) (data : LaneReq → List Byte × Eb16) (enter : State → List Acc → State) : BeatRes :=
  let accs := accsOf pl data
  s.poisonCheck t t g l n pl (fun p => (s.view g).tagBad accs (accOf data p))
    ((if accs.isEmpty then s.idleFence t slot od sc else enter (s.relFence t slot od sc) accs).advAll t slot i l, [])

/-- The accesses as one entry. -/
def State.storeBeat (s : State) (t slot : Nat) (g : Group) (i : Instr) (l : List Nat) (od : Order) (sc : Scope) (n : Nat)
    (pl : List (LaneReq × Loc)) (data : LaneReq → List Byte × Eb16) (e : List Acc → SqKind) : BeatRes :=
  s.storeWith t slot g i l od sc n pl data fun r accs => r.push t slot (e accs)

/-- The same for stores that each slice makes by itself, an entry each (11 R227). -/
def State.storeEach (s : State) (t slot : Nat) (g : Group) (i : Instr) (l : List Nat) (od : Order) (sc : Scope) (n : Nat)
    (pl : List (LaneReq × Loc)) (data : LaneReq → List Byte × Eb16) : BeatRes :=
  s.storeWith t slot g i l od sc n pl data fun r accs => accs.foldl (fun r a => r.push t slot (.store false [a])) r

/-- The store data of a beat's lane, read from V registers. -/
def laneData (s : State) (t slot : Nat) (g : Group) (b : VReg) (n : Nat) (r : LaneReq) : List Byte × Eb16 :=
  (ctxOf s t slot g r.k).storeData (g.slice r.k) b.toNat r.l n

/-- The checkpoint of a store (04 R74-R76): its bytes as elements of FMT.TY. -/
def storeBreach (g : Group) (nochk : Bool) (reqs : List LaneReq) (data : LaneReq → List Byte × Eb16) : Option Trap :=
  if nochk then none
  else breachOf (reqs.map fun r =>
    let x := g.slice r.k
    let d := data r
    (r, d.2, x.ebud, storedMag (x.ty .fmt) d.1))

/-! ## Loads and stores -/

/-- 11 R220, R221, R225. -/
def ldPlan (i : Instr) (h : Hdr) (sz : MSize) (base : Base) (d : VReg) (off : BitVec 10) (sc : Scope) (od : Order) (inv : Bool)
    (nr : Option PReg) (t slot : Nat) : Plan := fun _ s l => withGroup s t slot fun g =>
  let n := sz.bytes
  let reqs := beatReqs s t slot g l fun c x => c.addrs x h base (offBytes off n) n true
  globalBeat s t slot g l .load nr.isSome n reqs none fun s1 ps =>
    let there (r : LaneReq) : Bool := (pageOf ps r.va).any fun p => p.cause = 0
    let away := reqs.filter fun r => !there r
    let here := reqs.filter there
    let more (k : Nat) : List RegWrite :=
      match nr with
      | none => []
      | some p =>
        ((away.filter fun r => r.k = k).flatMap fun r =>
            (List.range sz.regs).map (fun j => wV (d.toNat + j) r.l 0 0) ++ [wP p.toNat r.l false]) ++
          (here.filter fun r => r.k = k).map fun r => wP p.toNat r.l true
    s1.loadBeat t slot g i l (if reqs.isEmpty || !here.isEmpty then od else .rlx) sc (some inv) n (s1.placed ps here)
      (fun r bs tag => loadWrites d.toNat r.l bs tag) more

def execLd (h : Hdr) (sz : MSize) (base : Base) (d : VReg) (off : BitVec 10) (sc : Scope) (od : Order) (inv : Bool)
    (nr : Option PReg) (s : State) : Host.Outcome State Fault Refusal :=
  runBeat s (.ld h sz base d off sc od inv nr) (ldPlan (.ld h sz base d off sc od inv nr) h sz base d off sc od inv nr)

/-- 11 R226. -/
def stPlan (i : Instr) (h : Hdr) (sz : MSize) (base : Base) (b : VReg) (off : BitVec 10) (sc : Scope) (od : Order) (nochk : Bool)
    (t slot : Nat) : Plan := fun _ s l => withGroup s t slot fun g =>
  let n := sz.bytes
  let reqs := beatReqs s t slot g l fun c x => c.addrs x h base (offBytes off n) n true
  let data := laneData s t slot g b n
  globalBeat s t slot g l .store false n reqs (storeBreach g nochk reqs data) fun s1 ps =>
    s1.storeBeat t slot g i l od sc n (s1.placed ps reqs) data (.store false)

def execSt (h : Hdr) (sz : MSize) (base : Base) (b : VReg) (off : BitVec 10) (sc : Scope) (od : Order) (nochk : Bool)
    (s : State) : Host.Outcome State Fault Refusal :=
  runBeat s (.st h sz base b off sc od nochk) (stPlan (.st h sz base b off sc od nochk) h sz base b off sc od nochk)

/-- 11 R225. -/
def ldsPlan (i : Instr) (h : Hdr) (sz : MSize) (base : Base) (d : VReg) (off : BitVec 10) (sc : Scope) (od : Order) (t slot : Nat) :
    Plan := fun _ s l => withGroup s t slot fun g =>
  let n := sz.bytes
  let reqs := beatReqs s t slot g l fun c x => c.addrs x h base (offBytes off n) n false
  padBeat s t g l n reqs none
    (s.loadBeat t slot g i l od sc none n (s.padPlaced t g reqs)
      (fun r bs tag => loadWrites d.toNat r.l bs tag) fun _ => [])

def execLds (h : Hdr) (sz : MSize) (base : Base) (d : VReg) (off : BitVec 10) (sc : Scope) (od : Order) (s : State) :
    Host.Outcome State Fault Refusal :=
  runBeat s (.lds h sz base d off sc od) (ldsPlan (.lds h sz base d off sc od) h sz base d off sc od)

/-- 11 R226. -/
def stsPlan (i : Instr) (h : Hdr) (sz : MSize) (base : Base) (b : VReg) (off : BitVec 10) (sc : Scope) (od : Order) (nochk : Bool)
    (t slot : Nat) : Plan := fun _ s l => withGroup s t slot fun g =>
  let n := sz.bytes
  let reqs := beatReqs s t slot g l fun c x => c.addrs x h base (offBytes off n) n false
  let data := laneData s t slot g b n
  padBeat s t g l n reqs (storeBreach g nochk reqs data)
    (s.storeBeat t slot g i l od sc n (s.padPlaced t g reqs) data (.store false))

def execSts (h : Hdr) (sz : MSize) (base : Base) (b : VReg) (off : BitVec 10) (sc : Scope) (od : Order) (nochk : Bool)
    (s : State) : Host.Outcome State Fault Refusal :=
  runBeat s (.sts h sz base b off sc od nochk) (stsPlan (.sts h sz base b off sc od nochk) h sz base b off sc od nochk)

/-- 11 R227: the tag is ignored. -/
def sldPlan (i : Instr) (h : Hdr) (sz : MSize) (a d : SReg) (off : BitVec 10) (sc : Scope) (od : Order) (t slot : Nat) : Plan :=
  fun _ s l => withGroup s t slot fun g =>
  let n := sz.bytes
  let reqs := beatReqs s t slot g l fun c x => c.addr1 x h a (offBytes off n) true
  globalBeat s t slot g l .load false n reqs none fun s1 ps =>
    s1.loadBeat t slot g i l od sc none n (s1.placed ps reqs)
      (fun _ bs _ => [wS d.toNat (BitVec.ofNat 64 (leNat bs))]) fun _ => []

def execSld (h : Hdr) (sz : MSize) (a d : SReg) (off : BitVec 10) (sc : Scope) (od : Order) (s : State) :
    Host.Outcome State Fault Refusal :=
  runBeat s (.sld h sz a d off sc od) (sldPlan (.sld h sz a d off sc od) h sz a d off sc od)

/-- The low n bytes of an S register, with bound 0 (02 R27, 11 R227). -/
def sData (s : State) (t slot : Nat) (g : Group) (b : SReg) (n : Nat) (r : LaneReq) : List Byte × Eb16 :=
  (leBytes n ((ctxOf s t slot g r.k).rdS (g.slice r.k) 1 b.toNat).toNat, 0)

/-- 11 R227. -/
def sstPlan (i : Instr) (h : Hdr) (sz : MSize) (a b : SReg) (off : BitVec 10) (sc : Scope) (od : Order) (t slot : Nat) : Plan :=
  fun _ s l => withGroup s t slot fun g =>
  let n := sz.bytes
  let reqs := beatReqs s t slot g l fun c x => c.addr1 x h a (offBytes off n) true
  globalBeat s t slot g l .store false n reqs none fun s1 ps =>
    s1.storeEach t slot g i l od sc n (s1.placed ps reqs) (sData s t slot g b n)

def execSst (h : Hdr) (sz : MSize) (a b : SReg) (off : BitVec 10) (sc : Scope) (od : Order) (s : State) :
    Host.Outcome State Fault Refusal :=
  runBeat s (.sst h sz a b off sc od) (sstPlan (.sst h sz a b off sc od) h sz a b off sc od)

/-! ## Atomics -/

/-- The addresses of an atomic: its lanes' with a V base, one per slice with an S base (11 R209, R229). -/
def Ctx.atomAddrs (c : Ctx) (x : Slice) (h : Hdr) (base : Base) (off : Int) (n : Nat) (glob : Bool) : List LaneReq :=
  match base with
  | .v _ => c.addrs x h base off n glob
  | .s a => c.addr1 x h a off glob

/-- A data operand of an atomic: a V register or pair with its bound, or an S register with bound 0 (11 R229). -/
def atomVal (s : State) (t slot : Nat) (g : Group) (base : Base) (site : Nat) (b : VReg) (n : Nat) (r : LaneReq) : Val :=
  let c := ctxOf s t slot g r.k
  match base with
  | .v _ => c.valV (g.slice r.k) (if n = 8 then .n64 else .n32) site b.toNat r.l
  | .s _ => { n := (c.rdS (g.slice r.k) site b.toNat).toNat % 2 ^ (8 * n), b := 0 }

/-- The type in which an atomic's operand is compared with a relative budget (04 R74). -/
def AtomFn.ty (f : AtomFn) (n : Nat) (x : Slice) : Ty :=
  match f with
  | .op _ .nat => if n = 8 then .n64 else .n32
  | .op _ .int => if n = 8 then .i64 else .i32
  | .op _ .flt => if n = 8 then .f64 else .f32
  | .cas => x.ty .fmt

/-- The checkpoint of an atomic's V form (11 R229, R230). -/
def atomBreach (s : State) (t slot : Nat) (g : Group) (f : AtomFn) (nochk : Bool) (base : Base) (b : VReg) (n : Nat)
    (reqs : List LaneReq) : Option Trap :=
  match base with
  | .s _ => none
  | .v _ =>
    if nochk then none
    else breachOf (reqs.map fun r =>
      let x := g.slice r.k
      let v := atomVal s t slot g base 1 b n r
      (r, v.b, x.ebud, storedMag (f.ty n x) (leBytes n v.n)))

/-- The destination of an atomic's lane. -/
def atomDst (base : Base) (d : VReg) (r : LaneReq) : Dst :=
  match base with
  | .v _ => .v d.toNat r.l
  | .s _ => .s d.toNat

/-- The registers that n bytes fill. -/
def sz4 (n : Nat) : Nat := (n + 3) / 4

/-- An atomic of a beat that passed its checks enters the store queue, its return outstanding (12 R240). -/
def State.atomBeat (s : State) (t slot : Nat) (g : Group) (i : Instr) (l : List Nat) (od : Order) (sc : Scope) (f : AtomFn) (base : Base)
    (d b : VReg) (n : Nat) (pl : List (LaneReq × Loc)) : BeatRes :=
  if pl.isEmpty then ((s.idleFence t slot od sc).advAll t slot i l, [])
  else
    s.poisonCheck t noTile g l n pl (fun p => (s.view g).poisonAt p.2.key n)
      (let lanes : List AtomLane := pl.map fun p =>
         let v := atomVal s t slot g base 1 b n p.1
         { loc := p.2, val := BitVec.ofNat 64 v.n, bnd := v.b,
           exp := BitVec.ofNat 64 (if f = .cas then (atomVal s t slot g base 2 d n p.1).n else 0), slice := p.1.k,
           lane := p.1.lane, pc := (g.slice p.1.k).pc, dst := atomDst base d p.1 }
       let tok := s.nextId
       let s1 := ({ s with nextId := tok + 1 }.relFence t slot od sc).push t slot
         (.atomic (od = Order.acq || od = Order.ar) f n tok lanes)
       let ks := nubNat (pl.map fun p => p.1.k)
       ((ks.foldl (fun (r : State) k => r.postTok t slot k tok (match base with
         | .v _ => sz4 n
         | .s _ => 1)) s1).advAll t slot i l, []))

/-- ATOM and CAS (11 R229, R230). -/
def atomPlan (i : Instr) (h : Hdr) (sz : MSize) (base : Base) (d b : VReg) (off : Int) (f : AtomFn) (sc : Scope) (od : Order)
    (nochk : Bool) (t slot : Nat) : Plan := fun _ s l => withGroup s t slot fun g =>
  let n := sz.bytes
  let reqs := beatReqs s t slot g l fun c x => c.atomAddrs x h base off n true
  globalBeat s t slot g l .atomic false n reqs (atomBreach s t slot g f nochk base b n reqs) fun s1 ps =>
    s1.atomBeat t slot g i l od sc f base d b n (s1.placed ps reqs)

/-- ATOMS and CASS (11 R229, R230). -/
def atomPadPlan (i : Instr) (h : Hdr) (sz : MSize) (base : Base) (d b : VReg) (off : Int) (f : AtomFn) (sc : Scope) (od : Order)
    (nochk : Bool) (t slot : Nat) : Plan := fun _ s l => withGroup s t slot fun g =>
  let n := sz.bytes
  let reqs := beatReqs s t slot g l fun c x => c.atomAddrs x h base off n false
  padBeat s t g l n reqs (atomBreach s t slot g f nochk base b n reqs)
    (s.atomBeat t slot g i l od sc f base d b n (s.padPlaced t g reqs))

def execAtom (h : Hdr) (sz : MSize) (base : Base) (d b : VReg) (op : AtomOp) (ty : AtomTy) (sc : Scope) (od : Order)
    (nochk : Bool) (s : State) : Host.Outcome State Fault Refusal :=
  runBeat s (.atom h sz base d b op ty sc od nochk)
    (atomPlan (.atom h sz base d b op ty sc od nochk) h sz base d b 0 (.op op ty) sc od nochk)

def execAtoms (h : Hdr) (sz : MSize) (base : Base) (d b : VReg) (op : AtomOp) (ty : AtomTy) (sc : Scope) (od : Order)
    (nochk : Bool) (s : State) : Host.Outcome State Fault Refusal :=
  runBeat s (.atoms h sz base d b op ty sc od nochk)
    (atomPadPlan (.atoms h sz base d b op ty sc od nochk) h sz base d b 0 (.op op ty) sc od nochk)

def execCas (h : Hdr) (sz : MSize) (base : Base) (d b : VReg) (off : BitVec 10) (sc : Scope) (od : Order) (nochk : Bool)
    (s : State) : Host.Outcome State Fault Refusal :=
  runBeat s (.cas h sz base d b off sc od nochk)
    (atomPlan (.cas h sz base d b off sc od nochk) h sz base d b (offBytes off sz.bytes) .cas sc od nochk)

def execCass (h : Hdr) (sz : MSize) (base : Base) (d b : VReg) (off : BitVec 10) (sc : Scope) (od : Order) (nochk : Bool)
    (s : State) : Host.Outcome State Fault Refusal :=
  runBeat s (.cass h sz base d b off sc od nochk)
    (atomPadPlan (.cass h sz base d b off sc od nochk) h sz base d b (offBytes off sz.bytes) .cas sc od nochk)

/-! ## Futures -/

/-- The granule of a place is EMPTY (11 R222). -/
def State.granEmpty (s : State) (key : Nat) : Bool := s.emptyGran.any fun p => p.1 = key / 8

/-- Two places are served by the same L2 slice of the same package (11 R222, R223). -/
def sameSlice (a b : Loc) : Bool := a.l2s = b.l2s && isPeer a.key = isPeer b.key && (!isPeer a.key || peerOf a.key = peerOf b.key)

/-- A matching entry of the LDF, or a free one of the 256 of the place's slice (11 R223). -/
def State.deferRoom (s : State) (tok : Nat) (l : Loc) : Bool :=
  let mine := s.deferral.filter fun h => sameSlice h.loc l
  mine.any (fun h => h.tok = tok && h.loc.key / 8 = l.key / 8) ||
    decide ((mine.foldl (fun (r : List (Nat × Nat)) h =>
      if r.elem (h.tok, h.loc.key / 8) then r else r ++ [(h.tok, h.loc.key / 8)]) []).length < 256)

/-- One lane of an LDF on an EMPTY granule: held, or refused with Pa false (11 R223). -/
def State.ldfLane (s : State) (t slot tok n : Nat) (d : VReg) (pa : PReg) (r : LaneReq) (loc : Loc) : State :=
  if s.deferRoom tok loc then
    { s with deferral := s.deferral ++
        [{ loc := loc, size := n, tile := t, slot := slot, slice := r.k, lane := r.l, dst := d.toNat, pa := pa.toNat, tok := tok }] }
  else s.postTo t slot r.k [wP pa.toNat r.l false]

/-- 11 R223, R231: lanes on FULL granules are answered at once; a slice with a held lane waits. -/
def ldfPlan (i : Instr) (h : Hdr) (sz : MSize) (base : Base) (d : VReg) (off : BitVec 10) (sc : Scope) (od : Order) (pa : PReg)
    (t slot : Nat) : Plan := fun _ s l => withGroup s t slot fun g =>
  let n := sz.bytes
  let reqs := beatReqs s t slot g l fun c x => c.addrs x h base (offBytes off n) n true
  globalBeat s t slot g l .ldf false n reqs none fun s1 ps =>
    let pl := s1.placed ps reqs
    let ls := pl.map fun p => (p.2, n)
    if pl.isEmpty then ((s1.idleFence t slot od sc).advAll t slot i l, [])
    else if s1.loadHeld g true ls || s1.linkHeld ls then (s1.refuse t slot l .refused, [])
    else
      let full := pl.filter fun p => !s1.granEmpty p.2.key
      s1.poisonCheck t noTile g l n full (fun p => (s1.view g).poisonAt p.2.key n)
        (let tok := s1.nextId
         let s2 := (({ s1 with nextId := tok + 1 }).atSlice (t / 32) g.asid false ls).deferPoison t g (l.headD 0) (g.slice (l.headD 0)).pc n
           (full.map Prod.snd)
         let s3 := s2.deliverLoads t slot g i l true n full
           (fun r bs tag => loadWrites d.toNat r.l bs tag ++ [wP pa.toNat r.l true]) fun _ => []
         let s4 := (pl.filter fun p => s1.granEmpty p.2.key).foldl (fun r p => r.ldfLane t slot tok n d pa p.1 p.2) s3
         let mine := s4.deferral.filter fun q => q.tok = tok
         let ks := nubNat (mine.map Held.slice)
         let s5 := ks.foldl
           (fun r k => (r.gatherTok t slot k tok (sz4 n + 1) (s2.slice t slot k).out.length).updSlice t slot k fun x =>
             { x with wait := .future, parkPc := (g.slice k).pc }) s4
         (if mine.isEmpty then (if full.isEmpty then s5.idleFence t slot od sc else s5)
          else if od = .acq then s5.push t slot (.fence 15 false false [tok] [] false) else s5, []))

def execLdf (h : Hdr) (sz : MSize) (base : Base) (d : VReg) (off : BitVec 10) (sc : Scope) (od : Order) (pa : PReg)
    (s : State) : Host.Outcome State Fault Refusal :=
  runBeat s (.ldf h sz base d off sc od pa) (ldfPlan (.ldf h sz base d off sc od pa) h sz base d off sc od pa)

/-- 11 R231: no checkpoint. -/
def stfPlan (i : Instr) (h : Hdr) (sz : MSize) (base : Base) (b : VReg) (off : BitVec 10) (sc : Scope) (od : Order) (t slot : Nat) :
    Plan := fun _ s l => withGroup s t slot fun g =>
  let n := sz.bytes
  let reqs := beatReqs s t slot g l fun c x => c.addrs x h base (offBytes off n) n true
  globalBeat s t slot g l .stf false n reqs none fun s1 ps =>
    s1.storeBeat t slot g i l od sc n (s1.placed ps reqs) (laneData s t slot g b n) .stf

def execStf (h : Hdr) (sz : MSize) (base : Base) (b : VReg) (off : BitVec 10) (sc : Scope) (od : Order) (s : State) :
    Host.Outcome State Fault Refusal :=
  runBeat s (.stf h sz base b off sc od) (stfPlan (.stf h sz base b off sc od) h sz base b off sc od)

/-- The granules that the queued CLRFs are to empty. -/
def State.clrfQueued (s : State) : List Loc :=
  s.tiles.flatMap fun p => p.2.groups.flatMap fun q => q.2.sq.flatMap fun e =>
    match e with
    | .clrf locs => locs
    | _ => []

/-- The lines that the L2 slice of a place pins once some granules are EMPTY as well: those of EMPTY granules, and those of queued CLRFs,
so that none of these meets a full slice later and holds the stores behind it (11 R222, log 102). -/
def State.pinned (s : State) (l : Loc) (locs : List Loc) : Nat :=
  (nubNat (((s.emptyGran.filter fun p => sameSlice { l with key := 8 * p.1, l2s := p.2 } l).map fun p => p.1 / 32) ++
    (((s.clrfQueued ++ locs).filter fun q => sameSlice q l).map fun q => q.key / 256))).length

/-- Whether a CLRF would pin more than 8,192 lines of a slice. -/
def State.pinFull (s : State) (locs : List Loc) : Bool := locs.any fun l => 8192 < s.pinned l locs

/-- 11 R222, R231. -/
def clrfPlan (i : Instr) (h : Hdr) (base : Base) (off : BitVec 10) (sc : Scope) (od : Order) (t slot : Nat) : Plan :=
  fun _ s l => withGroup s t slot fun g =>
  let reqs := beatReqs s t slot g l fun c x => c.addrs x h base (offBytes off 8) 8 true
  globalBeat s t slot g l .stf false 8 reqs none fun s1 ps =>
    let locs := (s1.placed ps reqs).map Prod.snd
    if s1.pinFull locs then (s1.refuse t slot l .refused, [])
    else
      ((if locs.isEmpty then s1.idleFence t slot od sc else (s1.relFence t slot od sc).push t slot (.clrf locs)).advAll t slot i l, [])

def execClrf (h : Hdr) (base : Base) (off : BitVec 10) (sc : Scope) (od : Order) (s : State) :
    Host.Outcome State Fault Refusal :=
  runBeat s (.clrf h base off sc od) (clrfPlan (.clrf h base off sc od) h base off sc od)

/-! ## Fence, prefetch, page requests and cache control -/

/-- Copies that a group has issued and that have not completed (12 R252). -/
def State.groupCopies (s : State) (t slot : Nat) (g : Group) : List Nat :=
  ((s.tile t).eng0 ++ (s.tile t).eng1).filterMap (fun c => if c.slot = slot && c.gid = g.gid then some c.id else none) ++
    g.sq.filterMap fun e =>
      match e with
      | .copy c => some c.id
      | _ => none

/-- The matrix unit performs an operation of the group. -/
def State.groupMatrix (s : State) (t slot : Nat) : Bool :=
  match (s.tile t).mx with
  | some m => m.slot = slot
  | none => false

/-- The acquiring part of a FENCE (12 R252): earlier loads and atomics hold what follows of the named kinds. -/
def State.acqEntry (s : State) (t slot : Nat) (kinds : BitVec 4) : SqKind := .fence kinds false false (s.heldToks t slot) [] false

/-- Its releasing part: earlier accesses of the named kinds hold later stores and, of one that acquires too, what follows of the kinds. -/
def State.relEntry (s : State) (t slot : Nat) (g : Group) (kinds : BitVec 4) (sc : Scope) (ar : Bool) : SqKind :=
  .fence (if ar then kinds ||| 2 else 2) ar (sc = .sys && kinds &&& 0b1110 ≠ 0) (if kinds.getLsbD 0 then s.heldToks t slot else [])
    (if kinds.getLsbD 2 then s.groupCopies t slot g else []) (kinds.getLsbD 3 && s.groupMatrix t slot)

/-- The queue entries of a FENCE (12 R252). -/
def State.fenceEntries (s : State) (t slot : Nat) (g : Group) (kinds : BitVec 4) (sc : Scope) (od : Order) : List SqKind :=
  match od with
  | .rlx | .acq => [s.acqEntry t slot kinds]
  | .rel => [s.relEntry t slot g kinds sc false]
  | .ar => [s.acqEntry t slot kinds, s.relEntry t slot g kinds sc true]

/-- 11 R232: one fence per beat. -/
def fencePlan (i : Instr) (kinds : BitVec 4) (sc : Scope) (od : Order) (t slot : Nat) : Plan :=
  fun _ s l => withGroup s t slot fun g =>
    (((s.fenceEntries t slot g kinds sc od).foldl (fun r e => r.push t slot e) s).advAll t slot i l, [])

def execFence (h : Hdr) (kinds : BitVec 4) (sc : Scope) (od : Order) (s : State) : Host.Outcome State Fault Refusal :=
  runBeat s (.fence h kinds sc od) (fencePlan (.fence h kinds sc od) kinds sc od)

/-- The lines of a beat for PREF, PGREQ and CCTL: byte offset, 256 bytes a lane with an S base (11 R209). -/
def lineReqs (s : State) (t slot : Nat) (g : Group) (l : List Nat) (h : Hdr) (base : Base) (off : BitVec 10) :
    List LaneReq :=
  beatReqs s t slot g l fun c x => c.addrs x h base off.toInt 256 true

/-- 11 R233: whole lines are brought in; lanes that do not translate, or whose table entries are poisoned, are dropped (21 R380). -/
def prefPlan (i : Instr) (h : Hdr) (base : Base) (l2 : Bool) (off : BitVec 10) (t slot : Nat) : Plan :=
  fun _ s l => withGroup s t slot fun g =>
  let reqs := lineReqs s t slot g l h base off
  if s.walkHeld t g.asid (reqs.map LaneReq.va) then (s.refuse t slot l .refused, [])
  else
    let r := s.translate t g.asid .pref (fun lane => (g.slice (lane / 4)).pm) (reqs.map fun q => (q.lane, q.va))
    let ok := reqs.filter fun q => (s.walkPoison t g.asid q.va).isNone && (pageOf r.1 q.va).any fun p => p.cause = 0
    let locs := (r.2.placed r.1 ok).map Prod.snd
    let s1 :=
      if l2 then r.2.atSlice (t / 32) g.asid false (locs.map fun l => (l.line, 256))
      else r.2.touch t g.asid false (locs.map fun l => (l.line, 256))
    let k := l.headD 0
    let s2 := match s.walkBad t g.asid reqs with
      | some b => s1.deferAt t g k (g.slice k).pc b.1 (s.arrayOf noTile b.1)
      | none => s1.deferPoison t g k (g.slice k).pc 0 locs
    (s2.advAll t slot i l, [])

def execPref (h : Hdr) (base : Base) (l2 : Bool) (off : BitVec 10) (sc : Scope) (s : State) :
    Host.Outcome State Fault Refusal :=
  runBeat s (.pref h base l2 off sc) (prefPlan (.pref h base l2 off sc) h base l2 off)

/-- 11 R234, 17 R332: a request for each page that is invalid or not resident. -/
def pgreqPlan (i : Instr) (h : Hdr) (base : Base) (w : Bool) (off : BitVec 10) (t slot : Nat) : Plan :=
  fun _ s l => withGroup s t slot fun g =>
  let reqs := lineReqs s t slot g l h base off
  s.lookBeat t slot g l reqs
    (let r := s.translate t g.asid .pgreq (fun lane => (g.slice (lane / 4)).pm) (reqs.map fun q => (q.lane, q.va))
     let bad := r.1.filter fun b => b.page.cause = 1 || b.page.cause = 2
     let recs := bad.zipIdx.map fun p => r.2.beatRec t g .pgreq (if w then 0x11 else 0x10) bad.length p.2 p.1
     (({ r.2.sendRecords r.2.nextId recs with nextId := r.2.nextId + 1 }).advAll t slot i l, []))

def execPgreq (h : Hdr) (base : Base) (w : Bool) (off : BitVec 10) (sc : Scope) (s : State) :
    Host.Outcome State Fault Refusal :=
  runBeat s (.pgreq h base w off sc) (pgreqPlan (.pgreq h base w off sc) h base w off)

/-- One place of each line. -/
def lineLocs (l : List Loc) : List Loc :=
  l.foldl (fun r x => if r.any fun y => y.key / 256 = x.key / 256 then r else r ++ [{ x with key := x.key / 256 * 256 }]) []

/-- 11 R235: PAGE_FAULT but never PROTECT; enters the store queue. -/
def cctlPlan (i : Instr) (h : Hdr) (op : Nat) (base : Base) (off : BitVec 10) (t slot : Nat) : Plan :=
  fun _ s l => withGroup s t slot fun g =>
  let reqs := lineReqs s t slot g l h base off
  globalBeat s t slot g l .cctl false 1 reqs none fun s1 ps =>
    let locs := lineLocs ((s1.placed ps reqs).map Prod.snd)
    ((if locs.isEmpty then s1 else s1.push t slot (.cctl op locs)).advAll t slot i l, [])

def execCctlCln1 (h : Hdr) (base : Base) (off : BitVec 10) (sc : Scope) (s : State) : Host.Outcome State Fault Refusal :=
  runBeat s (.cctlCln1 h base off sc) (cctlPlan (.cctlCln1 h base off sc) h 0 base off)

def execCctlInv1 (h : Hdr) (base : Base) (off : BitVec 10) (sc : Scope) (s : State) : Host.Outcome State Fault Refusal :=
  runBeat s (.cctlInv1 h base off sc) (cctlPlan (.cctlInv1 h base off sc) h 1 base off)

def execCctlClnm (h : Hdr) (base : Base) (off : BitVec 10) (sc : Scope) (s : State) : Host.Outcome State Fault Refusal :=
  runBeat s (.cctlClnm h base off sc) (cctlPlan (.cctlClnm h base off sc) h 2 base off)

def execCctlFlsm (h : Hdr) (base : Base) (off : BitVec 10) (sc : Scope) (s : State) : Host.Outcome State Fault Refusal :=
  runBeat s (.cctlFlsm h base off sc) (cctlPlan (.cctlFlsm h base off sc) h 3 base off)

def execCctlInvi (h : Hdr) (base : Base) (off : BitVec 10) (sc : Scope) (s : State) : Host.Outcome State Fault Refusal :=
  runBeat s (.cctlInvi h base off sc) (cctlPlan (.cctlInvi h base off sc) h 4 base off)

end Sys2Proof.Machine
end

