-- ==== Sys2Proof/Machine/Copy.lean ====
section
/-! DEFINITION. The copy and buffer instructions (13 R263-R277). -/

namespace Sys2Proof.Machine

/-! ## Handles and ranges -/

/-- BUFFER. -/
def bufferTrap : Trap := mkTrap 0x12 0

/-- The handle an instruction names: an attached group, and a handle that its team owns (10 R187, 13 R270). -/
def State.ownHandle (r : State) (c : Ctx) (k : Nat) : Except Trap Handle :=
  if !c.g.attached then .error (illegal 3)
  else
    match r.handle? c.t k with
    | some h => if h.team = c.g.team then .ok h else .error bufferTrap
    | none => .error bufferTrap

/-- The lowest offset of the strided side, and the offset past its highest byte (13 R267). -/
def Copy.low (c : Copy) : Int := min 0 (((c.x1 : Int) - 1) * c.t1) + min 0 (((c.x2 : Int) - 1) * c.t2)
def Copy.high (c : Copy) : Int := max 0 (((c.x1 : Int) - 1) * c.t1) + max 0 (((c.x2 : Int) - 1) * c.t2) + c.x0

/-- A tile-local range lies within the declared scratchpad of one team of a launch (13 R270). -/
def Tile.teamHolds (x : Tile) (launch : Nat) (lo hi : Int) : Bool :=
  x.teams.any fun p =>
    p.2.launch = launch && decide ((p.2.scratchBase : Int) ≤ lo) && decide (hi ≤ (p.2.scratchBase + p.2.scratchSize : Nat))

/-- MISALIGN with the lowest of some misaligned values; none where all are multiples of 8. -/
def misalign8 (l : List Nat) : Option Trap :=
  match l.filter fun v => v % 8 ≠ 0 with
  | [] => none
  | v :: rest => some { mkTrap 0x06 0 with aux0 := BitVec.ofNat 64 (rest.foldl min v) }

/-! ## Copies -/

/-- The slot a copy takes at its issue (13 Table 13.1): the slot and the handle after, none where it must wait. -/
def Handle.take (h : Handle) (out : Bool) : Except Trap (Option (Nat × Handle)) :=
  if out then
    if (h.at h.q).st ≠ .full then .ok none
    else if (h.at h.q).fail then .error bufferTrap
    else .ok (some (h.q, { (h.setSlot h.q { h.at h.q with st := .drainEng }) with q := (h.q + 1) % h.slots.length }))
  else if (h.at h.p).st ≠ .free then .ok none
  else .ok (some (h.p, { (h.setSlot h.p { h.at h.p with st := .filling }) with p := (h.p + 1) % h.slots.length }))

/-- The copy of a slice, its scratchpad or dense side at `dense`. -/
def mkCopy (r : State) (c : Ctx) (x : Slice) (kind : CopyKind) (a : CpyArgs) (dense : Side) (ring : Option (Nat × Nat)) : Copy :=
  let sa := c.rdS x 1 a.a.toNat
  let strided : Side :=
    match kind with
    | .nb => .pad (c.t / 8 * 8 + bits sa 21 19) (bits sa 18 0)
    | _ => .glob (BitVec.ofNat 64 (addrOf true (sa.toNat : Int)))
  { id := r.nextId, kind := kind, asid := c.g.asid, slot := c.slot, gid := c.g.gid, gidx := c.g.idx, slice := c.i, pc := x.pc, team := c.g.team,
    launch := r.groupLaunch c.t c.g, pm := x.pm, src := if kind = .cout then dense else strided,
    dst := if kind = .cout then strided else dense, x0 := 8 * (a.x0.toNat + 1), x1 := a.x1.toNat + 1, x2 := a.x2.toNat + 1,
    t1 := if 1 ≤ a.nd.toNat then (c.rdS x 2 a.b.toNat).toInt else 0,
    t2 := if a.nd.toNat = 2 then (c.rdS x 3 a.c.toNat).toInt else 0, ring := ring, yld := a.yl,
    cont := x.pc + BitVec.ofInt 64 (8 * a.cont.toInt), done := 0, seq := 0, miss := none }

/-- The operands that must be multiples of 8 (13 R267). -/
def cpyAligned (c : Ctx) (x : Slice) (kind : CopyKind) (a : CpyArgs) : List Nat :=
  (c.rdS x 1 a.a.toNat).toNat :: (if 1 ≤ a.nd.toNat then [(c.rdS x 2 a.b.toNat).toNat] else []) ++
    (if a.nd.toNat = 2 then [(c.rdS x 3 a.c.toNat).toNat] else []) ++
    (if !a.hd && kind ≠ .g then [(c.rdS x 0 a.d.toNat).toNat] else [])

/-- The scratchpad ranges a copy may not leave (13 R270). -/
def cpyRange (r : State) (c : Ctx) (x : Slice) (kind : CopyKind) (a : CpyArgs) (y : Copy) : Bool :=
  let sa := c.rdS x 1 a.a.toNat
  let raw := a.hd || kind = .g || (c.rdS x 0 a.d.toNat).toNat + y.x0 * y.x1 * y.x2 ≤ r.padSize c.t c.g
  let nb :=
    match y.kind, y.src with
    | .nb, .pad t b => bits sa 63 22 = 0 && (r.tile t).teamHolds y.launch ((b : Int) + y.low) ((b : Int) + y.high)
    | _, _ => true
  raw && nb

/-- One slice's copy, in the order of 13 R270, or its wait for a slot (13 R264). -/
def cpySlice (i : Instr) (h : Hdr) (kind : CopyKind) (a : CpyArgs) (r : State) (c : Ctx) (x : Slice) :
    State × Option (Trap × Nat) :=
  let next : Slice := x.adv i
  let go (r1 : State) (y : Copy) : State × Option (Trap × Nat) :=
    let z : Slice := if y.yld then { next with pc := y.cont, wait := .yieldCopy y.id, parkPc := y.cont } else next
    ((({ r1 with nextId := r1.nextId + 1 }).push c.t c.slot (.copy y)).setSlice c.t c.slot c.i z, none)
  let rest (hd : Option Handle) : State × Option (Trap × Nat) :=
    let raw : Side :=
      if kind = .g then .glob (BitVec.ofNat 64 (addrOf true ((c.rdS x 0 a.d.toNat).toNat : Int)))
      else .pad c.t (r.padStart c.t c.g + (c.rdS x 0 a.d.toNat).toNat)
    let y := mkCopy r c x kind a raw none
    if hd.any fun h => h.sz < y.x0 * y.x1 * y.x2 then (r, some (bufferTrap, 0))
    else
      match misalign8 (cpyAligned c x kind a) with
      | some tr => (r, some (tr, 0))
      | none =>
        if !cpyRange r c x kind a y then (r, some (mkTrap 0x07 0, 0))
        else
          match hd with
          | none => go r y
          | some h =>
            match h.take (kind = .cout) with
            | .error tr => (r, some (tr, 0))
            | .ok none => (r.setSlice c.t c.slot c.i { x with wait := .refused, parkPc := x.pc }, none)
            | .ok (some (j, h1)) =>
              go (r.setHandle c.t a.d.toNat h1)
                (mkCopy r c x kind a (.pad c.t (r.padStart c.t c.g + h.off j)) (some (a.d.toNat, j)))
  if !c.performs x h then (r.setSlice c.t c.slot c.i next, none)
  else if a.hd then
    match r.ownHandle c a.d.toNat with
    | .error tr => (r, some (tr, 0))
    | .ok hd => rest (some hd)
  else rest none

def execCpyin (h : Hdr) (c : CpyArgs) (s : State) : Host.Outcome State Fault Refusal :=
  runBeat s (.cpyin h c) fun t slot => eachSlice t slot (cpySlice (.cpyin h c) h .cin c)

def execCpyout (h : Hdr) (c : CpyArgs) (s : State) : Host.Outcome State Fault Refusal :=
  runBeat s (.cpyout h c) fun t slot => eachSlice t slot (cpySlice (.cpyout h c) h .cout c)

def execCpynb (h : Hdr) (c : CpyArgs) (s : State) : Host.Outcome State Fault Refusal :=
  runBeat s (.cpynb h c) fun t slot => eachSlice t slot (cpySlice (.cpynb h c) h .nb c)

def execCpyg (h : Hdr) (c : CpyArgs) (s : State) : Host.Outcome State Fault Refusal :=
  runBeat s (.cpyg h c) fun t slot => eachSlice t slot (cpySlice (.cpyg h c) h .g c)

/-! ## Handles -/

/-- Copies of a tile that name a handle and have not completed. -/
def Tile.namesHandle (x : Tile) (k : Nat) : Bool :=
  let hit (c : Copy) : Bool := c.ring.any fun p => p.1 = k
  (x.eng0 ++ x.eng1).any hit || x.groups.any fun p => p.2.sq.any fun e =>
    match e with
    | .copy c => hit c
    | _ => false

/-- BUFDEF in one slice (13 R276): a slot that failed is FULL, so that BUFFER stands before R272's clearing of it, and SP_RANGE stands before
BUFFER (log 110). -/
def bufdefSlice (i : Instr) (h : Hdr) (k : BitVec 5) (base sz : BitVec 19) (nm1 : BitVec 6) (r : State) (c : Ctx) (x : Slice) :
    State × Option (Trap × Nat) :=
  let n := nm1.toNat + 1
  let held : Bool := match r.handle? c.t k.toNat with
    | some q => decide (q.team ≠ c.g.team) || (q.slots.any fun y => decide (y.st ≠ .free)) || (r.tile c.t).namesHandle k.toNat
    | none => false
  if !c.performs x h then (r.setSlice c.t c.slot c.i (x.adv i), none)
  else if !c.g.attached then (r, some (illegal 3, 0))
  else if r.padSize c.t c.g < base.toNat + n * sz.toNat then (r, some (mkTrap 0x07 0, 0))
  else if held then (r, some (bufferTrap, 0))
  else
    ((r.setHandle c.t k.toNat
        { team := c.g.team, base := base.toNat, sz := sz.toNat, slots := List.replicate n { st := .free, fail := false }, p := 0,
          q := 0, f := 0 }).setSlice c.t c.slot c.i (x.adv i), none)

def execBufdef (h : Hdr) (k : BitVec 5) (base sz : BitVec 19) (nm1 : BitVec 6) (s : State) : Host.Outcome State Fault Refusal :=
  runBeat s (.bufdef h k base sz nm1) fun t slot => eachSlice t slot (bufdefSlice (.bufdef h k base sz nm1) h k base sz nm1)

/-- What a buffer instruction does with its handle: a trap, a wait, or the handle after and the value of Sd. -/
inductive BufRes where
  | trap (tr : Trap)
  | wait (w : Wait)
  | done (h : Handle) (v : Option DWord)

/-- WAITB and ACQB at the slot at Q (13 R264, R272, R277). -/
def Handle.consume (h : Handle) (acq f : Bool) : BufRes :=
  let y := h.at h.q
  let v := BitVec.ofNat 64 (h.off h.q + if f && y.fail then 2 ^ 63 else 0)
  if y.st ≠ .full then .wait .slot
  else if y.fail && !f then .trap bufferTrap
  else if acq then .done { (h.setSlot h.q { y with st := .drainProg }) with q := (h.q + 1) % h.slots.length } (some v)
  else .done h (some v)

/-- RELB at the slot at F (13 R264, R265). -/
def Handle.release (h : Handle) : BufRes :=
  match (h.at h.f).st with
  | .drainProg => .done (h.free h.f) none
  | .drainEng => .wait .refused
  | _ => .trap bufferTrap

/-- A buffer instruction in one slice. -/
def bufSlice (i : Instr) (h : Hdr) (k : BitVec 5) (d : SReg) (f : Handle → BufRes) (r : State) (c : Ctx) (x : Slice) :
    State × Option (Trap × Nat) :=
  if !c.performs x h then (r.setSlice c.t c.slot c.i (x.adv i), none)
  else
    match r.ownHandle c k.toNat with
    | .error tr => (r, some (tr, 0))
    | .ok hd =>
      match f hd with
      | .trap tr => (r, some (tr, 0))
      | .wait w => (r.setSlice c.t c.slot c.i { x with wait := w, parkPc := x.pc }, none)
      | .done h1 v =>
        let y : Slice := match v with
          | some v => x.post [wS d.toNat v]
          | none => x
        ((r.setHandle c.t k.toNat h1).setSlice c.t c.slot c.i (y.adv i), none)

def execWaitb (h : Hdr) (d : SReg) (k : BitVec 5) (s : State) : Host.Outcome State Fault Refusal :=
  runBeat s (.waitb h d k) fun t slot => eachSlice t slot (bufSlice (.waitb h d k) h k d fun q => q.consume false false)

def execAcqb (h : Hdr) (f : Bool) (d : SReg) (k : BitVec 5) (s : State) : Host.Outcome State Fault Refusal :=
  runBeat s (.acqb h f d k) fun t slot => eachSlice t slot (bufSlice (.acqb h f d k) h k d fun q => q.consume true f)

def execRelb (h : Hdr) (k : BitVec 5) (s : State) : Host.Outcome State Fault Refusal :=
  runBeat s (.relb h k) fun t slot => eachSlice t slot (bufSlice (.relb h k) h k 0 fun q => q.release)

end Sys2Proof.Machine
end

