-- ==== Sys2Proof/Machine/Select.lean ====
section
/-! DEFINITION. Which gang comes first (09 R177, R179, R180), and whether a tile may issue (10 R200, R203). -/

namespace Sys2Proof.Machine

/-- The priority class of a gang: trap handlers and promoted gangs, producers, the rest (09 R179). -/
def Group.prio (g : Group) (l : List Nat) : Nat :=
  if l.any fun k => 1 ≤ (g.slice k).td || 256 ≤ (g.slice k).promo then 1 else if g.role = 1 then 2 else 3

/-- The age stamp of a gang (09 R171). -/
def Group.gangStamp (g : Group) (l : List Nat) : Nat :=
  (l.map fun k => (g.slice k).stamp).foldl min (g.slice (l.headD 0)).stamp

/-- A gang that asks for its quarter's issue slot. -/
structure Cand where
  prio : Nat
  stamp : Nat
  slot : Nat
  low : Nat
deriving DecidableEq, Repr

/-- The gang of slices l of the group in a slot. -/
def Group.cand (g : Group) (slot : Nat) (l : List Nat) : Cand :=
  { prio := g.prio l, stamp := g.gangStamp l, slot := slot, low := l.headD 0 }

/-- The order of 09 R179: class, age, slot, beat row, lowest slice. -/
def Cand.before (a b : Cand) : Bool :=
  a.prio < b.prio || (a.prio = b.prio && (a.stamp < b.stamp || (a.stamp = b.stamp && (a.slot < b.slot || (a.slot = b.slot && a.low < b.low)))))

/-- The gang that is selected. -/
def firstCand : List Cand → Option Cand
  | [] => none
  | a :: rest => some (rest.foldl (fun b c => if c.before b then c else b) a)

/-- A tile issues only while it is awake and in no gear switch (10 R200, R203). -/
def Tile.issues (x : Tile) : Bool := x.phase = .idle && !x.doze

/-- The gangs of a group, each by its slices, ascending. -/
def Group.gangs (g : Group) : List (List Nat) :=
  (nubNat (g.liveIdx.map fun k => (g.slice k).gang)).map g.gangSlices

/-- A slice that nothing holds (09 R177). -/
def Slice.free (x : Slice) : Bool := x.live && x.wait = .run

end Sys2Proof.Machine
end

