-- ==== Sys2Proof/Machine/Matrix.lean ====
section
/-! DEFINITION. The matrix unit (14 R278-R298): what MMA, MSCL and MST compute, the checks and the acceptance of its instructions,
and the completion of what it performs. -/

namespace Sys2Proof.Machine

/-! ## Operands -/

/-- Class codes of an operation in the unit. -/
def UClass.num : UClass → Nat
  | .f => 0 | .s => 1 | .t => 2
def UClass.ofNum (n : Nat) : UClass := if n = 1 then .s else if n = 2 then .t else .f

/-- B's payload and scale bytes (14 Table 14.1). -/
def bBytes (ta tb : Ty) : Nat × Nat :=
  if !tb.isBlk then (2048, 0) else if ta.isBlk then (2048, 128) else (1024, 64)

/-- The row of A in a lane's registers, its scale register last (14 R280). -/
def decodeA (ta : Ty) (k : Nat) (regs : List Reg) (scale : Word) : List FVal :=
  let r (j : Nat) : Nat := (regs.getD j Reg.zero).val.toNat
  if ta.isBlk then
    (List.range (k / 32)).flatMap fun b =>
      blockVals ta (elemOf 8 scale.toNat b) ((List.range 16).map fun j => elemOf 8 (r (4 * b + j / 4)) (j % 4))
  else if ta.isF16 then (List.range k).map fun j => tyValue ta (elemOf 16 (r (j / 2)) (j % 2))
  else (List.range k).map fun j => tyValue ta (elemOf 8 (r (j / 4)) (j % 4))

/-- Column j of B from its bytes (14 R281). -/
def decodeB (tb : Ty) (k : Nat) (bs : List Byte) (j : Nat) : List FVal :=
  let byte (n : Nat) : Nat := (bs.getD n 0).toNat
  if tb.isBlk then
    let nb := k / 32
    (List.range nb).flatMap fun b =>
      blockVals tb (byte (512 * nb + nb * j + b)) ((List.range 16).map fun n => byte (16 * (nb * j + b) + n))
  else if tb.isF16 then (List.range k).map fun r => tyValue tb (byte (2 * (32 * r + j)) + 256 * byte (2 * (32 * r + j) + 1))
  else (List.range k).map fun r => tyValue tb (byte (32 * r + j))

/-- An operand element as a class takes it (03 R56), and the magnitude flushed. -/
def flushElem (c : UClass) (t : Ty) (v : FVal) : FVal × Rat :=
  match v with
  | .fin s m => if c ≠ .f ∧ !t.isBlk ∧ m ≠ 0 ∧ m < (fmtOf t).minNormal then (.fin s 0, m) else (v, 0)
  | _ => (v, 0)

/-- The largest of some magnitudes. -/
def ratMaxL (l : List Rat) : Rat := l.foldl ratMax 0

/-! ## Floating-point MMA -/

/-- A node of the product tree: exact in class F, rounded onto Q_c otherwise (14 R283). -/
def mmaNode (c : UClass) (x y : FVal) : FVal :=
  match addX .rne x y with
  | .fin s m => if c = .f then .fin s m else (FF.f32.round (rhoBits .f32 c) .rne s m).val
  | v => v

/-- One addition to an accumulator element: the value, and whether it was exact. -/
def mmaAcc (c : UClass) (d s : FVal) : FVal × Bool :=
  match addX .rne d s with
  | .fin n m => let r := FF.f32.round (rhoBits .f32 c) .rne n m; (r.val, r.exact)
  | v => (v, false)

/-- An element: the starting value plus the block sums in ascending k (14 R283). -/
def mmaElem (c : UClass) (nb : Nat) (d0 : FVal) (ps : List FVal) : FVal × Bool :=
  (List.range nb).foldl
    (fun r h =>
      let q := mmaAcc c r.1 ((treeRoot (mmaNode c) 5 ((ps.drop (32 * h)).take 32)).headD (.fin false 0))
      (q.1, r.2 && q.2))
    (d0, true)

/-- β′ of a row from the quantities of 14 R285 and R286. -/
def rowBound' (k : Nat) (b0 bA tB : Option Rat) (mA mB dlt : Rat) : Option Rat :=
  bAdd (bAdd b0 (bScale (k : Rat) (bMul mA bA mB tB))) (some dlt)

/-- A row of a float MMA: the elements and β′. `u` says that the bound is U whatever else holds. -/
def mmaRow (c : UClass) (k : Nat) (a : List (FVal × Rat)) (cols : List (List (FVal × Rat))) (d0 : List FVal) (b0 bA tB : Option Rat)
    (u : Bool) : List Word × Eb16 :=
  let nb := k / 32
  let av := a.map Prod.fst
  let es := (cols.zip d0).map fun p => (mmaElem c nb p.2 (List.zipWith mulX av (p.1.map Prod.fst)), p.1, p.2)
  let sums := es.map fun e => ((List.zipWith (fun x (y : FVal × Rat) => x.magD * y.1.magD) av e.2.1).foldl (· + ·) 0, e.2.2.magD)
  let p := ratMaxL (sums.map Prod.fst)
  let mx := ratMaxL (sums.map fun q => q.1 + q.2)
  let l : Nat := if c = .f then 0 else 5
  let dlt : Rat :=
    if c = .f && es.all (fun e => e.1.2) then 0
    else ratMax (pow2 (-(rhoBits .f32 c : Int)) * ((l : Rat) * p + (nb : Rat) * mx)) ((nb : Rat) * pow2 (-149))
  let bA' := bAdd bA (some (ratMaxL (a.map Prod.snd)))
  let tB' := bAdd tB (some (ratMaxL (cols.flatMap fun q => q.map Prod.snd)))
  let mA := ratMaxL (av.map FVal.magD)
  let mB := ratMaxL (cols.flatMap fun q => q.map fun e => e.1.magD)
  let bad := u || es.any fun e =>
    match e.1.1 with
    | .fin .. => false
    | _ => true
  (es.map fun e => BitVec.ofNat 32 (FF.f32.encode e.1.1), if bad then ebU else upO (rowBound' k b0 bA' tB' mA mB dlt))

/-- A row of an i8 MMA (14 R283, R286). -/
def mmaRowI (k : Nat) (a : List Int) (cols : List (List Int)) (d0 : List Int) (b0 bA tB : Option Rat) (exact : Bool) :
    List Word × Eb16 :=
  let es := (cols.zip d0).map fun p => p.2 + (List.zipWith (fun x y => x * y) a p.1).foldl (· + ·) 0
  let mA := ratMaxL (a.map fun x => mag ((x : Int) : Rat))
  let mB := ratMaxL (cols.flatMap fun q => q.map fun x => mag ((x : Int) : Rat))
  let wraps := es.any fun z => z < tyMin .i32 || tyMax .i32 < z
  (es.map fun z => BitVec.ofInt 32 z, if wraps && !exact then ebU else upO (rowBound' k b0 bA tB mA mB 0))

/-! ## Accumulators -/

/-- The tile's block of Ak for a team. -/
def State.accBlock (s : State) (t : Nat) (g : Group) (k : Nat) : Nat :=
  match s.team? t g.team with
  | some m => m.accBase + k
  | none => 64

def Tile.accWord (x : Tile) (blk row col : Nat) : Word := Sparse.get 0 x.acc (1024 * blk + 32 * row + col)
def Tile.accRow (x : Tile) (blk row : Nat) : List Word := (List.range 32).map (x.accWord blk row)
def Tile.rowBnd (x : Tile) (blk row : Nat) : Eb16 := Sparse.get 0 x.rowBound (32 * blk + row)

/-- Writes a row and its bound. The units written whole, of the columns `cols`, are sound again, and the bound with them where the whole
row is written (21 R378). -/
def Tile.setRow (x : Tile) (blk row : Nat) (ws : List Word) (b : Eb16) (cols : Nat → Bool) : Tile :=
  { x with
      acc := ws.zipIdx.foldl (fun m p => Sparse.set 0 m (1024 * blk + 32 * row + p.2) p.1) x.acc,
      rowBound := Sparse.set 0 x.rowBound (32 * blk + row) b,
      accBad := x.accBad.filter fun n =>
        !(n < 32768 && n / 16 = 32 * blk + row && cols (2 * (n % 16)) && cols (2 * (n % 16) + 1)) &&
          !(n = 32768 + 32 * blk + row && (List.range 32).all cols) }

/-- The block and row of a lane (14 R278). -/
def rowOf (base lane : Nat) : Nat × Nat := (base + lane / 32, lane % 32)

/-! ## Checks -/

/-- What an instruction of the matrix unit names: the first block, and the number of blocks used by a grant (14 R278, R291). -/
def mxBlocks (grant : Nat) : Instr → Nat × Nat
  | .mma _ _ _ _ k .. => (k.toNat, grant / 32)
  | .mzero _ k => (k.toNat, 1)
  | .mld _ _ _ k .. => (k.toNat, grant / 32)
  | .mst _ _ _ _ k .. => (k.toNat, grant / 32)
  | .mscl _ _ k .. => (k.toNat, grant / 32)
  | _ => (0, 0)

/-- Converged: 32, 64 or 96 lanes, all active (14 R282). -/
def Group.converged (g : Group) : Bool :=
  (g.grant = 32 || g.grant = 64 || g.grant = 96) && (List.range g.grant).all g.laneActive

/-- The checks of MMA's B source (14 R281, R288): an offset's alignment and range, a handle's owner and slot size. -/
def State.mmaSrcTrap (s : State) (t : Nat) (g : Group) (ta tb : Ty) : MmaSrc → Option Trap
  | .s b =>
    let o := (g.leader.sReg b.toNat).toNat
    if o % 64 ≠ 0 then some { mkTrap 0x06 0 with aux0 := BitVec.ofNat 64 o }
    else if s.padSize t g < o + (bBytes ta tb).1 + (bBytes ta tb).2 then some (mkTrap 0x07 0)
    else none
  | .h k =>
    match s.handle? t k.toNat with
    | some h => if h.team ≠ g.team || h.sz < (bBytes ta tb).1 + (bBytes ta tb).2 then some bufferTrap else none
    | none => some bufferTrap

/-- The checks made once the rendezvous is complete, in the order of 14 R282. -/
def State.mxTrap (s : State) (t : Nat) (g : Group) (i : Instr) : Option Trap :=
  let blk := mxBlocks g.grant i
  let ok := match s.team? t g.team with
    | some m => blk.1 + blk.2 ≤ m.accCount
    | none => false
  let conv := match i with
    | .mzero .. => true
    | _ => g.converged
  if !conv then some (mkTrap 0x04 0)
  else if !g.leader.legal g.allot i then some (illegal 0)
  else if !g.attached then some (illegal 3)
  else if !ok then some (illegal 0)
  else
    match i with
    | .mma _ _ tb _ _ _ src .. => s.mmaSrcTrap t g (g.leader.tyOf i) tb src
    | .mst _ _ _ _ _ a b .. => misalign8 [(g.leader.sReg a.toNat).toNat, (g.leader.sReg b.toNat).toNat]
    | _ => none

/-! ## Acceptance -/

/-- The tile's cluster holds a burst token in the interval of 50 ns that the tile's cycle sees, which is the present one (14 R298). -/
def State.holdsToken (s : State) (t : Nat) : Bool :=
  (s.tile t).token = s.time.toNat / 50 && (s.tile t).token % 2 = t % 32 / 8 % 2

/-- A group presents an instruction of the matrix unit. -/
def Group.mxInstr? (g : Group) : Option Instr := g.presented?.filter Instr.isMatrix

/-- B's source is there: a handle's slot at Q is FULL (14 R282). -/
def State.mmaReady (s : State) (t : Nat) : MmaSrc → Bool
  | .h k =>
    match s.handle? t k.toNat with
    | some h => (h.at h.q).st = .full
    | none => true
  | .s _ => true

/-- Where B lies, and the handle after the MMA (13 Table 13.1, 14 R288). -/
def State.takeB (s : State) (t : Nat) (g : Group) (rel : Bool) : MmaSrc → Except Trap (Nat × State)
  | .s b => .ok (padKey t (s.padStart t g + (g.leader.sReg b.toNat).toNat), s)
  | .h k =>
    match s.handle? t k.toNat with
    | none => .error bufferTrap
    | some h =>
      if (h.at h.q).fail || (rel && h.f ≠ h.q) then .error bufferTrap
      else
        .ok (padKey t (s.padStart t g + h.off h.q),
          if rel then s.setHandle t k.toNat ({ h with q := (h.q + 1) % h.slots.length }.free h.q) else s)

/-- B's bytes belong to a copy engine, or to a copy that the group has queued before (12 R253). -/
def State.mmaOwned (s : State) (t : Nat) (g : Group) (tb : Ty) (src : MmaSrc) (i : Instr) : Bool :=
  match s.takeB t g false src with
  | .ok (key, _) =>
    let n := (bBytes (g.leader.tyOf i) tb).1 + (bBytes (g.leader.tyOf i) tb).2
    s.owned key n || g.sq.any fun e =>
      match e with
      | .copy c => s.copyOwns c key n
      | _ => false
  | .error _ => false

/-- Writes of the group to the scratchpad that are still queued (12 R256). -/
def Group.padWrites (g : Group) : Bool := g.sq.any SqKind.padWrite

/-- An MMA begins a burst where the tile is in none (14 R297). -/
def Tile.bursting (x : Tile) : Bool := x.inBurst && x.burstIdle ≤ 64

/-- An MMA that would begin a burst lacks its token (14 R298). -/
def State.lacksToken (s : State) (t : Nat) (i : Instr) : Bool :=
  match i with
  | .mma .. => !(s.tile t).bursting && !s.holdsToken t
  | _ => false

/-- The class and cost at which a tile's matrix unit can take a group's instruction now (14 R282). -/
def State.mxAccepts (s : State) (t slot : Nat) (g : Group) : Option (Instr × UClass × Nat) :=
  match g.mxInstr? with
  | none => none
  | some i =>
    let there := match i with
      | .mma _ _ tb _ _ _ src .. => s.mmaReady t src && !s.mmaOwned t g tb src i && !g.padWrites
      | _ => true
    if (s.tile t).mx.isNone && there && !s.lacksToken t i && !s.fenceHolds 3 g.sq false then
      (s.classCost t slot g g.liveIdx i (mxBlocks g.grant i).2).map fun c => (i, c.1, c.2)
    else none

/-- The quarter from which the unit takes its next instruction: the first, after the last one served, that has one eligible (09 R181). -/
def State.mxQuarter (s : State) (t : Nat) : Option Nat :=
  let x := s.tile t
  let qs := x.groups.filterMap fun p => if (s.mxAccepts t p.1 p.2).isSome then some (p.1 / 16) else none
  ((List.range 4).map fun d => (x.mxLast + 1 + d) % 4).find? qs.elem

/-- The registers of a lane range: n from a register on and perhaps a scale register, lane after lane. -/
def Group.laneRegs (g : Group) (a n : Nat) (scale : Option Nat) : List Reg :=
  (List.range g.grant).flatMap fun l =>
    let x := g.slice (l / 4)
    (List.range n).map (fun j => x.vReg (a + j) (l % 4)) ++
      (match scale with
       | some v => [x.vReg v (l % 4)]
       | none => [])

/-- The A operand: from the latch where its tag matches under .reuse, else from the registers, for which the quarter's issue slot is held
for two tile cycles a beat row; and the latch after (14 R287). The number of registers, which B's type decides with A's, is compared with
the tag (log 111). -/
def State.takeA (s : State) (t slot : Nat) (g : Group) (ta tb : Ty) (a vs : VReg) (reuse : Bool) : List Reg × State :=
  let q := slot / 16
  let n := mmaRegs ta tb
  let regs := g.laneRegs a.toNat n (if ta.isBlk then some vs.toNat else none)
  let hit := (Sparse.find? (s.tile t).alatch q).filter fun l =>
    l.gid = g.gid && l.grant = g.grant && l.a = a && l.ta = ta && l.vs = vs && l.n = n
  match hit.filter fun _ => reuse with
  | some l => (l.regs, s)
  | none =>
    (regs, s.updTile t fun x =>
      { x with
          slotHeld := Sparse.set 0 x.slotHeld q (max (Sparse.get 0 x.slotHeld q) (x.cycle + 2 * g.rows - 1)),
          alatch := if reuse then
            Sparse.insert x.alatch q { gid := g.gid, grant := g.grant, a := a, ta := ta, vs := vs, n := n, regs := regs }
          else Sparse.erase x.alatch q })

/-- The states of a generator for n blocks, and the state after (14 R293). -/
def srSeq (v : DWord) : Nat → List DWord × DWord
  | 0 => ([], v)
  | n + 1 => let r := srSeq (srNext v) n; (v :: r.1, r.2)

/-- The slices go on after the instruction was taken. -/
def Group.mxAdvance (g : Group) (i : Instr) : Group :=
  g.liveIdx.foldl (fun r k => r.setSlice k ({ (r.slice k).adv i with wait := .run }.finish (r.slice k) r i)) g

/-- An operation of the unit. -/
def mkMx (s : State) (slot : Nat) (g : Group) (i : Instr) (c : UClass) : MxOp :=
  { slot := slot, gid := g.gid, tok := s.nextId, instr := i, ty := g.leader.tyOf i, auto := decide (Instr.uc? i = some .auto),
    cls := c.num, regs := [], svals := [], bKey := 0, bLen := 0, time := s.time, sr := [] }

/-- Hands an operation to the unit (14 R289). -/
def State.mxStart (s : State) (t slot cost : Nat) (m : MxOp) : State :=
  ({ s with nextId := s.nextId + 1 }.updTile t fun x =>
    { x.debit slot (match x.group? slot with
        | some g => g.leader.gang
        | none => 0) cost with mx := some m, mxLast := slot / 16 }).fresh

/-- MMA at its issue (14 R282, R283, R287, R288). B's poison is consumed by every lane (21 R379). -/
def State.mmaIssue (s : State) (t slot : Nat) (g : Group) (i : Instr) (c : UClass) (cost : Nat) (tb : Ty) (a : VReg) (src : MmaSrc)
    (vs : VReg) (ru rl : Bool) : State :=
  let ta := g.leader.tyOf i
  let n := (bBytes ta tb).1 + (bBytes ta tb).2
  match s.takeB t g rl src with
  | .error tr => s.raiseAll t slot tr 0
  | .ok (key, s1) =>
    let all := (List.range g.grant).map fun l => (({ k := l / 4, l := l % 4, va := 0 } : LaneReq), ({ key := key, tagged := true, l2s := 0, cp := 0 } : Loc))
    if s.poisoned key n then
      let r := s.consume t g n all
      r.1.raiseAll t slot r.2 0
    else
      let ra := s1.takeA t slot g ta tb a vs ru
      let m : MxOp := { mkMx s slot g i c with regs := ra.1, bKey := key, bLen := n }
      let s2 := ra.2.mxStart t slot cost m
      (s2.updGroup t slot fun g => g.mxAdvance i).updTile t fun x => { x with inBurst := true, burstIdle := 0 }

/-- MLD's results, which return when the unit completes it (14 R292). -/
def mldWrites (x : Tile) (base k : Nat) (d : VReg) (c0 n : Nat) : List RegWrite :=
  (List.range 4).flatMap fun l =>
    let r := rowOf base (4 * k + l)
    (List.range n).map fun j => wV (d.toNat + j) l (x.accWord r.1 r.2 (c0 + j)) (x.rowBnd r.1 r.2)

/-- A row of an accumulator memory holds an error in some of its columns or in its bound. -/
def Tile.rowBad (x : Tile) (r : Nat × Nat) (cols : Nat → Bool) : Bool :=
  x.accBad.any fun n =>
    n = 32768 + 32 * r.1 + r.2 ||
      (n / 16 = 32 * r.1 + r.2 && n < 32768 && (cols (2 * (n % 16)) || cols (2 * (n % 16) + 1)))

/-- The latch holds the A operand (14 R287). -/
def Tile.latched (x : Tile) (q : Nat) (g : Group) (ta tb : Ty) (a vs : VReg) : Bool :=
  (Sparse.find? x.alatch q).any fun l =>
    l.gid = g.gid && l.grant = g.grant && l.a = a && l.ta = ta && l.vs = vs && l.n = mmaRegs ta tb

/-- The V registers of a lane that an instruction of the unit uses: of a scale register the bytes of the blocks (14 R280, 21 R380). -/
def State.mxUses (s : State) (t slot : Nat) (g : Group) (i : Instr) : List VParts :=
  match i with
  | .mma _ _ tb _ _ a _ vs _ ru _ =>
    let ta := g.leader.tyOf i
    if ru && (s.tile t).latched (slot / 16) g ta tb a vs then []
    else
      withParts 7 [(a.toNat, mmaRegs ta tb)] ++
        (if ta.isBlk then withParts (if mmaK ta tb ≤ 64 then lowParts else 7) [(vs.toNat, 1)] else [])
  | .mscl _ _ _ a _ => withParts 7 [(a.toNat, 1)]
  | _ => []

/-- The lanes whose registers, and those whose accumulator rows, give an instruction of the unit an error to consume (21 R379). -/
def State.mxBad (s : State) (t slot : Nat) (g : Group) (i : Instr) : List Nat × List Nat :=
  let x := s.tile t
  let us := s.mxUses t slot g i
  let rows (cols : Nat → Bool) : List Nat :=
    (List.range g.grant).filter fun l => x.rowBad (rowOf (s.accBlock t g (mxBlocks g.grant i).1) l) cols
  ((List.range g.grant).filter fun l => us.any ((g.slice (l / 4)).meetsBad (l % 4)),
   match i with
   | .mma _ _ _ _ _ _ _ _ za _ _ => if za then [] else rows fun _ => true
   | .mld _ _ _ _ c0 nm1 => rows fun c => c0.toNat ≤ c && c ≤ c0.toNat + nm1.toNat
   | .mst .. => rows fun _ => true
   | .mscl _ _ _ _ cm => rows fun c => cm.getLsbD c
   | _ => [])

/-- The errors that an instruction of the unit consumes: CONSUMED is logged, and the whole group takes MACHINE_CHECK (21 R379, 18
R339). -/
def State.mxPoison (s : State) (t slot : Nat) (g : Group) (i : Instr) : Option State :=
  match s.mxBad t slot g i with
  | ([], []) => none
  | ([], l :: ls) => some ((s.logSlice t g 0x03 0 l 2).raiseAll t slot (poisonTrap (l :: ls) 0) 0)
  | (l :: ls, _) => some ((s.logSlice t g 0x03 (BitVec.allOnes 64) l 0).raiseAll t slot (regTrap (l :: ls)) 0)

/-- What the unit does with an instruction of a group that it takes. An MST that rounds stochastically takes its generator states here, and a
trap of its stores leaves them taken (14 R293, log 112). -/
def State.mxTake (s : State) (t slot : Nat) (g : Group) (i : Instr) (c : UClass) (cost : Nat) : State :=
  let base := s.accBlock t g (mxBlocks g.grant i).1
  match i with
  | .mma _ _ tb _ _ a src vs _ ru rl => s.mmaIssue t slot g i c cost tb a src vs ru rl
  | .mld _ _ d _ c0 nm1 =>
    let m := mkMx s slot g i c
    let g1 := g.liveIdx.foldl
      (fun r k => r.setSlice k { r.slice k with
        out := (r.slice k).out ++
          [{ writes := mldWrites (s.tile t) base k d c0.toNat (nm1.toNat + 1), n := nm1.toNat + 1, hx := none, tok := m.tok }] }) g
    (s.setGroup t slot (g1.mxAdvance i)).mxStart t slot cost m
  | .mst _ _ _ rnd _ a b scr _ _ =>
    let sq := srSeq ((s.tile t).srOf (slot / 16)) (g.grant / 32)
    let m : MxOp :=
      { mkMx s slot g i c with
          svals := [g.leader.sReg a.toNat, g.leader.sReg b.toNat, g.leader.sReg scr.toNat], sr := sq.1 }
    let g1 := g.liveIdx.foldl (fun r k => r.setSlice k { r.slice k with wait := .convert, parkPc := (r.slice k).pc }) g
    ((s.setGroup t slot g1).mxStart t slot cost m).updTile t fun x => if rnd = .sr then x.setSr (slot / 16) sq.2 else x
  | .mscl _ _ _ a _ =>
    (s.setGroup t slot (g.mxAdvance i)).mxStart t slot cost { mkMx s slot g i c with regs := g.laneRegs a.toNat 1 none }
  | _ => (s.setGroup t slot (g.mxAdvance i)).mxStart t slot cost (mkMx s slot g i c)

/-- The lanes that read an error in a register that the instruction does not use, such as Vs bytes above K/32 − 1 (21 R380). -/
def State.mxIgnores (s : State) (t slot : Nat) (g : Group) (i : Instr) : List Nat :=
  let us := s.mxUses t slot g i
  if us.isEmpty then []
  else (List.range g.grant).filter fun l => (g.slice (l / 4)).ignoresBad (l % 4) (Instr.vUse i (g.leader.tyOf i)).1 us

/-- The issue of a group's instruction that the unit takes; copies that differ are compared first (21 R385), and one that consumes an error
in a register or an accumulator traps. -/
def State.mxIssue (s : State) (t slot : Nat) (g : Group) (i : Instr) (c : UClass) (cost : Nat) : State :=
  if g.sound && (s.tile t).accBad.isEmpty then s.mxTake t slot g i c cost
  else
    let r := s.collUpset t slot g i
    match r.2 with
    | some tr => r.1.raiseAll t slot tr 0
    | none =>
      let s1 := r.1.noteBad t g [] (r.1.mxIgnores t slot g i)
      let g1 := (s1.group? t slot).getD g
      (s1.mxPoison t slot g1 i).getD (s1.mxTake t slot g1 i c cost)

/-- The one issue of an instruction of the unit, once the unit takes it (14 R282, R289). -/
def matrixIssue (s : State) (t slot : Nat) : State :=
  match s.group? t slot with
  | none => s
  | some g =>
    match s.mxAccepts t slot g with
    | some (i, c, cost) => s.mxIssue t slot g i c cost
    | none => s

/-- A matrix instruction once its rendezvous is complete: its checks; then it is presented, as the beat of the gang that holds the lowest
live slice (14 R282). -/
def mxColl (i : Instr) : Coll := fun s t slot =>
  match s.group? t slot with
  | none => .ok s
  | some g =>
    match s.mxTrap t g i with
    | some tr => .error tr
    | none => .ok (s.setGroup t slot (g.present i))

/-- A word with an opcode of the unit that breaches its encoding: the convergence check comes first (14 R282). `conv`: the opcode makes
that check. -/
def breachColl (conv : Bool) : Coll := fun s t slot =>
  match s.group? t slot with
  | none => .ok s
  | some g => .error (if conv && !g.converged then mkTrap 0x04 0 else illegal 0)

def execMma (h : Hdr) (ta : TyF) (tb : Ty) (uc : UC) (k : BitVec 6) (a : VReg) (src : MmaSrc) (vs : VReg) (za ru rl : Bool)
    (s : State) : Host.Outcome State Fault Refusal :=
  runColl s (.mma (plainHdr h) ta tb uc k a src vs za ru rl) (mxColl (.mma (plainHdr h) ta tb uc k a src vs za ru rl)) matrixIssue

def execMzero (h : Hdr) (k : BitVec 6) (s : State) : Host.Outcome State Fault Refusal :=
  runColl s (.mzero (plainHdr h) k) (mxColl (.mzero (plainHdr h) k)) matrixIssue

def execMld (h : Hdr) (ty : TyF) (d : VReg) (k : BitVec 6) (c0 nm1 : BitVec 5) (s : State) : Host.Outcome State Fault Refusal :=
  runColl s (.mld (plainHdr h) ty d k c0 nm1) (mxColl (.mld (plainHdr h) ty d k c0 nm1)) matrixIssue

def execMst (h : Hdr) (td : TyF) (ts : Ty) (rnd : Rnd) (k : BitVec 6) (a b scr : SReg) (sp nc : Bool) (s : State) :
    Host.Outcome State Fault Refusal :=
  runColl s (.mst (plainHdr h) td ts rnd k a b scr sp nc) (mxColl (.mst (plainHdr h) td ts rnd k a b scr sp nc)) matrixIssue

def execMscl (h : Hdr) (ty : TyF) (k : BitVec 6) (a : VReg) (cm : Word) (s : State) : Host.Outcome State Fault Refusal :=
  runColl s (.mscl (plainHdr h) ty k a cm) (mxColl (.mscl (plainHdr h) ty k a cm)) matrixIssue

/-! ## Completion -/

/-- B as the unit read it: each unit as it stood at some moment since the issue (14 R288). -/
def State.bSeen (s : State) (m : MxOp) : List (List Byte × Eb16) :=
  (List.range (m.bLen / 8)).map fun u =>
    let p := s.unitSince m.tok (64 * u + 2) (m.bKey / 8 + u)
    (p.data, p.wtag)

/-- The rows of an MMA (14 R283-R286). -/
def State.mmaRows (s : State) (t : Nat) (m : MxOp) (base : Nat) (tb : Ty) (za : Bool) : List ((Nat × Nat) × List Word × Eb16) :=
  let x := s.tile t
  let ta := m.ty
  let c := UClass.ofNum m.cls
  let k := mmaK ta tb
  let n := mmaRegs ta tb + (if ta.isBlk then 1 else 0)
  let us := s.bSeen m
  let bs := us.flatMap Prod.fst
  let pay := (bBytes ta tb).1 / 8
  let tB := ebReal (ebMaxL ((us.take pay).map Prod.snd))
  let scaleTag := (us.drop pay).any fun u => u.2 ≠ 0
  let cols := (List.range 32).map (decodeB tb k bs)
  let fcols := cols.map fun q => q.map (flushElem c tb)
  (List.range (m.regs.length / n)).map fun lane =>
    let rs := (m.regs.drop (n * lane)).take n
    let pl := rs.take (mmaRegs ta tb)
    let sc := rs.getD (mmaRegs ta tb) Reg.zero
    let av := decodeA ta k pl sc.val
    let bA := ebReal (ebMaxL (pl.map Reg.bnd))
    let r := rowOf base lane
    let b0 : Eb16 := if za then 0 else x.rowBnd r.1 r.2
    let d0 := if za then List.replicate 32 0 else x.accRow r.1 r.2
    (r, if ta = .i8 then
        let toI (v : FVal) : Int := match v with
          | .fin n q => (signed n q).num
          | _ => 0
        mmaRowI k (av.map toI) (cols.map fun q => q.map toI) (d0.map fun w => w.toInt) (ebReal b0) bA tB
          (b0 = 0 && bA = some 0 && tB = some 0)
      else
        mmaRow c k (av.map (flushElem c ta)) fcols (d0.map fun w => FF.f32.decode w.toNat) (ebReal b0) bA tB
          (scaleTag || (ta.isBlk && sc.bnd ≠ 0)))

/-- One row of MSCL (14 R295). -/
def msclRow (f : Reg) (cm : Word) (ws : List Word) (b0 : Eb16) : List Word × Eb16 :=
  let a := FF.f32.decode f.val.toNat
  let es := ws.zipIdx.map fun p =>
    let d := FF.f32.decode p.1.toNat
    if cm.getLsbD p.2 then
      match mulX d a with
      | .fin s m =>
        let r := FF.f32.round 24 .rne s m
        (BitVec.ofNat 32 (FF.f32.encode r.val), d.magD, r.val, delta .f32 .f .rne r.exact r.val.magD)
      | v => (BitVec.ofNat 32 (FF.f32.encode v), 0, v, 0)
    else (p.1, 0, .fin false 0, 0)
  let bad := es.any fun e =>
    match e.2.2.1 with
    | .fin .. => false
    | _ => true
  let m := ratMaxL (es.map fun e => e.2.1)
  let b := if bad then ebU else upO (bAdd (bMul a.magD (ebReal f.bnd) m (ebReal b0)) (some (ratMaxL (es.map fun e => e.2.2.2))))
  (es.map fun e => e.1, if cm = 0xFFFFFFFF then b else ebMax b b0)

/-- The rows that an operation leaves. -/
def State.mxRows (s : State) (t : Nat) (g : Group) (m : MxOp) : List ((Nat × Nat) × List Word × Eb16) :=
  let base := s.accBlock t g (mxBlocks g.grant m.instr).1
  match m.instr with
  | .mma _ _ tb _ _ _ _ _ za _ _ => s.mmaRows t m base tb za
  | .mzero .. => (List.range 32).map fun r => ((base, r), List.replicate 32 0, 0)
  | .mscl _ _ _ _ cm =>
    m.regs.zipIdx.map fun p =>
      let r := rowOf base p.2
      (r, msclRow p.1 cm ((s.tile t).accRow r.1 r.2) ((s.tile t).rowBnd r.1 r.2))
  | _ => []

/-- HX of a slice after an MMA of automatic class, from the rows its lanes own (04 R73). -/
def Slice.mxHx (x : Slice) (k : Nat) (rows : List ((Nat × Nat) × List Word × Eb16)) : Slice :=
  let items := (List.range 4).filterMap fun l =>
    (rows[4 * k + l]?).map fun r =>
      let ms := (r.2.1.map fun w => (FF.f32.decode w.toNat).magD).filter fun q => q ≠ 0
      ({ bnd := r.2.2,
         ex := match ms with
           | [] => none
           | q :: rest => some (ilog2 (rest.foldl ratMin q)) } : HxItem)
  { x with hx := updateHx x.ebud x.hx items }

/-- The results that carry a token are there. -/
def Slice.answer (x : Slice) (tok : Nat) : Slice := { x with out := x.out.map fun p => if p.tok = tok then { p with tok := 0 } else p }

/-- The unit ends an operation other than MST (14 R289); fences that waited for it wait no more (12 R252). -/
def State.mxComplete (s : State) (t : Nat) : State :=
  match (s.tile t).mx with
  | none => s
  | some m =>
    match m.instr with
    | .mst .. => s
    | i =>
      let idle (x : Tile) : Tile :=
        { x with mx := none,
                 burstIdle := match i with
                   | .mma .. => 0
                   | _ => x.burstIdle }
      match s.group? t m.slot with
      | none => s.updTile t idle
      | some g =>
        if g.gid ≠ m.gid then s.updTile t idle
        else
          let rows := s.mxRows t g m
          let cols : Nat → Bool := match i with
            | .mscl _ _ _ _ cm => cm.getLsbD
            | _ => fun _ => true
          let s1 := s.updTile t fun x => idle (rows.foldl (fun y r => y.setRow r.1.1 r.1.2 r.2.1 r.2.2 cols) x)
          let g1 := g.liveIdx.foldl
            (fun r k => let y := (r.slice k).answer m.tok; r.setSlice k (if m.auto && m.ty ≠ .i8 then y.mxHx k rows else y)) g
          let g2 : Group :=
            { g1 with sq := g1.sq.map fun e =>
                match e with
                | .fence hold full sys ts cs _ => .fence hold full sys ts cs false
                | e => e }
          (s1.setGroup t m.slot g2).fresh

/-- One element of a converted row: offset in the row, bytes, bound, magnitude for a relative budget; the scale byte of a block
apart. -/
structure MstOut where
  elems : List (Nat × List Byte × Eb16 × Option Rat)
  scale : Option Byte

/-- The conversion of a lane's row (14 R293). -/
def mstConvert (td ts : Ty) (mode : Nat → RMode) (ws : List Word) (b : Eb16) : MstOut :=
  let xs := ws.map fun w => tyValue ts w.toNat
  if td.isBlk then
    let e := blockExp td xs
    let bytes := blockBytes td mode e xs
    let ys := blockVals td (e + 127).toNat bytes
    let bs := (xs.zip ys).map fun p => quantBound p.1 p.2 b
    { elems := bytes.zipIdx.map fun p =>
        (p.2, [BitVec.ofNat 8 p.1], ebMax (bs.getD (2 * p.2) 0) (bs.getD (2 * p.2 + 1) 0), some 0),
      scale := some (BitVec.ofNat 8 (e + 127).toNat) }
  else
    let n := tyWidth td / 8
    { elems := xs.zipIdx.map fun p =>
        let r := convTo td (mode p.2) p.1 (ebReal b)
        (n * p.2, leBytes n r.1, r.2, (tyValue td r.1).budMag),
      scale := none }

/-- The address of a row or a scale byte: of 56 bits, or a team offset, which may lie outside the scratchpad. -/
def mstAddr (sp : Bool) (x : Int) : Int := if sp then x else (addrOf true x : Int)

/-- What MST stores: for each lane, pieces with their addresses, and the extent of its row and scale. -/
def mstPieces (m : MxOp) (sp : Bool) (lane : Nat) (o : MstOut) : List (Int × List Byte × Eb16) :=
  let row : Int := ((m.svals.getD 0 0).toNat : Int) + (lane : Int) * (m.svals.getD 1 0).toInt
  o.elems.map (fun e => (mstAddr sp (row + (e.1 : Int)), e.2.1, e.2.2.1)) ++
    (match o.scale with
     | some b => [(mstAddr sp (((m.svals.getD 2 0).toNat : Int) + (lane : Int)), [b], 0)]
     | none => [])

/-- The lanes of a block of an MST with the pages found for them. -/
abbrev MstBlock := List LaneReq × List BeatPage

/-- An MST's pages: those of each block of 32 lanes are a beat's, with at most 32 records (17 R326, log 88), and the fault of the first block
that has one is the trap. -/
def State.mstPages (s : State) (t : Nat) (g : Group) (m : MxOp) (reqs : List LaneReq) : Except (State × Trap × Nat) (List BeatPage × State) :=
  let r := (List.range 3).foldl
    (fun (r : List MstBlock × State) b =>
      let qs := reqs.filter fun q => q.lane / 32 = b
      let p := r.2.translate t g.asid .mst (fun lane => (g.slice (lane / 4)).pm) (qs.map fun q => (q.lane, q.va))
      (r.1 ++ [(qs, p.1)], p.2)) ([], s)
  let bad (b : MstBlock) : List BeatPage := (b.2.filter fun p => p.page.cause ≠ 0).take 32
  match r.1.filter fun b => !(bad b).isEmpty with
  | [] => .ok (r.1.flatMap Prod.snd, r.2)
  | b :: rest =>
    let beat := r.2.nextId
    let s1 := (b :: rest).foldl (fun s b => s.sendPages t g .mst beat m.time (bad b)) r.2
    .error ({ s1 with nextId := beat + 1 }, pageTrap .mst b.1 (bad b), beat)

/-- MST's stores once its rows are converted, and the slices' continuation, or its trap (14 R293); none while a lookup must wait for a copy
engine (12 R253). -/
def State.mstFinish (s : State) (t : Nat) (g : Group) (m : MxOp) (td : TyF) (ts : Ty) (rnd : Rnd) (k : BitVec 6) (sp nc : Bool) :
    Option State :=
  let x := s.tile t
  let base := s.accBlock t g k.toNat
  let outs := (List.range g.grant).map fun lane =>
    let r := rowOf base lane
    let mode (j : Nat) : RMode := g.leader.rmode td rnd (srDraw (m.sr.getD (lane / 32) 0) (2 * r.2 + 2 * j))
    (lane, mstConvert m.ty ts mode (x.accRow r.1 r.2) (x.rowBnd r.1 r.2))
  let brs := if nc then [] else outs.filterMap fun p =>
    let bud := (g.slice (p.1 / 4)).ebud
    match p.2.elems.filter fun e => exceeds bud e.2.2.1 e.2.2.2 with
    | [] => none
    | es => some (p.1, ebMaxL (es.map fun e => e.2.2.1))
  let ps := outs.flatMap fun p => (mstPieces m sp p.1 p.2).map fun q => (p.1, q)
  let go (s1 : State) (place : Nat → Loc) : State :=
    let accs := ps.map fun p => (p.1, ({ loc := place p.2.1.toNat, data := p.2.2.1, bnd := p.2.2.2 } : Acc))
    let all := accs.map Prod.snd
    match accs.filter fun p => (s1.view g).tagBad all p.2 with
    | [] => (s1.push t m.slot (.store true all)).updGroup t m.slot fun g => g.mxAdvance m.instr
    | p :: rest =>
      let r := s1.consume t g p.2.data.length ((p :: rest).map fun q => ({ k := q.1 / 4, l := q.1 % 4, va := 0 }, q.2.loc))
      r.1.raiseAll t m.slot r.2 0
  if !brs.isEmpty then some (s.raiseAll t m.slot (breach (brs.map Prod.fst) (ebMaxL (brs.map Prod.snd))) 0)
  else if sp then
    if ps.any fun p => p.2.1 < 0 || (s.padSize t g : Int) < p.2.1 + (p.2.2.1.length : Nat) then
      some (s.raiseAll t m.slot (mkTrap 0x07 0) 0)
    else some (go s (s.padLoc t g))
  else
    let reqs := ps.map fun p => ({ k := p.1 / 4, l := p.1 % 4, va := p.2.1.toNat } : LaneReq)
    if s.walkHeld t g.asid (reqs.map LaneReq.va) then none
    else
      match s.walkBad t g.asid reqs with
      | some b => let f := s.consumeIn t g b.1 (s.arrayOf noTile b.1) (b.2.map LaneReq.lane); some (f.1.raiseAll t m.slot f.2 0)
      | none =>
        match s.mstPages t g m reqs with
        | .error f => some (f.1.raiseAll t m.slot f.2.1 f.2.2)
        | .ok r => some (go r.2 (r.2.locIn r.1))

/-- The unit has converted the rows of an MST. -/
def State.mstDone (s : State) (t : Nat) : State :=
  match (s.tile t).mx with
  | none => s
  | some m =>
    match m.instr with
    | .mst _ td ts rnd k _ _ _ sp nc =>
      let s1 := s.updTile t fun x => { x with mx := none }
      match s1.group? t m.slot with
      | none => s1
      | some g =>
        if g.gid = m.gid && !g.liveIdx.isEmpty then
          (match s1.mstFinish t g m td ts rnd k sp nc with
           | some s2 => s2.fresh
           | none => s)
        else s1
    | _ => s

end Sys2Proof.Machine
end

