-- ==== Sys2Proof/Machine/Team.lean ====
section
/-! DEFINITION. Teams: named barriers (10 R192-R197), ATTACH and DETACH (R189-R191), gear requests (R199-R201) and sections
without pre-emption (R204). -/

namespace Sys2Proof.Machine

/-! ## Barriers -/

/-- The key of a barrier shared by a cluster (B112 to B123) or a die (B124 to B127) (02 R42). -/
def sharedKey (t k : Nat) : Nat := if k < 124 then 128 * (t / 8) + k else 128 * (32 + t / 32) + k

/-- The barrier that Bk names for a team of a tile (02 R42). -/
def State.bar (s : State) (t team k : Nat) : Bar :=
  if k < 112 then
    match s.team? t team with
    | some m => Sparse.get Bar.zero m.bars k
    | none => Bar.zero
  else Sparse.get Bar.zero s.sharedBars (sharedKey t k)

def State.setBar (s : State) (t team k : Nat) (b : Bar) : State :=
  if k < 112 then s.updTeam t team fun m => { m with bars := Sparse.set Bar.zero m.bars k b }
  else { s with sharedBars := Sparse.set Bar.zero s.sharedBars (sharedKey t k) b }

/-- Whether Bk of a group on tile t is the barrier of a team on tile t0. -/
def sameBar (t0 team0 k t team : Nat) : Bool :=
  if k < 112 then t = t0 && team = team0 else if k < 124 then t / 8 = t0 / 8 else t / 32 = t0 / 32

/-- Changes the groups of a predicate, resident and saved. -/
def State.mapGroups (s : State) (p : Nat → Group → Bool) (f : Group → Group) : State :=
  let one (t : Nat) (g : Group) : Group := if p t g then f g else g
  let sv (q : Saved) : Saved := { q with grp := one q.tile q.grp }
  { s with
      tiles := s.tiles.map fun q => (q.1, { q.2 with groups := q.2.groups.map fun r => (r.1, one q.1 r.2) }),
      resumed := s.resumed.map fun r =>
        match r with
        | .group g => .group (sv g)
        | r => r }

/-- A group's relation to Bk: member, joining, arrived in GEN, arrived in GEN + 1. -/
def Group.barBits (g : Group) (k : Nat) : BitVec 4 := Sparse.get 0 g.bm k

def Group.setBits (g : Group) (k : Nat) (b : BitVec 4) : Group := { g with bm := Sparse.set 0 g.bm k b }

/-- Joiners become members, and next-generation arrivals current ones (10 R193). -/
def advBits (b : BitVec 4) : BitVec 4 :=
  (if b.getLsbD 0 || b.getLsbD 1 then 1 else 0) ||| (if b.getLsbD 3 then 4 else 0)

/-- A generation completes (10 R193). -/
def Bar.due (b : Bar) : Bool := (decide (0 < b.e) && b.c = b.e) || (b.e = 0 && decide (0 < b.j))

/-- The next generation (10 R193). -/
def Bar.next (b : Bar) : Bar := { gen := b.gen + 1, e := b.e + b.j - b.x, c := b.na, j := 0, x := 0, na := 0 }

/-- advance (10 R193); after one generation in which everyone had arrived early, a second one has no arrivals, so two rounds
suffice. -/
def State.advance (s : State) (t team k : Nat) : Nat → State
  | 0 => s
  | n + 1 =>
    let b := s.bar t team k
    if b.due then
      let s1 := (s.setBar t team k b.next).mapGroups (fun u g => sameBar t team k u g.team) fun g => g.setBits k (advBits (g.barBits k))
      let s2 : State :=
        { s1 with leaves := s1.leaves.map fun l =>
            if l.k = k && sameBar t team k l.tile l.team then { l with bits := advBits l.bits } else l }
      s2.advance t team k n
    else s

/-- arrive, of a group with the bits given: the barrier and the bits after (10 R193). -/
def Bar.arrive (b : Bar) (m : BitVec 4) : Bar × BitVec 4 :=
  if m.getLsbD 0 && !m.getLsbD 2 then ({ b with c := b.c + 1 }, m ||| 4) else ({ b with na := b.na + 1 }, m ||| 8)

/-- The arrival of a group on Bk that is on its way and was sent first. -/
def Group.sent? (g : Group) (k : Nat) : Option Arrival := g.arrSent.find? fun a => a.k = k

/-- A queued entry accesses a scratchpad: a store, an atomic, or a CPYNB. -/
def SqKind.padAccess (e : SqKind) : Bool :=
  e.padWrite ||
    match e with
    | .copy c => c.kind = .nb
    | _ => false

/-- A tile's engines hold a CPYNB of a group, or its matrix unit reads the scratchpad for it. -/
def Tile.padBusy (x : Tile) (gid : Nat) : Bool :=
  ((x.eng0 ++ x.eng1).any fun c => c.kind = .nb && c.gid = gid) || x.mx.any fun m => m.gid = gid && m.bLen ≠ 0

/-- The scratchpad accesses that a group issued before an arrival have not all been performed (10 R198). -/
def State.arrivalHeld (s : State) (t : Nat) (g : Group) (a : Arrival) : Bool :=
  (g.sq.take a.before).any SqKind.padAccess || (s.tile t).padBusy g.gid

/-- A group's arrival is counted (10 R193). -/
def State.arriveNow (s : State) (t slot : Nat) (g : Group) (a : Arrival) : State :=
  let r := (s.bar t g.team a.k).arrive (g.barBits a.k)
  ((s.setGroup t slot ({ g with arrSent := g.arrSent.erase a }.setBits a.k r.2)).setBar t g.team a.k r.1).advance t g.team a.k 3

/-- A group's arrival reaches its barrier, once nothing holds it (10 R193, R198). -/
def State.arriveAt (s : State) (t slot k : Nat) : State :=
  match s.group? t slot with
  | some g =>
    match g.sent? k with
    | some a => if s.arrivalHeld t g a then s else s.arriveNow t slot g a
    | none => s
  | none => s

/-- leave, by a group with the bits given (10 R193). -/
def Bar.leave (b : Bar) (m : BitVec 4) : Bar :=
  let b1 : Bar := if m.getLsbD 3 then { b with na := b.na - 1 } else b
  if m.getLsbD 1 then { b1 with j := b1.j - 1 }
  else { b1 with c := if m.getLsbD 2 then b1.c else b1.c + 1, x := b1.x + 1 }

/-- The scratchpad accesses of a group that has left have not all been performed: its leave, which may count as its arrival, is held as an
arrival is (10 R193, R198). -/
def State.leaveHeld (s : State) (l : Leave) : Bool :=
  (s.tile l.tile).padBusy l.gid || (s.tile l.tile).groups.any fun p => p.2.gid = l.gid && p.2.sq.any SqKind.padAccess

/-- Up to n arrivals that a leave still brings are counted before it (10 R193). -/
def State.leaveArrivals (s : State) (i : Nat) : Nat → State
  | 0 => s
  | n + 1 =>
    match s.leaves[i]? with
    | none => s
    | some l =>
      let r := (s.bar l.tile l.team l.k).arrive l.bits
      (({ s with leaves := s.leaves.set i { l with bits := r.2, arrs := l.arrs - 1 } }.setBar l.tile l.team l.k r.1).advance l.tile l.team
        l.k 3).leaveArrivals i n

/-- A leave reaches its barrier. -/
def State.leaveNow (s : State) (i : Nat) : State :=
  let s1 := s.leaveArrivals i ((s.leaves[i]?).elim 0 Leave.arrs)
  match s1.leaves[i]? with
  | none => s1
  | some l =>
    let s2 : State := { s1 with leaves := s1.leaves.eraseIdx i }
    (s2.setBar l.tile l.team l.k ((s2.bar l.tile l.team l.k).leave l.bits)).advance l.tile l.team l.k 3

/-- A leave reaches its barrier, once nothing holds it. -/
def State.leaveAt (s : State) (i : Nat) : State := if (s.leaves[i]?).any s.leaveHeld then s else s.leaveNow i

/-- Up to n leaves of a predicate reach their barriers, in order. -/
def State.leaveThose (p : Leave → Bool) : Nat → State → State
  | 0, s => s
  | n + 1, s =>
    match s.leaves.findIdx? p with
    | some i => State.leaveThose p n (s.leaveNow i)
    | none => s

/-- join (10 R193). -/
def State.join (s : State) (t slot k : Nat) : State :=
  match s.group? t slot with
  | some g =>
    let b := s.bar t g.team k
    ((s.setGroup t slot (g.setBits k (g.barBits k ||| 2))).setBar t g.team k { b with j := b.j + 1 }).advance t g.team k 3
  | none => s

/-- The leaves of a group from a tile: of every barrier of a predicate that it is a member of or joining, each with its arrivals there that
are on their way (10 R190, R193). -/
def Group.leaves (g : Group) (t : Nat) (p : Nat → Bool) : List Leave :=
  (g.bm.filter fun q => p q.1 && (q.2.getLsbD 0 || q.2.getLsbD 1)).map fun q =>
    { tile := t, team := g.team, gid := g.gid, k := q.1, bits := q.2, arrs := (g.arrSent.filter fun a => a.k = q.1).length }

/-- A group leaves its barriers. -/
def State.leaveAll (s : State) (t slot : Nat) : State :=
  match s.group? t slot with
  | none => s
  | some g =>
    if g.left then s
    else
      ({ s.setGroup t slot { g with bm := [], arrTok := [], arrSent := [], left := true, sect := false } with
          leaves := s.leaves ++ g.leaves t fun _ => true }).updTeam t g.team fun m => { m with shrink := m.shrink - 1 }

/-! ## Arrivals -/

/-- Naming Bk: a tile-scope barrier needs an attached group and a number below the team's count (02 R42, 10 R187). -/
def State.barTrap (s : State) (t : Nat) (g : Group) (k : Nat) (member : Bool) : Option Trap :=
  if k < 112 then
    if !g.attached then some (illegal 3)
    else
      match s.team? t g.team with
      | some m => if m.nbars ≤ k then some (illegal 0) else none
      | none => some (illegal 0)
  else if member && !g.attached then some (illegal 3)
  else none

/-- A token is complete (10 R195). -/
def tokenDone (gen token : Word) : Bool := decide (1 ≤ (gen - token).toNat) && decide ((gen - token).toNat < 2 ^ 31)

/-- The group's arrivals on Bk that are made: counted in GEN or GEN + 1, or on their way. -/
def Group.arrivals (g : Group) (k : Nat) : Nat :=
  let m := g.barBits k
  b2n (m.getLsbD 2) + b2n (m.getLsbD 3) + (g.arrSent.filter fun a => a.k = k).length

/-- No further arrival can be made before GEN advances (10 R194); a joiner that has arrived in GEN + 1 waits likewise (log 100). -/
def Group.arriveFull (g : Group) (k : Nat) : Bool := (if (g.barBits k).getLsbD 0 then 2 else 1) ≤ g.arrivals k

/-- A live slice has arrived while its group has not. -/
def Group.inProgress (g : Group) (k : Nat) : Bool := g.liveIdx.any fun i => (g.slice i).arrv.getLsbD k

/-- The token of a new arrival: GEN for a member's first, else GEN + 1 (10 R193, R194). -/
def Group.newToken (g : Group) (gen : Word) (k : Nat) : Word :=
  if (g.barBits k).getLsbD 0 && g.arrivals k = 0 then gen else gen + 1

/-- The group arrives on Bk once every live slice has, and the slices that wait for that go on (10 R194). -/
def Group.completeArrival (g : Group) (k : Nat) : Group :=
  if g.inProgress k && g.liveIdx.all fun i => (g.slice i).arrv.getLsbD k then
    let g1 := g.liveIdx.foldl
      (fun g i =>
        let x := g.slice i
        let y : Slice := { x with arrv := x.arrv &&& ~~~(1#128 <<< k) }
        g.setSlice i (if y.wait = .arrive k then y.wake else y)) g
    { g1 with arrSent := g1.arrSent ++ [{ k := k, before := g1.sq.length }] }
  else g

/-- The same for every barrier, after slices have retired (10 R194). -/
def Group.completeArrivals (g : Group) : Group := (List.range 128).foldl Group.completeArrival g

/-- One slice's BARA, or BARS with `wait` (10 R194, R196). -/
def arriveSlice (i : Instr) (k : Nat) (d : Option SReg) (r : State) (c : Ctx) (x : Slice) : State × Option (Trap × Nat) :=
  match r.group? c.t c.slot with
  | none => (r, none)
  | some g =>
    let m := g.barBits k
    match r.barTrap c.t g k true with
    | some tr => (r, some (tr, 0))
    | none =>
      if !(m.getLsbD 0 || m.getLsbD 1) then (r, some (illegal 3, 0))
      else if x.arrv.getLsbD k || (!g.inProgress k && g.arriveFull k) then
        (r.setSlice c.t c.slot c.i { x with wait := .arrive k, parkPc := x.pc }, none)
      else
        let tok := if g.inProgress k then Sparse.get 0 g.arrTok k else g.newToken (r.bar c.t g.team k).gen k
        let y : Slice := { x.adv i with arrv := x.arrv ||| (1#128 <<< k) }
        let z : Slice :=
          match d with
          | some d => y.post [wS d.toNat (tok.setWidth 64)]
          | none => { y with wait := .barrier k tok, parkPc := x.pc }
        (r.setGroup c.t c.slot ({ g with arrTok := Sparse.set 0 g.arrTok k tok }.setSlice c.i z), none)

/-- A beat of arrivals. -/
def arriveBeat (i : Instr) (k : Nat) (d : Option SReg) (t slot : Nat) : Plan := fun c s l =>
  let r := eachSlice t slot (arriveSlice i k d) c s l
  (r.1.updGroup t slot fun g => g.completeArrival k, r.2)

def execBara (h : Hdr) (d : SReg) (k : BitVec 7) (s : State) : Host.Outcome State Fault Refusal :=
  runBeat s (.bara h d k) (arriveBeat (.bara h d k) k.toNat (some d))

def execBars (h : Hdr) (k : BitVec 7) (s : State) : Host.Outcome State Fault Refusal :=
  runBeat s (.bars h k) (arriveBeat (.bars h k) k.toNat none)

/-- 10 R195. -/
def execBarw (h : Hdr) (k : BitVec 7) (a : SReg) (s : State) : Host.Outcome State Fault Refusal :=
  runSlices s (.barw h k a) fun _ c x =>
    match c.st.barTrap c.t c.g k.toNat false with
    | some tr => .error tr
    | none =>
      let gen := (c.st.bar c.t c.g.team k.toNat).gen
      let tok := (c.rdS x 0 a.toNat).setWidth 32
      if tokenDone gen tok then .ok (x.adv (.barw h k a))
      else if tok = gen || tok = gen + 1 then
        .ok { x.adv (.barw h k a) with wait := .barrier k.toNat tok, parkPc := x.pc }
      else .error (illegal 3)

/-- The value of BARQ (10 Table 10.1). -/
def barWord (b : Bar) (m : BitVec 4) : DWord :=
  packBits [(b.gen.toNat, 32), (b2n (m.getLsbD 0), 31), (b2n (m.getLsbD 1), 30), (b2n (m.getLsbD 2), 29), (b.e % 4096, 12),
    (b.c % 4096, 0)]

/-- 10 R197. -/
def execBarq (h : Hdr) (d : SReg) (k : BitVec 7) (s : State) : Host.Outcome State Fault Refusal :=
  runSlices s (.barq h d k) fun _ c x =>
    if c.performs x h then
      match c.st.barTrap c.t c.g k.toNat false with
      | some tr => .error tr
      | none => .ok ((x.post [wS d.toNat (barWord (c.st.bar c.t c.g.team k.toNat) (c.g.barBits k.toNat))]).adv (.barq h d k))
    else .ok (x.adv (.barq h d k))

/-! ## ATTACH and DETACH -/

/-- Bit k of the barrier mask: Sa for B0 to B63, Sb for B64 to B127 (10 R189). -/
def maskBit (sa sb : DWord) (k : Nat) : Bool := if k < 64 then sa.getLsbD k else sb.getLsbD (k - 64)

/-- ROLE (02 Table 2.3). -/
def roleNum : RoleF → Nat
  | .none => 0 | .producer => 1 | .consumer => 2

/-- A smaller allotment: the registers at and above it are lost (10 R188). -/
def Group.setAllot (g : Group) (a : Nat) : Group :=
  { g with allot := a, slices := g.slices.map fun q => (q.1, { q.2 with v := q.2.v.filter fun r => r.1 < 4 * a }) }

/-- ATTACH's effect once its rendezvous is complete (10 R189). -/
def attachColl (i : Instr) (role : RoleF) (a b : SReg) : Coll := fun s t slot =>
  match s.group? t slot with
  | none => .ok s
  | some g =>
    match s.team? t g.team with
    | none => .error (illegal 3)
    | some m =>
      let x := g.leader
      let ks := (List.range 128).filter fun k => maskBit (x.sReg a.toNat) (x.sReg b.toNat) k
      let n := roleNum role
      if !g.attached && (if n = 0 then m.roles else !m.roles) then .error (illegal 3)
      else if g.attached && n ≠ g.role then .error (illegal 3)
      else if ks.any fun k => k ≤ 111 && m.nbars ≤ k then .error (illegal 0)
      else
        let g1 := if g.attached then g else
          { g with role := n, attached := true }.setAllot (if n = 2 then m.allotC else m.allotP)
        let s1 := s.setGroup t slot (g1.contAll i)
        .ok ((ks.filter fun k => !((g.barBits k).getLsbD 0 || (g.barBits k).getLsbD 1)).foldl (fun r k => r.join t slot k) s1)

def execAttach (h : Hdr) (role : RoleF) (a b : SReg) (s : State) : Host.Outcome State Fault Refusal :=
  runColl s (.attach (plainHdr h) role a b) (attachColl (.attach (plainHdr h) role a b) role a b) noIssue

/-- Every live slice retires (06 R123). -/
def Group.retireAll (g : Group) : Group := g.liveIdx.foldl (fun g k => g.setSlice k Slice.absent) g

/-- DETACH's effect once its rendezvous is complete (10 R190). -/
def detachColl (i : Instr) (cond : Bool) : Coll := fun s t slot =>
  match s.group? t slot with
  | none => .ok s
  | some g =>
    let n := match s.team? t g.team with
      | some m => m.shrink
      | none => 0
    if g.liveIdx.any fun k => !(g.slice k).div.isEmpty then .error (mkTrap 0x04 0)
    else if cond && n = 0 then .ok (s.setGroup t slot (g.contAll i))
    else .ok ((s.leaveAll t slot).updGroup t slot Group.retireAll)

def execDetach (h : Hdr) (cond : Bool) (s : State) : Host.Outcome State Fault Refusal :=
  runColl s (.detach (plainHdr h) cond) (detachColl (.detach (plainHdr h) cond) cond) noIssue

/-! ## Gears -/

/-- 10 R199. -/
def execGear (h : Hdr) (fast : Bool) (s : State) : Host.Outcome State Fault Refusal :=
  runBeat s (.gear h fast) fun t slot _ s l =>
    ((s.updGroup t slot fun g => { g with gearReq := fast }).advAll t slot (.gear h fast) l, [])

/-- GEARW may go on (10 R201). -/
def State.gearReady (s : State) (t : Nat) (g : Group) : Bool :=
  (s.tile t).fast = g.gearReq || (g.gearReq && almCauses s.csr.almCause ≠ 0)

/-- 10 R201. -/
def execGearw (h : Hdr) (d : SReg) (s : State) : Host.Outcome State Fault Refusal :=
  runSlices s (.gearw h d) fun _ c x =>
    if !c.performs x h then .ok (x.adv (.gearw h d))
    else if c.st.gearReady c.t c.g then
      .ok ((x.post [wS d.toNat (BitVec.ofNat 64 (b2n (c.st.tile c.t).fast))]).adv (.gearw h d))
    else .ok { x with wait := .gear, parkPc := x.pc }

/-! ## Sections without pre-emption -/

/-- A slice stands at trap depth 0, with no delivery in progress. -/
def Slice.atZero (x : Slice) : Bool :=
  x.td = 0 &&
    (match x.wait with
     | .records .. => false
     | _ => true)

/-- A held pre-emption is let through once no slice stands in a handler, no section is open and no change of the grant is under way (10
R204, 18 R340, R351): PREEMPT becomes pending in every live slice. -/
def Group.letPreempt (g : Group) : Group :=
  if g.preReq && !g.sect && g.regrant = 0 && g.liveIdx.all fun k => (g.slice k).atZero then
    g.liveIdx.foldl (fun g k => let x := g.slice k; g.setSlice k { x with async := x.async ++ [mkTrap 0x0D 0] })
      { g with preReq := false }
  else g

/-- 10 R204. -/
def execNopre (h : Hdr) (s : State) : Host.Outcome State Fault Refusal :=
  runBeat s (.nopre h) fun t slot _ s l =>
    ((s.updGroup t slot fun g => if g.sect then g else { g with sect := true, sectStart := s.time }).advAll t slot (.nopre h) l, [])

/-- 10 R204: a handler's own code does not close the section. -/
def execPre (h : Hdr) (s : State) : Host.Outcome State Fault Refusal :=
  runBeat s (.pre h) fun t slot _ s l =>
    ((s.advAll t slot (.pre h) l).updGroup t slot fun g =>
      if l.any fun k => (g.slice k).td = 0 then { g with sect := false }.letPreempt else g, [])

end Sys2Proof.Machine
end

