-- ==== Sys2Proof/Machine/Windows.lean ====
section
/-! DEFINITION. Register windows (09 R169, R170, 21 R384): which windows a quarter's columns have in use, where new ones fit,
and the change of a group's grant (06 R122). -/

namespace Sys2Proof.Machine

/-- The columns in which slice k of a group of n slices has a window: its own, and under dual issue its shadow's (21 R384). -/
def sliceCols (dual : Bool) (n k : Nat) : List Nat := (k % 8) :: (if dual then [(n + (k + 1) % n) % 8] else [])

/-- A window in use: column, base and length. -/
abbrev Win := Nat × Nat × Nat

/-- The windows of a group. -/
def Group.windows (g : Group) : List Win := g.slices.flatMap fun q => q.2.wins.map fun w => (w.1, w.2, g.allot)

/-- The windows in use in a quarter, those of the group at `skip` apart. -/
def Tile.windows (x : Tile) (q skip : Nat) : List Win :=
  x.groups.flatMap fun p => if p.1 / 16 = q && p.1 ≠ skip then p.2.windows else []

/-- Whether A registers from base b are free in a column. -/
def freeAt (used : List Win) (col a b : Nat) : Bool := used.all fun w => w.1 ≠ col || w.2.1 + w.2.2 ≤ b || b + a ≤ w.2.1

/-- The lowest base that is a multiple of 8 at which A registers of a column are free (09 R170). -/
def firstFit (used : List Win) (col a : Nat) : Option Nat :=
  ((List.range 64).map fun k => 8 * k).find? fun b => b + a ≤ 512 && freeAt used col a b

/-- Windows of one slice. -/
def fitSlice (used : List Win) (a : Nat) : List Nat → Option (List (Nat × Nat))
  | [] => some []
  | col :: rest =>
    match firstFit used col a with
    | none => none
    | some b => (fitSlice ((col, b, a) :: used) a rest).map fun l => (col, b) :: l

/-- Windows of several slices in turn: slice index and windows. -/
def fitSlices (used : List Win) (a : Nat) (dual : Bool) (n : Nat) : List Nat → Option (List (Nat × List (Nat × Nat)))
  | [] => some []
  | k :: rest =>
    match fitSlice used a (sliceCols dual n k) with
    | none => none
    | some w => (fitSlices (w.map (fun p => (p.1, p.2, a)) ++ used) a dual n rest).map fun l => (k, w) :: l

/-- The indexes from a up to b - 1. -/
def rangeFrom (a b : Nat) : List Nat := (List.range (b - a)).map fun k => a + k

/-- The largest value that satisfies p among the multiples of 4 from lo to hi. -/
def largestFit (lo : Nat) (p : Nat → Bool) : Nat → Nat → Option Nat
  | 0, _ => none
  | n + 1, g => if g < lo then none else if p g then some g else largestFit lo p n (g - 4)

/-- The windows a group of grant g1 needs to become one of grant g2: those of the slices it adds (06 R122). -/
def growWindows (used : List Win) (g : Group) (g2 : Nat) : Option (List (Nat × List (Nat × Nat))) :=
  fitSlices used g.allot g.dual (g2 / 4) (rangeFrom (g.grant / 4) (g2 / 4))

/-- The largest grant that a dual-issue group may have is 48 (21 R384). -/
def dualCap (dual : Bool) (hi : Nat) : Nat := if dual then min hi 48 else hi

/-- The grant that SETW lo, hi gives in a tile's quarter, with the windows to add (06 R122). -/
def Tile.setwFit (x : Tile) (slot : Nat) (g : Group) (lo hi : Nat) : Option (Nat × List (Nat × List (Nat × Nat))) :=
  let used := x.windows (slot / 16) slot ++ g.windows
  let top := dualCap g.dual hi
  match largestFit lo (fun g2 => (growWindows used g g2).isSome) 24 top with
  | some g2 => some (g2, (growWindows used g g2).getD [])
  | none => none

/-- lo lanes at an allotment could fit in an empty quarter (06 R122): under dual issue a group of S slices takes 2S positions. -/
def couldFit (dual : Bool) (a lo : Nat) : Bool :=
  let pos := if dual then 2 * (lo / 4) else lo / 4
  (pos + 7) / 8 * a ≤ 512 && lo ≤ dualCap dual 96

/-- A slice added to a group: zero registers, all lanes, and the scalar state of a model slice (02 R39). -/
def Slice.added (m : Slice) (wins : List (Nat × Nat)) (pc : DWord) (stamp : Nat) : Slice :=
  { Slice.absent with
      live := true, pc := pc, lmask := 0b1111, s := m.s, fmt := m.fmt, ebud := m.ebud, hx := m.hx, stamp := stamp, wins := wins }

/-- The group at a new grant g2: slices added as their window list says, those from g2/4 on retired; every slice goes on at `pc`
with S1 := g2 (06 R122, 02 R39). -/
def Group.regrantTo (g : Group) (g2 : Nat) (wins : List (Nat × List (Nat × Nat))) (pc : DWord) : Group :=
  let m := g.leader
  let g3 := wins.foldl (fun r w => r.setSlice w.1 (m.added w.2 pc g.born)) g
  let g4 : Group := { g3 with slices := g3.slices.filter fun q => 4 * q.1 < g2 }
  let g5 := g4.liveIdx.foldl
    (fun r k => r.setSlice k ({ r.slice k with pc := pc, wait := .run, newRun := true, wset := 0 }.write (wS 1 (BitVec.ofNat 64 g2)))) { g4 with grant := g2 }
  g5.regang

end Sys2Proof.Machine
end

