-- ==== Sys2Proof/Machine/Control.lean ====
section
/-! DEFINITION. The control class (06 R114-R127): branches, divergence, calls, rendezvous, width, and UNDEFINED_OPCODE (05 R98). -/

namespace Sys2Proof.Machine

/-! ## Branches and divergence -/

/-- PC plus 8 times a signed branch field (05 R88). -/
def Slice.target (x : Slice) (t : BitVec 20) : DWord := x.pc + BitVec.ofInt 64 (8 * t.toInt)

/-- The slice at an address. -/
def Slice.jump (x : Slice) (pc : DWord) : Slice := { x with pc := pc }

/-- 06 R114. -/
def execBra (h : Hdr) (t : BitVec 20) (s : State) : Host.Outcome State Fault Refusal :=
  runSlices s (.bra h t) fun _ c x => .ok (if c.performs x h then x.jump (x.target t) else x.adv (.bra h t))

/-- 06 R114. -/
def execBrs (h : Hdr) (t : BitVec 20) (cc : Cond) (a : SReg) (s : State) : Host.Outcome State Fault Refusal :=
  runSlices s (.brs h t cc a) fun _ c x =>
    .ok (if c.performs x h && condHolds cc (c.rdS x 0 a.toNat) 0 then x.jump (x.target t) else x.adv (.brs h t cc a))

/-- A mask of lanes of a slice. -/
def mask4 (l : List Nat) : BitVec 4 := l.foldl (fun m k => m ||| (1#4 <<< k)) 0

/-- 06 R115. -/
def Slice.brv (x : Slice) (taken : BitVec 4) (next tgt join : DWord) : Slice :=
  let rest := x.lmask &&& ~~~taken
  if taken = 0 then x.jump next
  else if rest = 0 then x.jump tgt
  else
    { x with
        div := { calli := false, join := join, saved := x.lmask, pend := taken, resume := tgt, fmt := x.fmt } :: x.div,
        lmask := rest, pc := next }

/-- 06 R115. -/
def execBrv (h : Hdr) (t j : BitVec 20) (s : State) : Host.Outcome State Fault Refusal :=
  runSlices s (.brv h t j) fun _ c x => .ok (x.brv (mask4 (c.guarded x h)) (x.pc + 8) (x.target t) (x.target j))

/-- 06 R116: none where JOIN raises ILLEGAL. -/
def Slice.join (x : Slice) : Option Slice :=
  match x.div with
  | [] => none
  | e :: rest =>
    if e.calli then none
    else if e.pend ≠ 0 then some { x with fmt := e.fmt, lmask := e.pend, pc := e.resume, div := { e with pend := 0 } :: rest }
    else some { x with fmt := e.fmt, lmask := e.saved, pc := e.join, div := rest }

/-- 06 R116. -/
def execJoin (h : Hdr) (s : State) : Host.Outcome State Fault Refusal :=
  runSlices s (.join h) fun _ _ x =>
    match x.join with
    | some y => .ok y
    | none => .error (illegal 3)

/-! ## Calls and returns -/

/-- What a push or a pop comes to: done, a trap with its beat number, or a fill that must wait. -/
inductive StackRes where
  | done (s : State) (x : Slice) (e : RetEntry)
  | trap (s : State) (tr : Trap) (beat : Nat)
  | wait (s : State)

/-- An entry as it lies in memory (06 R117). -/
def RetEntry.word (e : RetEntry) : DWord := (e.addr &&& ~~~7#64) ||| (if e.flag then 1 else 0)
def RetEntry.ofWord (w : DWord) : RetEntry := { addr := w &&& ~~~7#64, flag := w.getLsbD 0 }

/-- The access of a spill or a fill at an address, given to the slice's lowest active lane. -/
def spillReq (c : Ctx) (x : Slice) (a : DWord) : LaneReq := { k := c.i, l := x.active.headD 0, va := addrOf true (a.toNat : Int) }

/-- The access that a push makes: none where no entry is spilled, or where the push traps before (06 R117, 18 R340). -/
def pushReqs (c : Ctx) (x : Slice) : List LaneReq :=
  if x.ret.length < 8 || 1 ≤ x.td || 2 ^ 32 - 1 ≤ x.spill || (c.rdS x 3 29).toNat % 8 ≠ 0 then [] else [spillReq c x (c.rdS x 3 29)]

/-- A push (06 R117): on a full stack the oldest entry goes to [S29] first, in a page of the beat, except in a handler (18 R340); in a
sector whose tag is poisoned the store consumes that (11 R217, 21 R379). -/
def State.pushRet (r : State) (ps : List BeatPage) (c : Ctx) (x : Slice) (e : RetEntry) : StackRes :=
  if x.ret.length < 8 then .done r { x with ret := e :: x.ret } e
  else if 1 ≤ x.td || 2 ^ 32 - 1 ≤ x.spill then .trap r (illegal 3) 0
  else
    let a := c.rdS x 3 29
    let q := spillReq c x a
    match alignTrap [q] 8 with
    | some tr => .trap r tr 0
    | none =>
      let acc : Acc := { loc := r.locIn ps q.va, data := leBytes 8 (x.ret.getD 7 RetEntry.none).word.toNat, bnd := 0 }
      if (r.view c.g).tagBad [acc] acc then
        let f := r.consume c.t c.g 8 [(q, acc.loc)]
        .trap f.1 f.2 0
      else .done (r.push c.t c.slot (.store false [acc])) ({ x with ret := e :: x.ret.take 7, spill := x.spill + 1 }.write (wS 29 (a + 8))) e

/-- The access that a pop makes: none where no entry is filled, or where the pop traps before. -/
def popReqs (c : Ctx) (x : Slice) : List LaneReq :=
  if !x.ret.isEmpty || x.spill = 0 || (c.rdS x 3 29 - 8).toNat % 8 ≠ 0 then [] else [spillReq c x (c.rdS x 3 29 - 8)]

/-- A pop (06 R117): from an empty stack the entry comes from [S29 - 8], forwarding from the group's queued stores. -/
def State.popRet (r : State) (ps : List BeatPage) (c : Ctx) (x : Slice) : StackRes :=
  match x.ret with
  | e :: rest => .done r { x with ret := rest } e
  | [] =>
    if x.spill = 0 then .trap r (illegal 3) 0
    else
      let a := c.rdS x 3 29 - 8
      let q := spillReq c x a
      match alignTrap [q] 8, r.group? c.t c.slot with
      | some tr, _ => .trap r tr 0
      | none, none => .wait r
      | none, some g =>
        let loc := r.locIn ps q.va
        if r.loadHeld g false [(loc, 8)] || r.linkHeld (r.l1Misses c.t [(loc, 8)]) then .wait r
        else if (r.view g).poisonFrom c.t loc.key 8 then
          let f := r.consume c.t g 8 [(q, loc)]
          .trap f.1 f.2 0
        else
          let s1 := r.touch c.t g.asid false [(loc, 8)]
          .done s1 ({ x with spill := x.spill - 1 }.write (wS 29 a)) (RetEntry.ofWord ((s1.view g).read64 loc.key))

/-- The slice after a push or pop, with what is done to it then; a trap then leaves all as it was. -/
def StackRes.finish (q : StackRes) (r0 : State) (c : Ctx) (x : Slice) (f : Slice → RetEntry → Except Trap Slice) :
    State × Option (Trap × Nat) :=
  match q with
  | .trap r tr beat => (r, some (tr, beat))
  | .wait r => (r.setSlice c.t c.slot c.i { x with wait := .refused, parkPc := x.pc }, none)
  | .done r y e =>
    match f y e with
    | .ok z => (r.setSlice c.t c.slot c.i z, none)
    | .error tr => (r0, some (tr, 0))

/-- A slice whose instruction does nothing but advance. -/
def State.step1 (r : State) (c : Ctx) (x : Slice) : State × Option (Trap × Nat) := (r.setSlice c.t c.slot c.i x, none)

/-- 06 R118. -/
def execCall (h : Hdr) (t : BitVec 20) (s : State) : Host.Outcome State Fault Refusal :=
  runBeat s (.call h t) fun tl slot => accessBeat tl slot .store (fun c x => if c.performs x h then pushReqs c x else []) fun ps r c x =>
    if c.performs x h then
      (r.pushRet ps c x { addr := x.pc + 8, flag := false }).finish r c x fun y _ => .ok (y.jump (x.target t))
    else r.step1 c (x.adv (.call h t))

/-- What a popped entry does (06 R119). -/
def Slice.retTo (x : Slice) (e : RetEntry) : Except Trap Slice :=
  if !e.flag then .ok (x.jump e.addr)
  else
    match x.div with
    | [] => .error (illegal 3)
    | d :: _ =>
      if d.calli then .ok { x with lmask := d.pend, fmt := d.fmt, pc := d.resume, cont := true } else .error (illegal 3)

/-- 06 R119. -/
def execRet (h : Hdr) (s : State) : Host.Outcome State Fault Refusal :=
  runBeat s (.ret h) fun tl slot => accessBeat tl slot .load (fun c x => if c.performs x h then popReqs c x else []) fun ps r c x =>
    if c.performs x h then (r.popRet ps c x).finish r c x Slice.retTo else r.step1 c (x.adv (.ret h))

/-- The access of CALLI's push. -/
def calliReqs (h : Hdr) (a : VReg) (c : Ctx) (x : Slice) : List LaneReq :=
  let ls := c.guarded x h
  if ls.isEmpty || (ls.any fun l => (c.valV x .n64 0 a.toNat l).n % 8 ≠ 0) || (x.cont && x.div.isEmpty) then [] else pushReqs c x

/-- 06 R120: `tgt` gives a lane's target. A slice whose CONT is 1 has a divergence entry, unless a handler rewrote CONT: ILLEGAL then (log
84). -/
def calliSlice (i : Instr) (h : Hdr) (a : VReg) (ps : List BeatPage) (r : State) (c : Ctx) (x : Slice) : State × Option (Trap × Nat) :=
  let ls := c.guarded x h
  let tgt (l : Nat) : Nat := (c.valV x .n64 0 a.toNat l).n
  let bad := ls.filter fun l => tgt l % 8 ≠ 0
  let first := tgt (ls.headD 0)
  let dest := BitVec.ofNat 64 first
  let m := mask4 (ls.filter fun l => tgt l = first)
  let next := x.pc + 8
  match bad with
  | b :: rest => (r, some (misalign (bad.map fun l => 4 * c.i + l) ((rest.map tgt).foldl min (tgt b)), 0))
  | [] =>
    if x.cont then
      match x.div with
      | [] => (r, some (illegal 3, 0))
      | e :: up =>
        if ls.isEmpty then r.step1 c { x with cont := false, lmask := e.saved, fmt := e.fmt, div := up, pc := next }
        else
          (r.pushRet ps c x { addr := next, flag := true }).finish r c x fun y _ =>
            .ok { y with cont := false, div := { e with pend := x.lmask &&& ~~~m } :: up, lmask := m, pc := dest }
    else if ls.isEmpty then r.step1 c (x.adv i)
    else if m = x.lmask then
      (r.pushRet ps c x { addr := next, flag := false }).finish r c x fun y _ => .ok (y.jump dest)
    else
      (r.pushRet ps c x { addr := next, flag := true }).finish r c x fun y _ =>
        .ok { y with
                div := { calli := true, join := next, saved := x.lmask, pend := x.lmask &&& ~~~m, resume := x.pc, fmt := x.fmt } :: x.div,
                lmask := m, pc := dest }

/-- 06 R120. -/
def execCalli (h : Hdr) (a : VReg) (s : State) : Host.Outcome State Fault Refusal :=
  runBeat s (.calli h a) fun tl slot => accessBeat tl slot .store (calliReqs h a) (calliSlice (.calli h a) h a)

/-! ## Rendezvous and width -/

/-- 06 R121: gangs re-form and every slice goes on. -/
def regangColl (i : Instr) : Coll := fun s t slot => .ok (s.updGroup t slot fun g => (g.contAll i).regang)

/-- 06 R121. -/
def execRegang (h : Hdr) (s : State) : Host.Outcome State Fault Refusal := 
  runColl s (.regang (plainHdr h)) (regangColl (.regang (plainHdr h))) noIssue

/-- The group at a new grant goes on after its SETW: an arrival that waited for slices now retired is made (10 R194), and a change of the
grant invalidates its A latch (14 R287). -/
def State.regranted (s : State) (t slot : Nat) (g : Group) (g2 : Nat) (wins : List (Nat × List (Nat × Nat))) : State :=
  let s1 := s.setGroup t slot (g.regrantTo g2 wins (g.leader.pc + 8)).completeArrivals.letPreempt
  if g2 = g.grant then s1 else s1.updTile t fun x => { x with alatch := x.alatch.filter fun p => p.2.gid ≠ g.gid }

/-- The grant of a group all of whose slices wait at a SETW, where its quarter has room (06 R122). -/
def State.setwGrant (s : State) (t slot : Nat) : State :=
  match s.group? t slot with
  | none => s
  | some g =>
    match (if g.liveIdx.all fun k => (g.slice k).wait = g.leader.wait then g.leader.wait else .run) with
    | .setw i =>
      match i with
      | .setw _ lo hi e =>
        match (s.tile t).setwFit slot g lo.toNat hi.toNat with
        | some (g2, wins) =>
          let g1 : Group :=
            match e with
            | some a => { g with elastic := true, rgh := g.leader.sReg a.toNat }
            | none => g
          s.regranted t slot g1 g2 wins
        | none => s
      | _ => s
    | _ => s

/-- SETW once its rendezvous is complete: its traps, then the wait for room (06 R122). -/
def setwColl (i : Instr) (lo : BitVec 8) (e : Option SReg) : Coll := fun s t slot =>
  match s.group? t slot with
  | none => .ok s
  | some g =>
    let rgh := match e with
      | some a => (g.leader.sReg a.toNat).toNat
      | none => 0
    if g.liveIdx.any fun k => !(g.slice k).div.isEmpty then .error (mkTrap 0x04 0)
    else if !couldFit g.dual g.allot lo.toNat then .error (illegal 0)
    else if rgh % 8 ≠ 0 then .error { mkTrap 0x06 0 with aux0 := BitVec.ofNat 64 rgh }
    else
      let g1 := g.liveIdx.foldl (fun r k => let x := r.slice k; r.setSlice k { x with wait := .setw i, parkPc := x.pc }) g
      .ok ((s.setGroup t slot g1).setwGrant t slot)

/-- 06 R122. -/
def execSetw (h : Hdr) (lo hi : BitVec 8) (e : Option SReg) (s : State) : Host.Outcome State Fault Refusal :=
  runColl s (.setw (plainHdr h) lo hi e) (setwColl (.setw (plainHdr h) lo hi e) lo e) noIssue

/-- A slice that retires by EXIT: it is no longer live and its windows are free; cross-lane instructions still read the values
its lanes last held (06 R123, 08 R158, 09 R170). -/
def Slice.retire (x : Slice) : Slice :=
  { x with live := false, lmask := 0, wins := [], wait := .run, async := [], arrv := 0 }

/-- 06 R123: lanes leave for good; a slice without lanes retires. -/
def Slice.exit (x : Slice) (i : Instr) (gone : BitVec 4) : Except Trap Slice :=
  if !x.div.isEmpty then .error (illegal 3)
  else if x.lmask &&& ~~~gone = 0 then .ok x.retire
  else .ok { x.adv i with lmask := x.lmask &&& ~~~gone }

/-- 06 R123; arrivals that wait for slices now retired are made (10 R194). -/
def execExit (h : Hdr) (s : State) : Host.Outcome State Fault Refusal :=
  runBeat s (.exit h) fun t slot u s l =>
    let r := perSlice t slot (fun _ c x => x.exit (.exit h) (mask4 (c.guarded x h))) u s l
    (r.1.updGroup t slot fun g => g.completeArrivals.letPreempt, r.2)

/-- 06 R124: the pause takes the 8 tile cycles after this one. -/
def execYield (h : Hdr) (s : State) : Host.Outcome State Fault Refusal :=
  runSlices s (.yield h) fun _ c x =>
    let y := x.adv (.yield h)
    let n := (c.st.tile c.t).cycle
    .ok (if c.performs x h then { y with wait := .pause (n + 9), stamp := n } else y)

/-- 06 R125. -/
def execWaitt (h : Hdr) (a : SReg) (s : State) : Host.Outcome State Fault Refusal :=
  runSlices s (.waitt h a) fun _ c x =>
    let v := c.rdS x 0 a.toNat
    let y := x.adv (.waitt h a)
    .ok (if c.performs x h && decide (c.st.time.toNat < v.toNat) then { y with wait := .waitt v, parkPc := x.pc } else y)

/-- 06 R126. -/
def execNop (h : Hdr) (s : State) : Host.Outcome State Fault Refusal := runSlices s (.nop h) fun _ _ x => .ok (x.adv (.nop h))

/-- 06 R126: USER_TRAP, resuming at the next instruction. -/
def execTrap (h : Hdr) (imm : Imm24) (s : State) : Host.Outcome State Fault Refusal :=
  runSlices s (.trap h imm) fun _ c x =>
    if c.performs x h then .error { mkTrap 0x0B imm.toNat with rpc := some (x.pc + 8) } else .ok (x.adv (.trap h imm))

/-- An opcode with no meaning: UNDEF_OP with the words in the frame (05 R98, 18 Table 18.2); `deliver` turns it into ILLEGAL when
there is no emulation handler (18 R343). -/
def execUndefinedOpcode (w0 w1 : DWord) (s : State) : Host.Outcome State Fault Refusal :=
  runSlices s (.undefinedOpcode w0 w1) fun _ _ _ =>
    .error { mkTrap 0x02 0 with aux0 := w0, aux1 := if wBit w0 then w1 else 0 }

end Sys2Proof.Machine
end

