-- ==== Sys2Proof/Machine/Queue.lean ====
section
/-! DEFINITION. SPAWN (16 R318, R319) and the sluice instructions (19 R369): their checks at issue and their entry into the store
queue. -/

namespace Sys2Proof.Machine

/-! ## Task records -/

/-- A field of a word of a record, [hi:lo]. -/
def fieldAt (ws : List DWord) (n hi lo : Nat) : Nat := bits (ws.getD n 0) hi lo

/-- The code section of a launch: base and size (18 R352). -/
def State.codeOf (s : State) (l : Launch) : Option (Nat × Nat) :=
  (s.objects.find? fun o => o.handle.toNat = fieldAt l.words 9 31 0 && o.asid = l.asid).map fun o => (o.base, o.size)

/-- An address lies in a section. -/
def inSection (sec : Option (Nat × Nat)) (a : Nat) : Bool :=
  match sec with
  | some (b, n) => decide (b ≤ a) && decide (a < b + n)
  | none => false

/-- The widths obey the rules of code 0x03 (16 Table 16.3). -/
def widthsOk (lo hi : Nat) (di : Bool) : Bool :=
  lo % 4 = 0 && hi % 4 = 0 && 4 ≤ lo && lo ≤ hi && hi ≤ 96 && !(di && 48 < hi)

/-- A task record keeps 16 Table 16.4, but for ENTRY[2:0] (16 R319). -/
def State.taskOk (s : State) (launch : Nat) (ws : List DWord) : Bool :=
  match s.launch? launch with
  | none => false
  | some l =>
    let entry := (ws.getD 0 0).toNat
    let lo := fieldAt ws 3 55 48
    let hi := fieldAt ws 3 47 40
    entry < 2 ^ 56 && inSection (s.codeOf l) entry && (ws.getD 2 0).toNat % 16 = 0 && fieldAt ws 3 62 56 = 0 &&
      fieldAt ws 3 34 32 = 0 && fieldAt ws 3 5 0 = 0 && (fieldAt ws 3 63 63 = 0 || lo = hi) &&
      widthsOk lo hi (fieldAt l.words 11 6 6 = 1) && fieldAt ws 3 31 13 % 8 = 0 && fieldAt ws 3 31 13 ≤ 303104 &&
      fieldAt ws 3 12 6 ≤ 64 && (ws.drop 4).all (· = 0)

/-- The record that a lane's sixteen registers hold. -/
def Ctx.taskWords (c : Ctx) (x : Slice) (a : VReg) (l : Nat) : List DWord :=
  (List.range 8).map fun n =>
    let r (k : Nat) : Nat := (c.rdV x (k % 2) (a.toNat + k) l).val.toNat
    BitVec.ofNat 64 (r (2 * n) + 2 ^ 32 * r (2 * n + 1))

/-- The records of a slice with their lanes. -/
def Ctx.spawnRecs (c : Ctx) (x : Slice) (h : Hdr) (a : VReg) : List (Nat × List DWord) :=
  (c.guarded x h).map fun l => (4 * c.i + l, c.taskWords x a l)

/-- The trap of a beat's records: MISALIGN for entries that are not multiples of 8, else ILLEGAL for any other breach (16 R319). -/
def State.spawnTrap (s : State) (t : Nat) (g : Group) (rs : List (Nat × List DWord)) : Option Trap :=
  let entry (p : Nat × List DWord) : Nat := (p.2.getD 0 0).toNat
  match rs.filter fun p => entry p % 8 ≠ 0 with
  | p :: rest => some (misalign ((p :: rest).map Prod.fst) ((rest.map entry).foldl min (entry p)))
  | [] => if rs.all fun p => s.taskOk (s.groupLaunch t g) p.2 then none else some (illegal 3)

/-- SPAWN of a beat: the records enter the store queue as one entry where every check of every lane passes; else every slice of the beat
traps (16 R319, log 51). -/
def spawnPlan (i : Instr) (h : Hdr) (pd : PReg) (a : VReg) (t slot : Nat) : Plan := fun _ s l => withGroup s t slot fun g =>
  let rs := l.map fun k => (k, (ctxOf s t slot g k).spawnRecs (g.slice k) h a)
  let recs := rs.flatMap Prod.snd
  match s.spawnTrap t g recs with
  | some tr => (s, trapAll l tr 0)
  | none =>
    let tok := s.nextId
    let s1 := if recs.isEmpty then s else ({ s with nextId := tok + 1 }.relFence t slot .rel .pkg).push t slot (.spawn tok pd.toNat recs)
    let ks := (rs.filter fun p => !p.2.isEmpty).map Prod.fst
    ((ks.foldl (fun (r : State) k => r.postTok t slot k tok 1) s1).advAll t slot i l, [])

/-- 16 R318, R319. -/
def execSpawn (h : Hdr) (pd : PReg) (a : VReg) (s : State) : Host.Outcome State Fault Refusal :=
  runBeat s (.spawn h pd a) (spawnPlan (.spawn h pd a) h pd a)

/-! ## Sluices -/

def State.sluice (s : State) (n : Nat) : Sluice := Sparse.get Sluice.reset s.sluices n

def State.setSluice (s : State) (n : Nat) (x : Sluice) : State := { s with sluices := Sparse.set Sluice.reset s.sluices n x }

/-- Fields of SLCFG (19 Table 19.4). -/
def Sluice.en (x : Sluice) : Bool := x.cfg.getLsbD 0
def Sluice.n (x : Sluice) : Nat := 2 ^ bits x.cfg 4 1
def Sluice.prAsid (x : Sluice) : Nat := bits x.cfg 46 32
def Sluice.ckAsid (x : Sluice) : Nat := bits x.cfg 61 47

/-- Where record i lies (19 R368). -/
def Sluice.slotAt (x : Sluice) (i : Nat) : Nat := bits x.base 51 12 * 2 ^ 12 + 64 * (i % x.n)

/-- One slice's sluice instruction: `ok` says whether its checks pass, `act` enters the queue (19 R369). -/
def sluiceSlice (i : Instr) (h : Hdr) (a : SReg) (ok : Sluice → Nat → Bool) (act : State → Ctx → Slice → Nat → State) (r : State)
    (c : Ctx) (x : Slice) : State × Option (Trap × Nat) :=
  let sa := (c.rdS x 0 a.toNat).toNat
  if !c.performs x h then (r.setSlice c.t c.slot c.i (x.adv i), none)
  else if 4096 ≤ sa || !(r.sluice sa).en || !ok (r.sluice sa) c.g.asid then (r, some (illegal 3, 0))
  else (act ((r.setSlice c.t c.slot c.i (x.adv i)).relFence c.t c.slot .rel .sys) c x sa, none)

/-- 19 R370: the payload is read at issue. -/
def execSlput (h : Hdr) (d a b : SReg) (s : State) : Host.Outcome State Fault Refusal :=
  runBeat s (.slput h d a b) fun t slot => eachSlice t slot (sluiceSlice (.slput h d a b) h a (fun q asid => q.prAsid = asid)
    fun r c x n =>
      let pay := (List.range 6).map fun k => c.rdS x 1 (b.toNat + k)
      (({ r with nextId := r.nextId + 1 }).postTok c.t c.slot c.i r.nextId 1).push c.t c.slot (.slput n r.nextId c.i d pay))

/-- 19 R371. -/
def execSlrel (h : Hdr) (a b : SReg) (s : State) : Host.Outcome State Fault Refusal :=
  runBeat s (.slrel h a b) fun t slot => eachSlice t slot fun r c x =>
    let n := (c.rdS x 1 b.toNat).toNat
    sluiceSlice (.slrel h a b) h a (fun q asid => q.ckAsid = asid && n < q.put.toNat)
      (fun r c _ m => r.push c.t c.slot (.slrel m n)) r c x

/-- 19 R371. -/
def execSlveto (h : Hdr) (a b : SReg) (s : State) : Host.Outcome State Fault Refusal :=
  runBeat s (.slveto h a b) fun t slot => eachSlice t slot fun r c x =>
    let n := (c.rdS x 1 b.toNat).toNat
    sluiceSlice (.slveto h a b) h a (fun q asid => q.ckAsid = asid && n < q.put.toNat && q.rel.toNat ≤ n)
      (fun r c _ m => r.push c.t c.slot (.slveto m n)) r c x

end Sys2Proof.Machine
end

