-- ==== Sys2Proof/Machine/Boot.lean ====
section
/-! DEFINITION. Boot (22 R396-R398), warm reset (22 R399), power-off (00 R2), and what of the memory survives them. -/

namespace Sys2Proof.Machine

/-! ## The flash -/

/-- Bytes of the flash from an offset on. -/
def flashBytes (off n : Nat) : List Byte := (List.range n).map fun i => Config.flash (off + i)

/-- A little-endian field of the flash. -/
def flashNat (off n : Nat) : Nat := leNat (flashBytes off n)

def flashZero (off n : Nat) : Bool := (flashBytes off n).all (· = 0)

/-- Where the firmware image begins (22 Table 22.8). -/
def fwBase : Nat := 0x100000

/-- LEN of the image, and the body's offset (22 Table 22.9). -/
def fwLen : Nat := flashNat (fwBase + 8) 8
def fwBody : Nat := fwBase + 0xE60

/-- PUBKEY. -/
def fwKey : List Byte := flashBytes (fwBase + 0x40) 2592

/-- A module entry: kind, offset in the body, size, load address, virtual address. -/
structure FwMod where
  kind : Nat
  off : Nat
  size : Nat
  load : Nat
  vaddr : Nat

/-- The module entries in use. -/
def fwMods : List FwMod :=
  (List.range (min 16 (flashNat (fwBase + 6) 2))).map fun i =>
    let a := fwBase + 0xA60 + 64 * i
    { kind := flashNat a 4, off := flashNat (a + 8) 8, size := flashNat (a + 16) 8, load := flashNat (a + 24) 8,
      vaddr := flashNat (a + 32) 8 }

/-- The longest body (22 Table 22.9). -/
def fwMaxLen : Nat := 0x1E00000

/-- Step 0x01 (22 R398). The ROM reads the region of the image alone, so that a longer body has no signature that verifies (log 82). -/
def bootFirmware : Bool :=
  let ks := fwMods.map FwMod.kind
  decide (fwLen ≤ fwMaxLen) && decide (flashNat fwBase 4 = 0x0157464D) && decide (flashNat (fwBase + 4) 2 = 1) && flashZero (fwBase + 0x10) 48 &&
    decide (Config.sha3 fwKey = Config.romKeyDigest) && fwMods.all (fun m => decide (m.off + m.size ≤ fwLen)) &&
    decide (nubNat ks = ks) && ks.all (fun k => 1 ≤ k && k ≤ 4) && [1, 2, 3].all ks.elem &&
    Config.verify fwKey (Config.sha3 (flashBytes fwBase (0xE60 + fwLen))) (flashBytes (fwBody + fwLen) 4627)

/-- Step 0x02 (22 R397, R398). -/
def bootConfig : Bool := Config.verify fwKey (Config.sha3 (flashBytes 0 0xB60)) (flashBytes 0xB60 4627)

/-- A byte as a signed number, within a limit. -/
def trimOk (off n lim : Nat) : Bool := (flashBytes off n).all fun b => -(lim : Int) ≤ b.toInt && b.toInt ≤ (lim : Int)

/-- Step 0x03 (22 R397). -/
def bootFields : Bool :=
  decide (flashNat 0 4 = 0x0143464C) && decide (flashNat 4 2 = 1) && flashZero 6 2 && flashZero 0x1A 6 && flashZero 0x138 8 &&
    (flashBytes 0x10 8).all (fun b => decide (b.toNat ≤ 32)) && trimOk 0x20 8 40 && trimOk 0x28 8 30 &&
    (flashBytes 0x30 264).all (fun b => decide (b.toNat ≤ 63))

/-- Step 0x04 (22 R400). -/
def bootIdentity : Bool := decide (flashBytes 0x140 2592 = Config.idKey)

/-- The code of the step that stops boot; 0 when all pass (22 R396, Table 22.6). -/
def bootCode : Nat := if !bootFirmware then 1 else if !bootConfig then 2 else if !bootFields then 3 else if !bootIdentity then 4 else 0

/-- The emulation handler's module, kind 4 (22 R398). -/
def fwHandler : Option FwMod := fwMods.find? fun m => m.kind = 4

/-- The emulation handler is loaded: a store like any other to the granules it replaces (21 R378, 22 R398). -/
def State.loadHandler (s : State) (m : FwMod) : State :=
  s.storeAccs
    [{ loc := { key := m.load, tagged := false, l2s := 0, cp := 0 }, data := flashBytes (fwBody + m.off) m.size, bnd := 0 }]

/-- The rings begin with the first microsecond that starts from now on (09 R184). -/
def ringsFrom (now : Nat) : Sparse Ring :=
  (List.range 8).foldl (fun m d => Sparse.set Ring.reset m d { Ring.reset with us := (now + 999) / 1000 }) []

/-- The boot ROM runs (22 R396): a failure leaves only BOOTSTAT and RSTCTL; else the handler is loaded, EMVEC and FLDOM.ID are
set, and the measurement log is started. -/
def State.boot (s : State) : State :=
  let ok := bootCode = 0
  let k := if ok then (match fwHandler with
    | some m => s.loadHandler m
    | none => s) else s
  { k with
      rings := ringsFrom s.time.toNat,
      booted := decide ok,
      measLog := if ok then [(1, .rom), (2, .firmware), (3, .config)] else [],
      csr := { s.csr with
        bootStat := BitVec.ofNat 8 bootCode,
        emvec := if ok then (match fwHandler with
          | some m => BitVec.ofNat 64 (m.vaddr % 2 ^ 56 / 8 * 8)
          | none => 0) else 0,
        fldomId := if ok then BitVec.ofNat 10 (flashNat 0x18 2) else 0 } }

/-- The digest an entry of the measurement log holds (22 R401). -/
def Digest.bits : Digest → BitVec 512
  | .rom => Config.romDigest
  | .firmware => Config.sha3 (flashBytes fwBase (0xE60 + fwLen + 4627))
  | .config => Config.sha3 (flashBytes 0 (0xB60 + 4627))
  | .given d => d

/-! ## What survives -/

/-- Memory keeps the older value of a sector that a lost cache held newer (00 R2, log 31). -/
def State.loseSector (s : State) (b : Behind) : State :=
  let s1 : State := match b.data with
    | some d => { s.writeBytes (64 * b.sec) d.1 with poison := (s.poison.filter fun u => u / 8 ≠ b.sec) ++ d.2 }
    | none => s
  match b.tag with
  | some g =>
    { s1.setTag (64 * b.sec) g.1 with badTags := (s1.badTags.filter fun n => n ≠ b.sec) ++ (if g.2 then [b.sec] else []) }
  | none => s1

/-- What the caches alone held is lost. -/
def State.loseDirty (s : State) : State := s.behind.foldl State.loseSector s

/-- 22 R399, 00 R2: memory, its tags and its poison, and ALMCAUSE are kept; TIME goes on (19 R367, log 6); everything else is
at reset, and the boot ROM runs. When the next in-field test is due is the model's choice: INTERVAL after TIME 0, as at power-on (21 R387,
log 107). -/
def State.warm (s : State) : State :=
  let k := s.loseDirty
  ({ State.reset with
      time := s.time, mem := k.mem, tags := k.tags, poison := k.poison.filter (fun g => 8 * g < padBase),
      badTags := k.badTags.filter (fun n => 64 * n < padBase),
      csr := { Csr.reset with almCause := s.csr.almCause },
      almQuiet := s.almQuiet, almTie := s.almTie, hostOut := s.hostOut, fenOut := s.fenOut, quoteOut := s.quoteOut, agenda := s.agenda,
      free := s.free + 1, nextId := s.nextId } : State).boot

/-- Power is removed (00 R2): what lies outside the package, host and CXL memory and the peers, keeps what it held apart from the
package's caches. -/
def State.dark (s : State) : State :=
  let k := s.loseDirty
  { State.reset with
      mem := k.mem.filter fun c => 2 ^ 52 ≤ c.1, tags := k.tags.filter fun c => 2 ^ 46 ≤ c.1, powered := false, booted := false,
      poison := k.poison.filter (fun g => 2 ^ 52 ≤ 8 * g && 8 * g < padBase),
      badTags := k.badTags.filter (fun n => 2 ^ 52 ≤ 64 * n && 64 * n < padBase), measLog := [], agenda := s.agenda, free := s.free + 1, nextId := s.nextId }

/-- Power returns (22 R396). -/
def State.light (s : State) : State := if s.powered then s else { s with powered := true }.boot

end Sys2Proof.Machine
end

