-- ==== Sys2Proof/Machine/Csr.lean ====
section
/-! DEFINITION. The system registers as CSRR, CSRW and the host's BAR0 reach them (18 R344, Table 18.3, and the tables it
names). -/

namespace Sys2Proof.Machine

/-- The bits [hi:lo] of a value, in place. -/
def keep (v : DWord) (hi lo : Nat) : DWord := BitVec.ofNat 64 (bits v hi lo * 2 ^ lo)

/-- A value within limits. -/
def clamp (v lo hi : Nat) : Nat := max lo (min v hi)

/-- A write to FLBASE or ELBASE: ignored while EN = 1 (17 R330). -/
def logBase (old cfg v : DWord) : DWord := if cfg.getLsbD 5 then old else keep v 51 12

/-- A write to FLCFG or ELCFG: LOG2N is ignored while EN = 1, and held within 6 to 20 (17 Table 17.9). -/
def logCfg (old v : DWord) : DWord :=
  let n := if old.getLsbD 5 then bits old 4 0 else clamp (bits v 4 0) 6 20
  keep v 5 5 ||| BitVec.ofNat 64 n

/-- The system register of a number, as it reads (18 Table 18.3); `td` is the reading slice's trap depth. None: unlisted. -/
def State.csrRead (s : State) (td n : Nat) : Option DWord :=
  let c := s.csr
  if n = 0x000 then some c.ptvec
  else if n = 0x001 then some c.emvec
  else if n = 0x002 then some c.tfbase
  else if n = 0x003 then some c.asidtb
  else if n = 0x004 then some (BitVec.ofNat 64 td)
  else if 0x010 ≤ n && n < 0x014 then some (Sparse.get 0 c.bpa (n - 0x010))
  else if 0x020 ≤ n && n < 0x030 then
    some (if n % 2 = 0 then Sparse.get 0 c.nearReq ((n - 0x020) / 2) else Sparse.get 0 c.farReq ((n - 0x020) / 2))
  else if n = 0x040 then some c.flBase
  else if n = 0x041 then some c.flCfg
  else if n = 0x042 then some (c.flW.setWidth 64)
  else if n = 0x043 then some (c.flR.setWidth 64)
  else if n = 0x044 then some c.elBase
  else if n = 0x045 then some c.elCfg
  else if n = 0x046 then some (c.elW.setWidth 64)
  else if n = 0x047 then some (c.elR.setWidth 64)
  else if n = 0x048 then some c.testCfg
  else if n = 0x049 then some c.testStat
  else if n = 0x050 then some (packBits [(c.fldomCount, 16), (c.fldomId.toNat, 0)])
  else if n = 0x058 then some (c.almCause.setWidth 64)
  else if n = 0x059 then some (BitVec.ofNat 64 c.pwrLim)
  else if n = 0x05A then some (c.bootStat.setWidth 64)
  else if n = 0x05B then some 0
  else if 0x060 ≤ n && n < 0x080 then
    some (if n % 2 = 0 then Sparse.get 0 c.cxlLo ((n - 0x060) / 2) else Sparse.get 0 c.cxlHi ((n - 0x060) / 2))
  else if 0x400 ≤ n && n < 0xC00 then
    some (if n % 2 = 0 then Sparse.get 0 c.ownLo ((n - 0x400) / 2) else Sparse.get 0 c.ownHi ((n - 0x400) / 2))
  else none

/-- A write to a register that is state of the table alone (18 Table 18.3, 17 Tables 17.8 and 17.9, 19 R364 and Table 19.3, 21
Table 21.2, 22 Tables 22.2 and 22.3). Read-only registers ignore it. -/
def Csr.write (c : Csr) (n : Nat) (v : DWord) : Csr :=
  if n = 0x000 then { c with ptvec := keep v 55 13 }
  else if n = 0x001 then { c with emvec := keep v 55 3 }
  else if n = 0x002 then { c with tfbase := keep v 55 27 }
  else if n = 0x003 then { c with asidtb := keep v 51 19 }
  else if 0x010 ≤ n && n < 0x014 then { c with bpa := Sparse.set 0 c.bpa (n - 0x010) (keep v 55 3 ||| keep v 0 0) }
  else if 0x020 ≤ n && n < 0x030 then
    if n % 2 = 0 then { c with nearReq := Sparse.set 0 c.nearReq ((n - 0x020) / 2) v }
    else { c with farReq := Sparse.set 0 c.farReq ((n - 0x020) / 2) v }
  else if n = 0x040 then { c with flBase := logBase c.flBase c.flCfg v }
  else if n = 0x041 then { c with flCfg := logCfg c.flCfg v }
  else if n = 0x043 then { c with flR := v.setWidth 32 }
  else if n = 0x044 then { c with elBase := logBase c.elBase c.elCfg v }
  else if n = 0x045 then { c with elCfg := logCfg c.elCfg v }
  else if n = 0x047 then { c with elR := v.setWidth 32 }
  else if n = 0x048 then { c with testCfg := keep v 32 32 ||| BitVec.ofNat 64 (max 100 (bits v 31 0)) }
  else if n = 0x050 then { c with fldomCount := clamp (bits v 26 16) 1 1024 }
  else if n = 0x058 then { c with almCause := c.almCause &&& ~~~(v.setWidth 16) }
  else if n = 0x059 then { c with pwrLim := clamp (bits v 11 0) 266 2800 }
  else if 0x060 ≤ n && n < 0x080 then
    if n % 2 = 0 then { c with cxlLo := Sparse.set 0 c.cxlLo ((n - 0x060) / 2) (keep v 51 28 ||| keep v 1 0) }
    else { c with cxlHi := Sparse.set 0 c.cxlHi ((n - 0x060) / 2) (keep v 51 16 ||| keep v 1 0) }
  else if 0x400 ≤ n && n < 0xC00 then
    if n % 2 = 0 then { c with ownLo := Sparse.set 0 c.ownLo ((n - 0x400) / 2) (keep v 55 21 ||| keep v 0 0) }
    else { c with ownHi := Sparse.set 0 c.ownHi ((n - 0x400) / 2) (keep v 63 39 ||| keep v 34 0) }
  else c

/-- A write to RSTCTL: a matching KEY with WARM = 1 (22 Table 22.10). -/
def rstMatch (v : DWord) : Bool := decide (bits v 31 16 = 0x5752) && v.getLsbD 0

/-- The bits of a write of 1 to ALMCAUSE that clear theirs: not those whose condition is detected in the same hub cycle, of which two pass
in a nanosecond (22 R394, log 11). -/
def State.almClears (s : State) (v : DWord) : DWord :=
  if s.almTie.seenAt = s.time && s.choose 18 2 = 1 then v &&& ~~~(s.almTie.seen.setWidth 64) else v

/-- A write to a system register (18 R344). RSTCTL may start a warm reset (22 R399); when the last alarm cause is cleared, TIME is
kept for R395's 2 µs. -/
def State.csrWrite (s : State) (n : Nat) (v : DWord) : State :=
  if n = 0x05B then (if rstMatch v then s.warm else s)
  else
    let v := if n = 0x058 then s.almClears v else v
    let c := s.csr.write n v
    let s1 : State := { s with csr := c, almQuiet := if almCauses s.csr.almCause ≠ 0 && almCauses c.almCause = 0 then s.time else s.almQuiet }
    if n = 0x058 then { s1 with almTie := { s.almTie with clearedAt := s.time, cleared := s.csr.almCause &&& v.setWidth 16 } } else s1

end Sys2Proof.Machine
end

