-- ==== Sys2Proof/Machine/System.lean ====
section
/-! DEFINITION. The system instructions (18 R342-R351): calls, returns, context items, system registers, TLB invalidation and
HALT. -/

namespace Sys2Proof.Machine

/-- A privileged instruction in one slice: in user mode ILLEGAL with CODE 0x02 (18 R336). -/
def privSlice (i : Instr) (h : Hdr) (f : State → Ctx → Slice → State × Option (Trap × Nat)) (r : State) (c : Ctx) (x : Slice) :
    State × Option (Trap × Nat) :=
  if !c.performs x h then r.step1 c (x.adv i)
  else if !x.pm then (r, some (illegal 2, 0))
  else f r c x

/-- 18 R343. -/
def execSysc (h : Hdr) (imm : Imm24) (s : State) : Host.Outcome State Fault Refusal :=
  runSlices s (.sysc h imm) fun _ c x =>
    if c.performs x h then .error { mkTrap 0x0C imm.toNat with rpc := some (x.pc + 8) } else .ok (x.adv (.sysc h imm))

/-! ## Returning -/

/-- A privileged access of one slice, at its lowest performing lane. -/
def oneReq (c : Ctx) (x : Slice) (h : Hdr) (va : Nat) : LaneReq := { k := c.i, l := (c.guarded x h).headD 0, va := va }

/-- What a load of a handler comes to. -/
inductive LoadRes where
  | words (s : State) (ws : List DWord)
  | wait (s : State)
  | trap (s : State) (tr : Trap) (beat : Nat)

/-- A load of n 8-byte words from an address in a page of the beat; `used` says which of them count for poison. -/
def State.loadWords (r : State) (ps : List BeatPage) (c : Ctx) (x : Slice) (h : Hdr) (va n : Nat) (used : Nat → Bool) : LoadRes :=
  let q := oneReq c x h va
  let loc := r.locIn ps va
  match r.group? c.t c.slot with
  | none => .wait r
  | some g =>
    if r.loadHeld g false [(loc, 8 * n)] || r.linkHeld (r.l1Misses c.t [(loc, 8 * n)]) then .wait r
    else
      match (List.range n).filter fun k => used k && (r.view g).poisonFrom c.t (loc.key + 8 * k) 8 with
      | k :: _ =>
        let f := r.consume c.t g 8 [(q, { loc with key := loc.key + 8 * k })]
        .trap f.1 f.2 0
      | [] =>
        let s1 := r.touch c.t g.asid false [(loc, 8 * n)]
        .words s1 ((List.range n).map fun k => (s1.view g).read64 (loc.key + 8 * k))

/-- The level at TD - 1. -/
def Slice.top (x : Slice) : Level :=
  x.levels.getD (x.td - 1) { vec := 0, gang := 0, dsn := 0, div := [], rsn := 0, ret := [], spill := 0 }

/-- Where the frame of level TD - 1 lies, in a 128-byte slot (18 R338, R342). -/
def State.frameVa (r : State) (c : Ctx) (x : Slice) : Nat := frameAddr r.csr.tfbase c.t c.slot c.i (x.td - 1)

/-- The words of the frame of level TD - 1. -/
def State.frame (r : State) (ps : List BeatPage) (c : Ctx) (x : Slice) (h : Hdr) (used : Nat → Bool) : LoadRes :=
  r.loadWords ps c x h (r.frameVa c x) 16 used

/-- A return from the handler of MACHINE_CHECK, or its HALT, has the team killed (21 R381). -/
def State.checkDone (s : State) (c : Ctx) (l : Level) : State := if l.vec = 0x0E then s.doom c.t c.g.team else s

/-- The vector of the level returned from is the one required. -/
def Slice.returns (x : Slice) (need : Option Nat) : Bool := x.td ≠ 0 && !need.any (· ≠ x.top.vec)

/-- The frames that a beat of returns reads. -/
def rftReqs (h : Hdr) (need : Option Nat) (c : Ctx) (x : Slice) : List LaneReq :=
  if c.performs x h && x.pm && x.returns need then [oneReq c x h (c.st.frameVa c x)] else []

/-- A slice's return: PC := RPC at the frame's level (18 R342). `rpc` is made from the frame's words. The handler's results return before
the new run begins; a slice that resumes on a changed grant waits for REGRANT (18 R351). -/
def rftSlice (h : Hdr) (used : Nat → Bool) (rpc : List DWord → DWord) (need : Option Nat) (ps : List BeatPage) (r : State) (c : Ctx)
    (x : Slice) : State × Option (Trap × Nat) :=
  let l := x.top
  if !x.returns need then (r, some (illegal 3, 0))
  else
    match r.frame ps c x h used with
    | .trap r1 tr beat => (r1, some (tr, beat))
    | .wait r1 => (r1.setSlice c.t c.slot c.i { x with wait := .refused, parkPc := x.pc }, none)
    | .words r1 ws =>
      match x.rft l ws (rpc ws) with
      | none => (r, some (illegal 3, 0))
      | some y =>
        let z : Slice := if c.g.regrant ≠ 0 && x.td = 1 then { y with wait := .regrant, parkPc := y.pc } else y.wake
        ((r1.setSlice c.t c.slot c.i z).checkDone c l, none)

/-- What RFT reads: words 1, 2 and 7 to 15. -/
def rftWords (k : Nat) : Bool := k = 1 || k = 2 || 7 ≤ k

/-- EMRET needs the frame's PC and AUX0 in place of RPC (18 R343). -/
def emretWords (k : Nat) : Bool := k = 0 || k = 2 || k = 5 || 7 ≤ k

/-- A slice at a changed grant: stacks empty, all lanes, user mode, at RGH (18 R351). -/
def Slice.toRgh (x : Slice) (grant old : Nat) (image rgh : DWord) : Slice :=
  let y : Slice :=
    { x with div := [], ret := [], spill := 0, cont := false, lmask := 0b1111, pm := false, td := 0, levels := [], pc := rgh,
             wait := .run, newRun := true, wset := 0, skipBp := false, glead := none }
  ((y.write (wS 1 (BitVec.ofNat 64 grant))).write (wS 4 (BitVec.ofNat 64 old))).write (wS 5 image)

/-- REGRANT, once every live slice waits for it and no result is still to come; a slice new in the grant first takes the scalar state of
the lowest restored one (18 R350, R351). -/
def Group.takeRegrant (g0 : Group) (s : State) : Group :=
  if g0.regrant ≠ 0 && g0.liveIdx.all fun k => decide ((g0.slice k).wait = .regrant) && (g0.slice k).drainable then
    let g := g0.drainLive s
    let m := g.leader
    let g1 := g.liveIdx.foldl
      (fun r k =>
        let x := r.slice k
        let y : Slice := if g.regrant / 4 ≤ k then { x with s := m.s, fmt := m.fmt, ebud := m.ebud, hx := m.hx } else x
        r.setSlice k (y.toRgh g.grant g.regrant g.image g.rgh)) g
    { g1 with regrant := 0 }.regang
  else g0

/-- After a beat of returns: REGRANT, or a pre-emption that was held, may be taken (18 R340, R351). -/
def State.afterReturn (s : State) (t slot : Nat) : State := s.updGroup t slot fun g => (g.takeRegrant s).letPreempt

/-- A beat of returns. -/
def returnPlan (i : Instr) (h : Hdr) (need : Option Nat) (f : List BeatPage → State → Ctx → Slice → State × Option (Trap × Nat))
    (t slot : Nat) : Plan :=
  fun u s l =>
    let r := accessBeat t slot .load (rftReqs h need) (fun ps => privSlice i h (f ps)) u s l
    (r.1.afterReturn t slot, r.2)

def execRft (h : Hdr) (s : State) : Host.Outcome State Fault Refusal :=
  runBeat s (.rft h) (returnPlan (.rft h) h none (rftSlice h rftWords (fun ws => ws.getD 1 0) none))

/-- Where EMRET resumes (18 R343). -/
def emretPc (ws : List DWord) : DWord := ws.getD 0 0 + (if (ws.getD 5 0).getLsbD 62 then 16 else 8)

def execEmret (h : Hdr) (s : State) : Host.Outcome State Fault Refusal :=
  runBeat s (.emret h) (returnPlan (.emret h) h (some 0x02) (rftSlice h emretWords emretPc (some 0x02)))

/-- EMRET.dcl: the pop, and then ILLEGAL with CODE 0x01 at the same level, raised by the emulated instruction (18 R343). -/
def declineSlice (h : Hdr) (ps : List BeatPage) (r : State) (c : Ctx) (x : Slice) : State × Option (Trap × Nat) :=
  match rftSlice h (fun k => emretWords k && k ≠ 5) (fun ws => ws.getD 0 0) (some 0x02) ps r c x with
  | (r1, some q) => (r1, some q)
  | (r1, none) => if (r1.slice c.t c.slot c.i).wait = .refused then (r1, none) else (r1, some (illegal 1, 0))

def execEmretDcl (h : Hdr) (s : State) : Host.Outcome State Fault Refusal :=
  runBeat s (.emretDcl h) fun t slot =>
    accessBeat t slot .load (rftReqs h (some 0x02)) fun ps => privSlice (.emretDcl h) h (declineSlice h ps)

/-! ## Context items -/

/-- The bytes of an item (18 Table 18.4). -/
def ctxSize (item : BitVec 8) : Nat := if item = 5 || 0x10 ≤ item.toNat then 192 else 64

/-- A divergence entry as it lies in DIV: its two words and PEND. -/
def DivEntry.words (e : DivEntry) : List DWord :=
  [packBits [(e.fmt.toNat, 56), (bits e.join 55 3, 3)], packBits [(b2n e.calli, 63), (e.saved.toNat, 59), (bits e.resume 55 3, 3)]]

/-- Bit i of a list of bits, as a number. -/
def bitsNum (l : List Bool) : Nat := l.foldr (fun b r => b2n b + 2 * r) 0

/-- The S registers of SREG. -/
def sregs : List Nat := [1, 2, 3] ++ (List.range 20).map fun k => 12 + k

/-- A group's relation to a barrier as BARM gives it: from bit 3 down to 0 member, joining, arrived in GEN, arrived in GEN + 1. -/
def itemBits (b : BitVec 4) : Nat := bitsNum ((List.range 4).map fun j => b.getLsbD (3 - j))

/-- An item's bytes (18 R347, Table 18.4). -/
def ctxBytes (c : Ctx) (x : Slice) (item : BitVec 8) : List Byte :=
  let l := x.top
  let g := c.g
  match item.toNat with
  | 0x00 =>
    let pred := (List.range 28).map fun b => if b % 4 < 4 && b / 4 < 7 then c.rdP x 4 (b / 4) (b % 4) else false
    wordBytes
      [ packBits [(l.spill % 2 ^ 32, 32), (l.rsn % 16, 28), (l.dsn % 4, 26), (l.gang % 32, 21)],
        BitVec.ofNat 64 (bitsNum pred), BitVec.ofNat 64 x.arrv.toNat, BitVec.ofNat 64 (x.arrv.toNat / 2 ^ 64), 0, 0, 0, 0 ]
  | 0x01 =>
    let es := (List.range 3).map fun e => if e < l.dsn then l.div.getD e DivEntry.none else DivEntry.none
    wordBytes (es.flatMap DivEntry.words ++ [packBits (es.zipIdx.map fun p => (p.1.pend.toNat, 4 * p.2)), 0])
  | 0x02 => wordBytes ((List.range 8).map fun k => (l.ret.getD k RetEntry.none).word)
  | 0x03 =>
    wordBytes
      [ packBits [(b2n !g.attached, 13), (b2n g.sect, 12), (b2n g.hazchk, 11), (b2n g.gearReq, 10), (b2n g.elastic, 9), (g.role % 4, 7),
          (g.grant % 128, 0)],
        g.rgh, g.sectStart, 0, 0, 0, 0, 0 ]
  | 0x04 => wordBytes ((List.range 8).map fun w => packBits ((List.range 16).map fun k => (itemBits (g.barBits (16 * w + k)), 4 * k)))
  | 0x05 => wordBytes (sregs.map (c.rdS x 4) ++ [0])
  | n =>
    let rs := (List.range 8).flatMap fun r => (List.range 4).map fun l => c.rdV x 4 (8 * (n - 0x10) + r) l
    rs.flatMap (fun q => leBytes 4 q.val.toNat) ++ rs.flatMap fun q => leBytes 2 q.bnd.toNat

/-- Where the state of an item exists: a level to take the stacks from, and the registers of VREG (18 R347). -/
def ctxThere (x : Slice) (allot : Nat) (item : BitVec 8) : Bool :=
  !(item.toNat < 3 && x.td = 0) && !(0x10 ≤ item.toNat && allot ≤ 8 * (item.toNat - 0x10))

/-- The address of an item (18 R347). -/
def ctxAddr (c : Ctx) (x : Slice) (a : SReg) (off : BitVec 10) : Nat :=
  addrOf true (((c.rdS x 0 a.toNat).toNat : Int) + offBytes off 64)

/-- The parts of an item, of 64 bytes each, as accesses of the slice. -/
def ctxReqs (c : Ctx) (x : Slice) (h : Hdr) (va n : Nat) : List LaneReq :=
  (List.range (n / 64)).map fun j => oneReq c x h ((va + 64 * j) % 2 ^ 56)

/-- The accesses of a beat of STCTX or LDCTX: those of the slices whose own checks pass. -/
def ctxBeatReqs (h : Hdr) (item : BitVec 8) (a : SReg) (off : BitVec 10) (c : Ctx) (x : Slice) : List LaneReq :=
  let va := ctxAddr c x a off
  if c.performs x h && x.pm && ctxThere x c.g.allot item && va % 64 = 0 then ctxReqs c x h va (ctxSize item) else []

/-- STCTX in one slice (18 R347). -/
def stctxSlice (i : Instr) (h : Hdr) (item : BitVec 8) (a : SReg) (off : BitVec 10) (ps : List BeatPage) (r : State) (c : Ctx) (x : Slice) :
    State × Option (Trap × Nat) :=
  let va := ctxAddr c x a off
  if !ctxThere x c.g.allot item then (r, some (illegal 3, 0))
  else
    match alignTrap [oneReq c x h va] 64 with
    | some tr => (r, some (tr, 0))
    | none =>
      let bs := ctxBytes c x item
      let accs : List Acc := (ctxReqs c x h va (ctxSize item)).zipIdx.map fun q =>
        { loc := r.locIn ps q.1.va, data := (bs.drop (64 * q.2)).take 64, bnd := 0 }
      ((r.push c.t c.slot (.store false accs)).setSlice c.t c.slot c.i (x.adv i), none)

def execStctx (h : Hdr) (item : BitVec 8) (a : SReg) (off : BitVec 10) (s : State) : Host.Outcome State Fault Refusal :=
  runBeat s (.stctx h item a off) fun t slot =>
    accessBeat t slot .store (ctxBeatReqs h item a off) fun ps =>
      privSlice (.stctx h item a off) h (stctxSlice (.stctx h item a off) h item a off ps)

/-- The 8-byte words of some bytes. -/
def bytesWord (bs : List Byte) (k : Nat) : DWord := BitVec.ofNat 64 (leNat ((bs.drop (8 * k)).take 8))

/-- An entry of DIV as loaded; FMT[1:0] reads as zero (02 Table 2.4, 00 R8). -/
def divOf (bs : List Byte) (e : Nat) : DivEntry :=
  let j := bytesWord bs (2 * e)
  let k := bytesWord bs (2 * e + 1)
  { calli := k.getLsbD 63, join := keep j 55 3, saved := BitVec.ofNat 4 (bits k 62 59),
    pend := BitVec.ofNat 4 (bits (bytesWord bs 6) (4 * e + 3) (4 * e)), resume := keep k 55 3, fmt := BitVec.ofNat 8 (bits j 63 56) &&& 0xFC }

/-- An entry that is empty, or that a push can give (18 R347). -/
def DivEntry.shape (e : DivEntry) : Bool :=
  e.saved = 0 || (decide (2 ≤ pop4 e.saved) && decide (e.pend &&& ~~~e.saved = 0) && decide (e.pend ≠ e.saved))

/-- An item's bytes are within the limits (18 R347). -/
def ctxFits (item : BitVec 8) (bs : List Byte) : Bool :=
  match item.toNat with
  | 0x00 => decide (bits (bytesWord bs 0) 31 28 ≤ 8)
  | 0x01 => (List.range 3).all fun e => (divOf bs e).shape
  | _ => true

/-- Changes the level at TD - 1. -/
def Slice.setTop (x : Slice) (l : Level) : Slice := { x with levels := x.levels.set (x.td - 1) l }

/-- LDCTX of the items of a slice. -/
def Slice.ldctx (x : Slice) (item : Nat) (bs : List Byte) : Slice :=
  match item with
  | 0x00 =>
    let w := bytesWord bs 0
    let y := x.setTop { x.top with spill := bits w 63 32, rsn := bits w 31 28, dsn := bits w 27 26, gang := bits w 25 21 }
    { (List.range 28).foldl (fun z b => z.write (wP (b / 4) (b % 4) ((bytesWord bs 1).getLsbD b))) y with
        arrv := (bytesWord bs 3).setWidth 64 ++ (bytesWord bs 2).setWidth 64 }
  | 0x01 => x.setTop { x.top with div := (List.range 3).map fun e => let d := divOf bs e; if d.saved = 0 then DivEntry.none else d }
  | 0x02 => x.setTop { x.top with ret := (List.range 8).map fun k => RetEntry.ofWord (bytesWord bs k) }
  | 0x05 => sregs.zipIdx.foldl (fun z p => z.write (wS p.1 (bytesWord bs p.2))) x
  | n =>
    if n < 0x10 then x
    else
      (List.range 32).foldl
        (fun z k => z.write (wV (8 * (n - 0x10) + k / 4) (k % 4) (BitVec.ofNat 32 (leNat ((bs.drop (4 * k)).take 4)))
          (BitVec.ofNat 16 (leNat ((bs.drop (128 + 2 * k)).take 2))))) x

/-- LDCTX of GRP (18 R347); RGH is a multiple of 8 like every PC (05 R81, log 83). -/
def Group.ldctx (g : Group) (bs : List Byte) : Group :=
  let w := bytesWord bs 0
  { g with gearReq := w.getLsbD 10, sect := w.getLsbD 12, elastic := w.getLsbD 9, rgh := bytesWord bs 1 &&& ~~~7#64, sectStart := bytesWord bs 2 }

/-- LDCTX in one slice: its checks and its load; the slice parks until the data returns (18 R347). -/
def ldctxSlice (h : Hdr) (item : BitVec 8) (a : SReg) (off : BitVec 10) (ps : List BeatPage) (r : State) (c : Ctx) (x : Slice) :
    State × Option (Trap × Nat) :=
  let va := ctxAddr c x a off
  if !ctxThere x c.g.allot item then (r, some (illegal 3, 0))
  else
    match alignTrap [oneReq c x h va] 64, r.group? c.t c.slot with
    | some tr, _ => (r, some (tr, 0))
    | none, none => (r, none)
    | none, some g =>
      let reqs := ctxReqs c x h va (ctxSize item)
      let locs := reqs.map fun q => (r.locIn ps q.va, 64)
      if r.loadHeld g false locs || r.linkHeld (r.l1Misses c.t locs) then
        (r.setSlice c.t c.slot c.i { x with wait := .refused, parkPc := x.pc }, none)
      else
        match (reqs.zip locs).filter fun q => (r.view g).poisonFrom c.t q.2.1.key 64 with
        | q :: _ =>
          let f := r.consume c.t g 64 [(q.1, q.2.1)]
          (f.1, some (f.2, 0))
        | [] =>
          let s1 := r.touch c.t g.asid false locs
          let bs := locs.flatMap fun q => (s1.view g).readBytes q.1.key 64
          if !ctxFits item bs then (r, some (illegal 3, 0))
          else (s1.setSlice c.t c.slot c.i { x with wait := .context item.toNat bs, parkPc := x.pc }, none)

def execLdctx (h : Hdr) (item : BitVec 8) (a : SReg) (off : BitVec 10) (s : State) : Host.Outcome State Fault Refusal :=
  runBeat s (.ldctx h item a off) fun t slot =>
    accessBeat t slot .load (ctxBeatReqs h item a off) fun ps =>
      privSlice (.ldctx h item a off) h (ldctxSlice h item a off ps)

/-- The data of an LDCTX has returned: the item is written, and the slice, which has parked, goes on when no result is outstanding (18
R347, 05 R83). VREG invalidates the quarter's A latch (14 R287). -/
def State.ldctxDone (s : State) (t slot i item : Nat) (bs : List Byte) : State :=
  let s1 := s.updSlice t slot i fun x => Slice.wake { (s.drained i x).ldctx item bs with pc := x.pc + 8 }
  let s2 := if item = 3 then s1.updGroup t slot fun g => g.ldctx bs else s1
  if 0x10 ≤ item then s2.updTile t fun x => { x with alatch := Sparse.erase x.alatch (slot / 16) } else s2

/-! ## System registers and TLBs -/

/-- CSRR in one slice (18 R344); FLWIDX and ELWIDX act as an acquire at scope sys (17 R331). -/
def csrrSlice (i : Instr) (d : SReg) (n : Nat) (r : State) (c : Ctx) (x : Slice) : State × Option (Trap × Nat) :=
  match r.csrRead x.td n with
  | none => (r, some (illegal 0, 0))
  | some v =>
    let r1 := if n = 0x042 || n = 0x046 then r.idleFence c.t c.slot .acq .sys else r
    (r1.setSlice c.t c.slot c.i ((x.post [wS d.toNat v]).adv i), none)

def execCsrr (h : Hdr) (d : SReg) (num : BitVec 12) (s : State) : Host.Outcome State Fault Refusal :=
  runBeat s (.csrr h d num) fun t slot => eachSlice t slot (privSlice (.csrr h d num) h (csrrSlice (.csrr h d num) d num.toNat))

/-- CSRW in one slice (18 R344). -/
def csrwSlice (i : Instr) (n : Nat) (a : SReg) (r : State) (c : Ctx) (x : Slice) : State × Option (Trap × Nat) :=
  match r.csrRead x.td n with
  | none => (r, some (illegal 0, 0))
  | some _ => ((r.setSlice c.t c.slot c.i (x.adv i)).csrWrite n (c.rdS x 0 a.toNat), none)

def execCsrw (h : Hdr) (num : BitVec 12) (a : SReg) (s : State) : Host.Outcome State Fault Refusal :=
  runBeat s (.csrw h num a) fun t slot => eachSlice t slot (privSlice (.csrw h num a) h (csrwSlice (.csrw h num a) num.toNat a))

/-- TLBINV in one slice: it parks until the entries are dropped (18 R345). -/
def tlbinvSlice (i : Instr) (kind : Nat) (a b : SReg) (r : State) (c : Ctx) (x : Slice) : State × Option (Trap × Nat) :=
  let w := Wait.tlbinv kind ((c.rdS x 1 b.toNat).toNat % 2 ^ 15) ((c.rdS x 0 a.toNat).toNat % 2 ^ 56)
  (r.setSlice c.t c.slot c.i { x.adv i with wait := w, parkPc := x.pc }, none)

def execTlbinvAll (h : Hdr) (s : State) : Host.Outcome State Fault Refusal :=
  runBeat s (.tlbinvAll h) fun t slot => eachSlice t slot (privSlice (.tlbinvAll h) h (tlbinvSlice (.tlbinvAll h) 0 0 0))

def execTlbinvAsid (h : Hdr) (b : SReg) (s : State) : Host.Outcome State Fault Refusal :=
  runBeat s (.tlbinvAsid h b) fun t slot => eachSlice t slot (privSlice (.tlbinvAsid h b) h (tlbinvSlice (.tlbinvAsid h b) 1 0 b))

def execTlbinvPg (h : Hdr) (a b : SReg) (s : State) : Host.Outcome State Fault Refusal :=
  runBeat s (.tlbinvPg h a b) fun t slot => eachSlice t slot (privSlice (.tlbinvPg h a b) h (tlbinvSlice (.tlbinvPg h a b) 2 a b))

/-- An entry of an ASID at a level, whose index bits are `pre`, is to be dropped (18 R345). -/
def invHits (kind asid va : Nat) (e : Nat) (lv pre : Nat) : Bool :=
  kind = 0 || (e = asid && (kind = 1 || (decide (lv < 5) && pre = va / 2 ^ levelShift lv)))

/-- Every TLB and walker cache drops the entries (18 R345). -/
def State.invalidate (s : State) (kind asid va : Nat) : State :=
  { s with
      tents := s.tents.filter fun e => !invHits kind asid va e.asid e.level e.prefix_,
      tiles := (s.tiles.map fun p =>
        (p.1, { p.2 with tlb := p.2.tlb.filter fun e => !invHits kind asid va (e.1 / 8) (e.1 % 8) e.2 })).filter fun p =>
          decide (p.2 ≠ Tile.reset) }

/-! ## HALT -/

/-- A slice has halted. -/
def Wait.isHalt : Wait → Bool
  | .halted .. => true
  | _ => false

/-- The deciding HALT, once every live slice has halted: of the lowest one (18 R348). -/
def Group.haltKind (g : Group) : Option Instr :=
  if !g.liveIdx.isEmpty && g.liveIdx.all fun k => (g.slice k).wait.isHalt then
    match g.leader.wait with
    | .halted i _ => some i
    | _ => none
  else none

/-- Every slice of a group stops for good, and it leaves its barriers (10 R191, 18 R348). -/
def State.endGroup (s : State) (t slot : Nat) : State := (s.leaveAll t slot).updGroup t slot Group.retireAll

/-- HALT in one slice (18 R348). -/
def haltSlice (i : Instr) (a : Option SReg) (r : State) (c : Ctx) (x : Slice) : State × Option (Trap × Nat) :=
  let l := x.top
  let sa := match a with
    | some a => c.rdS x 0 a.toNat
    | none => 0
  if a.isSome && !(x.td = 1 && l.vec = 0x0D) then (r, some (illegal 3, 0))
  else
    match alignTrap [{ k := c.i, l := x.active.headD 0, va := sa.toNat }] 64 with
    | some tr => (r, some (tr, 0))
    | none =>
      let r1 := r.setSlice c.t c.slot c.i { x with wait := .halted i sa, parkPc := x.pc }
      (if 1 ≤ x.td then r1.checkDone c l else r1, none)

/-- A beat of HALTs; a kill takes effect when the last live slice has halted (18 R348). -/
def haltPlan (i : Instr) (h : Hdr) (a : Option SReg) (t slot : Nat) : Plan := fun u s l =>
  let r := eachSlice t slot (privSlice i h (haltSlice i a)) u s l
  (match r.1.group? t slot with
   | some g =>
     match g.haltKind with
     | some (.haltKill _) => r.1.endGroup t slot
     | _ => r.1
   | none => r.1, r.2)

def execHaltKill (h : Hdr) (s : State) : Host.Outcome State Fault Refusal :=
  runBeat s (.haltKill (plainHdr h)) (haltPlan (.haltKill (plainHdr h)) (plainHdr h) none)

def execHaltSave (h : Hdr) (a : SReg) (s : State) : Host.Outcome State Fault Refusal :=
  runBeat s (.haltSave (plainHdr h) a) (haltPlan (.haltSave (plainHdr h) a) (plainHdr h) (some a))

def execHaltSaveRls (h : Hdr) (a : SReg) (s : State) : Host.Outcome State Fault Refusal :=
  runBeat s (.haltSaveRls (plainHdr h) a) (haltPlan (.haltSaveRls (plainHdr h) a) (plainHdr h) (some a))

end Sys2Proof.Machine
end

