-- ==== Sys2Proof/Machine/Fetch.lean ====
section
/-! DEFINITION. Fetching an instruction (05 R81, 11 R210, 17 R325), the choice of the gang that issues (09 R177-R181, R185), and
the state in which a given instruction is the next to run. -/

namespace Sys2Proof.Machine

/-! ## Fetch -/

/-- What a fetch comes to: the instruction's words, a line that the cache lacks, a fault, or a wait for a table entry. -/
inductive FetchRes where
  | held
  | words (s : State) (w0 w1 : DWord)
  | miss (s : State) (l : Loc)
  | fault (s : State) (tr : Trap) (beat : Nat)

/-- A fetch address, of 56 bits (log 27). -/
def fetchVa (pc : DWord) : Nat := pc.toNat % 2 ^ 56

/-- What the fetch of one word comes to. -/
inductive WordRes where
  | held
  | word (s : State) (l : Loc) (w : Option (DWord × Bool))
  | fault (s : State) (tr : Trap) (beat : Nat)

/-- Poison that a fetch consumes (21 R379). -/
def State.fetchBad (s : State) (t : Nat) (g : Group) (k ad array : Nat) : State × Trap :=
  let f := s.consumeIn t g ad array [4 * k]
  (f.1, { f.2 with lanes := none })

/-- One 8-byte word at an address, for the gang whose lowest slice is k: its place, and the word with whether it came in poisoned, where the
cache holds it. Its lookup waits for a copy engine that owns an entry (12 R253, 17 R321), and a poisoned entry is consumed. -/
def State.fetchWord (s : State) (t : Nat) (g : Group) (k va : Nat) : WordRes :=
  if s.walkHeld t g.asid [va] then .held
  else
    match s.walkPoison t g.asid va with
    | some u => let f := s.fetchBad t g k u (s.arrayOf noTile u); .fault f.1 f.2 0
    | none =>
      match s.beatPages t g .fetch false [{ k := k, l := 0, va := va }] with
      | .error f => .fault f.1 { f.2.1 with lanes := none } f.2.2
      | .ok p =>
        let l := p.2.locIn p.1 va
        .word p.2 l (((s.tile t).icache.find? fun q => q.line = l.key / 256).map fun q =>
          (bytesWord (q.data.drop (l.key % 256)) 0, q.bad.elem (l.key % 256 / 8)))

/-- The instruction at the PC of slice k of a group: a second word may lie on another line or page (05 R81). A word that is
poisoned is consumed (21 R379). -/
def State.fetch (s : State) (t : Nat) (g : Group) (k : Nat) : FetchRes :=
  let va := fetchVa (g.slice k).pc
  let bad (s : State) (l : Loc) : FetchRes := let f := s.fetchBad t g k l.key 3; .fault f.1 f.2 0
  match s.fetchWord t g k va with
  | .held => .held
  | .fault s1 tr beat => .fault s1 tr beat
  | .word s1 l none => .miss s1 l
  | .word s1 l (some (w0, ill)) =>
    if ill then bad s1 l
    else if !needsSecond w0 then .words s1 w0 0
    else
      match s1.fetchWord t g k ((va + 8) % 2 ^ 56) with
      | .held => .held
      | .fault s2 tr beat => .fault s2 tr beat
      | .word s2 l none => .miss s2 l
      | .word s2 l (some (w1, ill)) => if ill then bad s2 l else .words s2 w0 w1

/-- The lines of a set of the instruction cache are those with the same PA[13:8]. -/
def sameSet (a b : Nat) : Bool := a % 64 = b % 64

/-- A line enters the cache; the fourth most recently used of its set leaves (11 R210). -/
def icInsert (ic : List ILine) (x : ILine) : List ILine :=
  let rest := ic.filter fun y => y.line ≠ x.line
  let gone := ((rest.filter fun y => sameSet y.line x.line).drop 3).map ILine.line
  x :: rest.filter fun y => !gone.elem y.line

/-- A line of the cache is used. -/
def icTouch (ic : List ILine) (line : Nat) : List ILine :=
  match ic.find? fun y => y.line = line with
  | some y => y :: ic.filter fun z => z.line ≠ line
  | none => ic

/-- The lines an instruction of two words at an address occupies, most recently used first. -/
def State.useLines (s : State) (t : Nat) (g : Group) (k : Nat) (w0 : DWord) : State :=
  let va := fetchVa (g.slice k).pc
  let vas := if needsSecond w0 then [va, (va + 8) % 2 ^ 56] else [va]
  vas.foldl
    (fun r a =>
      match s.fetchWord t g k a with
      | .word _ l _ => r.updTile t fun x => { x with icache := icTouch x.icache (l.key / 256) }
      | _ => r) s

/-- A fetch that misses requests its line, once (11 R210, R213). -/
def State.requestLine (s : State) (t asid : Nat) (l : Loc) : State :=
  if (s.tile t).icPend.elem (l.key / 256) then s
  else
    ((s.countReq (t / 32) l).sliceLine (some asid) false l.line 0b1111).updTile t fun x => { x with icPend := x.icPend ++ [l.key / 256] }

/-- A slice whose next instruction is not reached: an asynchronous trap or a breakpoint comes first (18 R337). -/
def State.trapsFirst (s : State) (t slot k : Nat) : Option State :=
  let x := s.slice t slot k
  if x.asyncNow.isSome then some (s.takeAsync t slot k)
  else if !x.pm && !x.skipBp && s.breakAt x.pc then some (s.raise t slot k (mkTrap 0x11 0) 0)
  else none

/-- INSTRUCTION_FETCH_MISS: the gang of a slice requests its line, or takes the fault of its fetch. -/
def State.fetchMiss (s : State) (t slot k : Nat) : State :=
  match s.group? t slot with
  | none => s
  | some g =>
    let l := g.gangSlices (g.slice k).gang
    if (g.slice k).live && l.all fun j => (g.slice j).wait = .run && !g.gathers j then
      match s.fetch t g (l.headD k) with
      | .words .. | .held => s
      | .miss s1 loc => s1.requestLine t g.asid loc
      | .fault .. =>
        let rest := l.filter fun j => (s.trapsFirst t slot j).isNone
        let s1 := l.foldl (fun r j => (r.trapsFirst t slot j).getD r) s
        (match rest with
         | [] => s1
         | j :: _ =>
           match s1.fetch t g j with
           | .fault s2 tr beat => rest.foldl (fun r j => r.raise t slot j tr beat) s2
           | _ => s1).fresh
    else s

/-- ICACHE_FILL: the i-th line requested arrives, with the poison of its words (21 R378); a peer's line is held like a load (19 R366). -/
def State.icFill (s : State) (t i : Nat) : State :=
  match (s.tile t).icPend[i]? with
  | none => s
  | some n =>
    if s.owned (256 * n) 256 || s.linkHeld [({ key := 256 * n, tagged := false, l2s := 0, cp := 0 }, 256)] then s
    else
      let x : ILine :=
        { line := n, data := s.readBytes (256 * n) 256, bad := (List.range 32).filter fun j => s.poisonAt (256 * n + 8 * j) 8 }
      s.updTile t fun y => { y with icPend := y.icPend.eraseIdx i, icache := icInsert y.icache x }

/-! ## Selection -/

/-- A gang that is ready: its slices, and its instruction as fetched; a decode breach has no instruction. `pres`: it is the gang as whose
beat its group's collective is presented. -/
structure Ready where
  slot : Nat
  g : Group
  l : List Nat
  w0 : DWord
  w1 : DWord
  instr : Option Instr
  pres : Bool

/-- The gang's place in the order of 09 R179. -/
def Ready.cand (r : Ready) : Cand := r.g.cand r.slot r.l

/-- The gang that presents its group's collective: that of the lowest live slice (08 R158, 14 R282). -/
def Group.presenter (slot : Nat) (g : Group) : Option Ready :=
  g.presented?.map fun i => { slot := slot, g := g, l := g.gangSlices g.leader.gang, w0 := 0, w1 := 0, instr := some i, pres := true }

/-- The gangs of a quarter that are ready (09 R177): none while the tile switches gear, dozes or is stopped by an alarm. -/
def State.readyGangs (s : State) (t q : Nat) : List Ready :=
  if !(s.tile t).issues then [] else
  ((s.tile t).groups.filter fun p => p.1 / 16 = q).flatMap fun p =>
    match p.2.presenter p.1 with
    | some r => [r]
    | none =>
      (p.2.gangs.filter fun l => l.all fun k => (p.2.slice k).free && !p.2.gathers k).filterMap fun l =>
        match s.fetch t p.2 (l.headD 0) with
        | .words _ w0 w1 =>
          some { slot := p.1, g := p.2, l := l, w0 := w0, w1 := w1, pres := false,
                 instr := match decodeWords w0 w1 with
                   | .ok i => some i
                   | .error _ => none }
        | _ => none

/-- How often the instruction's entry of Table 9.1 is debited at this beat, and for which slices' headroom (09 R183). -/
def Ready.beats (r : Ready) (i : Instr) : List Nat × Nat :=
  if r.pres then (r.g.liveIdx, if Instr.isMatrix i then (mxBlocks r.g.grant i).2 else r.g.rows) else (r.l, 1)

/-- The cost at which a ready gang's beat is covered: that of the class that would run; none where it is not covered (09 R185). -/
def State.coverOf (s : State) (t : Nat) (r : Ready) : Option Nat :=
  match r.instr with
  | none => some 0
  | some i =>
    if Instr.meets i && !r.pres then some 0 else (s.classCost t r.slot r.g (r.beats i).1 i (r.beats i).2).map Prod.snd

/-- A ready gang is eligible: its beat is covered, and a matrix instruction is the one that the unit takes (09 R177, R181). -/
def State.eligible (s : State) (t : Nat) (r : Ready) : Bool :=
  (s.coverOf t r).isSome &&
    (!(r.pres && r.instr.any Instr.isMatrix) || ((s.mxAccepts t r.slot r.g).isSome && s.mxQuarter t = some (r.slot / 16)))

/-- The cost a gang reserves: that of its instruction in the class preferred (09 R185). -/
def State.wantCost (s : State) (t : Nat) (r : Ready) : Nat :=
  ((s.updTile t fun x => { x with allow := 262143, reserve := none }).coverOf t r).getD 0

/-- A gang of a tile, by slot and gang. -/
def Ready.key (r : Ready) : Nat × Nat := (r.slot, (r.g.slice (r.l.headD 0)).gang)

/-- The ready gang that comes first. -/
def firstReady : List Ready → Option Ready
  | [] => none
  | a :: rest => some (rest.foldl (fun b c => if c.cand.before b.cand then c else b) a)

/-- A promoted gang that is not covered takes the tile's reservation, unless another holds it (09 R185) or it waits for a burst token (14
R298). -/
def State.reserveFor (s : State) (t : Nat) (rs : List Ready) : State :=
  if (s.tile t).reserve.isSome then s
  else
    match firstReady (rs.filter fun r =>
        (r.l.any fun k => 256 ≤ (r.g.slice k).promo) && (s.coverOf t r).isNone && !(r.pres && r.instr.any (s.lacksToken t))) with
    | some r => s.updTile t fun x => { x with reserve := some (r.slot, r.key.2, s.wantCost t r) }
    | none => s

/-- A reservation whose gang is not ready any more is released (09 R185). -/
def State.dropReserve (s : State) (t : Nat) : State :=
  match (s.tile t).reserve with
  | some (slot, gang, _) =>
    if (s.readyGangs t (slot / 16)).any fun r => r.key = (slot, gang) then s else s.updTile t fun x => { x with reserve := none }
  | none => s

/-- Gangs that were ready and did not issue count the cycle (09 R180). -/
def State.countPassed (s : State) (t : Nat) (rs : List Ready) (won : Option (Nat × Nat)) : State :=
  rs.foldl
    (fun s r => if some r.key = won then s else r.l.foldl (fun s k => s.updSlice t r.slot k fun x => { x with promo := x.promo + 1 }) s) s

/-- A gang one of whose slices could not take the results of the next instruction parks (09 R174, R175). -/
def State.parkFull (s : State) (t : Nat) (rs : List Ready) : State :=
  rs.foldl
    (fun s r =>
      let full (k : Nat) : Bool :=
        r.instr.any fun i => 48 < (r.g.slice k).outCount + Instr.resultRegs i ((r.g.slice k).tyOf i) && 0 < (r.g.slice k).outCount
      if !r.pres && r.l.any full then r.l.foldl (fun s k => s.updSlice t r.slot k Slice.wake) s else s) s

/-- The quarter whose turn it is: `qturn` counts the turns of the cycle, its own among them (09 R181). -/
def Tile.turn (x : Tile) : Nat := (x.cycle + x.qturn + 3) % 4

/-- The cap of the allowance counter (09 R182). -/
def allowCap : Nat := 262143

/-- A tile cycle begins: what has been injected becomes visible (09 R184), and the tile sees the holders of the burst tokens (14 R298)
and counts the idle cycles of a burst (R297). -/
def Tile.openCycle (x : Tile) (token : Nat) : Tile :=
  let mma := match x.mx with
    | some m => (match m.instr with
      | .mma .. => true
      | _ => false)
    | none => false
  { x with qturn := 1, allow := min allowCap (x.allow + x.incoming), incoming := 0, token := token,
           burstIdle := if x.inBurst && !mma then x.burstIdle + 1 else x.burstIdle }

/-- A quarter's turn begins, the first of the next cycle after four (09 R181). -/
def Tile.beginTurn (x : Tile) (token : Nat) : Tile :=
  if x.qturn = 0 then x.openCycle token
  else if x.qturn < 4 then { x with qturn := x.qturn + 1 }
  else { x with cycle := x.cycle + 1 }.openCycle token

/-- The first beat of a run holds the quarter's issue slot for two cycles under HAZCHK (09 R176); a cross-lane instruction's issue holds it
for one (08 R158). -/
def Ready.holdsTwo (r : Ready) : Bool :=
  r.g.hazchk && (r.l.any fun k => (r.g.slice k).newRun) && !(r.pres && r.instr.any Instr.isCross)

/-- What a quarter's turn gives. -/
inductive Turn where
  | issue (r : Ready) (s : State)
  | none (s : State)

/-- An alarm is less than 150 ns old (22 R395). -/
def State.alarmed (s : State) : Bool := s.forcedAt.any fun p => decide ((s.time - p.1).toNat < 150)

/-- From 50 ns after an alarm to 150 ns after it no tile issues; from the alarm on where none could issue when it came (22 R395). -/
def State.stalled (s : State) : Bool :=
  s.forcedAt.any fun p => decide ((s.time - p.1).toNat < 150) && (p.2 || decide (50 < (s.time - p.1).toNat))

/-- One quarter's turn in a tile: the gang that issues, if any. A tile that switches or dozes, or that an alarm stops, has no cycles (09
R171). -/
def State.quarter (s0 : State) (t : Nat) : Turn :=
  let s := s0.updTile t fun x => x.beginTurn (s0.time.toNat / 50)
  if s.stalled then .none s0
  else if (s.tile t).issues && s.up then
    let q := (s.tile t).turn
    let sa := s.parkFull t (s.readyGangs t q)
    let rs := sa.readyGangs t q
    let s1 := (sa.dropReserve t).reserveFor t rs
    let held := decide ((s1.tile t).cycle ≤ Sparse.get 0 (s1.tile t).slotHeld q) && decide (0 < Sparse.get 0 (s1.tile t).slotHeld q)
    match firstReady (rs.filter fun r => !held && s1.eligible t r) with
    | some r =>
      let s2 := s1.countPassed t rs (some r.key)
      .issue r (if r.holdsTwo then s2.updTile t fun x => { x with slotHeld := Sparse.set 0 x.slotHeld q (x.cycle + 1) } else s2)
    | .none => .none (s1.countPassed t rs none)
  else if (s.tile t).phase = .stopping && !(s.tile t).doze then .none s
  else .none s0

/-- The turns of a tile up to the next issue, or to the end of its cycle: n turns at most. -/
def State.turns (s : State) (t : Nat) : Nat → Turn
  | 0 => .none s
  | n + 1 =>
    match s.quarter t with
    | .issue r s1 => .issue r s1
    | .none s1 => if (s1.tile t).qturn = 4 then .none s1 else s1.turns t n

/-- The state in which the instruction of a gang is executed: what its fetch left, and the gang in focus. -/
def State.focusOn (s : State) (t : Nat) (r : Ready) : State :=
  let s1 :=
    if r.pres then s
    else
      match s.group? t r.slot with
      | some g => (match s.fetch t g (r.l.headD 0) with
        | .words s1 .. => s1
        | _ => s).useLines t g (r.l.headD 0) r.w0
      | none => s
  { s1 with focus := { tile := t, slot := r.slot, slices := r.l } }

/-- The opcode of a word is one of the matrix unit's (14 R282). -/
def isMatrixOpcode (w0 : DWord) : Bool := 0x260 ≤ opcodeOf w0 && opcodeOf w0 ≤ 0x264

/-- A decode breach: ILLEGAL with CODE 0x00 in every slice of the gang (05 R94); a word with an opcode of the matrix unit is a rendezvous
point, at which convergence is checked first (14 R282). -/
def execBreach (w0 w1 : DWord) (s : State) : Host.Outcome State Fault Refusal :=
  if isMatrixOpcode w0 then runColl s (.undefinedOpcode w0 w1) (breachColl (opcodeOf w0 ≠ 0x261)) noIssue
  else runSlices s (.undefinedOpcode w0 w1) fun _ _ _ => .error (illegal 0)

/-! ## The machine about to run one instruction -/

/-- The entries that map the first 1 GiB of ASID 0 to the same addresses of this package's data, tagged, readable, writable and
executable (17 Tables 17.1 to 17.4): the ASID table at 0, and tables from `b` on. -/
def mapEntries (home b : Nat) : List (Nat × Nat) :=
  [(0, b + 1), (8, 0), (b, b + 0x1000 + 1), (b + 0x1000, b + 0x2000 + 1), (b + 0x2000, home * 2 ^ 54 + 0x3F)]

/-- A slice at an address, all its lanes active, with nothing in its registers but what is given. -/
def Slice.starting (pc : DWord) (s : Sparse DWord) : Slice :=
  { Slice.absent with live := true, pc := pc, lmask := 0b1111, s := s, wins := [(0, 0)] }

/-- A group of one slice at an address. -/
def Group.starting (pc : DWord) : Group :=
  { gid := 1, team := 0, idx := 0, grant := 4, role := 0, attached := true, allot := 256, gearReq := false, hazchk := false,
    dual := false, asid := 0, elastic := false, born := 0, rgh := 0, sect := false, sectStart := 0, preReq := false, image := 0,
    regrant := 0, bm := [], arrTok := [], arrSent := [], left := false, sq := [], slices := [(0, Slice.starting pc [])] }

/-- The team of that group, which no launch record stands behind. -/
def Team.starting : Team :=
  { launch := 0, idx := 0, task := none, roles := false, allotP := 256, allotC := 256, scratchBase := 0, scratchSize := 303104,
    accBase := 0, accCount := 64, nbars := 0, bars := [], minGroups := 1, maxGroups := 1, live := 1, shrink := 0,
    grownAt := none, shrunkAt := none, doomed := false }

/-- Where the instruction is placed. -/
def startPc : Nat := 0x100000

/-- The machine with two words as the next instruction of a group of one slice on tile 0, which is all that tile runs. -/
def State.placeWords (s : State) (w0 w1 : DWord) : State :=
  let bs := bytesOfWord w0 ++ bytesOfWord w1
  let s1 := (mapEntries s.csr.fldomId.toNat 0x80000).foldl (fun r p => r.writeBytes p.1 (leBytes 8 p.2))
    { s with tents := [], poison := [], badTags := [], powered := true, booted := true,
             csr := { s.csr with asidtb := 0, fldomCount := max s.csr.fldomCount (s.csr.fldomId.toNat + 1) } }
  let s2 := s1.writeBytes startPc bs
  let x : Tile :=
    { Tile.reset with
        groups := [(0, Group.starting (BitVec.ofNat 64 startPc))], teams := [(0, Team.starting)], allow := 262143,
        icache := [{ line := startPc / 256, data := bs ++ List.replicate 240 0, bad := [] }] }
  { s2.setTile 0 x with agenda := .issue 0 :: s.agenda }

end Sys2Proof.Machine
end

