-- ==== Sys2Proof/Machine/Events.lean ====
section
/-! DEFINITION. Events within a kernel: results and parks, rendezvous, allowance, waits, barriers, gears, doze, the watchdog, fetch,
the matrix unit and traps. An event that is not due changes nothing (log 3). -/

namespace Sys2Proof.Machine

/-! ## Results and parks -/

/-- Result i of a slice writes back (09 R174). Where another outstanding result writes the same register, the register may keep
either; here the other's write is dropped or left to follow (09 R175). -/
def State.writebackAt (s : State) (t slot k i : Nat) : State :=
  s.updSlice t slot k fun x =>
    match x.out[i]? with
    | some p =>
      if p.tok ≠ 0 then x
      else
        let rest := x.out.eraseIdx i
        let drop (w : RegWrite) : Bool :=
          p.writes.any fun u => u.dst = w.dst && s.choose (64 * (k * 2048 + w.dst.code) + 9) 2 = 1
        ({ x with out := rest.map fun q => { q with writes := q.writes.filter fun w => !drop w } } : Slice).writeback p
    | none => x

def execResultWriteback (t slot slice i : Nat) (s : State) : Host.Outcome State Fault Refusal :=
  .next (s.writebackAt t slot slice i).fresh

/-- A parked slice goes on where nothing holds it any more: results have returned (05 R83, 09 R174), a refused resource is tried
again, GEARW's gear has come (10 R201), LDCTX's data is there, or REGRANT is due. -/
def State.parkRelease (s : State) (t slot k : Nat) : State :=
  let x := s.slice t slot k
  match x.wait with
  | .results => if x.out.isEmpty then s.setSlice t slot k x.wake else s
  | .refused | .slot => s.setSlice t slot k { x with wait := .run }
  | .gear =>
    match s.group? t slot with
    | some g => if s.gearReady t g then s.setSlice t slot k { x with wait := .run } else s
    | none => s
  | .context item data => s.ldctxDone t slot k item data
  | .regrant => s.afterReturn t slot
  | _ => s

def execParkRelease (t slot slice : Nat) (s : State) : Host.Outcome State Fault Refusal :=
  .next (s.parkRelease t slot slice).fresh

/-! ## Rendezvous -/

/-- What a collective does once its rendezvous is complete. -/
def collBody : Instr → Coll
  | .regang h => regangColl (.regang h)
  | .setw h lo hi e => setwColl (.setw h lo hi e) lo e
  | .attach h role a b => attachColl (.attach h role a b) role a b
  | .detach h cond => detachColl (.detach h cond) cond
  | .shfl h ty d a k pv => crossColl (.shfl h ty d a k pv)
  | .shflu h ty d a k pv => crossColl (.shflu h ty d a k pv)
  | .shfld h ty d a k pv => crossColl (.shfld h ty d a k pv)
  | .shflx h ty d a k pv => crossColl (.shflx h ty d a k pv)
  | .bcast h ty d a k pv => crossColl (.bcast h ty d a k pv)
  | .red h ty uc op d a pc pd => crossColl (.red h ty uc op d a pc pd)
  | .scan h ty uc op ex d a pc pd => crossColl (.scan h ty uc op ex d a pc pd)
  | .vote h mode d pa pc => crossColl (.vote h mode d pa pc)
  | .matchv h ty d a pc pd => crossColl (.matchv h ty d a pc pd)
  | .first h d pc pd => crossColl (.first h d pc pd)
  | .undefinedOpcode w0 _ => breachColl (opcodeOf w0 ≠ 0x261)
  | i => mxColl i

/-- 06 R121. -/
def execRendezvousComplete (t slot : Nat) (s : State) : Host.Outcome State Fault Refusal :=
  .next (s.rendezvous t slot collBody).fresh

/-- 06 R122. -/
def execSetwGrant (t slot : Nat) (s : State) : Host.Outcome State Fault Refusal := .next (s.setwGrant t slot).fresh

/-! ## The allowance -/

/-- A promoted gang that is ready and not covered takes the tile's reservation (09 R180, R185). -/
def execGangPromotion (t slot gang : Nat) (s : State) : Host.Outcome State Fault Refusal :=
  .next (s.reserveFor t ((s.readyGangs t (slot / 16)).filter fun r => r.key = (slot, gang)))

/-- The share per tile (22 R393). -/
def powerShare (modw : Nat) : Nat := clamp ((modw - 240) * 1000000 / 16384) 1536 156250

/-- The tiles of a die in the order in which the ring visits them in a microsecond (09 R184). -/
def ringOrder (die us : Nat) : List Nat :=
  (List.range 4).flatMap fun c => (List.range 8).map fun p => 32 * die + 8 * ((us + c) % 4) + p

/-- 09 R184: once in each microsecond, after the shares of the one before. -/
def State.inject (s : State) (die : Nat) : State :=
  let r := Sparse.get Ring.reset s.rings die
  if s.up && die < 8 && r.todo.isEmpty && 1000 * r.us ≤ s.time.toNat then
    let r1 : Ring := { us := r.us + 1, share := powerShare s.csr.pwrLim, carry := 0, todo := ringOrder die r.us }
    { s with rings := Sparse.set Ring.reset s.rings die r1 }
  else s

def execReedRingInjection (die : Nat) (s : State) : Host.Outcome State Fault Refusal := .next (s.inject die)

/-- The next tile that the ring visits takes its share up to the cap, which its next cycle sees; the rest is passed on (09 R184). -/
def State.shareArrive (s : State) (t : Nat) : State :=
  let r := Sparse.get Ring.reset s.rings (t / 32)
  match r.todo with
  | u :: rest =>
    if u = t then
      let offered := r.share + r.carry
      let got := min offered (allowCap - ((s.tile t).allow + (s.tile t).incoming))
      ({ s with rings := Sparse.set Ring.reset s.rings (t / 32) { r with carry := offered - got, todo := rest } }).updTile t
        fun x => { x with incoming := x.incoming + got }
    else s
  | [] => s

def execShareArrival (t : Nat) (s : State) : Host.Outcome State Fault Refusal := .next (s.shareArrive t)

/-! ## Waits that end by themselves -/

/-- The tile cycle of a tile's next turn. -/
def Tile.nextCycle (x : Tile) : Nat := if x.qturn < 4 then x.cycle else x.cycle + 1

/-- 06 R124. -/
def State.pauseEnd (s : State) (t slot k : Nat) : State :=
  let x := s.slice t slot k
  match x.wait with
  | .pause c => if c ≤ (s.tile t).nextCycle then s.setSlice t slot k x.wake else s
  | _ => s

def execYieldPauseEnd (t slot slice : Nat) (s : State) : Host.Outcome State Fault Refusal := .next (s.pauseEnd t slot slice)

/-- 06 R125. -/
def State.waittEnd (s : State) (t slot k : Nat) : State :=
  let x := s.slice t slot k
  match x.wait with
  | .waitt v => if v.toNat ≤ s.time.toNat then s.setSlice t slot k x.wake else s
  | _ => s

def execWaittWake (t slot slice : Nat) (s : State) : Host.Outcome State Fault Refusal := .next (s.waittEnd t slot slice)

/-! ## Barriers -/

/-- 10 R193. -/
def execBarrierArrive (t slot k : Nat) (s : State) : Host.Outcome State Fault Refusal := .next (s.arriveAt t slot k)

/-- 10 R193. -/
def execBarrierLeave (i : Nat) (s : State) : Host.Outcome State Fault Refusal := .next (s.leaveAt i)

/-- A slice whose barrier wait has ended: its token is complete (10 R195), or an arrival may be made again (10 R194). -/
def State.barWake (s : State) (t : Nat) (g : Group) (x : Slice) : Slice :=
  match x.wait with
  | .barrier k tok => if tokenDone (s.bar t g.team k).gen tok then x.wake else x
  | .arrive k => if !x.arrv.getLsbD k && (g.inProgress k || !g.arriveFull k) then { x with wait := .run } else x
  | _ => x

/-- A completed generation enters a tile (10 R195, R202). -/
def State.barRelease (s : State) (t : Nat) : State :=
  s.updTile t fun x =>
    { x with groups := x.groups.map fun p =>
        (p.1, { p.2 with slices := p.2.slices.map fun q => (q.1, s.barWake t p.2 q.2) }) }

def execBarrierRelease (t : Nat) (s : State) : Host.Outcome State Fault Refusal := .next (s.barRelease t)

/-! ## Gears, doze, watchdog -/

/-- ALMCAUSE has held no cause for 2 µs (10 R200, 22 R394). -/
def State.quietAlarm (s : State) : Bool := almCauses s.csr.almCause = 0 && s.almQuiet.toNat + 2000 ≤ s.time.toNat

/-- The resolved gear (10 R200). -/
def State.resolved (s : State) (t : Nat) : Bool := s.quietAlarm && (s.tile t).groups.any fun p => p.2.gearReq

/-- A tile stops issuing for a switch: no gang of it is ready any more (10 R200, 09 R185). -/
def Tile.stop (x : Tile) : Tile := { x with phase := .stopping, reserve := none }

/-- 10 R200. -/
def execGearResolveChange (t : Nat) (s : State) : Host.Outcome State Fault Refusal :=
  .next (if (s.tile t).phase = .idle && s.resolved t ≠ (s.tile t).fast then s.updTile t Tile.stop else s)

/-- No result of the tile's slices is outstanding, and no matrix instruction (10 R200, R203); `held`: apart from LDFs that a deferral
buffer holds. -/
def State.settled (s : State) (t : Nat) (held : Bool) : Bool :=
  (s.tile t).mx.isNone &&
    (s.tile t).groups.all fun p => p.2.slices.all fun q => q.2.out.all fun o => held && o.tok ≠ 0 && s.tokHeld [o.tok]

/-- The gear register's value at the start of a switch, which ends the tile's burst (10 R200, 14 R297). -/
def Tile.beginSwitch (x : Tile) (fast : Bool) : Tile :=
  { x with phase := .switching fast, fast := x.fast && fast, inBurst := false }

/-- 10 R200. -/
def State.switchStart (s : State) (t : Nat) : State :=
  if (s.tile t).phase = .stopping && s.settled t false then
    if s.resolved t = (s.tile t).fast then s.updTile t fun x => { x with phase := .idle }
    else s.updTile t fun x => x.beginSwitch (s.resolved t)
  else s

def execGearSwitchStart (t : Nat) (s : State) : Host.Outcome State Fault Refusal := .next (s.switchStart t)

/-- 10 R200; a tile that an alarm keeps stopped issues in NT (22 R395). -/
def Tile.endSwitch (x : Tile) : Tile :=
  match x.phase with
  | .switching f => { x with phase := .idle, fast := f }
  | .forced => { x with phase := .idle }
  | _ => x

/-- Until 150 ns after an alarm no tile that stands begins to issue (22 R395). -/
def execGearSwitchEnd (t : Nat) (s : State) : Host.Outcome State Fault Refusal :=
  .next (if s.alarmed then s else s.updTile t Tile.endSwitch)

/-- The waits in which a tile may doze (10 R203). -/
def Wait.dozes : Wait → Bool
  | .arrive _ | .barrier .. | .rdv _ | .setw _ | .future | .waitt _ | .slot | .yieldCopy _ => true
  | _ => false

/-- 10 R203: a rendezvous that is complete is waited for no more; a held LDF is one of the waits, so that its result does not count. -/
def State.mayDoze (s : State) (t : Nat) : Bool :=
  s.settled t true && (s.tile t).phase = .idle && !(s.tile t).doze &&
    (s.tile t).groups.all fun p => !p.2.atRendezvous && p.2.liveIdx.all fun k => (p.2.slice k).wait.dozes

def execDozeStart (t : Nat) (s : State) : Host.Outcome State Fault Refusal :=
  .next (if s.mayDoze t then s.updTile t fun x => { x with doze := true, inBurst := false, reserve := none } else s)

/-- 10 R203. -/
def execDozeWake (t : Nat) (s : State) : Host.Outcome State Fault Refusal := .next (s.updTile t fun x => { x with doze := false })

/-- The group's section has been open for 100 µs (10 R205). -/
def State.overdue (s : State) (g : Group) : Bool := g.sect && decide (g.sectStart.toNat + 100000 ≤ s.time.toNat)

/-- Makes an asynchronous trap pending in every live slice. -/
def Group.pendAll (g : Group) (tr : Trap) : Group :=
  g.liveIdx.foldl (fun r k => let x := r.slice k; r.setSlice k { x with async := x.async ++ [tr] }) g

/-- 10 R205. -/
def execWatchdog (t slot : Nat) (s : State) : Host.Outcome State Fault Refusal :=
  .next (s.updGroup t slot fun g => if s.overdue g then { g with sect := false }.pendAll (mkTrap 0x0F 0) else g)

/-! ## Fetch -/

def execInstructionFetchMiss (t slot slice : Nat) (s : State) : Host.Outcome State Fault Refusal :=
  .next (s.fetchMiss t slot slice)

def execIcacheFill (t i : Nat) (s : State) : Host.Outcome State Fault Refusal := .next (s.icFill t i)

/-! ## The matrix unit and bursts -/

/-- The next quarter's turn, where it selects the instruction that a slot's group presents to the matrix unit (09 R181, 14 R282, R289). -/
def State.matrixAccept (s : State) (t slot : Nat) : State :=
  match s.quarter t with
  | .issue r s1 => if r.pres && r.slot = slot && r.instr.any Instr.isMatrix then (matrixIssue (s1.focusOn t r) t slot).fresh else s
  | .none _ => s

def execMatrixAccept (t slot : Nat) (s : State) : Host.Outcome State Fault Refusal := .next (s.matrixAccept t slot)

/-- 14 R289. -/
def execMatrixComplete (t : Nat) (s : State) : Host.Outcome State Fault Refusal := .next (s.mxComplete t)

/-- 14 R293. -/
def execMstConvertDone (t : Nat) (s : State) : Host.Outcome State Fault Refusal := .next (s.mstDone t)

/-- 14 R297. -/
def execBurstEnd (t : Nat) (s : State) : Host.Outcome State Fault Refusal :=
  .next (s.updTile t fun x => if 64 < x.burstIdle then { x with inBurst := false, burstIdle := 0 } else x)

/-- The tokens have moved on with TIME: a tile that begins its next cycle sees the holders as they are (14 R298). -/
def Tile.seeToken (x : Tile) (token : Nat) : Tile := if x.qturn = 0 || x.qturn = 4 then { x with token := token } else x

/-- The same for every tile. -/
def State.rotateToken (s : State) : State :=
  { s with tiles := (s.tiles.map fun p => (p.1, p.2.seeToken (s.time.toNat / 50))).filter fun p => decide (p.2 ≠ Tile.reset) }

def execBurstTokenRotate (s : State) : Host.Outcome State Fault Refusal := .next (if s.up then s.rotateToken else s)

/-! ## Traps -/

/-- A trap in delivery is taken, or a pending asynchronous trap interrupts its slice (18 R337, R338). -/
def State.trapDelivery (s : State) (t slot k : Nat) : State :=
  match (s.slice t slot k).wait with
  | .records .. => s.tryDeliver t slot k
  | _ => s.takeAsync t slot k

def execTrapDelivery (t slot slice : Nat) (s : State) : Host.Outcome State Fault Refusal :=
  .next (s.trapDelivery t slot slice).fresh

/-- A request for PREEMPT reaches a group, and is held or let through (18 R340, R346). -/
def State.preempt (s : State) (t slot : Nat) : State := s.updGroup t slot fun g => { g with preReq := true }.letPreempt

def execPreemptionRequest (t slot : Nat) (s : State) : Host.Outcome State Fault Refusal := .next (s.preempt t slot)

/-- 18 R345. -/
def State.tlbinvDone (s : State) (t slot k : Nat) : State :=
  let x := s.slice t slot k
  match x.wait with
  | .tlbinv kind asid va => (s.setSlice t slot k x.wake).invalidate kind asid va
  | _ => s

def execTlbinvComplete (t slot slice : Nat) (s : State) : Host.Outcome State Fault Refusal :=
  .next (s.tlbinvDone t slot slice)

end Sys2Proof.Machine
end

