-- ==== Sys2Proof/Machine/Complete.lean ====
section
/-! DEFINITION. The end of groups and teams (10 R186, R191, 18 R348, 21 R382, R383): freeing a team's resources, its release from the
tile, its kill and its relaunch. -/

namespace Sys2Proof.Machine

/-! ## Resources -/

/-- The tiles whose scratchpad a copy reads or writes. -/
def Copy.padTiles (c : Copy) : List Nat :=
  let one : Side → List Nat
    | .pad t _ => [t]
    | .glob _ => []
  nubNat (one c.src ++ one c.dst)

/-- A side's unit lies in a range of a tile's scratchpad. -/
def Side.within (p : Side) (t lo hi : Nat) : Bool :=
  match p with
  | .pad u a => u = t && decide (lo < a + 8) && decide (a < hi)
  | .glob _ => false

/-- A copy reads or writes a team's scratchpad (13, opening). -/
def Copy.touches (c : Copy) (t : Nat) (m : Team) : Bool :=
  (List.range c.units).any fun u =>
    (c.src.at (c.srcOff u)).within t m.scratchBase (m.scratchBase + m.scratchSize) ||
      (c.dst.at (c.dstOff u)).within t m.scratchBase (m.scratchBase + m.scratchSize)

/-- A team's groups on its tile. -/
def Tile.teamGroups (x : Tile) (k : Nat) : Sparse Group := x.groups.filter fun p => p.2.team = k

/-- The saved groups of a resident team. -/
def State.savedOf (s : State) (t k : Nat) : List Saved :=
  s.resumed.filterMap fun r =>
    match r with
    | .group g => if g.tile = t && g.grp.team = k && g.away.isNone then some g else none
    | _ => none

/-- Removes the saved groups of a resident team from the resumed work. -/
def State.dropSaved (s : State) (t k : Nat) : State :=
  { s with resumed := s.resumed.filter fun r =>
      match r with
      | .group g => !(g.tile = t && g.grp.team = k && g.away.isNone)
      | _ => true }

/-- The leaves of a saved group, of the barriers that outlive its team (10 R191). -/
def Saved.leaves (q : Saved) : List Leave := q.grp.leaves q.tile fun k => 112 ≤ k

/-- A team's resources on its tile are free: its slot, scratchpad, accumulator blocks, tile-scope barriers and handles (10 R186). -/
def State.freeTeam (s : State) (t k : Nat) : State :=
  { s with leaves := s.leaves.filter fun l => !(l.tile = t && l.team = k && l.k < 112) }.updTile t fun x =>
    { x with teams := Sparse.erase x.teams k, handles := x.handles.filter fun p => p.2.team ≠ k }

/-- Changes a retained launch. -/
def State.updLaunch (s : State) (id : Nat) (f : Launch → Launch) : State :=
  { s with launches := s.launches.map fun l => if l.id = id then f l else l }

/-- The level of a launch. -/
def State.levelOf (s : State) (launch : Nat) : Nat :=
  match s.launch? launch with
  | some l => l.level
  | none => 0

/-- Flags of a launch record's word at 0x58 (16 Table 16.2). -/
def Launch.flag (l : Launch) (b : Nat) : Bool := fieldAt l.words 11 b b = 1

/-! ## Completion -/

/-- A team's last group has ended: a task's records retire in lane order, another team counts for its launch (16 R309, R317). -/
def State.teamDone (s : State) (t k : Nat) (m : Team) : State :=
  let s1 := s.freeTeam t k
  match m.task with
  | none => s1.updLaunch m.launch fun l => { l with complete := l.complete + 1 }
  | some id =>
    match s1.running.find? fun q => q.id = id with
    | some q =>
      { s1 with
          running := s1.running.filter fun p => p.id ≠ id,
          retiring := s1.retiring ++ q.tasks.map fun a => { launch := a.launch, grp := id, words := a.words, dep := none, asked := false } }
    | none => s1

/-- The ASID of a launch. -/
def State.launchAsid (s : State) (id : Nat) : Nat :=
  match s.launch? id with
  | some l => l.asid
  | none => 0

/-- An error record about a team (21 Table 21.4). SRC is the team's tile, which no rule says (log 55). -/
def State.logTeam (s : State) (t k : Nat) (m : Team) (kind detail : Nat) : State :=
  s.logError kind 0 (s.launchAsid m.launch) t 0 0 k 0 0 (s.launchTag m.launch) (BitVec.ofNat 64 detail)

/-- The launch of a team is restartable. -/
def State.restarts (s : State) (m : Team) : Bool := (s.launch? m.launch).any fun l => l.flag 5

/-- A team is lost (21 R383). -/
def State.loseTeam (s : State) (t k : Nat) (m : Team) : State :=
  (s.logTeam t k m 0x09 m.idx).updLaunch m.launch fun l =>
    { l with lost := true, complete := if m.task.isNone then l.complete + 1 else l.complete }

/-- A killed team is relaunched, or lost (21 R382, R383). -/
def State.relaunch (s : State) (t k : Nat) (m : Team) : State :=
  match m.task with
  | none =>
    let n := match s.launch? m.launch with
      | some l => Sparse.get 0 l.kills m.idx
      | none => 0
    let s1 := s.logTeam t k m 0x07 n
    if s.restarts m && n < 2 then
      (({ s1 with resumed := s1.resumed ++ [Resume.team m.launch m.idx] }).updLaunch m.launch fun l =>
        { l with kills := Sparse.set 0 l.kills m.idx (n + 1) }).logTeam t k m 0x08 (n + 1)
    else s1.loseTeam t k m
  | some id =>
    match s.running.find? fun q => q.id = id with
    | none => s
    | some q =>
      let s1 := ({ s with running := s.running.filter fun p => p.id ≠ id }).logTeam t k m 0x07 q.kills
      if s.restarts m && q.kills < 2 then
        ({ s1 with resumed := s1.resumed ++ [Resume.task { q with kills := q.kills + 1 }] }).logTeam t k m 0x08 (q.kills + 1)
      else s1.loseTeam t k m

/-- A killed team whose groups are gone (21 R382). -/
def State.teamGone (s : State) (t k : Nat) (m : Team) : State :=
  let s1 : State := { s with leaves := s.leaves ++ (s.savedOf t k).flatMap Saved.leaves }
  ((s1.dropSaved t k).freeTeam t k).relaunch t k m

/-- No team slot. -/
def noTeam : Nat := 16

/-- A saved group whose team has been released. -/
def Saved.sent (q : Saved) (id : Nat) : Saved := { q with away := some id, grp := { q.grp with team := noTeam } }

/-- A team none of whose groups is on its tile gives up the tile; the first of its saved groups to be placed takes it along (18 R348,
log 33). Its leaves on their way arrive before. -/
def State.releaseTeam (s : State) (t k : Nat) : State :=
  let mine (l : Leave) : Bool := l.tile = t && l.team = k && decide (l.k < 112)
  let s1 := State.leaveThose mine s.leaves.length s
  match s1.team? t k with
  | none => s1
  | some m =>
    let hs := (s1.tile t).handles.filter fun p => p.2.team = k
    let one (r : Resume) : Resume :=
      match r with
      | .group q => if q.tile = t && q.grp.team = k && q.away.isNone then .group (q.sent s1.nextId) else r
      | r => r
    let s2 := ({ s1 with resumed := s1.resumed.map one }).freeTeam t k
    { s2 with away := s2.away ++ [{ id := s2.nextId, tm := m, handles := hs }], nextId := s2.nextId + 1 }

/-- What becomes of a team none of whose groups is on its tile, once no copy reads or writes its scratchpad. -/
def State.settle (s : State) (t k : Nat) : State :=
  match s.team? t k with
  | none => s
  | some m =>
    if !((s.tile t).teamGroups k).isEmpty || s.engineCopies.any fun c => c.touches t m then s
    else if m.doomed then s.teamGone t k m
    else if m.live = 0 then s.teamDone t k m
    else if (s.savedOf t k).any Saved.rls then s.releaseTeam t k
    else s

/-- The same for every team of a tile. -/
def State.settleAll (s : State) (t : Nat) : State := (s.tile t).teams.keys.foldl (fun r k => r.settle t k) s

/-! ## The end of a group -/

/-- The matrix unit performs an operation of the group. -/
def Tile.mxOf (x : Tile) (g : Group) : Bool :=
  match x.mx with
  | some m => m.gid = g.gid
  | none => false

/-- A group leaves its slot: its windows are free, and its A latch is invalid (09 R170, 14 R287). -/
def Tile.dropGroup (x : Tile) (slot : Nat) (g : Group) : Tile :=
  { x with
      groups := Sparse.erase x.groups slot,
      alatch := x.alatch.filter fun p => p.2.gid ≠ g.gid,
      reserve := x.reserve.filter fun r => r.1 ≠ slot }

/-- A group all of whose slices have retired ends once its store queue is empty (06 R123), leaving its barriers (10 R191); HALT.kill
of the deciding slice ends it too (18 R348). -/
def State.groupEnd (s0 : State) (t slot : Nat) : State :=
  let kill := match s0.group? t slot with
    | some g => (match g.haltKind with
      | some (.haltKill _) => true
      | _ => false)
    | none => false
  let s := if kill then s0.endGroup t slot else s0
  match s.group? t slot with
  | none => s
  | some g =>
    if !g.liveIdx.isEmpty || !g.sq.isEmpty || (s.tile t).mxOf g then s
    else
      let s1 := ((s.leaveAll t slot).updTile t fun x => x.dropGroup slot g).updTeam t g.team fun m => { m with live := m.live - 1 }
      s1.settle t g.team

def execGroupEnd (t slot : Nat) (s : State) : Host.Outcome State Fault Refusal := .next (s.groupEnd t slot).fresh

/-- The tile's cluster is being drained for test (21 R387). -/
def State.draining (s : State) (t : Nat) : Bool := s.csr.testStat.getLsbD 9 && bits s.csr.testStat 4 0 = t / 8

/-- The image address and the form of a group's HALT.save, once every live slice has halted. -/
def Group.saveKind (g : Group) : Option (DWord × Bool) :=
  match g.haltKind, g.leader.wait with
  | some (.haltSave ..), .halted _ a => some (a, false)
  | some (.haltSaveRls ..), .halted _ a => some (a, true)
  | _, _ => none

/-- The level of a team: its launch's. -/
def State.teamLevel (s : State) (t k : Nat) : Nat :=
  match s.team? t k with
  | some m => s.levelOf m.launch
  | none => 0

/-- A saved group leaves its tile once its copies have completed, its store queue is empty and its matrix instructions have ended (18
R348, 14 R289). While its cluster is drained the save is one with release. -/
def State.saveLeave (s : State) (t slot : Nat) : State :=
  match s.group? t slot with
  | none => s
  | some g =>
    match g.saveKind with
    | none => s
    | some (addr, rls) =>
      if !g.sq.isEmpty || !(s.groupCopies t slot g).isEmpty || (s.tile t).mxOf g then s
      else
        let s1 := g.arrSent.foldl (fun r a => r.arriveAt t slot a.k) (s.drainHost t g.asid)
        match s1.group? t slot with
        | none => s1
        | some g1 =>
          let q : Saved :=
            { tile := t, away := none, drained := if s.draining t then some s.testStart else none, rls := rls || s.draining t, level := s.teamLevel t g.team,
              grp := { g1 with image := addr } }
          let s2 := s1.updTile t fun x => x.dropGroup slot g
          ({ s2 with resumed := s2.resumed ++ [Resume.group q] }).settle t g.team

def execGroupSaveLeave (t slot : Nat) (s : State) : Host.Outcome State Fault Refusal := .next (s.saveLeave t slot).fresh

/-! ## A team killed -/

/-- A group of a killed team stops: its slices retire, its held LDF lanes are withdrawn, and it leaves its barriers (21 R382). -/
def State.stopGroup (s : State) (t slot : Nat) : State :=
  let mine (h : Held) : Bool := h.tile = t && h.slot = slot
  ({ s with deferral := s.deferral.filter fun h => !mine h }).endGroup t slot

/-- A doomed team is killed: its groups stop, and end once their queued entries have been performed (21 R382). -/
def State.killTeam (s : State) (t k : Nat) : State :=
  match s.team? t k with
  | none => s
  | some m =>
    if m.doomed then
      let slots := ((s.tile t).teamGroups k).keys
      (slots.foldl (fun r j => r.groupEnd t j) (slots.foldl (fun r j => r.stopGroup t j) s)).settle t k
    else s

def execTeamKilled (t team : Nat) (s : State) : Host.Outcome State Fault Refusal := .next (s.killTeam t team).fresh

end Sys2Proof.Machine
end

