-- ==== Sys2Proof/Machine/Engine.lean ====
section
/-! DEFINITION. The store queue (12 R240), futures (11 R223), atomics (11 R228-R230), task offers (16 R319), the sluice unit (19 R370,
R371) and the copy engines (13 R265-R274). An event that is not due changes nothing (log 3). -/

namespace Sys2Proof.Machine

/-! ## Answers -/

/-- Adds writes to the result that a token names. -/
def Slice.give (x : Slice) (tok : Nat) (ws : List RegWrite) : Slice :=
  { x with out := x.out.map fun p => if p.tok = tok then { p with writes := p.writes ++ ws } else p }

/-- The result that a token names is discarded (21 R379). -/
def Slice.discard (x : Slice) (tok : Nat) : Slice := { x with out := x.out.filter fun p => p.tok ≠ tok }

/-- A store that reaches memory: one outside a peer's data space is discarded (19 R364). -/
def reaches (l : Loc) : Bool := !(isPeer l.key && decide (dataEnd ≤ l.key % 2 ^ 53))

/-- The accesses of an entry with their lengths. -/
def accLens (accs : List Acc) : List (Loc × Nat) := accs.map fun a => (a.loc, a.data.length)

/-- A write waits while an engine owns its place, or while no route leads to its package (12 R253, 19 R366). -/
def State.writeHeld (s : State) (ls : List (Loc × Nat)) : Bool :=
  ls.any fun p => s.owned p.1.key p.2 || (isPeer p.1.key && s.unroutable)

/-! ## Stores and futures -/

/-- A store leaves the queue (12 R240). -/
def State.sqStore (s : State) (t : Nat) (g : Group) (accs : List Acc) : State :=
  let ok := accs.filter fun a => reaches a.loc
  (s.touch t g.asid true (accLens ok)).perform ok

/-- The word a held lane takes from an STF: that of its granule after the first lane that writes there (11 R223, R231). -/
def State.filled (s : State) (accs : List Acc) (h : Held) : Option (List Byte) :=
  (accs.find? fun a => a.loc.key / 8 = h.loc.key / 8).map fun a => (s.writeBytes a.loc.key a.data).readBytes h.loc.key h.size

/-- An answer to a peer (19 R364). -/
def State.answerPeer (s : State) (peer : Nat) (data : List Byte) (tag : Eb16) (poisoned : Bool) : State :=
  { s with fenOut := s.fenOut ++ [(peer, { data := data, tag := tag, poisoned := poisoned, refused := false })] }

/-- An answer of n poisoned bytes; an LDF refused. -/
def State.answerPoison (s : State) (peer n : Nat) : State := s.answerPeer peer (List.replicate n 0) 0 true
def State.answerRefused (s : State) (peer : Nat) : State :=
  { s with fenOut := s.fenOut ++ [(peer, { data := [], tag := 0, poisoned := false, refused := true })] }

/-- A held lane, of a tile or of a peer, is answered (11 R223). -/
def State.answerHeld (s : State) (h : Held) (bs : List Byte) (tag : Eb16) : State :=
  if noTile ≤ h.tile then s.answerPeer (h.tile - noTile) bs tag (s.poisonAt h.loc.key h.size)
  else s.updSlice h.tile h.slot h.slice fun x => x.give h.tok (loadWrites h.dst h.lane bs tag ++ [wP h.pa h.lane true])

/-- A slice none of whose lanes is held any more goes on (11 R223). -/
def State.releaseHeld (s : State) (h : Held) : State :=
  if s.deferral.any fun q => q.tok = h.tok && q.slice = h.slice then s
  else
    s.updSlice h.tile h.slot h.slice fun x =>
      let y := x.answer h.tok
      if y.wait = .future then y.wake else y

/-- The MACHINE_CHECK of the slices of one LDF whose held lanes are answered with poison: nothing of it is written, and its other lanes are
withdrawn (21 R379). -/
def State.ldfPoison (s : State) (h : Held) (mates : List Held) : State :=
  match s.group? h.tile h.slot with
  | none => s
  | some g =>
    let ad := s.badUnit noTile h.loc.key h.size
    let lanes := mates.map fun q => 4 * q.slice + q.lane
    let ks := g.liveIdx.filter fun k => (g.slice k).out.any fun p => p.tok = h.tok
    let pc := (g.slice h.slice).parkPc
    let s1 := s.logError 0x03 (BitVec.ofNat 64 (physOf ad)) g.asid h.tile (4 * h.slice + h.lane) g.idx g.team h.slice pc (s.groupTag h.tile g)
      (BitVec.ofNat 64 (s.arrayOf noTile ad))
    let tr (x : Slice) : Trap := { poisonTrap lanes (physOf ad) with rpc := some x.parkPc }
    ks.foldl
      (fun r k => r.updSlice h.tile h.slot k fun x =>
        let y : Slice := { x.discard h.tok with async := x.async ++ [tr x] }
        if y.wait = .future then y.wake else y)
      { s1 with deferral := s1.deferral.filter fun q => q.tok ≠ h.tok }

/-- The LDFs of tiles among some held lanes that take poison from a granule: MACHINE_CHECK, once for each. -/
def State.ldfPoisons (s : State) (bad : List Held) : State :=
  (nubNat (bad.map Held.tok)).foldl
    (fun r k => match bad.filter fun h => h.tok = k with
      | h :: rest => r.ldfPoison h (h :: rest)
      | [] => r) s

/-- Granules are filled: the data are written, the granules are FULL, and their held lanes are answered and go on (11 R223), or take
MACHINE_CHECK where what they are to receive is poisoned (21 R379). -/
def State.fillGranules (s : State) (ok : List Acc) : State :=
  let hits (key : Nat) : Bool := ok.any fun a => a.loc.key / 8 = key
  let s1 := s.perform ok
  let mine := s1.deferral.filter fun h => hits (h.loc.key / 8)
  let s2 : State :=
    { s1 with emptyGran := s1.emptyGran.filter fun p => !hits p.1, deferral := s1.deferral.filter fun h => !hits (h.loc.key / 8) }
  let spoilt (h : Held) : Bool := h.tile < noTile && s1.poisonAt h.loc.key h.size
  let sound := mine.filter fun h => !spoilt h
  let s3 := sound.foldl
    (fun r h =>
      match s.filled ok h with
      | some bs => r.answerHeld h bs (s1.locTag h.loc)
      | none => r) s2
  (sound.foldl State.releaseHeld s3).ldfPoisons (mine.filter spoilt)

/-- STF (11 R223, R231). -/
def State.sqStf (s : State) (t : Nat) (g : Group) (accs : List Acc) : State :=
  let ok := accs.filter fun a => reaches a.loc
  (s.atSlice (t / 32) g.asid true (accLens ok)).fillGranules ok

/-- Granules are emptied (11 R223). -/
def State.emptyGranules (s : State) (ok : List Loc) : State :=
  ok.foldl
    (fun r l =>
      if r.emptyGran.any fun p => p.1 = l.key / 8 then r
      else { r with emptyGran := r.emptyGran ++ [(l.key / 8, l.l2s)] }) s

/-- CLRF (11 R223). -/
def State.sqClrf (s : State) (t : Nat) (g : Group) (locs : List Loc) : State :=
  let ok := locs.filter reaches
  (s.atSlice (t / 32) g.asid false (ok.map fun l => (l, 8))).emptyGranules ok

/-! ## Atomics -/

/-- The type of an integer atomic. -/
def atomTy (ty : AtomTy) (size : Nat) : Ty :=
  match ty with
  | .int => if size = 8 then .i64 else .i32
  | _ => if size = 8 then .n64 else .n32

/-- A floating-point atomic's new value and bound: class F, RNE, no flush (11 Table 11.3). -/
def atomFlt (o : AtomOp) (size : Nat) (x y : Val) : Nat × Eb16 :=
  let f : FF := if size = 8 then .f64 else .f32
  let a := takeOp f .f (f.decode x.n) x.b
  let b := takeOp f .f (f.decode y.n) y.b
  let r : FRes :=
    match o with
    | .min => fMinMax false a b
    | .max => fMinMax true a b
    | _ => fAdd f .f .rne a b
  (f.encode r.v, r.b)

/-- The new value of an operation with its bound b′ (11 R228, R229). -/
def atomOp (o : AtomOp) (ty : AtomTy) (size : Nat) (x y : Val) : Nat × Eb16 :=
  let t := atomTy ty size
  if ty = .flt then atomFlt o size x y
  else
    match o with
    | .add => vAdd t x y
    | .min => vMinMax false (tySigned t) t x y
    | .max => vMinMax true (tySigned t) t x y
    | .and => vBits (· &&& ·) t x y
    | .or => vBits (· ||| ·) t x y
    | .xor => vBits (· ^^^ ·) t x y
    | .exch => (y.n, y.b)

/-- What one lane writes: value and new tag; none where a compare and swap fails (11 R229, R230). -/
def AtomFn.new (f : AtomFn) (size : Nat) (old : Nat) (t : Eb16) (a : AtomLane) : Option (Nat × Eb16) :=
  match f with
  | .op o ty =>
    let r := atomOp o ty size { n := old, b := t } { n := a.val.toNat, b := a.bnd }
    some (r.1, ebMax t r.2)
  | .cas => if old = a.exp.toNat then some (a.val.toNat, ebMax t a.bnd) else none

/-- What an atomic returns: old with the sector's tag to V registers, old alone to an S register (11 R229). -/
def atomReturn (d : Dst) (size old : Nat) (t : Eb16) : List RegWrite :=
  match d with
  | .v r l => if size = 8 then wV64 r l (BitVec.ofNat 64 old) t else [wV r l (BitVec.ofNat 32 old) t]
  | .s r => [wS r (BitVec.ofNat 64 old)]
  | .p .. => []

/-- One lane of an atomic: the read, the write and the return (11 R229, 12 R238). -/
def State.atomLane (s : State) (t slot : Nat) (f : AtomFn) (size tok : Nat) (a : AtomLane) : State :=
  let old := s.readNat a.loc.key size
  let tag := s.locTag a.loc
  let s1 :=
    match f.new size old tag a with
    | some (v, b) => s.perform [{ loc := a.loc, data := leBytes size v, bnd := b }]
    | none => s
  s1.updSlice t slot a.slice fun x => x.give tok (atomReturn a.dst size old tag)

/-- The slices of an atomic's lanes. -/
def atomSlices (lanes : List AtomLane) : List Nat := nubNat (lanes.map AtomLane.slice)

/-- An atomic that finds poison only as it is performed: its slices take MACHINE_CHECK before they go on, at the atomic itself, and nothing
is written (21 R379, 18 R337). `a` and `bad` are the lanes that consume it. -/
def State.atomPoison (s : State) (t slot : Nat) (g : Group) (size tok : Nat) (lanes : List AtomLane) (a : AtomLane) (bad : List AtomLane) :
    State :=
  let ad := s.badUnit noTile a.loc.key size
  let s1 := s.logError 0x03 (BitVec.ofNat 64 (physOf ad)) g.asid t a.lane g.idx g.team a.slice a.pc (s.groupTag t g)
    (BitVec.ofNat 64 (s.arrayOf noTile ad))
  let tr : Trap := { poisonTrap ((a :: bad).map AtomLane.lane) (physOf ad) with rpc := some a.pc }
  (atomSlices lanes).foldl
    (fun r k => r.updSlice t slot k fun y => { y.discard tok with async := y.async ++ [tr] }) s1

/-- An atomic leaves the queue: its lanes in ascending order (11 R215). -/
def State.sqAtomic (s : State) (t slot : Nat) (g : Group) (f : AtomFn) (size tok : Nat) (lanes : List AtomLane) : State :=
  match lanes.filter fun a => s.poisonAt a.loc.key size with
  | a :: bad => s.atomPoison t slot g size tok lanes a bad
  | [] =>
    let s1 := s.atSlice (t / 32) g.asid true (lanes.map fun a => (a.loc, size))
    let s2 := lanes.foldl (fun r a => r.atomLane t slot f size tok a) s1
    (atomSlices lanes).foldl (fun r k => r.updSlice t slot k fun x => x.answer tok) s2

/-! ## Cache control -/

/-- CCTL of one line (11 R235). -/
def State.cctlLine (s : State) (t asid op : Nat) (l : Loc) : State :=
  let who := some asid
  let n := l.key / 256
  match op with
  | 0 => s.l1Clean who t false n
  | 1 => s.l1Clean who t true n
  | 2 => (s.l1Clean who t false n).l2Clean who false l
  | 3 => (s.l1Clean who t true n).l2Clean who true l
  | _ => s.updTile t fun x => { x with icache := x.icache.filter fun y => y.line ≠ n }

/-! ## Task offers -/

/-- The records that a level's task queue holds, those of open gathers and of gathers that wait for placement among them (16 R314). -/
def State.taskCount (s : State) (lv : Nat) : Nat :=
  (((s.taskQ ++ s.gathers).filter fun q => q.level = lv).map fun q => q.tasks.length).foldl (· + ·) 0

def State.taskRoom (s : State) (lv : Nat) : Bool := s.taskCount lv < 16384

/-- W of a lane task, and whether a record is one (16 Table 16.4). -/
def taskWidth (ws : List DWord) : Nat := fieldAt ws 3 55 48
def isLaneTask (ws : List DWord) : Bool := fieldAt ws 3 63 63 = 1

/-- A gather takes records of a key (16 R316). -/
def Gather.takes (q : Gather) (lv launch : Nat) (ws : List DWord) : Bool :=
  decide (q.level = lv) &&
    (match q.tasks with
     | a :: _ => decide (a.launch = launch) && decide (a.words.getD 0 0 = ws.getD 0 0) && decide (a.words.getD 3 0 = ws.getD 3 0)
     | [] => false)

/-- The window of a gather: 2 µs (16 R316). -/
def Gather.due (q : Gather) (now : DWord) : Bool := q.start.toNat + 2000 ≤ now.toNat

/-- A gather closes: it becomes a placement of its level (16 R316). -/
def State.closeGather (s : State) (id : Nat) : State :=
  { s with
      gathers := s.gathers.filter fun q => q.id ≠ id,
      taskQ := s.taskQ ++ (s.gathers.filter fun q => q.id = id).map fun q => { q with isOpen := false } }

/-- A record joins an open gather, which closes when it holds W (16 R316). -/
def State.joinGather (s : State) (q : Gather) (a : Task) : State :=
  let s1 : State := { s with gathers := s.gathers.map fun p => if p.id = q.id then { p with tasks := p.tasks ++ [a] } else p }
  if taskWidth a.words ≤ q.tasks.length + 1 then s1.closeGather q.id else s1

/-- Every gather whose window has passed closes (16 R316). -/
def State.closeDue (s : State) : State := (s.gathers.filter fun q => q.due s.time).foldl (fun r q => r.closeGather q.id) s

/-- A task record enters its level's queue (16 R314, R316). -/
def State.enqueueTask (s0 : State) (lv launch : Nat) (ws : List DWord) : State :=
  let s := s0.closeDue
  let a : Task := { launch := launch, words := ws }
  let q : Gather := { id := s.nextId, level := lv, start := s.time, isOpen := isLaneTask ws, tasks := [a], kills := 0 }
  if !isLaneTask ws then { s with taskQ := s.taskQ ++ [q], nextId := s.nextId + 1 }
  else
    match s.gathers.find? fun p => p.takes lv launch ws with
    | some p => s.joinGather p a
    | none => { s with gathers := s.gathers ++ [q], nextId := s.nextId + 1 }

/-- The records of a SPAWN are offered in lane order; from the first refusal on all are refused (16 R319). -/
def State.offer (s : State) (t slot launch tok pd : Nat) : List (Nat × List DWord) → Bool → State
  | [], _ => s
  | (lane, ws) :: rest, open_ =>
    let lv := s.levelOf launch
    let ok := open_ && s.taskRoom lv
    let s1 := if ok then s.enqueueTask lv launch ws else s
    (s1.updSlice t slot (lane / 4) fun x => x.give tok [wP pd (lane % 4) ok]).offer t slot launch tok pd rest ok

/-- 16 R319. -/
def State.sqSpawn (s : State) (t slot : Nat) (g : Group) (tok pd : Nat) (recs : List (Nat × List DWord)) : State :=
  (nubNat (recs.map fun p => p.1 / 4)).foldl (fun r k => r.updSlice t slot k fun x => x.answer tok)
    (s.offer t slot (s.groupLaunch t g) tok pd recs true)

/-! ## Sluices -/

/-- VEC of a sluice, where it signals one (19 Table 19.4). -/
def Sluice.vec (x : Sluice) : Option Nat :=
  let v := bits x.cfg 13 8
  if x.cfg.getLsbD 7 && 2 ≤ v then some v else none

/-- A vector is to be sent (19 R362). -/
def State.signal (s : State) (v : Nat) : State := { s with msixPend := s.msixPend ||| (1#64 <<< v) }

/-- RELIDX := max(RELIDX, n + 1), with its signal (19 R371). -/
def State.advanceRel (s : State) (k n : Nat) : State :=
  let q := s.sluice k
  if q.rel.toNat < n + 1 then
    let s1 := s.setSluice k { q with rel := BitVec.ofNat 64 (n + 1) }
    match q.vec with
    | some v => s1.signal v
    | none => s1
  else s

/-- A place of this package's memory, as hub units address it. -/
def hubLoc (pa : Nat) : Loc := { key := pa, tagged := true, l2s := interleaved pa, cp := 0 }

/-- A place that a peer's access reaches, under the mapping that the request carries (11 R211, R219, 17 R322). -/
def fenLoc (m : FenMap) (pa : Nat) : Loc :=
  { hubLoc pa with
      tagged := m.bm,
      l2s := match m.near with
        | some d => nearSlice d.toNat pa
        | none => interleaved pa }

/-- A store of a hub unit to this package's data space, of bound 0; elsewhere there is no memory to write (log 35). -/
def State.hubStore (s : State) (pa : Nat) (data : List Byte) : State :=
  if pa + data.length ≤ dataEnd then
    (s.hubTouch true [(hubLoc pa, data.length)]).perform [{ loc := hubLoc pa, data := data, bnd := 0 }]
  else s

/-- SLVETO (19 R371). -/
def State.sqVeto (s : State) (k n : Nat) : State :=
  let q := s.sluice k
  let a := q.slotAt n + 8
  let s1 :=
    if q.rel.toNat ≤ n then s.hubStore a (leBytes 8 (s.read64 a ||| (1#64 <<< 63)).toNat)
    else s.setSluice k { q with vlost := true }
  s1.advanceRel k n

/-- The record of a put (19 Table 19.5). -/
def sluiceRecord (seq asid t slice : Nat) (payload : List DWord) : List DWord :=
  [BitVec.ofNat 64 seq, packBits [(asid % 2 ^ 15, 48), (t % 512, 39), (slice % 32, 34)]] ++ payload

/-! ## Leaving the queue -/

/-- A fence may leave: what it waits for is done (12 R252). -/
def State.fenceDone (s : State) (toks copies : List Nat) (mx : Bool) : Bool := !s.tokHeld toks && copies.isEmpty && !mx

/-- A fence holds nothing any more: it may leave, and it is none of scope sys, which holds until it does (12 R246). -/
def State.fenceIdle (s : State) (sys : Bool) (toks copies : List Nat) (mx : Bool) : Bool := !sys && s.fenceDone toks copies mx

/-- An entry is performed; none where it must wait, or waits for an engine or the sluice unit (12 R240). -/
def State.sqPerform (s : State) (t slot : Nat) (g : Group) : SqKind → Option State
  | .store _ accs => if s.writeHeld (accLens accs) then none else some (s.sqStore t g accs)
  | .stf accs => if s.writeHeld (accLens accs) then none else some (s.sqStf t g accs)
  | .clrf locs =>
    if s.writeHeld (locs.map fun l => (l, 8)) then none else some (s.sqClrf t g locs)
  | .atomic _ f size tok lanes =>
    let ls := lanes.map fun a => (a.loc, size)
    if s.linkHeld ls || ls.any (fun p => s.owned p.1.key p.2) then none else some (s.sqAtomic t slot g f size tok lanes)
  | .cctl op locs => some (locs.foldl (fun r l => r.cctlLine t g.asid op l) s)
  | .spawn tok pd recs => some (s.sqSpawn t slot g tok pd recs)
  | .slrel k n => some (s.advanceRel k n)
  | .slveto k n => if s.owned ((s.sluice k).slotAt n) 64 then none else some (s.sqVeto k n)
  | .fence .. => none
  | .copy _ => none
  | .slput .. => none

/-- The kinds of an entry's accesses: ld, st, cpy, mx as bits of 11 R232 (12 R236, R256). -/
def SqKind.kinds : SqKind → BitVec 4
  | .store mst _ => if mst then 0b1010 else 0b0010
  | .stf _ | .atomic .. => 0b0011
  | .copy _ => 0b0100
  | .fence .. => 0
  | _ => 0b0010

/-- The place in a queue of the entry that is next: the first that is no fence, unless a fence before it holds its kind (12 R240, R252).
`held` gathers what those fences hold. -/
def State.sqNext (s : State) : List SqKind → BitVec 4 → Nat → Option (Nat × SqKind)
  | [], _, _ => none
  | .fence hold _ sys toks copies mx :: rest, held, n => s.sqNext rest (if s.fenceIdle sys toks copies mx then held else held ||| hold) (n + 1)
  | e :: _, held, n => if held &&& e.kinds = 0 then some (n, e) else none

/-- The place of a fence at the front of a queue that may leave, and whether its scope is sys; one of that scope leaves first in its
queue. -/
def State.sqIdle (s : State) : List SqKind → Nat → Option (Nat × Bool)
  | .fence _ _ sys toks copies mx :: rest, n =>
    if s.fenceDone toks copies mx && (!sys || n = 0) then some (n, sys) else s.sqIdle rest (n + 1)
  | _, _ => none

/-- The group after an entry has left its store queue; arrivals wait for one entry less (10 R198). -/
def Group.popAt (g : Group) (n : Nat) : Group :=
  { g with
      sq := g.sq.eraseIdx n,
      arrSent := g.arrSent.map fun a => { a with before := if n < a.before then a.before - 1 else a.before } }

/-- The next entry of a group's store queue, with the group after it has left. -/
def State.sqHead (s : State) (g : Group) : Option (SqKind × Group) := (s.sqNext g.sq 0 0).map fun p => (p.2, g.popAt p.1)

/-- A fence that holds nothing leaves, and one of scope sys once what the context has stored in host memory is there; or the next entry is
performed (12 R240, R246, R252). -/
def State.queueStep (s : State) (t slot : Nat) : State :=
  match s.group? t slot with
  | none => s
  | some g =>
    match s.sqIdle g.sq 0 with
    | some (n, sys) => (if sys then s.drainHost t g.asid else s).setGroup t slot (g.popAt n)
    | none =>
      match s.sqHead g with
      | none => s
      | some (e, g1) =>
        match (s.setGroup t slot g1).sqPerform t slot g1 e with
        | some s1 => s1
        | none => s

def execStoreQueuePerform (t slot : Nat) (s : State) : Host.Outcome State Fault Refusal := .next (s.queueStep t slot).fresh

/-- 19 R370. -/
def State.sluicePut (s : State) (t slot : Nat) : State :=
  match s.group? t slot with
  | none => s
  | some g =>
    match s.sqHead g with
    | some (.slput k tok slice d payload, g1) =>
      let q := s.sluice k
      let a := q.slotAt q.put.toNat
      if q.put.toNat - q.host.toNat = q.n || s.owned a 64 then s
      else
        let data := wordBytes (sluiceRecord q.put.toNat g.asid t slice payload)
        let s1 := ((s.setGroup t slot g1).hubStore a data).setSluice k { q with put := q.put + 1 }
        s1.updSlice t slot slice fun x => (x.give tok [wS d.toNat q.put]).answer tok
    | _ => s

def execSluicePut (t slot : Nat) (s : State) : Host.Outcome State Fault Refusal := .next (s.sluicePut t slot)

/-! ## Engines -/

/-- The copies of an engine. -/
def Tile.eng (x : Tile) (e : Nat) : List Copy := if e = 0 then x.eng0 else x.eng1

def Tile.setEng (x : Tile) (e : Nat) (l : List Copy) : Tile := if e = 0 then { x with eng0 := l } else { x with eng1 := l }

/-- 13 R271: to the engine with fewer copies, engine 0 on a tie. -/
def State.engineIssue (s : State) (t slot : Nat) : State :=
  match s.group? t slot with
  | none => s
  | some g =>
    match s.sqHead g with
    | some (.copy c, g1) =>
      let x := s.tile t
      let e := if x.eng0.length ≤ x.eng1.length then 0 else 1
      if 16 ≤ (x.eng e).length then s
      else
        let y : Copy := { c with seq := s.nextId }
        ({ s.setGroup t slot g1 with nextId := s.nextId + 1 }).updTile t fun x => x.setEng e (x.eng e ++ [y])
    | _ => s

def execEngineIssue (t slot : Nat) (s : State) : Host.Outcome State Fault Refusal := .next (s.engineIssue t slot)

/-- What stands in an engine's way at a unit. -/
inductive Obstacle where
  /-- the place is owned by a copy issued before, read by the matrix unit, or beyond a link without a route -/
  | held
  /-- a page that is not resident, on the destination's side or the source's (13 R272) -/
  | nonres (write : Bool) (va : Nat) (entry : DWord)
  /-- an invalid page or a protection breach (13 R272) -/
  | fail (write : Bool) (va cause : Nat) (entry : DWord)
  /-- a destination unit that spans two granules of the peat window (11 R218) -/
  | span (va : Nat)

/-- A side's page, where it is global. -/
def State.sideObstacle (s : State) (c : Copy) (write : Bool) (p : Side) : Option Obstacle :=
  match p with
  | .pad .. => none
  | .glob va =>
    let q := (s.lookup c.asid (if write then .cdst else .csrc) c.pm va.toNat).1
    if q.cause = 0 then none else if q.cause = 2 then some (.nonres write va.toNat q.entry) else some (.fail write va.toNat q.cause q.entry)

/-- Copies that were issued to an engine before this one (12 R253). -/
def State.before (s : State) (c : Copy) : List Copy := s.engineCopies.filter fun d => d.seq < c.seq

/-- The scratchpad bytes that the tile's matrix unit is reading (14 R288). -/
def State.mxReads (s : State) (t k n : Nat) : Bool :=
  match (s.tile t).mx with
  | some m => m.bLen ≠ 0 && overlap k n m.bKey m.bLen
  | none => false

/-- A destination unit that spans a 128-byte boundary of the peat window (11 R218, log 85). -/
def State.spansPeat (s : State) (c : Copy) (u : Nat) : Bool :=
  match c.dst.at (c.dstOff u) with
  | .pad .. => false
  | .glob va => 120 < va.toNat % 128 && (c.dstParts u).any fun p => (s.sideLoc c .cdst p.1).any fun l => isPeat l.key

/-- A lookup of a copy's side would read a table entry that a copy before it owns (12 R253, 17 R321). -/
def State.sideWalkHeld (s : State) (t : Nat) (c : Copy) (p : Side) : Bool :=
  match p with
  | .pad .. => false
  | .glob va => (s.walkReads t c.asid va.toNat (s.walk c.asid va.toNat)).any fun q => (s.before c).any fun d => s.copyOwns d q.1.key q.2

/-- An engine's read or write of n bytes of a place must wait: for a copy before it, for a route, or for the matrix unit. -/
def State.placeHeld (s : State) (t : Nat) (c : Copy) (write : Bool) (l : Loc) (n : Nat) : Bool :=
  ((s.before c).any fun d => s.copyOwns d l.key n) || (isPeer l.key && s.unroutable && (write || !s.noRoute.elem (peerOf l.key))) ||
    (write && s.mxReads t l.key n)

/-- What holds an engine back at a unit, if anything: each side is looked up once no entry it reads is owned (12 R253). -/
def State.obstacle (s : State) (t : Nat) (c : Copy) (u : Nat) : Option Obstacle :=
  let look (write : Bool) (p : Side) : Option Obstacle := if s.sideWalkHeld t c p then some .held else s.sideObstacle c write p
  let src := c.src.at (c.srcOff u)
  match look false src with
  | some o => some o
  | none =>
    match (c.dstParts u).findSome? fun p => look true p.1 with
    | some o => some o
    | none =>
      if s.spansPeat c u then some (.span (match c.dst.at (c.dstOff u) with | .glob va => va.toNat | .pad _ a => a))
      else if ((s.sideLoc c .csrc src).any fun l => s.placeHeld t c false l 8) ||
          (c.dstParts u).any fun p => (s.sideLoc c .cdst p.1).any fun l => s.placeHeld t c true l p.2.2 then some .held
      else none

/-- The units from u on that nothing holds back, and the obstacle after them. -/
def State.freeUnits (s : State) (t : Nat) (c : Copy) : Nat → Nat → Nat × Option Obstacle
  | 0, u => (u, none)
  | n + 1, u =>
    match s.obstacle t c u with
    | some o => (u, some o)
    | none => s.freeUnits t c n (u + 1)

/-- Where the engine stops, from the unit it has reached. -/
def State.reach (s : State) (t : Nat) (c : Copy) : Nat × Option Obstacle := s.freeUnits t c (c.units - c.done) c.done

/-- The destination sectors of a unit, by its addresses. -/
def Copy.dstSectors (c : Copy) (u : Nat) : List Nat :=
  match c.dst.at (c.dstOff u) with
  | .glob va => [va.toNat / 64, (va.toNat + 7) / 64]
  | .pad _ a => [a / 64, (a + 7) / 64]

/-- The last unit up to which no sector is shared with a later one, so that the sector's tag is made once (13 R269). -/
def Copy.cut (c : Copy) : Nat → Nat
  | 0 => 0
  | n + 1 =>
    let rest := (List.range (c.units - (n + 1))).flatMap fun k => c.dstSectors (n + 1 + k)
    if (List.range (n + 1)).any fun u => (c.dstSectors u).any rest.elem then c.cut n else n + 1

/-- The parts of a unit as accesses with their source value and tag. -/
def State.unitAccs (s : State) (c : Copy) (u : Nat) (v : List Byte × Eb16) : List Acc :=
  (c.dstParts u).filterMap fun p =>
    (s.sideLoc c .cdst p.1).map fun l => { loc := l, data := (v.1.drop p.2.1).take p.2.2, bnd := v.2 }

/-- The tag of a sector in a run that has written some accesses (11 R217). -/
def State.tagIn (s : State) (accs : List Acc) (l : Loc) : Eb16 :=
  if !l.tagged then 0
  else if accs.any fun a => (accSectors a).elem (l.key / 64) then storeTag accs (l.key / 64) (s.tagAt l.key)
  else s.tagAt l.key

/-- A source unit as the engine reads it. -/
structure SrcUnit where
  data : List Byte
  tag : Eb16
  bad : Bool
  badTag : Bool
deriving DecidableEq, Repr

/-- What the engine reads: what a unit of its own has written there, or any value that the place has held since the engine issue, with its
poison (13 R268, R269, 12 R254, 21 R378). `now` has the data that the run has written, with `accs`. -/
def State.readUnit (s : State) (c : Copy) (u : Nat) (now : State) (accs : List Acc) : SrcUnit :=
  match s.sideLoc c .csrc (c.src.at (c.srcOff u)) with
  | none => { data := [], tag := 0, bad := false, badTag := false }
  | some l =>
    let lost := isPeer l.key && s.poisonAt l.key 8 && !s.poisoned l.key 8
    if s.choose (64 * u + 4) 2 = 0 then
      { data := now.readBytes l.key 8, tag := s.tagIn accs l, bad := s.poisonAt l.key 8, badTag := l.tagged && s.badTags.elem (l.key / 64) }
    else
      let v := s.unitSince c.seq (64 * u + 16) (l.key / 8)
      { data := v.data, tag := if l.tagged then v.tag else 0, bad := v.bad || v.badTag || lost, badTag := l.tagged && v.badTag }

/-- What a run of units has moved: its accesses, the state with the data written, which only later units read, and the units that were read
poisoned, each with whether its tag was. -/
structure Moved where
  accs : List Acc
  now : State
  bad : List (Nat × Bool)

/-- Unit after unit. -/
def State.moveUnits (s : State) (c : Copy) (us : List Nat) : Moved :=
  us.foldl
    (fun (r : Moved) u =>
      let v := s.readUnit c u r.now r.accs
      let accs := s.unitAccs c u (v.data, v.tag)
      { accs := r.accs ++ accs, now := accs.foldl (fun q a => q.writeBytes a.loc.key a.data) r.now,
        bad := if v.bad then r.bad ++ [(u, v.badTag)] else r.bad })
    { accs := [], now := s, bad := [] }

/-- The granules that a unit's destination parts touch. -/
def accGranules (accs : List Acc) : List Nat := accs.flatMap fun a => [a.loc.key / 8, (a.loc.key + a.data.length - 1) / 8]

/-- Where a unit's parts reach memory. -/
def State.unitDst (s : State) (c : Copy) (u : Nat) : List Acc :=
  (s.unitAccs c u (List.replicate 8 0, 0)).filter fun a => reaches a.loc

/-- The granules that some poisoned units move their poison to, and the sectors whose tags take it. -/
def State.poisonedUnits (s : State) (c : Copy) (bad : List (Nat × Bool)) : List Nat := nubNat (bad.flatMap fun p => accGranules (s.unitDst c p.1))
def State.poisonedTags (s : State) (c : Copy) (bad : List (Nat × Bool)) : List Nat :=
  nubNat ((bad.filter Prod.snd).flatMap fun p => ((s.unitDst c p.1).filter fun a => a.loc.tagged).flatMap accSectors)

/-- Those of some numbers that a list lacks, after it. -/
def addNew (l m : List Nat) : List Nat := l ++ m.filter fun x => !l.elem x

/-- The poison of the units read poisoned is at their destinations in r, of tags as of data, and COPY_POISON is logged with the address of
the first source unit (21 R378, R380, Table 21.3). -/
def State.movePoison (s r : State) (t : Nat) (c : Copy) (bad : List (Nat × Bool)) : State :=
  match bad with
  | [] => r
  | (u, _) :: _ =>
    let src := (s.sideLoc c .csrc (c.src.at (c.srcOff u))).getD (hubLoc 0)
    let r1 : State := { r with poison := addNew r.poison (s.poisonedUnits c bad), badTags := addNew r.badTags (s.poisonedTags c bad) }
    r1.logError 0x04 (BitVec.ofNat 64 (physOf (src.key / 8 * 8))) c.asid t 0 c.gidx c.team c.slice c.pc (s.launchTag c.launch)
      (match c.dst.at (c.dstOff u) with
       | .glob va => va
       | .pad _ a => BitVec.ofNat 64 a)

/-- The lookups and line requests of some units (11 R213, 17 R333, R334). -/
def State.countUnits (s : State) (t : Nat) (c : Copy) (us : List Nat) : State :=
  let note (r : State) (k : AccKind) (p : Side) : State :=
    match p with
    | .glob va => r.noteLookup t c.asid va.toNat (s.lookup c.asid k c.pm va.toNat).2
    | .pad .. => r
  let s1 := us.foldl
    (fun r u => (c.dstParts u).foldl (fun r p => note r .cdst p.1) (note r .csrc (c.src.at (c.srcOff u)))) s
  let locs (f : Nat → List (Option Loc × Nat)) : List (Loc × Nat) :=
    us.flatMap fun u => (f u).filterMap fun p => p.1.map fun l => (l, p.2)
  (s1.atSlice (t / 32) c.asid false (locs fun u => [(s.sideLoc c .csrc (c.src.at (c.srcOff u)), 8)])).atSlice (t / 32) c.asid true
    (locs fun u => (c.dstParts u).map fun p => (s.sideLoc c .cdst p.1, p.2.2))

/-- The engine moves the units from `done` up to n. -/
def State.moveTo (s : State) (t : Nat) (c : Copy) (n : Nat) : State :=
  let us := (List.range (n - c.done)).map fun k => c.done + k
  let m := s.moveUnits c us
  s.movePoison ((s.countUnits t c us).perform (m.accs.filter fun a => reaches a.loc)) t c m.bad

/-- Takes the head copy from its engine. -/
def State.popCopy (s : State) (t e : Nat) : State := s.updTile t fun x => x.setEng e ((x.eng e).drop 1)

/-- Replaces the head copy. -/
def State.setCopy (s : State) (t e : Nat) (c : Copy) : State := s.updTile t fun x => x.setEng e (c :: (x.eng e).drop 1)

/-- The slot of a copy at its end: FULL, with FAIL where it failed, or FREE for a CPYOUT (13 R265, R272). -/
def State.slotDone (s : State) (t : Nat) (c : Copy) (failed : Bool) : State :=
  match c.ring with
  | none => s
  | some (k, j) =>
    match s.handle? t k with
    | none => s
    | some h => s.setHandle t k (if c.kind = .cout then h.free j else h.setSlot j { st := .full, fail := failed })

/-- A copy is over: it leaves its engine, its slot changes state, fences wait for it no more, and its `.yield` slice goes on at the
continuation (13 R265, R274, 12 R252); a team that waited for it may be complete. -/
def State.copyOver (s : State) (t e : Nat) (c : Copy) (failed : Bool) : State :=
  let s1 := ((s.popCopy t e).slotDone t c failed).updGroup t c.slot fun g =>
    if g.gid = c.gid then
      let x := g.slice c.slice
      let g1 : Group :=
        { g with sq := g.sq.map fun q =>
            match q with
            | .fence hold full sys ts cs mx => .fence hold full sys ts (cs.filter fun k => k ≠ c.id) mx
            | q => q }
      if x.wait = .yieldCopy c.id then g1.setSlice c.slice x.wake else g1
    else g
  c.padTiles.foldl State.settleAll s1

/-- The record of an engine (17 R326, R332). -/
def State.engineRec (s : State) (t : Nat) (c : Copy) (va cause kind : Nat) (entry : DWord) : RecInfo :=
  { time := s.time, va := va, asid := c.asid, src := t, lane := 0, cause := cause, kind := kind, eng := true, nrec := 1, idx := 0,
    pc := c.pc, group := c.gidx, team := c.team, slice := 0, pm := c.pm, tag := s.launchTag c.launch, entry := entry }

/-- Sends one record of an engine, as a beat of its own. -/
def State.sendEngine (s : State) (r : RecInfo) : State := { s.sendRecords s.nextId [r] with nextId := s.nextId + 1 }

/-- A unit's lookup is charged also where it stops the engine. -/
def State.noteStop (s : State) (t : Nat) (c : Copy) (write : Bool) (va : Nat) : State :=
  s.noteLookup t c.asid va (s.lookup c.asid (if write then .cdst else .csrc) c.pm va).2

/-- The engine's head copy runs to its end; or up to a page that is not resident, which it requests; or up to what holds it (13
R271, R272). -/
def State.copyRun (s : State) (t e : Nat) : State :=
  match (s.tile t).eng e with
  | [] => s
  | c :: _ =>
    if c.miss.isSome then s
    else
      match s.reach t c with
      | (n, none) => (s.moveTo t c n).copyOver t e c false
      | (n, some (.nonres w va entry)) =>
        let k := c.cut n
        let s1 := ((s.moveTo t c k).noteStop t c w va).setCopy t e { c with done := k, miss := some (BitVec.ofNat 64 va) }
        s1.sendEngine (s.engineRec t c va (if w then 0x11 else 0x10) 7 entry)
      | (n, some .held) => let k := c.cut n; (s.moveTo t c k).setCopy t e { c with done := k }
      | (_, some (.fail ..)) => s
      | (_, some (.span _)) => s

def execCopyCompletion (t e : Nat) (s : State) : Host.Outcome State Fault Refusal := .next (s.copyRun t e).fresh

/-- The trap of a failed copy, pending in the slice that issued it while its group is there (13 R272). -/
def State.copyTrap (s : State) (t : Nat) (c : Copy) (tr : Trap) : State :=
  s.updGroup t c.slot fun g =>
    let x := g.slice c.slice
    if g.gid = c.gid && x.live then g.setSlice c.slice { x with async := x.async ++ [tr] } else g

/-- The trap of a page on which a copy fails. -/
def copyPageTrap (va cause : Nat) : Trap :=
  { mkTrap (causeVec .csrc cause) 0 with aux0 := BitVec.ofNat 64 va, aux1 := packBits [(1, 8), (cause, 0)] }

/-- The engine's head copy fails at an invalid or protected page, or at a unit that spans two granules of the peat window: what it wrote
before stays (13 R272, log 85). -/
def State.copyFail (s : State) (t e : Nat) : State :=
  match (s.tile t).eng e with
  | [] => s
  | c :: _ =>
    if c.miss.isSome then s
    else
      match s.reach t c with
      | (n, some (.fail w va cause entry)) =>
        let s1 := ((s.moveTo t c n).noteStop t c w va).copyOver t e c (c.kind ≠ .cout)
        (s1.sendEngine (s.engineRec t c va cause (if w then 5 else 4) entry)).copyTrap t c (copyPageTrap va cause)
      | (n, some (.span va)) =>
        ((s.moveTo t c n).copyOver t e c (c.kind ≠ .cout)).copyTrap t c { mkTrap 0x06 0 with aux0 := BitVec.ofNat 64 va }
      | _ => s

def execCopyFailure (t e : Nat) (s : State) : Host.Outcome State Fault Refusal := .next (s.copyFail t e).fresh

/-- The page of an address: its leaf's, or 64 KiB where the walk reaches none (17 R323). -/
def State.pageAt (s : State) (asid va : Nat) : Page := (s.lookup asid .csrc true va).1

/-- A waiting copy tries its page again, and goes on where another thing than that page stands in its way (17 R332). -/
def State.retried (s : State) (t : Nat) (c : Copy) : Copy :=
  match (s.reach t c).2 with
  | some (.nonres _ va _) => if c.miss.any fun m => (s.pageAt c.asid va).holds m.toNat then c else { c with miss := none }
  | _ => { c with miss := none }

/-- 17 R332. -/
def State.engineRetry (s : State) (t e : Nat) : State :=
  match (s.tile t).eng e with
  | [] => s
  | c :: _ => s.setCopy t e (s.retried t c)

def execEngineTranslationRetry (t e : Nat) (s : State) : Host.Outcome State Fault Refusal := .next (s.engineRetry t e).fresh

/-- A copy of the ASID waits for the page of an address (17 R323, R332). -/
def State.waitsAt (s : State) (c : Copy) (asid va : Nat) : Bool :=
  c.asid = asid && c.miss.any fun m => (s.pageAt asid va).holds m.toNat

/-- 17 R332: every engine that waits for the page tries again. -/
def State.resident (s : State) (asid va : Nat) : State :=
  let one (t : Nat) (c : Copy) : Copy := if s.waitsAt c asid va then s.retried t c else c
  { s with tiles := s.tiles.map fun p => (p.1, { p.2 with eng0 := p.2.eng0.map (one p.1), eng1 := p.2.eng1.map (one p.1) }) }

def execResidencyNotify (asid va : Nat) (s : State) : Host.Outcome State Fault Refusal := .next (s.resident asid va).fresh

end Sys2Proof.Machine
end

