-- ==== Sys2Proof/Machine/Place.lean ====
section
/-! DEFINITION. Placement: where teams, groups and tasks fit (09 R170, 16 R311), how they enter (02 R29, R39, 16 R307, R315), how saved
groups resume (18 R350), the order in which placements are tried (16 R310), growth (R312), and making room (R313). -/

namespace Sys2Proof.Machine

/-! ## Launch records -/

/-- A field of a launch's record. -/
def Launch.num (l : Launch) (w hi lo : Nat) : Nat := fieldAt l.words w hi lo

/-- Fields of a record's words (16 Table 16.2). -/
def Launch.nt (l : Launch) : Nat := l.num 8 63 32
def Launch.wlo (l : Launch) : Nat := l.num 11 63 56
def Launch.whi (l : Launch) : Nat := l.num 11 55 48
def Launch.gmin (l : Launch) : Nat := l.num 11 47 40
def Launch.gmax (l : Launch) : Nat := l.num 11 39 32

/-- An allotment as coded: less 8, over 8. -/
def allotOf (n : Nat) : Nat := 8 * (n + 1)

/-- The producer's or single allotment, and the consumer's. -/
def Launch.allotP (l : Launch) : Nat := allotOf (l.num 11 23 19)
def Launch.allotC (l : Launch) : Nat := if l.flag 11 then allotOf (l.num 11 18 14) else l.allotP

/-! ## Room on a tile -/

/-- The lowest start of n free places among `total`, given the runs in use. -/
def firstRun (used : List (Nat × Nat)) (total n : Nat) : Option Nat :=
  List.find? (fun b => used.all fun u => u.2 = 0 || b + n ≤ u.1 || u.1 + u.2 ≤ b) (List.range (total + 1 - n))

/-- The bytes of a scratchpad granule (11 R208), and the granules that cover n bytes. -/
def padGranule : Nat := 2368
def granules (n : Nat) : Nat := (n + 2367) / padGranule

/-- What a team takes of a tile: its slot, and where its scratchpad and its blocks begin. -/
structure Seat where
  slot : Nat
  scr : Nat
  acc : Nat
deriving DecidableEq, Repr

/-- The resources of a team that are free on a tile (16 R311). -/
def Tile.seat (x : Tile) (scr acc nbar : Nat) : Option Seat :=
  let ms := x.teams.map Prod.snd
  match List.find? (fun k => (x.team? k).isNone) (List.range 16),
    firstRun (ms.map fun m => (m.scratchBase / padGranule, granules m.scratchSize)) 128 (granules scr),
    firstRun (ms.map fun m => (m.accBase, m.accCount)) 64 acc with
  | some k, some g, some a =>
    if (ms.map Team.nbars).foldl (· + ·) 0 + nbar ≤ 112 then some { slot := k, scr := padGranule * g, acc := a } else none
  | _, _, _ => none

/-- A team takes a seat; the words and row bounds of its blocks are 0 (14 R278), and sound again (21 R378). -/
def Tile.takeSeat (x : Tile) (p : Seat) (m : Team) : Tile :=
  let mine (b : Nat) : Bool := p.acc ≤ b && b < p.acc + m.accCount
  { x with
      teams := Sparse.insert x.teams p.slot { m with scratchBase := p.scr, accBase := p.acc },
      acc := x.acc.filter fun c => !mine (c.1 / 1024),
      rowBound := x.rowBound.filter fun c => !mine (c.1 / 32),
      accBad := x.accBad.filter fun u => !mine (if u < 32768 then u / 512 else (u - 32768) / 32) }

/-- Where a group goes: its slot, its grant, and its slices with their windows. -/
structure Spot where
  slot : Nat
  grant : Nat
  wins : List (Nat × List (Nat × Nat))
deriving DecidableEq, Repr

/-- The groups resident in a quarter. -/
def Tile.inQuarter (x : Tile) (q : Nat) : Nat := (x.groups.filter fun p => p.1 / 16 = q).length

/-- The windows of the slices that a group of a grant has, in a quarter (09 R170, 21 R384). -/
def Tile.windowsFor (x : Tile) (q a : Nat) (dual : Bool) (ks : Nat → List Nat) (n : Nat) :
    Option (List (Nat × List (Nat × Nat))) :=
  if x.inQuarter q < 16 then fitSlices (x.windows q 64) a dual (n / 4) (ks n) else none

/-- The quarter with the fewest groups among those that satisfy p, the lowest on a tie (16 R311). -/
def Tile.bestQuarter (x : Tile) (p : Nat → Bool) : Option Nat :=
  (List.range 4).foldl
    (fun r q =>
      if !p q then r
      else
        match r with
        | none => some q
        | some b => if x.inQuarter q < x.inQuarter b then some q else r)
    none

/-- The spot of a group whose grant is to lie from lo to hi (16 R311). -/
def Tile.spot (x : Tile) (a : Nat) (dual : Bool) (ks : Nat → List Nat) (lo hi : Nat) : Option Spot :=
  match x.bestQuarter fun q => (x.windowsFor q a dual ks lo).isSome with
  | none => none
  | some q =>
    match largestFit lo (fun n => (x.windowsFor q a dual ks n).isSome) 24 (dualCap dual hi),
      List.find? (fun k => (x.group? (16 * q + k)).isNone) (List.range 16) with
    | some n, some k => some { slot := 16 * q + k, grant := n, wins := (x.windowsFor q a dual ks n).getD [] }
    | _, _ => none

/-- A group is placed on a tile. -/
def Tile.addGroup (x : Tile) (a : Nat) (dual : Bool) (ks : Nat → List Nat) (lo hi : Nat) (mk : Spot → Group) : Option Tile :=
  (x.spot a dual ks lo hi).map fun p => x.setGroup p.slot (mk p)

/-- Every slice of a grant. -/
def allSlices (n : Nat) : List Nat := List.range (n / 4)

/-! ## Entry -/

/-- The scalar registers at group entry (02 R29). -/
def entryRegs (grant idx team : Nat) (s28 s29 s30 : DWord) : Sparse DWord :=
  [(1, BitVec.ofNat 64 grant), (2, BitVec.ofNat 64 idx), (3, BitVec.ofNat 64 team), (28, s28), (29, s29), (30, s30)].foldl
    (fun r p => Sparse.set 0 r p.1 p.2) []

/-- EBUD at entry (02 R36). -/
def Launch.ebud (l : Launch) : BitVec 17 := BitVec.ofNat 17 (l.num 11 9 9 * 2 ^ 16 + l.num 10 15 0)

/-- A slice at entry (02 R39). -/
def Launch.slice (l : Launch) (entry : DWord) (cycle : Nat) (regs : Sparse DWord) (wins : List (Nat × Nat)) : Slice :=
  { Slice.absent with live := true, pc := entry, lmask := 0b1111, s := regs, ebud := l.ebud, stamp := cycle, wins := wins }

/-- A new group of a launch; its beat rows form gangs (02 R34, R38, 09 R171). -/
def Launch.group (l : Launch) (gid team idx role allot cycle : Nat) (attached : Bool) (p : Spot)
    (slice : Nat → List (Nat × Nat) → Slice) : Group :=
  ({ gid := gid, team := team, idx := idx, grant := p.grant, role := role, attached := attached, allot := allot,
     gearReq := l.flag 8, hazchk := l.flag 7, dual := l.flag 6, asid := l.asid, elastic := l.flag 10, born := cycle,
     rgh := l.words.getD 2 0, sect := false, sectStart := 0, preReq := false, image := 0, regrant := 0, bm := [], arrTok := [],
     arrSent := [], left := false, sq := [], slices := p.wins.map fun w => (w.1, slice w.1 w.2) } : Group).regang

/-- S29 and S30 of slice k of group i of team t (16 R307). -/
def Launch.stack (l : Launch) (t i k : Nat) : DWord × DWord :=
  let sz := l.num 9 63 32
  let b := (l.words.getD 3 0).toNat + ((t * 64 + i) * 24 + k) * sz
  if sz = 0 then (0, 0) else (BitVec.ofNat 64 b, BitVec.ofNat 64 (b + sz))

/-- A slice of group i of team t, on the tile's team slot k (16 R307). -/
def Launch.teamSlice (l : Launch) (t slot i grant cycle : Nat) (k : Nat) (wins : List (Nat × Nat)) : Slice :=
  let st := l.stack t i k
  l.slice (l.words.getD 0 0) cycle
    (entryRegs grant i slot (BitVec.ofNat 64 ((l.words.getD 1 0).toNat + t * l.num 8 31 0)) st.1 st.2) wins

/-- The role and the allotment of initial group i (10 R188). -/
def Launch.roleOf (l : Launch) (i : Nat) : Nat × Nat :=
  if l.flag 11 then (if i < l.num 11 31 24 then (1, l.allotP) else (2, l.allotC)) else (0, l.allotP)

/-- Initial group i of team t is placed, a member of the team's barriers (10 R187, R192). -/
def Tile.addInitial (x : Tile) (l : Launch) (t slot id i : Nat) : Option Tile :=
  let r := l.roleOf i
  x.addGroup r.2 (l.flag 6) allSlices l.wlo l.whi fun p =>
    { l.group (id + i) slot i r.1 r.2 x.cycle true p (l.teamSlice t slot i p.grant x.cycle) with
        bm := (List.range (l.num 10 22 16)).map fun k => (k, 1) }

/-- A new team (10 R186, R188, R192). -/
def Launch.newTeam (l : Launch) (t : Nat) : Team :=
  { launch := l.id, idx := t, task := none, roles := l.flag 11, allotP := l.allotP, allotC := l.allotC, scratchBase := 0,
    scratchSize := l.num 10 50 32, accBase := 0, accCount := l.num 10 30 24, nbars := l.num 10 22 16,
    bars := (List.range (l.num 10 22 16)).map fun k => (k, { Bar.zero with e := l.gmin }),
    minGroups := l.gmin, maxGroups := l.gmax, live := l.gmin, shrink := 0, grownAt := none, shrunkAt := none, doomed := false }

/-- Team t of a launch with its initial groups on a tile, if the tile can hold it (16 R311): each group in turn at the largest grant that its
quarter can hold, and there must be room for every one (log 104). -/
def Tile.addTeam (x : Tile) (l : Launch) (t id : Nat) : Option Tile :=
  match x.seat (l.num 10 50 32) (l.num 10 30 24) (l.num 10 22 16) with
  | none => none
  | some p =>
    (List.range l.gmin).foldl (fun r i => r.bind fun y => y.addInitial l t p.slot id i) (some (x.takeSeat p (l.newTeam t)))

/-! ## The best tile -/

/-- A tile on which work may be placed: its cluster is in service and not being drained or scanned (21 R387, R388). -/
def State.inService (s : State) (t : Nat) : Bool :=
  let v := s.csr.testStat
  !v.getLsbD (32 + t / 8) && !((v.getLsbD 8 || v.getLsbD 9) && bits v 4 0 = t / 8)

/-- The tile, among those that can hold the work, with the fewest resident groups, the lowest on a tie (16 R311). -/
def State.bestTile (s : State) (f : Nat → Tile → Option Tile) : Option (Nat × Tile) :=
  let best := (List.range 256).foldl
    (fun (r : Option (Nat × Nat × Tile)) t =>
      let n := (s.tile t).groups.length
      if !s.inService t || r.any fun b => b.1 ≤ n then r
      else
        match f t (s.tile t) with
        | some y => some (n, t, y)
        | none => r)
    none
  best.map Prod.snd

/-- A team of a launch is placed (16 R311). -/
def State.placeTeam (s : State) (l : Launch) (t : Nat) : Option State :=
  (s.bestTile fun _ x => x.addTeam l t s.nextId).map fun r => { s.setTile r.1 r.2 with nextId := s.nextId + l.gmin }

/-! ## Tasks -/

/-- The team of a task group (16 R315). -/
def Launch.taskTeam (l : Launch) (id : Nat) (ws : List DWord) : Team :=
  let a := allotOf (fieldAt ws 3 39 35)
  { launch := l.id, idx := 0, task := some id, roles := false, allotP := a, allotC := a, scratchBase := 0,
    scratchSize := fieldAt ws 3 31 13, accBase := 0, accCount := fieldAt ws 3 12 6, nbars := 0, bars := [], minGroups := 1,
    maxGroups := 1, live := 1, shrink := 0, grownAt := none, shrunkAt := none, doomed := false }

/-- The lanes of a slice that hold a record of a lane task, and V0:V1 of each (16 R315). -/
def laneArgs (args : List DWord) (k : Nat) (x : Slice) : Slice :=
  let here := (List.range 4).filter fun j => 4 * k + j < args.length
  let y : Slice := { x with lmask := here.foldl (fun m j => m ||| (1#4 <<< j)) 0 }
  here.foldl (fun z j => (wV64 0 j (args.getD (4 * k + j) 0) 0).foldl Slice.write z) y

/-- A slice of a task group (16 R315). -/
def Launch.taskSlice (l : Launch) (q : Gather) (ws : List DWord) (slot grant cycle : Nat) (k : Nat) (wins : List (Nat × Nat)) : Slice :=
  let x := l.slice (ws.getD 0 0) cycle (entryRegs grant 0 slot (ws.getD 1 0) 0 0) wins
  if isLaneTask ws then laneArgs (q.tasks.map fun a => a.words.getD 1 0) k x else x

/-- A task's group on a tile, if the tile can hold it (16 R315). -/
def Tile.addTask (x : Tile) (l : Launch) (q : Gather) (ws : List DWord) (id : Nat) : Option Tile :=
  let a := allotOf (fieldAt ws 3 39 35)
  let ks (n : Nat) : List Nat := if isLaneTask ws then List.range ((q.tasks.length + 3) / 4) else allSlices n
  match x.seat (fieldAt ws 3 31 13) (fieldAt ws 3 12 6) 0 with
  | none => none
  | some p =>
    (x.takeSeat p (l.taskTeam q.id ws)).addGroup a (l.flag 6) ks (fieldAt ws 3 55 48) (fieldAt ws 3 47 40) fun u =>
      { l.group id p.slot 0 0 a x.cycle true u (l.taskSlice q ws p.slot u.grant x.cycle) with elastic := false, rgh := 0 }

/-- A task is placed. -/
def State.placeTask (s : State) (q : Gather) : Option State :=
  match q.tasks with
  | [] => none
  | a :: _ =>
    match s.launch? a.launch with
    | none => none
    | some l =>
      (s.bestTile fun _ x => x.addTask l q a.words s.nextId).map fun r =>
        { s.setTile r.1 r.2 with nextId := s.nextId + 1, running := s.running ++ [q] }

/-! ## Saved groups -/

/-- The level set aside when PREEMPT was delivered at level 0, with empty stacks and the slice in a gang (18 R350). -/
def preemptLevel (gang : Nat) : Level :=
  { vec := 0x0D, gang := gang, dsn := 0, div := List.replicate 3 DivEntry.none, rsn := 0, ret := List.replicate 8 RetEntry.none, spill := 0 }

/-- A restored slice (18 R350), alone until its return, at which the gangs that the image records form (09 R173), with FMT, EBUD and HX as a
delivery sets them (18 R338, log 34). -/
def State.restoredSlice (s : State) (t slot : Nat) (g : Group) (grant cycle k : Nat) (wins : List (Nat × Nat)) : Slice :=
  { Slice.absent with
      live := true, pc := s.csr.ptvec + 0x1300, lmask := 0b1111, ebud := 0x8000, pm := true, td := 1, levels := [preemptLevel k],
      stamp := cycle, wins := wins, gang := k, glead := some k,
      s := [(4, g.image), (5, BitVec.ofNat 64 g.grant), (6, BitVec.ofNat 64 grant),
            (7, BitVec.ofNat 64 (frameAddr s.csr.tfbase t slot k 0))].foldl (fun r p => Sparse.set 0 r p.1 p.2) [] }

/-- A slice new in a resumed group's grant: it waits for REGRANT (18 R350). -/
def newSlice (cycle k : Nat) (wins : List (Nat × Nat)) : Slice :=
  { Slice.absent with live := true, lmask := 0b1111, stamp := cycle, wins := wins, gang := k, wait := .regrant }

/-- The slices of a resumed group of a grant (18 R350). -/
def Group.resumedSlices (g : Group) (n : Nat) : List Nat := (g.liveIdx.filter fun k => 4 * k < n) ++ rangeFrom (g.grant / 4) (n / 4)

/-- A saved group on a tile, as a group of the team in a slot (18 R350); what it held as a group stays until LDCTX (log 34).
The lanes of slices that had retired read as 0 (log 97). -/
def State.resumeOn (s : State) (t team : Nat) (q : Saved) (x : Tile) : Option Tile :=
  let g := q.grp
  let w := match x.team? team with
    | some m => (match s.launch? m.launch with
      | some l => if g.elastic then (l.wlo, l.whi) else (g.grant, g.grant)
      | none => (g.grant, g.grant))
    | none => (g.grant, g.grant)
  x.addGroup g.allot g.dual g.resumedSlices w.1 w.2 fun p =>
    { g with
        team := team, grant := p.grant, regrant := if p.grant = g.grant then 0 else g.grant, born := x.cycle, preReq := false,
        slices := p.wins.map fun u =>
          (u.1, if g.grant / 4 ≤ u.1 then newSlice x.cycle u.1 u.2 else s.restoredSlice t p.slot g p.grant x.cycle u.1 u.2) }

/-- The same with a team that comes back: its barriers and handles are reinstated (18 R348). -/
def State.returnOn (s : State) (t : Nat) (q : Saved) (a : Away) (x : Tile) : Option (Nat × Tile) :=
  if a.handles.any fun h => (Sparse.find? x.handles h.1).isSome then none
  else
    match x.seat a.tm.scratchSize a.tm.accCount a.tm.nbars with
    | none => none
    | some p =>
      let y := x.takeSeat p a.tm
      (s.resumeOn t p.slot q { y with handles := a.handles.foldl (fun r h => Sparse.insert r h.1 { h.2 with team := p.slot }) y.handles }).map
        fun z => (p.slot, z)

/-- The other saved groups of a team that came back to a tile. -/
def Saved.backTo (q : Saved) (id t slot : Nat) : Saved :=
  if q.away = some id then { q with tile := t, away := none, grp := { q.grp with team := slot } } else q

/-- A saved group is placed: on its team's tile, or with its team where both fit (18 R348, R350). -/
def State.placeSaved (s : State) (q : Saved) : Option State :=
  match q.away with
  | none =>
    if s.inService q.tile && (s.team? q.tile q.grp.team).isSome then
      (s.resumeOn q.tile q.grp.team q (s.tile q.tile)).map fun x => s.setTile q.tile x
    else none
  | some id =>
    match s.away.find? fun a => a.id = id with
    | none => none
    | some a =>
      match s.bestTile fun t x => (s.returnOn t q a x).map Prod.snd with
      | none => none
      | some (t, x) =>
        let slot := ((s.returnOn t q a (s.tile t)).map Prod.fst).getD 0
        some { s.setTile t x with
          away := s.away.filter fun b => b.id ≠ id,
          resumed := s.resumed.map fun r =>
            match r with
            | .group p => .group (p.backTo id t slot)
            | r => r }

/-! ## The order of placements -/

/-- A placement that may be tried: resumed work, the next team of a queue's launch, or the next task of a level. -/
inductive Offer where
  | resumed (i : Nat) (r : Resume)
  | team (l : Launch)
  | task (q : Gather)

/-- The level of a placement. -/
def State.offerLevel (s : State) : Offer → Nat
  | .resumed _ (.team l _) => s.levelOf l
  | .resumed _ (.task q) => q.level
  | .resumed _ (.group q) => q.level
  | .team l => l.level
  | .task q => q.level

/-- A number that tells a placement apart while it waits. -/
def Offer.key : Offer → Nat
  | .resumed _ (.team l t) => 4 * (l * 2 ^ 32 + t) + 3
  | .resumed _ (.task q) => 4 * q.id + 1
  | .resumed _ (.group q) => 4 * q.grp.gid + 2
  | .team l => 4 * (l.id * 2 ^ 32 + l.placed)
  | .task q => 4 * q.id + 1

/-- A group migrated by a drain (21 R389). -/
def Resume.isDrained : Resume → Bool
  | .group q => q.drained.isSome
  | _ => false

/-- Resumed work with its places in the order. -/
def State.resumedOffers (s : State) (p : Resume → Bool) (lv : Nat) : List Offer :=
  (s.resumed.zipIdx.filter fun r => p r.1 && s.offerLevel (.resumed r.2 r.1) = lv).map fun r => .resumed r.2 r.1

/-- When the drain of a migrated group began. -/
def Offer.drainedAt : Offer → Nat
  | .resumed _ (.group q) => (q.drained.getD 0).toNat
  | _ => 0

/-- Inserts a placement into the order in which the drains began, after those of the same drain. -/
def insertDrained (x : Offer) : List Offer → List Offer
  | [] => [x]
  | y :: rest => if x.drainedAt < y.drainedAt then x :: y :: rest else y :: insertDrained x rest

/-- Groups migrated by a drain, in descending level, then in the order in which their drains began (16 R310). -/
def State.drainedOffers (s : State) : List Offer :=
  [3, 2, 1, 0].flatMap fun lv => (s.resumedOffers Resume.isDrained lv).foldl (fun r o => insertDrained o r) []

/-- The participants of a level's round, with their places in it: queues by number, and the task queue last (16 R310). -/
def State.participants (s : State) (lv : Nat) : Sparse Offer :=
  let qs := (s.launches.filter fun l => l.level = lv && l.placed < l.nt).foldl (fun r l => Sparse.insert r l.queue (Offer.team l)) []
  qs ++ ((s.taskQ.filter fun q => q.level = lv).take 1).map fun q => (16384, Offer.task q)

/-- The participants from the one whose turn it is. An attempt in which none fits ends no round: the next goes on at the same participant
with the placements it has had (log 105). -/
def State.inTurn (s : State) (lv : Nat) : List Offer :=
  let ps := s.participants lv
  let pos := Sparse.get 0 s.rr (2 * lv)
  ((ps.filter fun p => pos ≤ p.1) ++ ps.filter fun p => p.1 < pos).map Prod.snd

/-- The placements of a level (16 R310). -/
def State.levelOffers (s : State) (lv : Nat) : List Offer := s.resumedOffers (fun r => !r.isDrained) lv ++ s.inTurn lv

/-- The placements to be tried: drained groups, and those of the highest level that has any (16 R310). -/
def State.offers (s : State) : List Offer :=
  let ds := s.drainedOffers
  let lv := [3, 2, 1, 0].find? fun n => !(s.levelOffers n).isEmpty || ds.any fun o => s.offerLevel o = n
  ds ++ (match lv with
    | some n => s.levelOffers n
    | none => [])

/-- A participant has had one more of the placements of its turn (16 R310). -/
def State.turn (s : State) (lv place weight : Nat) : State :=
  let used := (if Sparse.get 0 s.rr (2 * lv) = place then Sparse.get 0 s.rr (2 * lv + 1) else 0) + 1
  let next := if weight ≤ used then (place + 1, 0) else (place, used)
  { s with rr := Sparse.set 0 (Sparse.set 0 s.rr (2 * lv) next.1) (2 * lv + 1) next.2 }

/-- A host queue. -/
def State.queue (s : State) (q : Nat) : Queue := Sparse.get Queue.reset s.queues q

def State.setQueue (s : State) (q : Nat) (x : Queue) : State := { s with queues := Sparse.set Queue.reset s.queues q x }

/-- A placement, if it fits. -/
def State.attempt (s : State) : Offer → Option State
  | .resumed i (.team l t) =>
    (s.launch? l).bind fun x => State.placeTeam { s with resumed := s.resumed.eraseIdx i } x t
  | .resumed i (.task q) => State.placeTask { s with resumed := s.resumed.eraseIdx i } q
  | .resumed i (.group q) => State.placeSaved { s with resumed := s.resumed.eraseIdx i } q
  | .team l =>
    (s.placeTeam l l.placed).map fun r =>
      (r.updLaunch l.id fun x => { x with placed := x.placed + 1 }).turn l.level l.queue (bits (s.queue l.queue).cfg 31 24)
  | .task q => (State.placeTask { s with taskQ := s.taskQ.filter fun p => p.id ≠ q.id } q).map fun r => r.turn q.level 16384 255

/-- A placement waits for resources, from now on if it did not (16 R313). -/
def State.waits (s : State) (o : Offer) : State :=
  if (Sparse.find? s.waitSince o.key).isSome then s else { s with waitSince := Sparse.insert s.waitSince o.key s.time }

/-- Tries placements in order up to the first that fits. -/
def State.serve : List Offer → State → State
  | [], s => s
  | o :: rest, s =>
    match s.attempt o with
    | some r => { r with waitSince := Sparse.erase r.waitSince o.key }
    | none => State.serve rest (s.waits o)

/-- 16 R310: one placement. -/
def execSchedulerPlacement (s : State) : Host.Outcome State Fault Refusal := .next (State.serve s.offers s)

/-! ## Growth, shrinking, pre-emption -/

/-- Every placement that might be tried. -/
def State.allOffers (s : State) : List Offer := s.drainedOffers ++ [3, 2, 1, 0].flatMap s.levelOffers

/-- The placements that wait, each with the time since when. -/
def State.waiting (s : State) : List (Offer × DWord) :=
  s.allOffers.filterMap fun o => (Sparse.find? s.waitSince o.key).map fun v => (o, v)

/-- A placement of a level or above waits. -/
def State.waitsAbove (s : State) (lv : Nat) : Bool := s.waiting.any fun p => lv ≤ s.offerLevel p.1

/-- The lowest group index that no live group of a team holds, saved ones among them (16 R312). -/
def State.freeIdx (s : State) (t k : Nat) : Nat :=
  let used := ((s.tile t).teamGroups k).map (fun p => p.2.idx) ++ (s.savedOf t k).map fun q => q.grp.idx
  ((List.range 64).find? fun i => !used.elem i).getD 0

/-- At least a time has passed since a moment, if there was one. -/
def State.elapsed (s : State) (since : Option DWord) (ns : Nat) : Bool := since.all fun v => v.toNat + ns ≤ s.time.toNat

/-- A growth group starts, unattached (10 R187, 16 R312), also where the team's last group has ended and a copy still keeps the team (13,
opening; log 106). -/
def State.grow (s : State) (t k : Nat) : State :=
  match s.team? t k with
  | none => s
  | some m =>
    match s.launch? m.launch with
    | none => s
    | some l =>
      if m.task.isSome || m.doomed || m.maxGroups ≤ m.live || s.waitsAbove l.level || !s.elapsed m.grownAt 1000 || !s.inService t then s
      else
        let x := s.tile t
        let i := s.freeIdx t k
        let a := max m.allotP m.allotC
        match x.addGroup a (l.flag 6) allSlices l.wlo l.whi fun p =>
            l.group s.nextId k i 0 a x.cycle false p (l.teamSlice m.idx k i p.grant x.cycle) with
        | none => s
        | some y =>
          ({ s.setTile t y with nextId := s.nextId + 1 }).updTeam t k fun m => { m with live := m.live + 1, grownAt := some s.time }

def execGrowthGroupStart (t team : Nat) (s : State) : Host.Outcome State Fault Refusal := .next (s.grow t team)

/-- A team is asked to shrink, while a placement of its level or above waits (10 R191, 16 R313). -/
def State.askShrink (s : State) (t k : Nat) : State :=
  match s.team? t k with
  | none => s
  | some m =>
    if s.waitsAbove (s.levelOf m.launch) && m.minGroups < m.live && m.shrink < m.live - m.minGroups && s.elapsed m.shrunkAt 10000 then
      s.updTeam t k fun m => { m with shrink := m.shrink + 1, shrunkAt := some s.time }
    else s

def execShrinkRequest (t team : Nat) (s : State) : Host.Outcome State Fault Refusal := .next (s.askShrink t team)

/-- The placement for which room is made by pre-emption: of the highest level, one that has waited for 20 µs, or a drained group
(16 R313, 21 R389). -/
def State.starved (s : State) : Option Offer :=
  let due := s.waiting.filter fun p =>
    decide (p.2.toNat + 20000 ≤ s.time.toNat) ||
      (match p.1 with
       | .resumed _ r => r.isDrained
       | _ => false)
  [3, 2, 1, 0].findSome? fun lv => (List.find? (fun p => s.offerLevel p.1 = lv) due).map Prod.fst

/-- Inserts a group into the order of 16 R313: ascending level, youngest launch first. -/
def insertVictim (x : Nat × Nat × Nat × Nat) : List (Nat × Nat × Nat × Nat) → List (Nat × Nat × Nat × Nat)
  | [] => [x]
  | y :: rest => if x.1 < y.1 || (x.1 = y.1 && y.2.1 < x.2.1) then x :: y :: rest else y :: insertVictim x rest

/-- The groups below a level in the order of pre-emption: level, launch, tile, slot. -/
def State.victims (s : State) (lv : Nat) : List (Nat × Nat × Nat × Nat) :=
  let all := s.tiles.flatMap fun p => p.2.groups.filterMap fun g =>
    match p.2.team? g.2.team with
    | some m => if s.levelOf m.launch < lv then some (s.levelOf m.launch, m.launch, p.1, g.1) else none
    | none => none
  all.foldl (fun r x => insertVictim x r) []

/-- The groups to pre-empt until the placement fits; all, if it never does. -/
def State.untilFits (s : State) (o : Offer) : List (Nat × Nat × Nat × Nat) → List (Nat × Nat)
  | [] => []
  | v :: rest =>
    if (s.attempt o).isSome then []
    else
      let s1 := match s.group? v.2.2.1 v.2.2.2 with
        | some g => s.updTile v.2.2.1 fun x => x.dropGroup v.2.2.2 g
        | none => s
      (v.2.2.1, v.2.2.2) :: s1.untilFits o rest

/-- A request for PREEMPT has reached the group, and it has not resumed since. -/
def Group.beingPreempted (g : Group) : Bool :=
  g.preReq || g.liveIdx.any fun k =>
    let x := g.slice k
    x.async.any (fun tr => tr.vec = 0x0D) || x.levels.any (fun l => l.vec = 0x0D) ||
      (match x.wait with
       | .records tr _ => tr.vec = 0x0D
       | _ => false)

/-- 16 R313. -/
def State.escalate (s : State) : State :=
  match s.starved with
  | none => s
  | some o =>
    (s.untilFits o (s.victims (s.offerLevel o))).foldl
      (fun r v =>
        match r.group? v.1 v.2 with
        | some g => if g.beingPreempted then r else r.preempt v.1 v.2
        | none => r) s

def execPreemptEscalation (s : State) : Host.Outcome State Fault Refusal := .next s.escalate

end Sys2Proof.Machine
end

