-- ==== Sys2Proof/Machine/Launch.lean ====
section
/-! DEFINITION. The scheduler: queues and launch records (16 R303-R308), the completion of launches (R309), gathers and retiring tasks
(R316, R317), and the in-field test (21 R386-R389). An event that is not due changes nothing (log 3). -/

namespace Sys2Proof.Machine

/-! ## Registers of a queue -/

/-- QCFG's fields, with the least values of WEIGHT and LOG2N (16 Table 16.1). -/
def qcfgBits (v : DWord) : DWord :=
  keep v 46 32 ||| (BitVec.ofNat 64 (max 1 (bits v 31 24)) <<< 24) ||| keep v 13 12 ||| (BitVec.ofNat 64 (max 1 (bits v 4 1)) <<< 1) |||
    keep v 0 0

def Queue.en (x : Queue) : Bool := x.cfg.getLsbD 0
def Queue.asid (x : Queue) : Nat := bits x.cfg 46 32
def Queue.prio (x : Queue) : Nat := bits x.cfg 13 12
def Queue.n (x : Queue) : Nat := 2 ^ bits x.cfg 4 1

/-- A write to QCFG (16 R304). -/
def Queue.writeCfg (x : Queue) (v : DWord) : Queue :=
  if x.en then (if v.getLsbD 0 then x else { x with cfg := x.cfg &&& ~~~1, cur := none }) else { x with cfg := qcfgBits v }

/-- A write of 1 to STOP skips the refused record (16 Table 16.1). -/
def Queue.clearStop (x : Queue) : Queue := if x.stop then { x with stop := false, head := x.head + 1, cur := none } else x

/-- The registers of a control block as they read (16 Table 16.1). -/
def Queue.read (x : Queue) (reg : Nat) : DWord :=
  match reg with
  | 0 => x.base
  | 1 => x.cfg
  | 2 => x.tail.setWidth 64
  | _ => packBits [(x.head.toNat, 32), (b2n x.stop, 8), (x.err.toNat, 0)]

/-- A write to a register of a control block (16 Table 16.1, R304). -/
def Queue.write (x : Queue) (reg : Nat) (v : DWord) : Queue :=
  match reg with
  | 0 => if x.en then x else { x with base := keep v 55 7 }
  | 1 => x.writeCfg v
  | 2 => { x with tail := v.setWidth 32 }
  | _ => if v.getLsbD 8 then x.clearStop else x

/-- Records are pending (16 R304). -/
def Queue.pending (x : Queue) : Bool := x.en && !x.stop && decide (x.tail ≠ x.head)

/-- A queue after a change: the record at HEAD can be read from now on, unless it already could. -/
def State.putQueue (s : State) (q : Nat) (x : Queue) : State :=
  let old := s.queue q
  s.setQueue q (if old.pending && x.head = old.head then x else { x with since := s.nextId - 1 })

/-- A write to register `reg` of queue q. -/
def State.queueWrite (s : State) (q reg : Nat) (v : DWord) : State :=
  if s.up && q < 16384 then s.putQueue q ((s.queue q).write reg v) else s

def execQdb (q : Nat) (tail : Word) (s : State) : Host.Outcome State Fault Refusal :=
  .next (s.queueWrite q 2 (tail.setWidth 64))

def execQcfgWrite (q : Nat) (val : DWord) (s : State) : Host.Outcome State Fault Refusal := .next (s.queueWrite q 1 val)

def execQstatStopClear (q : Nat) (s : State) : Host.Outcome State Fault Refusal := .next (s.queueWrite q 3 0x100)

/-! ## The scheduler's accesses -/

/-- The hub's lookup of an address for a user group of an ASID (16 R308); its walks are charged to set 0 (17 R333). -/
def State.hubLookup (s : State) (asid : Nat) (k : AccKind) (va : Nat) : Page × State :=
  let r := s.lookup asid k false va
  let s1 := (s.hubTouch false (s.hubReads asid va r.2)).cacheEntries r.2.read
  (r.1, if s.l2TlbHit asid va then s1 else s1.bump 0 .walk 1)

/-- What the scheduler's read of n bytes comes to. -/
inductive HubRead where
  | ok (s : State) (loc : Loc) (ws : List DWord)
  /-- the page is not resident: ENTRY -/
  | nonres (s : State) (entry : DWord)
  /-- the place cannot be read -/
  | bad (s : State)
  /-- an engine owns the place, or no route leads there -/
  | wait

/-- A read of n words by the scheduler in an ASID. -/
def State.hubRead (s : State) (asid : Nat) (k : AccKind) (va n : Nat) : HubRead :=
  let r := s.hubLookup asid k va
  let rs := s.hubReads asid va (s.walk asid va)
  if rs.any fun p => s.owned p.1.key p.2 then .wait
  else if rs.any fun p => s.poisoned p.1.key p.2 then .bad r.2
  else if r.1.cause = 2 then .nonres r.2 r.1.entry
  else if r.1.cause ≠ 0 then .bad r.2
  else
    let l := r.2.locOf r.1 va
    if r.2.owned l.key (8 * n) || r.2.linkHeld [(l, 8 * n)] then .wait
    else if r.2.poisonAt l.key (8 * n) then .bad r.2
    else .ok (r.2.hubTouch false [(l, 8 * n)]) l ((List.range n).map fun i => r.2.read64 (l.key + 8 * i))

/-- The scheduler's request for the page of an address (16 R308, 17 R332); ENG is 0, as no copy engine writes it (log 103). -/
def State.hubRequestPage (s : State) (asid va : Nat) (write : Bool) (tag entry : DWord) : State :=
  s.sendEngine
    { time := s.time, va := va, asid := asid, src := 328, lane := 0, cause := if write then 0x11 else 0x10, kind := 7, eng := false,
      nrec := 1, idx := 0, pc := 0, group := 0, team := 0, slice := 0, pm := false, tag := tag, entry := entry }

/-! ## The checks of a record -/

/-- GMIN groups at WLO fit one empty tile (16 Table 16.3). -/
def Launch.fitsEmpty (l : Launch) : Bool :=
  ((List.range l.gmin).foldl
    (fun (r : Option Tile) i => r.bind fun x =>
      x.addGroup (l.roleOf i).2 (l.flag 6) allSlices l.wlo l.wlo fun p =>
        l.group i 0 i 0 (l.roleOf i).2 0 true p fun _ w => { Slice.absent with wins := w })
    (some Tile.reset)).isSome

/-- The lowest code from 0x01 to 0x09 that a record fails; 0 where it passes (16 Table 16.3). -/
def State.recordCode (s : State) (l : Launch) : Nat :=
  let entry := (l.words.getD 0 0).toNat
  let rgh := (l.words.getD 2 0).toNat
  let word (k : Nat) : Nat := (l.words.getD k 0).toNat
  if (s.codeOf l).isNone then 1
  else if entry % 8 ≠ 0 || 2 ^ 56 ≤ entry || !inSection (s.codeOf l) entry then 2
  else if !widthsOk l.wlo l.whi (l.flag 6) then 3
  else if l.nt = 0 || l.gmin = 0 || l.gmax < l.gmin || 64 < l.gmax || l.gmin < l.num 11 31 24 || (l.num 11 31 24 ≠ 0 && !l.flag 11) then 4
  else if (l.num 11 18 14 ≠ 0 && !l.flag 11) || 512 < (l.wlo + 31) / 32 * max l.allotP l.allotC then 5
  else if l.num 10 50 32 % 8 ≠ 0 || 303104 < l.num 10 50 32 || 64 < l.num 10 30 24 || 112 < l.num 10 22 16 || !l.fitsEmpty then 6
  else if l.num 10 63 51 ≠ 0 || l.num 10 31 31 ≠ 0 || l.num 10 23 23 ≠ 0 || l.num 11 4 0 ≠ 0 || (l.words.drop 13).any (· ≠ 0) then 7
  else if (l.flag 10 && (rgh = 0 || rgh % 8 ≠ 0)) || (!l.flag 10 && rgh ≠ 0) then 8
  else if word 4 % 8 ≠ 0 || word 7 % 8 ≠ 0 || word 3 % 16 ≠ 0 || l.num 8 31 0 % 8 ≠ 0 || l.num 9 63 32 % 16 ≠ 0 then 9
  else 0

/-- A record of a queue as a launch would be (16 R306). -/
def Queue.launch (x : Queue) (q id : Nat) (ws : List DWord) : Launch :=
  { id := id, queue := q, level := min (fieldAt ws 11 13 12) x.prio, asid := x.asid, words := ws, placed := 0, complete := 0, kills := [],
    lost := false, asked := false }

/-- What a reading of the wait counter comes to (16 R308): the state, and whether the dependence is met and the page was asked for;
none where the record is refused. -/
def State.dependence (s : State) (asid : Nat) (ws : List DWord) (asked : Bool) : State × Option (Bool × Bool) :=
  let wa := (ws.getD 4 0).toNat % 2 ^ 56
  if ws.getD 4 0 = 0 then (s, some (true, asked))
  else
    match s.hubRead asid .load wa 1 with
    | .ok s1 _ v => (s1, some (decide ((ws.getD 5 0).toNat ≤ (v.getD 0 0).toNat), false))
    | .nonres s1 entry => (if asked then s1 else s1.hubRequestPage asid wa false (ws.getD 12 0) entry, some (false, true))
    | .bad s1 => (s1, none)
    | .wait => (s, some (false, asked))

/-- The record at HEAD is refused (16 R305). -/
def State.refuseRecord (s : State) (q code : Nat) : State :=
  s.setQueue q { s.queue q with stop := true, err := BitVec.ofNat 8 code, cur := none }

/-- The address of record i (16 R304). -/
def Queue.slotVa (x : Queue) : Nat := (bits x.base 55 7 * 2 ^ 7 + 128 * (x.head.toNat % x.n)) % 2 ^ 56

/-- The queue claims more records than it has slots (16 R304). -/
def Queue.over (x : Queue) : Bool := x.n < (x.tail - x.head).toNat

/-- The words of a record as 16 loads deliver them: each 8-byte unit as it stands, or as it stood since the record could be read (16
R304). -/
def State.recordWords (s : State) (x : Queue) (l : Loc) : List DWord :=
  (List.range 16).map fun i => BitVec.ofNat 64 (leNat (s.unitSince x.since (64 * i + 17) (l.key / 8 + i)).data)

/-- The record at HEAD is read and checked (16 R304, R305). -/
def State.readRecord (s : State) (q : Nat) : State :=
  let x := s.queue q
  if !s.up || !x.pending then s
  else if x.over then s.refuseRecord q 0x0B
  else if x.cur.isSome then s
  else
    match s.hubRead x.asid .load x.slotVa 16 with
    | .wait => s
    | .bad s1 => s1.refuseRecord q 0x0A
    | .nonres s1 _ => s1.refuseRecord q 0x0A
    | .ok s1 loc _ =>
      let ws := s1.recordWords x loc
      match s1.dependence x.asid ws false with
      | (s2, none) => s2.refuseRecord q 0x0C
      | (s2, some d) =>
        match s2.recordCode (x.launch q 0 ws) with
        | 0 => s2.setQueue q { x with cur := some { words := ws, depMet := d.1, asked := d.2 } }
        | c + 1 => s2.refuseRecord q (c + 1)

def execLaunchRecordRead (q : Nat) (s : State) : Host.Outcome State Fault Refusal := .next (s.readRecord q).fresh

/-- Every team of the queue's last launch has been placed (16 R305). -/
def State.lastPlaced (s : State) (x : Queue) : Bool :=
  match x.last with
  | none => true
  | some id =>
    match s.launch? id with
    | some l => decide (l.nt ≤ l.placed)
    | none => true

/-- The record that was read is accepted (16 R305). -/
def State.acceptRecord (s : State) (q : Nat) : State :=
  let x := s.queue q
  match x.cur with
  | none => s
  | some r =>
    if s.up && x.pending && x.over then s.refuseRecord q 0x0B
    else if s.up && x.pending && r.depMet && (r.words.getD 6 0).toNat ≤ s.time.toNat && s.lastPlaced x && s.launches.length < 4096 then
      { s.putQueue q { x with cur := none, head := x.head + 1, last := some s.nextId } with
          launches := s.launches ++ [x.launch q s.nextId r.words], nextId := s.nextId + 1 }
    else s

def execLaunchRecordAccept (q : Nat) (s : State) : Host.Outcome State Fault Refusal := .next (s.acceptRecord q)

/-- The wait counter is read again (16 R308). -/
def State.recheck (s : State) (q : Nat) : State :=
  let x := s.queue q
  match x.cur with
  | none => s
  | some r =>
    if !s.up || !x.pending then s
    else if x.over then s.refuseRecord q 0x0B
    else
      match s.dependence x.asid r.words r.asked with
      | (s1, none) => s1.refuseRecord q 0x0C
      | (s1, some d) => s1.setQueue q { x with cur := some { r with depMet := d.1, asked := d.2 } }

def execDependenceRecheck (q : Nat) (s : State) : Host.Outcome State Fault Refusal := .next (s.recheck q).fresh

/-! ## Completion -/

/-- A group of tasks has a record of the launch. -/
def Gather.of (q : Gather) (id : Nat) : Bool := q.tasks.any fun a => a.launch = id

/-- Everything of a launch has ended (16 R309): its records that retire have done so, or have a dependent record that waits. -/
def State.launchOver (s : State) (l : Launch) : Bool :=
  l.placed = l.nt && l.complete = l.nt && !(s.taskQ ++ s.gathers ++ s.running).any (fun q => q.of l.id) &&
    !s.retiring.any (fun r => r.launch = l.id && r.dep.isNone) &&
    !s.resumed.any fun r =>
      match r with
      | .task q => q.of l.id
      | _ => false

/-- The lines that LD.inv of a launch brought into the L1s are invalidated (11 R221), and its record is discarded (16 R309). -/
def State.dropLaunch (s : State) (id : Nat) : State :=
  let clean (r : State) (t : Nat) : State :=
    ((r.tile t).l1.filter fun y => y.inv.elem id).foldl (fun q y => q.l1Clean (some (s.launchAsid id)) t true y.no) r
  let s1 := s.tiles.keys.foldl clean s
  { s1 with
      launches := s1.launches.filter fun l => l.id ≠ id,
      retiring := s1.retiring.filter fun r => r.launch ≠ id,
      invMarks := s1.invMarks.filter fun p => p.launch ≠ id }

/-- What DONE gains (16 R309). -/
def Launch.doneAdd (l : Launch) : DWord := if l.lost then (1#64 <<< 63) + 1 else 1

/-- The stores of the launch's context reach host memory (16 R309, 12 R258). -/
def State.drainLaunch (s : State) (l : Launch) : State := s.tiles.keys.foldl (fun r t => r.drainHost t l.asid) s

/-- A launch completes (16 R309). -/
def State.completeLaunch (s : State) (id : Nat) : State :=
  match s.launch? id with
  | none => s
  | some l =>
    let done := (l.words.getD 7 0).toNat % 2 ^ 56
    if !s.up || !s.launchOver l then s
    else if l.words.getD 7 0 = 0 then (s.drainLaunch l).dropLaunch id
    else
      match (s.drainLaunch l).hubRead l.asid .atomic done 1 with
      | .wait => s
      | .nonres s1 entry =>
        if l.asked then s1
        else (s1.hubRequestPage l.asid done true (l.words.getD 12 0) entry).updLaunch id fun l => { l with asked := true }
      | .bad s1 =>
        (s1.logError 0x11 0 l.asid 328 0 0 0 0 0 (l.words.getD 12 0) (BitVec.ofNat 64 done)).dropLaunch id
      | .ok s1 loc v =>
        let acc : Acc := { loc := loc, data := leBytes 8 (v.getD 0 0 + l.doneAdd).toNat, bnd := 0 }
        ((s1.hubTouch true [(loc, 8)]).perform [acc]).dropLaunch id

def execLaunchCompletion (id : Nat) (s : State) : Host.Outcome State Fault Refusal := .next (s.completeLaunch id).fresh

/-! ## Gathers and retiring tasks -/

/-- 16 R316. -/
def execGatherClose (i : Nat) (s : State) : Host.Outcome State Fault Refusal :=
  .next (match s.gathers[i]? with
    | some q => if s.up && q.due s.time then s.closeGather q.id else s
    | none => s)

/-- A dependent record is enqueued as if spawned by its launch, or waits for room (16 R317). -/
def State.enqueueDep (s : State) (i : Nat) (r : Retire) (ws : List DWord) : State :=
  if s.taskRoom (s.levelOf r.launch) then
    ({ s with retiring := s.retiring.eraseIdx i }).enqueueTask (s.levelOf r.launch) r.launch ws
  else { s with retiring := s.retiring.set i { r with dep := some ws } }

/-- An error record about a retiring record (21 Table 21.4). -/
def State.logRetire (s : State) (r : Retire) (kind : Nat) (detail : DWord) : State :=
  s.logError kind 0 (s.launchAsid r.launch) 328 0 0 0 0 0 (s.launchTag r.launch) detail

/-- The dependent record at an address (16 R317); none while an engine owns its place. -/
def State.readDep (s : State) (i : Nat) (r : Retire) (va : DWord) : Option State :=
  let gone (q : State) : State := ({ q with retiring := q.retiring.eraseIdx i }).logRetire r 0x0D va
  match s.hubRead (s.launchAsid r.launch) .load (va.toNat % 2 ^ 56) 8 with
  | .ok s1 _ ws => some (if s1.taskOk r.launch ws && (ws.getD 0 0).toNat % 8 = 0 then s1.enqueueDep i r ws else gone s1)
  | .nonres s1 _ => some (gone s1)
  | .bad s1 => some (gone s1)
  | .wait => none

/-- Record i acts on its successor counter (16 R317). -/
def State.retireAt (s : State) (i : Nat) : State :=
  match s.retiring[i]? with
  | none => s
  | some r =>
    let succ := r.words.getD 2 0
    let va := succ.toNat % 2 ^ 56
    let asid := s.launchAsid r.launch
    let gone (q : State) : State := { q with retiring := q.retiring.eraseIdx i }
    match r.dep with
    | some ws => if s.taskRoom (s.levelOf r.launch) then s.enqueueDep i r ws else s
    | none =>
      if succ = 0 then gone s
      else
        match s.hubRead asid .atomic va 2 with
        | .wait => s
        | .bad s1 => gone s1
        | .nonres s1 entry =>
          if r.asked then s1
          else
            { s1 with retiring := s1.retiring.set i { r with asked := true } }.hubRequestPage asid va true (s.launchTag r.launch) entry
        | .ok s1 loc v =>
          let c := v.getD 0 0
          if c = 0 then (gone s1).logRetire r 0x0C succ
          else
            let s2 := (s1.hubTouch true [(loc, 8)]).perform [{ loc := loc, data := leBytes 8 (c - 1).toNat, bnd := 0 }]
            if c = 1 && v.getD 1 0 ≠ 0 then (s2.readDep i r (v.getD 1 0)).getD s else gone s2

/-- A record retires only after those of its group before it: in ascending lane order (16 R317). -/
def State.retireTurn (s : State) (i : Nat) : Bool :=
  match s.retiring[i]? with
  | some r => !(s.retiring.take i).any fun q => q.grp = r.grp
  | none => false

def execTaskRetire (i : Nat) (s : State) : Host.Outcome State Fault Refusal :=
  .next (if s.up && s.retireTurn i then (s.retireAt i).fresh else s)

/-! ## The in-field test -/

/-- The next cluster to be tested: the first after CLU that has not failed (21 R387). -/
def State.nextCluster (s : State) : Option Nat :=
  let v := s.csr.testStat
  ((List.range 32).map fun k => (bits v 4 0 + 1 + k) % 32).find? fun c => !v.getLsbD (32 + c)

/-- TESTSTAT with its FAIL bits kept. -/
def testStatWith (v : DWord) (drain run : Bool) (c : Nat) : DWord :=
  keep v 63 32 ||| packBits [(b2n drain, 9), (b2n run, 8), (c, 0)]

/-- The tiles of a cluster. -/
def clusterTiles (c : Nat) : List Nat := (List.range 8).map fun k => 8 * c + k

def State.setTestStat (s : State) (v : DWord) : State := { s with csr := { s.csr with testStat := v } }

/-- Groups saved before from a cluster that is being drained release their teams: the drain takes every group and team off its tiles, and
they are placed elsewhere (21 R387, R389, log 86). -/
def State.drainSaved (s : State) (c : Nat) : State :=
  { s with resumed := s.resumed.map fun r =>
      match r with
      | .group q => if q.tile / 8 = c && q.away.isNone then .group { q with rls := true, drained := some s.testStart } else .group q
      | r => r }

/-- A test begins: the next cluster is drained (21 R387). -/
def State.testBegin (s : State) : State :=
  let v := s.csr.testStat
  if s.up && s.csr.testCfg.getLsbD 32 && !v.getLsbD 8 && !v.getLsbD 9 &&
      s.testStart.toNat + bits s.csr.testCfg 31 0 * 1000000 ≤ s.time.toNat then
    match s.nextCluster with
    | none => s
    | some c =>
      let s1 : State := ({ s.setTestStat (testStatWith v true false c) with testStart := s.time }).drainSaved c
      (clusterTiles c).foldl (fun r t => ((s.tile t).groups.keys.foldl (fun q k => q.preempt t k) r).settleAll t) s1
  else s

def execTestInterval (s : State) : Host.Outcome State Fault Refusal := .next s.testBegin

/-- The cluster's groups have left and its copies have completed (21 R387). -/
def State.drained? (s : State) (c : Nat) : Bool :=
  (clusterTiles c).all fun t => (s.tile t).groups.isEmpty && (s.tile t).teams.isEmpty && (s.tile t).eng0.isEmpty && (s.tile t).eng1.isEmpty

def execScanStart (s : State) : Host.Outcome State Fault Refusal :=
  .next (
    let v := s.csr.testStat
    if s.up && v.getLsbD 9 && s.drained? (bits v 4 0) then s.setTestStat (testStatWith v false true (bits v 4 0)) else s)

/-- A scan ends (21 R388). -/
def State.scanEnd (s : State) (kind detail : Nat) (failed : Bool) : State :=
  let v := s.csr.testStat
  let c := bits v 4 0
  if s.up && v.getLsbD 8 then
    (s.setTestStat (testStatWith v false false c ||| (if failed then 1#64 <<< (32 + c) else 0))).logError kind 0 0 330 0 0 0 0 0 0
      (BitVec.ofNat 64 (c * 2 ^ (if failed then 32 else 0) + detail))
  else s

def execTestPass (s : State) : Host.Outcome State Fault Refusal := .next (s.scanEnd 0x0A 0 false)

def execTestFail (tiles : BitVec 8) (s : State) : Host.Outcome State Fault Refusal := .next (s.scanEnd 0x0B tiles.toNat true)

end Sys2Proof.Machine
end

