-- ==== Sys2Proof/Machine/Hub.lean ====
section
/-! DEFINITION. The fault processor and the error log (17 R328-R331, 21 R390), MSI-X (19 R362), the host's accesses (19 R359, R360, R368,
R372), and Fenlink (19 R364-R367). An event that is not due changes nothing (log 3). -/

namespace Sys2Proof.Machine

/-! ## Fault records -/

/-- TIME, SRC and ASID of a record (17 Table 17.6, 21 Table 21.3). -/
def SentRec.time (r : SentRec) : Nat := (r.words.getD 0 0).toNat
def SentRec.src (r : SentRec) : Nat := fieldAt r.words 2 47 39
def SentRec.asid (r : SentRec) : Nat := fieldAt r.words 2 62 48

/-- The record with LATE set. -/
def SentRec.late (r : SentRec) : SentRec := { r with words := r.words.set 2 (r.words.getD 2 0 ||| (1#64 <<< 63)) }

/-- The record as accepted at a time: LATE where that is later than 2 µs after its own (17 R330). -/
def SentRec.acceptedAt (r : SentRec) (time : DWord) : SentRec := if r.time + 2000 < time.toNat then r.late else r

/-- The i-th record has been sent: no record of its beat is to be accepted before it (17 R329). -/
def State.isSent (s : State) (i : Nat) (r : SentRec) : Bool := (s.sending.take i).all fun q => q.beat ≠ r.beat

/-- The i-th record has been sent, and none that was sent to the same peer before it is still on its way, in the order of the channel (17
R328, 19 R365). -/
def State.firstOfBeat (s : State) (i : Nat) (r : SentRec) : Bool :=
  s.isSent i r &&
    (r.home = s.csr.fldomId.toNat || (s.sending.take i).zipIdx.all fun q => q.1.home ≠ r.home || !s.isSent q.2 q.1)

/-- The i-th record has been accepted: the next of its beat is sent, after those that have been (17 R329). -/
def State.sendNext (s : State) (i : Nat) (r : SentRec) : State :=
  let rest := s.sending.eraseIdx i
  { s with sending := (rest.filter fun q => q.beat ≠ r.beat) ++ rest.filter fun q => q.beat = r.beat }

/-- Record i reaches a fault processor: this package's, which refuses it while its buffer is full, or a peer's (17 R328, R329). -/
def State.acceptFault (s : State) (i : Nat) : State :=
  match s.sending[i]? with
  | none => s
  | some r =>
    let gone := s.sendNext i r
    if !s.up || !s.firstOfBeat i r || r.refused.isSome then s
    else if r.home ≠ s.csr.fldomId.toNat then (if s.unroutable then s else gone)
    else if 4096 ≤ s.mergeBuf.length then { s with sending := s.sending.set i { r with refused := some s.time } }
    else ({ gone with mergeBuf := s.mergeBuf ++ [r.acceptedAt s.time] }).charge r.asid .frec 1

def execFaultRecordAccept (i : Nat) (s : State) : Host.Outcome State Fault Refusal := .next (s.acceptFault i)

/-- A refused record is sent again after 1 µs (17 R329). -/
def State.resendFault (s : State) (i : Nat) : State :=
  match s.sending[i]? with
  | some r =>
    match r.refused with
    | some v => if v.toNat + 1000 ≤ s.time.toNat then { s with sending := s.sending.set i { r with refused := none } } else s
    | none => s
  | none => s

def execFaultRecordResend (i : Nat) (s : State) : Host.Outcome State Fault Refusal := .next (s.resendFault i)

/-- Record i of the error log reaches the hub, after those that its source has sent before (21 R390); LATE where that is later than 2 µs
after its detection. -/
def State.arriveError (s : State) (i : Nat) : State :=
  match s.errSent[i]? with
  | none => s
  | some r =>
    if s.up && (s.errSent.take i).all fun q => q.src ≠ r.src then
      { s with errSent := s.errSent.eraseIdx i, errBuf := s.errBuf ++ [r.acceptedAt s.time] }
    else s

/-! ## The logs -/

/-- A record comes before another: by TIME, then SRC; records alike keep the order of their arrival (17 R330). -/
def SentRec.before (a b : SentRec) : Bool := decide (a.time < b.time) || (a.time = b.time && decide (a.src < b.src))

/-- The place of the record that comes first, from place i on. -/
def firstRec : List SentRec → Nat → Option (Nat × SentRec)
  | [], _ => none
  | r :: rest, i =>
    match firstRec rest (i + 1) with
    | some (j, q) => if q.before r then some (j, q) else some (i, r)
    | none => some (i, r)

/-- The record that a log writes next: once its hold is over, while the log is enabled and not full (17 R330). -/
def State.logNext (s : State) (buf : List SentRec) (cfg : DWord) (w r : Word) : Option (Nat × SentRec) :=
  match firstRec buf 0 with
  | some (i, q) =>
    if s.up && cfg.getLsbD 5 && (w - r).toNat ≠ 2 ^ bits cfg 4 0 && q.time + 2000 ≤ s.time.toNat then some (i, q) else none
  | none => none

/-- Where record w of a log lies (17 Table 17.9). -/
def logSlot (base cfg : DWord) (w : Word) : Nat := bits base 51 12 * 2 ^ 12 + 64 * (w.toNat % 2 ^ bits cfg 4 0)

/-- A record goes to the fault log, and vector 0 is signalled (17 R330, R331). -/
def State.faultLog (s : State) : State :=
  let c := s.csr
  match s.logNext s.mergeBuf c.flCfg c.flW c.flR with
  | none => s
  | some (i, r) =>
    let a := logSlot c.flBase c.flCfg c.flW
    if s.owned a 64 then s
    else
      let s1 := s.hubStore a (wordBytes r.words)
      ({ s1 with mergeBuf := s1.mergeBuf.eraseIdx i, csr := { s1.csr with flW := c.flW + 1 } }).signal 0

def execFaultLogWrite (s : State) : Host.Outcome State Fault Refusal := .next s.faultLog

/-- A record goes to the error log, and vector 1 is signalled (21 R390). -/
def State.errorLog (s : State) : State :=
  let c := s.csr
  match s.logNext s.errBuf c.elCfg c.elW c.elR with
  | none => s
  | some (i, r) =>
    let a := logSlot c.elBase c.elCfg c.elW
    if s.owned a 64 then s
    else
      let s1 := s.hubStore a (wordBytes r.words)
      ({ s1 with errBuf := s1.errBuf.eraseIdx i, csr := { s1.csr with elW := c.elW + 1 } }).signal 1

def execErrorLogWrite (s : State) : Host.Outcome State Fault Refusal := .next s.errorLog

/-! ## MSI-X -/

/-- A word of the MSI-X table: entry v holds its address at 2v, and its data with the mask, bit 32, at 2v + 1; masked at reset (log
36). -/
def State.msixWord (s : State) (k : Nat) : DWord := Sparse.get (if k % 2 = 1 then 1#64 <<< 32 else 0) s.msixTable k

def State.setMsixWord (s : State) (k : Nat) (v : DWord) : State :=
  { s with msixTable := Sparse.set (if k % 2 = 1 then 1#64 <<< 32 else 0) s.msixTable k v }

def State.msixMasked (s : State) (v : Nat) : Bool := (s.msixWord (2 * v + 1)).getLsbD 32

/-- A vector sends its message (19 R362). -/
def State.sendMsix (s : State) (v : Nat) : State :=
  if s.up && v < 64 && s.msixPend.getLsbD v && !s.msixMasked v && s.elapsed (Sparse.find? s.msixLast v) 1000 then
    { s with msixPend := s.msixPend &&& ~~~(1#64 <<< v), msixLast := Sparse.insert s.msixLast v s.time, msixSent := s.msixSent ++ [v] }
  else s

def execMsixMessage (v : Nat) (s : State) : Host.Outcome State Fault Refusal := .next (s.sendMsix v)

/-- The pending-bit array: vectors that wait behind their mask (19 R362). -/
def State.msixPba (s : State) : DWord :=
  (List.range 64).foldl (fun r v => if s.msixPend.getLsbD v && s.msixMasked v then r ||| (1#64 <<< v) else r) 0

/-! ## Sluice registers -/

/-- SLCFG's fields (19 Table 19.4). -/
def slcfgBits (v : DWord) : DWord :=
  keep v 61 47 ||| keep v 46 32 ||| keep v 13 7 ||| (BitVec.ofNat 64 (max 1 (bits v 4 1)) <<< 1) ||| keep v 0 0

/-- A write to SLCFG (19 R368). -/
def Sluice.writeCfg (x : Sluice) (v : DWord) : Sluice :=
  if x.en then (if v.getLsbD 0 then x else { x with cfg := x.cfg &&& ~~~1 })
  else if v.getLsbD 0 then { x with cfg := slcfgBits v, put := 0, rel := 0, host := 0 }
  else { x with cfg := slcfgBits v }

/-- The registers of a sluice as they read (19 Table 19.4). -/
def Sluice.read (x : Sluice) (reg : Nat) : DWord :=
  match reg with
  | 0 => x.base
  | 1 => x.cfg
  | 2 => x.put
  | 3 => x.rel
  | 4 => x.host
  | 5 => packBits [(b2n x.vlost, 1), (b2n (decide (x.put.toNat - x.host.toNat = x.n)), 0)]
  | _ => 0

/-- A write to a register of a sluice (19 R368, Table 19.4). -/
def Sluice.write (x : Sluice) (reg : Nat) (v : DWord) : Sluice :=
  match reg with
  | 0 => if x.en then x else { x with base := keep v 51 12 }
  | 1 => x.writeCfg v
  | 4 => if x.rel.toNat < v.toNat || v.toNat < x.host.toNat then x else { x with host := v }
  | 5 => if v.getLsbD 1 then { x with vlost := false } else x
  | _ => x

/-- A write to register `reg` of sluice n. -/
def State.sluiceWrite (s : State) (n reg : Nat) (v : DWord) : State :=
  if s.up && n < 4096 then s.setSluice n ((s.sluice n).write reg v) else s

def execSlhostWrite (n : Nat) (val : DWord) (s : State) : Host.Outcome State Fault Refusal := .next (s.sluiceWrite n 4 val)

def execSlcfgWrite (n : Nat) (val : DWord) (s : State) : Host.Outcome State Fault Refusal := .next (s.sluiceWrite n 1 val)

/-! ## BAR0 -/

/-- A read of BAR0 (19 Table 19.2): where boot has not passed, only BOOTSTAT and RSTCTL are there (22 R396). -/
def State.barRead (s : State) (off : Nat) : DWord :=
  if off % 8 ≠ 0 || !s.powered || (!s.booted && off ≠ 0x0A02D0 && off ≠ 0x0A02D8) then 0
  else if off < 0x080000 then (s.queue (off / 32)).read (off / 8 % 4)
  else if off < 0x084000 then Sparse.get 0 s.counters ((off - 0x080000) / 8)
  else if 0x0A0000 ≤ off && off < 0x0A6000 then (s.csrRead 0 ((off - 0x0A0000) / 8)).getD 0
  else if 0x100000 ≤ off && off < 0x140000 then (s.sluice ((off - 0x100000) / 64)).read (off / 8 % 8)
  else if 0x180000 ≤ off && off < 0x180400 then s.msixWord ((off - 0x180000) / 8)
  else if off = 0x180800 then s.msixPba
  else 0

/-- A write to BAR0 (19 Table 19.2). -/
def State.barWrite (s : State) (off : Nat) (v : DWord) : State :=
  if off % 8 ≠ 0 || !s.powered || (!s.booted && off ≠ 0x0A02D8) then s
  else if off < 0x080000 then s.queueWrite (off / 32) (off / 8 % 4) v
  else if off < 0x084000 then
    if off / 8 % 8 = 7 then s else { s with counters := Sparse.set 0 s.counters ((off - 0x080000) / 8) v }
  else if 0x0A0000 ≤ off && off < 0x0A6000 then s.csrWrite ((off - 0x0A0000) / 8) v
  else if 0x100000 ≤ off && off < 0x140000 then s.sluiceWrite ((off - 0x100000) / 64) (off / 8 % 8) v
  else if 0x180000 ≤ off && off < 0x180400 then s.setMsixWord ((off - 0x180000) / 8) v
  else s

/-- A write of a system register by the host (19 Table 19.2, 18 R344). -/
def State.hostCsr (s : State) (n : Nat) (v : DWord) : State := s.barWrite (0x0A0000 + 8 * n) v

def execAlmcauseClear (val : DWord) (s : State) : Host.Outcome State Fault Refusal := .next (s.hostCsr 0x058 val)

def execPwrlimWrite (val : DWord) (s : State) : Host.Outcome State Fault Refusal := .next (s.hostCsr 0x059 val)

def execRstctlWrite (val : DWord) (s : State) : Host.Outcome State Fault Refusal := .next (s.hostCsr 0x05B val).fresh

/-- FLRIDX or ELRIDX (17 Table 17.9). -/
def execFlridxWrite (el : Bool) (val : DWord) (s : State) : Host.Outcome State Fault Refusal :=
  .next (s.hostCsr (if el then 0x047 else 0x043) val)

/-! ## Host memory accesses -/

/-- The bytes that a decoder maps, and where from: decoder 0 the data space, decoder 1 the peat window (19 R360). -/
def decoderSize (dec : Bool) : Nat := if dec then 2 ^ 34 else dataEnd
def decoderBase (dec : Bool) : Nat := if dec then peatBase else 0

/-- An access of n bytes as pieces of one sector each. -/
def sectorPieces (place : Nat → Loc) (pa n : Nat) : List (Loc × Nat) :=
  (List.range ((pa % 64 + n + 63) / 64)).map fun i =>
    let lo := max pa (64 * (pa / 64 + i))
    (place lo, min (pa + n) (64 * (pa / 64 + i + 1)) - lo)

/-- A physical address lies in the ring of a sluice that is in use (19 R360). -/
def State.inRing (s : State) (pa : Nat) : Bool :=
  s.sluices.any fun p =>
    let b := bits p.2.base 51 12 * 2 ^ 12
    (p.2.en || decide (p.2.rel.toNat < p.2.put.toNat)) && decide (b ≤ pa) && decide (pa < b + 64 * p.2.n)

/-- A physical address lies in a slot that holds an unreleased record (19 R360, R372). -/
def State.unreleased (s : State) (pa : Nat) : Bool :=
  s.sluices.any fun p =>
    (List.range (p.2.put.toNat - p.2.rel.toNat)).any fun k =>
      let a := p.2.slotAt (p.2.rel.toNat + k)
      decide (a ≤ pa) && decide (pa < a + 64)

/-- A host access through a decoder that can be performed: the host has committed the decoder (19 R360). -/
def State.hostReach (s : State) (peat : Bool) (off n : Nat) : Bool :=
  s.up && s.hdm.getLsbD (b2n peat) && 0 < n && off + n ≤ decoderSize peat && !s.owned (decoderBase peat + off) n

/-- The host programs a decoder and commits it (19 R360); the standard's registers are not the spec's (log 37). -/
def State.commit (s : State) (peat commit : Bool) : State :=
  let m : BitVec 2 := 1#2 <<< b2n peat
  if s.up then { s with hdm := if commit then s.hdm ||| m else s.hdm &&& ~~~m } else s

/-- A write of a register by the host (19 R359, R360). -/
def State.hostRegister (s : State) (r : HostReg) (v : DWord) : State :=
  match r with
  | .bar off => s.barWrite off v
  | .hdm peat => s.commit peat (v.getLsbD 0)

def execRegisterWrite (r : HostReg) (val : DWord) (s : State) : Host.Outcome State Fault Refusal := .next (s.hostRegister r val).fresh

/-- Every sector that host writes touch takes tag 0 (11 R219). -/
def State.zeroTags (s : State) (accs : List Acc) : State :=
  let secs := nubNat (accs.flatMap accSectors)
  { secs.foldl (fun r k => r.setTag (64 * k) 0) s with badTags := s.badTags.filter fun k => !secs.elem k }

/-- A host write to the device: bytes of a ring slot are discarded, and through decoder 0 every sector written takes tag 0 (19 R360, 11
R219). A write that spans two granules of the peat window is none that a decoder carries (11 R218, log 85). -/
def State.hostStore (s : State) (peat : Bool) (off : Nat) (data : List Byte) : State :=
  if s.hostReach peat off data.length && !(peat && 128 < off % 128 + data.length) then
    let pa := decoderBase peat + off
    let accs : List Acc := (data.zipIdx.filter fun p => !s.inRing (pa + p.2)).map fun p =>
      { loc := { hubLoc (pa + p.2) with tagged := false }, data := [p.1], bnd := 0 }
    let s1 := (s.hubTouch true (sectorPieces hubLoc pa data.length)).perform accs
    if peat then s1 else s1.zeroTags accs
  else s

/-- The lines of the host's memory that some bytes lie in. -/
def outerLines (a n : Nat) : List Loc :=
  (List.range ((a % 256 + n + 255) / 256)).map fun i =>
    { key := outerKey 0 ((a / 256 + i) * 256), tagged := false, l2s := interleaved ((a / 256 + i) * 256), cp := 0 }

/-- A write of the host to its own memory, coherent with what the package's caches hold of it (19 R361): they give their lines up, and the
sectors written take tag 0 (11 R219). -/
def State.hostOwn (s : State) (a : Nat) (data : List Byte) : State :=
  if s.up && !data.isEmpty && a + data.length ≤ 2 ^ 52 && !s.owned (outerKey 0 a) data.length then
    let s1 := (outerLines a data.length).foldl (fun r l => (r.recall none noTile l true).l2Clean none true l) s
    let accs : List Acc := [{ loc := { key := outerKey 0 a, tagged := true, l2s := 0, cp := 4 }, data := data, bnd := 0 }]
    (s1.perform accs).zeroTags accs
  else s

/-- A write of the host (19 R360, R361). -/
def State.hostPut (s : State) (m : HostSpace) (off : Nat) (data : List Byte) : State :=
  match m with
  | .data => s.hostStore false off data
  | .peat => s.hostStore true off data
  | .host => s.hostOwn off data

def execHostWrite (m : HostSpace) (off : Nat) (data : List Byte) (s : State) : Host.Outcome State Fault Refusal :=
  .next (s.hostPut m off data).fresh

/-- A host read: the slot of an unreleased record reads as zeros (19 R360, R372). -/
def State.hostLoad (s : State) (peat : Bool) (off n : Nat) : State :=
  if s.hostReach peat off n then
    let pa := decoderBase peat + off
    let bs := (List.range n).map fun i => if s.unreleased (pa + i) then 0 else s.byte (pa + i)
    let ans : Answer := { data := bs, tag := 0, poisoned := s.poisoned pa n, refused := false }
    { s.hubTouch false (sectorPieces hubLoc pa n) with hostOut := some ans }
  else s

def execHostRead (peat : Bool) (off n : Nat) (s : State) : Host.Outcome State Fault Refusal := .next (s.hostLoad peat off n).fresh

/-! ## Fenlink -/

/-- A package of the domain other than this one (19 R364). -/
def State.isPeerId (s : State) (p : Nat) : Bool := p < s.csr.fldomCount && p ≠ s.csr.fldomId.toNat

/-- A request outside the data space: the record names the requester; which unit writes it is left open (19 R364, log 11). -/
def State.logRemote (s : State) (peer pa : Nat) : State :=
  s.logError 0x0E (BitVec.ofNat 64 pa) 0 (333 + s.choose 8 16) 0 0 0 0 0 0 (BitVec.ofNat 64 peer)

/-- A request lies outside the data space (19 R364). -/
def outside (pa n : Nat) : Bool := decide (dataEnd < pa + n)

/-- A load of a peer (19 R364). -/
def State.fenLoad (s : State) (peer : Nat) (m : FenMap) (pa n : Nat) : State :=
  if outside pa n then (s.logRemote peer pa).answerPoison peer n
  else if s.owned pa n then s
  else (s.hubTouch false (sectorPieces (fenLoc m) pa n)).answerPeer peer (s.readBytes pa n) (s.locTag (fenLoc m pa)) (s.poisoned pa n)

/-- A store of a peer, one access. -/
def State.fenStore (s : State) (peer : Nat) (m : FenMap) (pa : Nat) (data : List Byte) (b : Eb16) : State :=
  if outside pa data.length then s.logRemote peer pa
  else if s.owned pa data.length then s
  else (s.hubTouch true (sectorPieces (fenLoc m) pa data.length)).perform [{ loc := fenLoc m pa, data := data, bnd := b }]

/-- An atomic of a peer: its operation's result with the bound it makes, and the old value with its tag to the peer (11 R228-R230). -/
def State.fenAtomic (s : State) (peer size : Nat) (f : AtomFn) (a : AtomLane) : State :=
  let pa := a.loc.key
  if outside pa size then (s.logRemote peer pa).answerPoison peer size
  else if s.owned pa size then s
  else if s.poisoned pa size then s.answerPoison peer size
  else
    let old := s.readNat pa size
    let s1 := s.hubTouch true [(a.loc, size)]
    let s2 := match f.new size old (s.locTag a.loc) a with
      | some (v, b) => s1.perform [{ loc := a.loc, data := leBytes size v, bnd := b }]
      | none => s1
    s2.answerPeer peer (leBytes size old) (s.locTag a.loc) false

/-- The tile number under which a deferral buffer holds a lane of a peer. -/
def peerTile (peer : Nat) : Nat := noTile + peer

/-- An LDF of a peer: answered, held in the deferral buffer of its slice, or refused (11 R222, R223). -/
def State.fenLdf (s : State) (peer : Nat) (m : FenMap) (pa n : Nat) : State :=
  let l := fenLoc m pa
  if outside pa n then (s.logRemote peer pa).answerPoison peer n
  else if s.owned pa n then s
  else if !s.granEmpty pa then (s.hubTouch false [(l, n)]).answerPeer peer (s.readBytes pa n) (s.locTag l) (s.poisoned pa n)
  else
    let s1 := s.hubTouch false [(l, n)]
    if s1.deferRoom s1.nextId l then
      { s1 with
          nextId := s1.nextId + 1,
          deferral := s1.deferral ++
            [{ loc := l, size := n, tile := peerTile peer, slot := 0, slice := 0, lane := 0, dst := 0, pa := 0, tok := s1.nextId }] }
    else s1.answerRefused peer

/-- A peer's STF, and its CLRF, which waits where its slice pins no more lines (11 R222, R223). -/
def State.fenStf (s : State) (peer : Nat) (m : FenMap) (pa : Nat) (data : List Byte) (b : Eb16) : State :=
  if outside pa data.length then s.logRemote peer pa
  else if s.owned pa data.length then s
  else (s.hubTouch true [(fenLoc m pa, data.length)]).fillGranules [{ loc := fenLoc m pa, data := data, bnd := b }]

def State.fenClrf (s : State) (peer : Nat) (m : FenMap) (pa : Nat) : State :=
  if outside pa 8 then s.logRemote peer pa
  else if s.owned pa 8 || s.pinFull [fenLoc m pa] then s
  else (s.hubTouch false [(fenLoc m pa, 8)]).emptyGranules [fenLoc m pa]

/-- A record of a peer enters the merge buffer, unless that is full (17 R328, R329); until TIME has converged after a rejoin it may carry
LATE (19 R367, log 11). -/
def State.fenRecord (s : State) (ws : List DWord) : State :=
  let r : SentRec := { beat := 0, home := s.csr.fldomId.toNat, refused := none, words := ws }
  if 4096 ≤ s.mergeBuf.length then s
  else
    let q := if s.timeSync = .converging && s.choose 19 2 = 1 then r.late else r.acceptedAt s.time
    ({ s with mergeBuf := s.mergeBuf ++ [q] }).charge r.asid .frec 1

/-- A peer's request is performed at its slice (19 R364, 11 R222, 17 R328). -/
def State.fenServe (s : State) (peer : Nat) : FenReq → State
  | .load m pa n => s.fenLoad peer m pa n
  | .store m pa data b => s.fenStore peer m pa data b
  | .atomic m pa size op val exp b =>
    s.fenAtomic peer size (match op with
        | some o => .op o.1 o.2
        | none => .cas)
      { loc := fenLoc m pa, val := val, bnd := b, exp := exp, slice := 0, lane := 0, pc := 0, dst := .s 0 }
  | .ldf m pa n => s.fenLdf peer m pa n
  | .stf m pa data b => s.fenStf peer m pa data b
  | .clrf m pa => s.fenClrf peer m pa
  | .withdraw pa n =>
    { s with deferral := s.deferral.filter fun h => !(h.tile = peerTile peer && h.loc.key = pa && h.size = n) }
  | .record ws => s.fenRecord ws

def execFenlinkRequest (peer : Nat) (req : FenReq) (s : State) : Host.Outcome State Fault Refusal :=
  .next (if s.up && s.isPeerId peer && !s.unroutable then (s.fenServe peer req).fresh else s)

/-- Port p loses lanes: 1 says four lanes, 2 down (19 R366). -/
def State.setPort (s : State) (p st : Nat) : State :=
  if s.up && p < 16 && Sparse.get 0 s.ports p < st then
    let s1 : State := { s with ports := Sparse.set 0 s.ports p st }
    if s1.unroutable then { s1 with downAt := s.time } else s1
  else s

def execLaneShed (p : Nat) (s : State) : Host.Outcome State Fault Refusal := .next (s.setPort p 1)

def execPortDown (p : Nat) (s : State) : Host.Outcome State Fault Refusal := .next (s.setPort p 2)

/-- A channel has had no route for 1 ms: its held loads and atomics are answered with poison (19 R366). -/
def State.routeTimeout (s : State) (peer : Nat) : State :=
  if s.up && s.isPeerId peer && s.unroutable && s.downAt.toNat + 1000000 ≤ s.time.toNat && !s.noRoute.elem peer then
    { s with noRoute := s.noRoute ++ [peer] }
  else s

def execNoRouteTimeout (peer : Nat) (s : State) : Host.Outcome State Fault Refusal := .next (s.routeTimeout peer)

/-- A port is up again, and held stores proceed (19 R366). -/
def State.routeReturn (s : State) (peer : Nat) : State :=
  if s.up && s.isPeerId peer && s.unroutable then { s with ports := Sparse.set 0 s.ports 0 0, noRoute := [] } else s

def execFenlinkRouteReturn (peer : Nat) (s : State) : Host.Outcome State Fault Refusal := .next (s.routeReturn peer)

/-- A package that is not the time source is cut off from it, which is logged; it rejoins and converges (19 R367). -/
def State.timeSource (s : State) (e : TimeEvent) (src : Nat) : State :=
  if !s.up || !s.isPeerId src || s.csr.fldomId.toNat ≤ src then s
  else
    match e, s.timeSync with
    | .cut, .cut => s
    | .cut, _ => ({ s with timeSync := .cut }).logError 0x0F 0 0 330 0 0 0 0 0 0 (BitVec.ofNat 64 src)
    | .rejoin, .cut => { s with timeSync := .converging }
    | .converged, .converging => { s with timeSync := .synced }
    | _, _ => s

def execTimeSource (e : TimeEvent) (src : Nat) (s : State) : Host.Outcome State Fault Refusal := .next (s.timeSource e src)

end Sys2Proof.Machine
end

