-- ==== Sys2Proof/Machine/Power.lean ====
section
/-! DEFINITION. Alarms (22 R394, R395), power (22 R396, 00 R2), warm reset (22 R399) and attestation (22 R401). -/

namespace Sys2Proof.Machine

/-! ## Alarms -/

/-- An alarm puts a tile into NT: a switch into NT that is in progress completes, any other is abandoned; its burst ends, and no gang of it
is ready any more (22 R395, 14 R297, 09 R185). A tile that does not issue stays stopped; when tiles issue again, `forcedAt` says. -/
def Tile.forceNt (x : Tile) : Tile :=
  { x with
      fast := false, inBurst := false, reserve := none,
      phase := match x.phase with
        | .switching false => .switching false
        | .idle => if x.doze then .forced else .idle
        | _ => .forced }

/-- The same for every tile. -/
def State.forceNt (s : State) : State :=
  { s with
      forcedAt := (s.time, s.stalled) :: s.forcedAt.filter fun p => decide ((s.time - p.1).toNat < 150),
      tiles := (s.tiles.map fun p => (p.1, p.2.forceNt)).filter fun p => decide (p.2 ≠ Tile.reset) }

/-- Who reports an alarm: a die's power manager, or the controller (01 R20). -/
def alarmSrc (die : Nat) : Nat := if die < 8 then 349 + die else 330

/-- ALMCAUSE with a cause detected, and the die that detected it, if one did (22 R394). -/
def alarmBits (a : BitVec 16) (bit die : Nat) : BitVec 16 := a ||| (1#16 <<< bit) ||| (if die < 8 then 1#16 <<< (8 + die) else 0)

/-- A write has cleared the bit in the hub cycle of its detection: the bit stays set (22 R394, log 11). -/
def State.almStays (s : State) (bit : Nat) : Bool := s.almTie.clearedAt = s.time && s.almTie.cleared.getLsbD bit && s.choose 18 2 = 1

/-- A cause is detected; a cause that rises from 0 to 1 is logged, and every tile goes to NT (22 R394, R395). -/
def State.alarm (s : State) (bit die : Nat) : State :=
  if !s.powered || 6 < bit then s
  else
    let a := alarmBits s.csr.almCause bit die
    let seen := alarmBits 0 bit die ||| (if s.almTie.seenAt = s.time then s.almTie.seen else 0)
    let s1 : State := { s with csr := { s.csr with almCause := a }, almTie := { s.almTie with seenAt := s.time, seen := seen } }
    if s.csr.almCause.getLsbD bit || s.almStays bit then s1
    else s1.forceNt.logError 0x10 0 0 (alarmSrc die) 0 0 0 0 0 0 (a.setWidth 64)

def execAlarm (bit die : Nat) (s : State) : Host.Outcome State Fault Refusal := .next (s.alarm bit die).fresh

/-- A tile whose resolved gear differs from its gear is to switch (10 R200). -/
def State.reresolve (s : State) (t : Nat) : State :=
  if (s.tile t).phase = .idle && s.resolved t ≠ (s.tile t).fast then s.updTile t Tile.stop else s

/-- ALMCAUSE has held no cause for 2 µs: every tile re-resolves its gear (22 R395). -/
def execAlarmQuietExpiry (s : State) : Host.Outcome State Fault Refusal :=
  .next (if s.up && s.quietAlarm then s.tiles.keys.foldl State.reresolve s else s)

/-! ## Power and reset -/

/-- 22 R396. -/
def execPowerOn (s : State) : Host.Outcome State Fault Refusal := .next s.light

/-- 22 R399. -/
def execWarmReset (s : State) : Host.Outcome State Fault Refusal := .next (if s.powered then s.warm else s)

/-- A reset of port 1 retrains that port's link (22 R399), of which no state is the machine's. -/
def execPort1Reset (s : State) : Host.Outcome State Fault Refusal := .next s

/-- 00 R2. -/
def execPowerOff (s : State) : Host.Outcome State Fault Refusal := .next s.dark

/-! ## Attestation -/

/-- The bytes of a number of 512 bits, lowest first. -/
def bytes512 (v : BitVec 512) : List Byte := leBytes 64 v.toNat

/-- The bytes that a quote signs: nonce, SERIAL, ALMCAUSE and the entries of the log (22 R401). -/
def quoteBytes (nonce : BitVec 512) (serial : DWord) (alm : BitVec 16) (log : List (Nat × Digest)) : List Byte :=
  bytes512 nonce ++ leBytes 8 serial.toNat ++ leBytes 8 alm.toNat ++ log.flatMap fun e => leBytes 8 e.1 ++ bytes512 e.2.bits

/-- 22 R401. -/
def State.quote (s : State) (nonce : BitVec 512) : State :=
  let serial : DWord := BitVec.ofNat 64 (flashNat 8 8)
  let q : Quote :=
    { nonce := nonce, serial := serial, almCause := s.csr.almCause, entries := s.measLog,
      sig := Config.sign (Config.sha3 (quoteBytes nonce serial s.csr.almCause s.measLog)) }
  if s.up then { s with quoteOut := some q } else s

def execQuoteRequest (nonce : BitVec 512) (s : State) : Host.Outcome State Fault Refusal := .next (s.quote nonce)

/-- An entry of kind 4 to 255 is appended, while the log has room (22 R401). -/
def execMeasurementAppend (kind : Nat) (digest : BitVec 512) (s : State) : Host.Outcome State Fault Refusal :=
  .next (if s.up && 4 ≤ kind && kind ≤ 255 && s.measLog.length < 64 then { s with measLog := s.measLog ++ [(kind, .given digest)] } else s)

end Sys2Proof.Machine
end

