-- ==== Sys2Proof/Machine/Dispatch.lean ====
section
/-! DEFINITION. One arm per instruction: a direct call of its meaning, or a refusal by name. -/

namespace Sys2Proof.Machine

/-- What each instruction, and each event of the part, does to the machine. -/
def exec (i : Instr) (s : State) : Host.Outcome State Fault Refusal :=
  match i with
  | .sadd h d a y => Sys2Proof.Machine.execSadd h d a y s
  | .ssub h d a y => Sys2Proof.Machine.execSsub h d a y s
  | .saddi h d a imm => Sys2Proof.Machine.execSaddi h d a imm s
  | .smul h d a y => Sys2Proof.Machine.execSmul h d a y s
  | .smulh h d a y => Sys2Proof.Machine.execSmulh h d a y s
  | .smulhn h d a y => Sys2Proof.Machine.execSmulhn h d a y s
  | .sdiv h d a y => Sys2Proof.Machine.execSdiv h d a y s
  | .sdivn h d a y => Sys2Proof.Machine.execSdivn h d a y s
  | .srem h d a y => Sys2Proof.Machine.execSrem h d a y s
  | .sremn h d a y => Sys2Proof.Machine.execSremn h d a y s
  | .sand h d a y => Sys2Proof.Machine.execSand h d a y s
  | .sandn h d a y => Sys2Proof.Machine.execSandn h d a y s
  | .sor h d a y => Sys2Proof.Machine.execSor h d a y s
  | .sxor h d a y => Sys2Proof.Machine.execSxor h d a y s
  | .sshl h d a y => Sys2Proof.Machine.execSshl h d a y s
  | .sshr h d a y => Sys2Proof.Machine.execSshr h d a y s
  | .ssra h d a y => Sys2Proof.Machine.execSsra h d a y s
  | .srot h d a y => Sys2Proof.Machine.execSrot h d a y s
  | .smin h d a y => Sys2Proof.Machine.execSmin h d a y s
  | .smax h d a y => Sys2Proof.Machine.execSmax h d a y s
  | .sminn h d a y => Sys2Proof.Machine.execSminn h d a y s
  | .smaxn h d a y => Sys2Proof.Machine.execSmaxn h d a y s
  | .sclz h d a => Sys2Proof.Machine.execSclz h d a s
  | .sctz h d a => Sys2Proof.Machine.execSctz h d a s
  | .spop h d a => Sys2Proof.Machine.execSpop h d a s
  | .sbfe h d a pos len => Sys2Proof.Machine.execSbfe h d a pos len s
  | .sbfi h d a pos len => Sys2Proof.Machine.execSbfi h d a pos len s
  | .ssetc h d a b cc => Sys2Proof.Machine.execSsetc h d a b cc s
  | .ssel h d a b c => Sys2Proof.Machine.execSsel h d a b c s
  | .smov h d a => Sys2Proof.Machine.execSmov h d a s
  | .sli h d imm => Sys2Proof.Machine.execSli h d imm s
  | .sliw h d imm => Sys2Proof.Machine.execSliw h d imm s
  | .movsr h d sel => Sys2Proof.Machine.execMovsr h d sel s
  | .movrs h sel a => Sys2Proof.Machine.execMovrs h sel a s
  | .bra h t => Sys2Proof.Machine.execBra h t s
  | .brs h t cc a => Sys2Proof.Machine.execBrs h t cc a s
  | .brv h t j => Sys2Proof.Machine.execBrv h t j s
  | .join h => Sys2Proof.Machine.execJoin h s
  | .call h t => Sys2Proof.Machine.execCall h t s
  | .calli h a => Sys2Proof.Machine.execCalli h a s
  | .ret h => Sys2Proof.Machine.execRet h s
  | .regang h => Sys2Proof.Machine.execRegang h s
  | .setw h lo hi e => Sys2Proof.Machine.execSetw h lo hi e s
  | .exit h => Sys2Proof.Machine.execExit h s
  | .yield h => Sys2Proof.Machine.execYield h s
  | .waitt h a => Sys2Proof.Machine.execWaitt h a s
  | .nop h => Sys2Proof.Machine.execNop h s
  | .trap h imm => Sys2Proof.Machine.execTrap h imm s
  | .undefinedOpcode w0 w1 => Sys2Proof.Machine.execUndefinedOpcode w0 w1 s
  | .vadd h ty d a b => Sys2Proof.Machine.execVadd h ty d a b s
  | .vsub h ty d a b => Sys2Proof.Machine.execVsub h ty d a b s
  | .vmul h ty d a b => Sys2Proof.Machine.execVmul h ty d a b s
  | .vmulh h ty d a b => Sys2Proof.Machine.execVmulh h ty d a b s
  | .vmulhn h ty d a b => Sys2Proof.Machine.execVmulhn h ty d a b s
  | .vmad h ty d a b c => Sys2Proof.Machine.execVmad h ty d a b c s
  | .vdiv h ty d a b => Sys2Proof.Machine.execVdiv h ty d a b s
  | .vdivn h ty d a b => Sys2Proof.Machine.execVdivn h ty d a b s
  | .vand h ty d a b => Sys2Proof.Machine.execVand h ty d a b s
  | .vor h ty d a b => Sys2Proof.Machine.execVor h ty d a b s
  | .vxor h ty d a b => Sys2Proof.Machine.execVxor h ty d a b s
  | .vnot h ty d a => Sys2Proof.Machine.execVnot h ty d a s
  | .vshl h ty d a y => Sys2Proof.Machine.execVshl h ty d a y s
  | .vshr h ty d a y => Sys2Proof.Machine.execVshr h ty d a y s
  | .vsra h ty d a y => Sys2Proof.Machine.execVsra h ty d a y s
  | .vrot h ty d a y => Sys2Proof.Machine.execVrot h ty d a y s
  | .vmin h ty d a b => Sys2Proof.Machine.execVmin h ty d a b s
  | .vmax h ty d a b => Sys2Proof.Machine.execVmax h ty d a b s
  | .vminn h ty d a b => Sys2Proof.Machine.execVminn h ty d a b s
  | .vmaxn h ty d a b => Sys2Proof.Machine.execVmaxn h ty d a b s
  | .vabs h ty d a => Sys2Proof.Machine.execVabs h ty d a s
  | .vneg h ty d a => Sys2Proof.Machine.execVneg h ty d a s
  | .vclz h ty d a => Sys2Proof.Machine.execVclz h ty d a s
  | .vpop h ty d a => Sys2Proof.Machine.execVpop h ty d a s
  | .vbfe h ty d a pos len => Sys2Proof.Machine.execVbfe h ty d a pos len s
  | .vbfi h ty d a pos len => Sys2Proof.Machine.execVbfi h ty d a pos len s
  | .vbrev h ty d a => Sys2Proof.Machine.execVbrev h ty d a s
  | .vprmb h ty d a b c => Sys2Proof.Machine.execVprmb h ty d a b c s
  | .vsetp h ty p a b cc => Sys2Proof.Machine.execVsetp h ty p a b cc s
  | .vsel h ty d a b p => Sys2Proof.Machine.execVsel h ty d a b p s
  | .vmov h ty d src => Sys2Proof.Machine.execVmov h ty d src s
  | .vli h d imm => Sys2Proof.Machine.execVli h d imm s
  | .vlid h ty d imm => Sys2Proof.Machine.execVlid h ty d imm s
  | .plop h d a b t => Sys2Proof.Machine.execPlop h d a b t s
  | .vtos h ty d a sel => Sys2Proof.Machine.execVtos h ty d a sel s
  | .fadd h ty uc rnd d a b => Sys2Proof.Machine.execFadd h ty uc rnd d a b s
  | .fsub h ty uc rnd d a b => Sys2Proof.Machine.execFsub h ty uc rnd d a b s
  | .fmul h ty uc rnd d a b => Sys2Proof.Machine.execFmul h ty uc rnd d a b s
  | .ffma h ty uc d a b c => Sys2Proof.Machine.execFfma h ty uc d a b c s
  | .fmin h ty uc d a b => Sys2Proof.Machine.execFmin h ty uc d a b s
  | .fmax h ty uc d a b => Sys2Proof.Machine.execFmax h ty uc d a b s
  | .fsetp h ty uc p a b cc => Sys2Proof.Machine.execFsetp h ty uc p a b cc s
  | .frcp h ty d a => Sys2Proof.Machine.execFrcp h ty d a s
  | .frsq h ty d a => Sys2Proof.Machine.execFrsq h ty d a s
  | .fsqrt h ty uc rnd d a => Sys2Proof.Machine.execFsqrt h ty uc rnd d a s
  | .fdiv h ty uc rnd d a b => Sys2Proof.Machine.execFdiv h ty uc rnd d a b s
  | .fexp2 h ty d a => Sys2Proof.Machine.execFexp2 h ty d a s
  | .flog2 h ty d a => Sys2Proof.Machine.execFlog2 h ty d a s
  | .fsin h ty d a => Sys2Proof.Machine.execFsin h ty d a s
  | .fcos h ty d a => Sys2Proof.Machine.execFcos h ty d a s
  | .ftanh h ty d a => Sys2Proof.Machine.execFtanh h ty d a s
  | .ffrc h ty d a => Sys2Proof.Machine.execFfrc h ty d a s
  | .frnd h ty rnd d a => Sys2Proof.Machine.execFrnd h ty rnd d a s
  | .hadd2 h ty uc rnd d a b => Sys2Proof.Machine.execHadd2 h ty uc rnd d a b s
  | .hmul2 h ty uc rnd d a b => Sys2Proof.Machine.execHmul2 h ty uc rnd d a b s
  | .hfma2 h ty uc d a b c => Sys2Proof.Machine.execHfma2 h ty uc d a b c s
  | .dadd h ty uc rnd d a b => Sys2Proof.Machine.execDadd h ty uc rnd d a b s
  | .dmul h ty uc rnd d a b => Sys2Proof.Machine.execDmul h ty uc rnd d a b s
  | .dfma h ty uc d a b c => Sys2Proof.Machine.execDfma h ty uc d a b c s
  | .ddiv h ty uc rnd d a b => Sys2Proof.Machine.execDdiv h ty uc rnd d a b s
  | .cvt h ty src rnd d a b => Sys2Proof.Machine.execCvt h ty src rnd d a b s
  | .cvti h ty src rnd d a b => Sys2Proof.Machine.execCvti h ty src rnd d a b s
  | .pack h ty src rnd d a => Sys2Proof.Machine.execPack h ty src rnd d a s
  | .unpk h ty src d a => Sys2Proof.Machine.execUnpk h ty src d a s
  | .qnt h ty src rc d a vs => Sys2Proof.Machine.execQnt h ty src rc d a vs s
  | .dqnt h ty src rnd d a vs => Sys2Proof.Machine.execDqnt h ty src rnd d a vs s
  | .srseed h a => Sys2Proof.Machine.execSrseed h a s
  | .setfmt h ty rm => Sys2Proof.Machine.execSetfmt h ty rm s
  | .bget h ty d a => Sys2Proof.Machine.execBget h ty d a s
  | .bset h ty d a b => Sys2Proof.Machine.execBset h ty d a b s
  | .bzero h ty d a => Sys2Proof.Machine.execBzero h ty d a s
  | .bmax h ty d a b => Sys2Proof.Machine.execBmax h ty d a b s
  | .chkb h ty a n => Sys2Proof.Machine.execChkb h ty a n s
  | .btest h ty p a b => Sys2Proof.Machine.execBtest h ty p a b s
  | .setbud h src => Sys2Proof.Machine.execSetbud h src s
  | .shfl h ty d a k pv => Sys2Proof.Machine.execShfl h ty d a k pv s
  | .shflu h ty d a k pv => Sys2Proof.Machine.execShflu h ty d a k pv s
  | .shfld h ty d a k pv => Sys2Proof.Machine.execShfld h ty d a k pv s
  | .shflx h ty d a k pv => Sys2Proof.Machine.execShflx h ty d a k pv s
  | .bcast h ty d a k pv => Sys2Proof.Machine.execBcast h ty d a k pv s
  | .red h ty uc op d a pc pd => Sys2Proof.Machine.execRed h ty uc op d a pc pd s
  | .scan h ty uc op ex d a pc pd => Sys2Proof.Machine.execScan h ty uc op ex d a pc pd s
  | .vote h mode d pa pc => Sys2Proof.Machine.execVote h mode d pa pc s
  | .matchv h ty d a pc pd => Sys2Proof.Machine.execMatchv h ty d a pc pd s
  | .first h d pc pd => Sys2Proof.Machine.execFirst h d pc pd s
  | .ld h sz base d off sc od inv nr => Sys2Proof.Machine.execLd h sz base d off sc od inv nr s
  | .st h sz base b off sc od nochk => Sys2Proof.Machine.execSt h sz base b off sc od nochk s
  | .lds h sz base d off sc od => Sys2Proof.Machine.execLds h sz base d off sc od s
  | .sts h sz base b off sc od nochk => Sys2Proof.Machine.execSts h sz base b off sc od nochk s
  | .sld h sz a d off sc od => Sys2Proof.Machine.execSld h sz a d off sc od s
  | .sst h sz a b off sc od => Sys2Proof.Machine.execSst h sz a b off sc od s
  | .atom h sz base d b op ty sc od nochk => Sys2Proof.Machine.execAtom h sz base d b op ty sc od nochk s
  | .atoms h sz base d b op ty sc od nochk => Sys2Proof.Machine.execAtoms h sz base d b op ty sc od nochk s
  | .cas h sz base d b off sc od nochk => Sys2Proof.Machine.execCas h sz base d b off sc od nochk s
  | .cass h sz base d b off sc od nochk => Sys2Proof.Machine.execCass h sz base d b off sc od nochk s
  | .ldf h sz base d off sc od pa => Sys2Proof.Machine.execLdf h sz base d off sc od pa s
  | .stf h sz base b off sc od => Sys2Proof.Machine.execStf h sz base b off sc od s
  | .clrf h base off sc od => Sys2Proof.Machine.execClrf h base off sc od s
  | .fence h kinds sc od => Sys2Proof.Machine.execFence h kinds sc od s
  | .pref h base l2 off sc => Sys2Proof.Machine.execPref h base l2 off sc s
  | .pgreq h base w off sc => Sys2Proof.Machine.execPgreq h base w off sc s
  | .cctlCln1 h base off sc => Sys2Proof.Machine.execCctlCln1 h base off sc s
  | .cctlInv1 h base off sc => Sys2Proof.Machine.execCctlInv1 h base off sc s
  | .cctlClnm h base off sc => Sys2Proof.Machine.execCctlClnm h base off sc s
  | .cctlFlsm h base off sc => Sys2Proof.Machine.execCctlFlsm h base off sc s
  | .cctlInvi h base off sc => Sys2Proof.Machine.execCctlInvi h base off sc s
  | .bufdef h k base sz nm1 => Sys2Proof.Machine.execBufdef h k base sz nm1 s
  | .cpyin h c => Sys2Proof.Machine.execCpyin h c s
  | .cpyout h c => Sys2Proof.Machine.execCpyout h c s
  | .cpynb h c => Sys2Proof.Machine.execCpynb h c s
  | .cpyg h c => Sys2Proof.Machine.execCpyg h c s
  | .waitb h d k => Sys2Proof.Machine.execWaitb h d k s
  | .acqb h f d k => Sys2Proof.Machine.execAcqb h f d k s
  | .relb h k => Sys2Proof.Machine.execRelb h k s
  | .mma h ta tb uc k a src vs za ru rl => Sys2Proof.Machine.execMma h ta tb uc k a src vs za ru rl s
  | .mzero h k => Sys2Proof.Machine.execMzero h k s
  | .mld h ty d k c0 nm1 => Sys2Proof.Machine.execMld h ty d k c0 nm1 s
  | .mst h td ts rnd k a b scr sp nc => Sys2Proof.Machine.execMst h td ts rnd k a b scr sp nc s
  | .mscl h ty k a cm => Sys2Proof.Machine.execMscl h ty k a cm s
  | .attach h role a b => Sys2Proof.Machine.execAttach h role a b s
  | .detach h cond => Sys2Proof.Machine.execDetach h cond s
  | .bara h d k => Sys2Proof.Machine.execBara h d k s
  | .barw h k a => Sys2Proof.Machine.execBarw h k a s
  | .bars h k => Sys2Proof.Machine.execBars h k s
  | .barq h d k => Sys2Proof.Machine.execBarq h d k s
  | .gear h fast => Sys2Proof.Machine.execGear h fast s
  | .gearw h d => Sys2Proof.Machine.execGearw h d s
  | .nopre h => Sys2Proof.Machine.execNopre h s
  | .pre h => Sys2Proof.Machine.execPre h s
  | .spawn h pd a => Sys2Proof.Machine.execSpawn h pd a s
  | .slput h d a b => Sys2Proof.Machine.execSlput h d a b s
  | .slrel h a b => Sys2Proof.Machine.execSlrel h a b s
  | .slveto h a b => Sys2Proof.Machine.execSlveto h a b s
  | .sysc h imm => Sys2Proof.Machine.execSysc h imm s
  | .rft h => Sys2Proof.Machine.execRft h s
  | .stctx h item a off => Sys2Proof.Machine.execStctx h item a off s
  | .ldctx h item a off => Sys2Proof.Machine.execLdctx h item a off s
  | .csrr h d num => Sys2Proof.Machine.execCsrr h d num s
  | .csrw h num a => Sys2Proof.Machine.execCsrw h num a s
  | .tlbinvAll h => Sys2Proof.Machine.execTlbinvAll h s
  | .tlbinvAsid h b => Sys2Proof.Machine.execTlbinvAsid h b s
  | .tlbinvPg h a b => Sys2Proof.Machine.execTlbinvPg h a b s
  | .haltKill h => Sys2Proof.Machine.execHaltKill h s
  | .haltSave h a => Sys2Proof.Machine.execHaltSave h a s
  | .haltSaveRls h a => Sys2Proof.Machine.execHaltSaveRls h a s
  | .emret h => Sys2Proof.Machine.execEmret h s
  | .emretDcl h => Sys2Proof.Machine.execEmretDcl h s
  | .resultWriteback t slot slice k => Sys2Proof.Machine.execResultWriteback t slot slice k s
  | .parkRelease t slot slice => Sys2Proof.Machine.execParkRelease t slot slice s
  | .rendezvousComplete t slot => Sys2Proof.Machine.execRendezvousComplete t slot s
  | .setwGrant t slot => Sys2Proof.Machine.execSetwGrant t slot s
  | .reedRingInjection die => Sys2Proof.Machine.execReedRingInjection die s
  | .shareArrival t => Sys2Proof.Machine.execShareArrival t s
  | .yieldPauseEnd t slot slice => Sys2Proof.Machine.execYieldPauseEnd t slot slice s
  | .waittWake t slot slice => Sys2Proof.Machine.execWaittWake t slot slice s
  | .barrierArrive t slot k => Sys2Proof.Machine.execBarrierArrive t slot k s
  | .barrierLeave k => Sys2Proof.Machine.execBarrierLeave k s
  | .barrierRelease t => Sys2Proof.Machine.execBarrierRelease t s
  | .gearResolveChange t => Sys2Proof.Machine.execGearResolveChange t s
  | .gearSwitchStart t => Sys2Proof.Machine.execGearSwitchStart t s
  | .gearSwitchEnd t => Sys2Proof.Machine.execGearSwitchEnd t s
  | .dozeStart t => Sys2Proof.Machine.execDozeStart t s
  | .dozeWake t => Sys2Proof.Machine.execDozeWake t s
  | .watchdog t slot => Sys2Proof.Machine.execWatchdog t slot s
  | .instructionFetchMiss t slot slice => Sys2Proof.Machine.execInstructionFetchMiss t slot slice s
  | .icacheFill t k => Sys2Proof.Machine.execIcacheFill t k s
  | .storeQueuePerform t slot => Sys2Proof.Machine.execStoreQueuePerform t slot s
  | .engineIssue t slot => Sys2Proof.Machine.execEngineIssue t slot s
  | .sluicePut t slot => Sys2Proof.Machine.execSluicePut t slot s
  | .copyCompletion t e => Sys2Proof.Machine.execCopyCompletion t e s
  | .copyFailure t e => Sys2Proof.Machine.execCopyFailure t e s
  | .engineTranslationRetry t e => Sys2Proof.Machine.execEngineTranslationRetry t e s
  | .matrixAccept t slot => Sys2Proof.Machine.execMatrixAccept t slot s
  | .matrixComplete t => Sys2Proof.Machine.execMatrixComplete t s
  | .mstConvertDone t => Sys2Proof.Machine.execMstConvertDone t s
  | .burstEnd t => Sys2Proof.Machine.execBurstEnd t s
  | .trapDelivery t slot slice => Sys2Proof.Machine.execTrapDelivery t slot slice s
  | .groupSaveLeave t slot => Sys2Proof.Machine.execGroupSaveLeave t slot s
  | .groupEnd t slot => Sys2Proof.Machine.execGroupEnd t slot s
  | .faultRecordAccept k => Sys2Proof.Machine.execFaultRecordAccept k s
  | .faultRecordResend k => Sys2Proof.Machine.execFaultRecordResend k s
  | .launchRecordRead q => Sys2Proof.Machine.execLaunchRecordRead q s
  | .launchRecordAccept q => Sys2Proof.Machine.execLaunchRecordAccept q s
  | .dependenceRecheck q => Sys2Proof.Machine.execDependenceRecheck q s
  | .growthGroupStart t team => Sys2Proof.Machine.execGrowthGroupStart t team s
  | .shrinkRequest t team => Sys2Proof.Machine.execShrinkRequest t team s
  | .gatherClose k => Sys2Proof.Machine.execGatherClose k s
  | .taskRetire k => Sys2Proof.Machine.execTaskRetire k s
  | .launchCompletion id => Sys2Proof.Machine.execLaunchCompletion id s
  | .teamKilled t team => Sys2Proof.Machine.execTeamKilled t team s
  | .msixMessage v => Sys2Proof.Machine.execMsixMessage v s
  | .noRouteTimeout peer => Sys2Proof.Machine.execNoRouteTimeout peer s
  | .tlbinvComplete t slot slice => Sys2Proof.Machine.execTlbinvComplete t slot slice s
  | .qdb q tail => Sys2Proof.Machine.execQdb q tail s
  | .qcfgWrite q val => Sys2Proof.Machine.execQcfgWrite q val s
  | .qstatStopClear q => Sys2Proof.Machine.execQstatStopClear q s
  | .testFail tiles => Sys2Proof.Machine.execTestFail tiles s
  | .fenlinkRequest peer req => Sys2Proof.Machine.execFenlinkRequest peer req s
  | .laneShed p => Sys2Proof.Machine.execLaneShed p s
  | .portDown p => Sys2Proof.Machine.execPortDown p s
  | .timeSource e src => Sys2Proof.Machine.execTimeSource e src s
  | .hostWrite m off data => Sys2Proof.Machine.execHostWrite m off data s
  | .hostRead peat off n => Sys2Proof.Machine.execHostRead peat off n s
  | .slhostWrite n val => Sys2Proof.Machine.execSlhostWrite n val s
  | .slcfgWrite n val => Sys2Proof.Machine.execSlcfgWrite n val s
  | .almcauseClear val => Sys2Proof.Machine.execAlmcauseClear val s
  | .pwrlimWrite val => Sys2Proof.Machine.execPwrlimWrite val s
  | .registerWrite r val => Sys2Proof.Machine.execRegisterWrite r val s
  | .alarm bit die => Sys2Proof.Machine.execAlarm bit die s
  | .alarmQuietExpiry => Sys2Proof.Machine.execAlarmQuietExpiry s
  | .powerOn => Sys2Proof.Machine.execPowerOn s
  | .warmReset => Sys2Proof.Machine.execWarmReset s
  | .rstctlWrite val => Sys2Proof.Machine.execRstctlWrite val s
  | .port1Reset => Sys2Proof.Machine.execPort1Reset s
  | .quoteRequest nonce => Sys2Proof.Machine.execQuoteRequest nonce s
  | .measurementAppend kind digest => Sys2Proof.Machine.execMeasurementAppend kind digest s
  | .fenlinkRouteReturn peer => Sys2Proof.Machine.execFenlinkRouteReturn peer s
  | .powerOff => Sys2Proof.Machine.execPowerOff s
  | .flridxWrite el val => Sys2Proof.Machine.execFlridxWrite el val s
  | .residencyNotify asid va => Sys2Proof.Machine.execResidencyNotify asid va s
  | .preemptionRequest t slot => Sys2Proof.Machine.execPreemptionRequest t slot s
  | .gangPromotion t slot gang => Sys2Proof.Machine.execGangPromotion t slot gang s
  | .faultLogWrite => Sys2Proof.Machine.execFaultLogWrite s
  | .schedulerPlacement => Sys2Proof.Machine.execSchedulerPlacement s
  | .preemptEscalation => Sys2Proof.Machine.execPreemptEscalation s
  | .testInterval => Sys2Proof.Machine.execTestInterval s
  | .scanStart => Sys2Proof.Machine.execScanStart s
  | .testPass => Sys2Proof.Machine.execTestPass s
  | .errorLogWrite => Sys2Proof.Machine.execErrorLogWrite s
  | .burstTokenRotate => Sys2Proof.Machine.execBurstTokenRotate s

end Sys2Proof.Machine
end

