-- ==== Sys2Proof/Machine/Schedule.lean ====
section
/-! DEFINITION. What happens next where the spec leaves the moment open (log 3): the acts of a plan, and the order taken when
there is no plan. -/

namespace Sys2Proof.Machine

/-- TIME advances. -/
def State.tick (s : State) (ns : Nat) : State :=
  let t := s.time + BitVec.ofNat 64 ns
  { s with time := t }

/-- What an event that is due changes: not the counter of free choices alone, nor what a lookup or a line request leaves in caches and
counters. -/
def State.bare (s : State) : State :=
  { s with free := 0, counters := [], tents := [], l2 := [], behind := [], csr := { s.csr with nearReq := [], farReq := [] },
           tiles := s.tiles.map fun p => (p.1, { p.2 with l1 := [], tlb := [] }) }

/-- An event is due when it would change the machine. -/
def State.isDue (s : State) (i : Instr) : Bool :=
  match exec i s with
  | .next r => decide (r.bare ≠ s.bare)
  | .fault _ => false
  | .refused _ => false

/-- Events of a slice. -/
def sliceEvents (t slot : Nat) (p : Nat × Slice) : List Instr :=
  (List.range p.2.out.length).map (Instr.resultWriteback t slot p.1 ·) ++
    [.trapDelivery t slot p.1, .yieldPauseEnd t slot p.1, .waittWake t slot p.1, .tlbinvComplete t slot p.1] ++
    (match p.2.wait with
     | .refused | .slot => []
     | _ => [.parkRelease t slot p.1]) ++
    (if p.2.free then [.instructionFetchMiss t slot p.1] else [])

/-- Events of a group. -/
def groupEvents (t : Nat) (p : Nat × Group) : List Instr :=
  p.2.slices.flatMap (sliceEvents t p.1) ++ p.2.arrSent.map (fun a => Instr.barrierArrive t p.1 a.k) ++
    [.rendezvousComplete t p.1, .setwGrant t p.1, .matrixAccept t p.1, .storeQueuePerform t p.1, .engineIssue t p.1, .sluicePut t p.1,
     .watchdog t p.1, .groupSaveLeave t p.1, .groupEnd t p.1]

/-- Events of a tile. A tile dozes while all its slices may. -/
def tileEvents (p : Nat × Tile) : List Instr :=
  let t := p.1
  let busy := p.2.groups.any fun g => g.2.liveIdx.any fun k => !(g.2.slice k).wait.dozes
  p.2.groups.flatMap (groupEvents t) ++ p.2.teams.keys.map (Instr.teamKilled t ·) ++
    (List.range p.2.icPend.length).map (Instr.icacheFill t ·) ++
    [.barrierRelease t, .matrixComplete t, .mstConvertDone t, .copyCompletion t 0, .copyCompletion t 1, .copyFailure t 0, .copyFailure t 1,
     .engineTranslationRetry t 0, .engineTranslationRetry t 1, .gearSwitchEnd t, .gearSwitchStart t, .gearResolveChange t, .burstEnd t] ++
    (if p.2.doze then (if busy then [.dozeWake t] else []) else if busy then [] else [.dozeStart t]) ++
    p.2.teams.keys.flatMap fun k => [.growthGroupStart t k, .shrinkRequest t k]

/-- Events of the scheduler, the logs and the links. -/
def State.hubEvents (s : State) : List Instr :=
  (List.range s.leaves.length).map Instr.barrierLeave ++ (List.range s.sending.length).map Instr.faultRecordAccept ++
    (List.range s.sending.length).map Instr.faultRecordResend ++ [.faultLogWrite, .errorLogWrite] ++ (List.range 64).map Instr.msixMessage ++
    (List.range s.gathers.length).map Instr.gatherClose ++ (List.range s.retiring.length).map Instr.taskRetire ++
    s.launches.map (fun l => Instr.launchCompletion l.id) ++
    s.queues.keys.flatMap (fun q => [.launchRecordRead q, .dependenceRecheck q, .launchRecordAccept q]) ++
    [.schedulerPlacement, .preemptEscalation, .testInterval, .scanStart, .testPass, .burstTokenRotate] ++
    (if s.unroutable then (List.range s.csr.fldomCount).map Instr.noRouteTimeout else [])

/-- The ring's events. -/
def State.ringEvents (s : State) : List Instr :=
  (s.rings.flatMap fun r => r.2.todo.take 1).map Instr.shareArrival ++ (List.range 8).map Instr.reedRingInjection

/-- The events that may be due by themselves, in a fixed order; waits for a refused resource end last, so that each is tried once
between two beats. -/
def State.candidates (s : State) : List Instr :=
  s.ringEvents ++ s.tiles.flatMap tileEvents ++ s.hubEvents ++
    s.tiles.flatMap fun p => p.2.groups.flatMap fun g => g.2.slices.map fun k => Instr.parkRelease p.1 g.1 k.1

/-- The next tile from one on that has resident groups. -/
def State.nextBusy (s : State) : Option Nat := (List.find? (fun p => decide (s.nextTile ≤ p.1) && !p.2.groups.isEmpty) s.tiles).map Prod.fst

/-- The act that comes next without a plan: the arrival of an error record, or an event that is due; else a beat of the next tile in turn; else, once all have had their
turn, a nanosecond passes. -/
def State.nextAct (s : State) : Act × State :=
  if s.up && !s.errSent.isEmpty then (.arrive 0, s)
  else
    match s.candidates.find? s.isDue with
    | some i => (.event i, s)
    | none =>
      match s.nextBusy with
      | some t => (.issue t, { s with nextTile := t + 1 })
      | none => (.tick 1, { s with nextTile := 0 })

end Sys2Proof.Machine
end

