-- ==== Sys2Proof/Machine/Strike.lean ====
section
/-! DEFINITION. Errors of the hardware itself, as they strike (21 R377, R378, R385; log 39): single-bit errors, errors that the code
cannot correct, and copies of a dual-issued instruction that differ. -/

namespace Sys2Proof.Machine

/-- A line of a cache without a sector. -/
def dropSector (l : List Line) (pa : Nat) : List Line :=
  l.filterMap fun x =>
    if x.no ≠ pa / 256 then some x
    else
      let p := x.present &&& ~~~(1#4 <<< (pa % 256 / 64))
      if p = 0 then none else some { x with present := p, dirty := x.dirty &&& p }

/-- The only valid copy of a unit, or of a sector's tag, is lost (21 R378). -/
def State.spoil (s : State) (key : Nat) (tag : Bool) : State :=
  if tag then { s with badTags := if s.badTags.elem (key / 64) then s.badTags else s.badTags ++ [key / 64] }
  else { s with poison := if s.poison.elem (key / 8) then s.poison else s.poison ++ [key / 8] }

/-- A granule of a cache is lost: in the peat window the unit is four sectors' tags (21 R377, R378). -/
def State.spoilAt (s : State) (key : Nat) (tag : Bool) : State :=
  match if isPeat key then (List.range 4).filterMap fun k => peatSector (key / 8 * 8 + 2 * k) else [] with
  | [] => s.spoil key tag
  | secs => secs.foldl (fun r sec => r.spoil (64 * sec) true) s

/-- A cache holds the sector of an address. -/
def State.cachedAt (s : State) (pa : Nat) : Bool := holdsSector s.l2 pa || s.tiles.any fun p => holdsSector p.2.l1 pa

/-- HBM holds the only copy of a sector, or of its tag. -/
def State.onlyHbm (s : State) (pa : Nat) (tag : Bool) : Bool := !s.cachedAt pa && !(tag && s.cachedAt (peatOf pa))

/-- The units, or the sectors of the tags, that HBM protects with one code, 32 bytes of data or of the tag plane (21 R377): their
addresses. -/
def hbmUnits (pa : Nat) (tag : Bool) : List Nat :=
  if tag then (List.range 16).filterMap fun k => (peatSector (peatOf pa / 32 * 32 + 2 * k)).map (64 * ·)
  else (List.range 4).map fun k => pa / 32 * 32 + 8 * k

/-- What the shared L2 TLB holds (17 R323). -/
def State.l2Tlb (s : State) : List TEnt := s.tents.filter TEnt.isPage

/-- The site is there: a resident group's register, a place within a memory, a line or an entry held. HBM is read where no cache holds the
sector. -/
def State.struck (s : State) : ErrorSite → Bool
  | .reg t slot k r l part =>
    t < 256 && r < 256 && l < 4 && part < 3 && (s.group? t slot).any fun g => r < g.allot && (Sparse.find? g.slices k).isSome
  | .acc t n => t < 256 && n < 32768
  | .row t n => t < 256 && n < 2048
  | .pad t a _ => t < 256 && a < 303104
  | .l1 t pa tag => t < 256 && !(tag && isPeat pa) && holdsSector (s.tile t).l1 pa
  | .l2 j pa tag => j < 64 && !(tag && isPeat pa) && s.l2.any fun x => x.no = pa / 256 && x.loc.l2s = j && x.present.getLsbD (pa % 256 / 64)
  | .hbm pa tag => pa < dataEnd && s.onlyHbm pa tag
  | .icache t i unit => t < 256 && i < (s.tile t).icache.length && unit < 32
  | .tlb t i => t < 256 && i < (s.tile t).tlb.length
  | .l2tlb i => i < s.l2Tlb.length

/-- The address of the granule that a code protects in a memory or cache: 8 bytes, or a sector, whose tag has a code of its own (21
R377). -/
def granuleAt (pa : Nat) (tag : Bool) : DWord := BitVec.ofNat 64 (if tag then pa / 64 * 64 else pa / 8 * 8)

/-- Source, address and array of a site's records (01 R20, 21 Tables 21.3 and 21.4): accumulators and TLBs have no address, and the
instruction cache counts as an L1 (log 39). -/
def State.siteRecord (s : State) : ErrorSite → Nat × DWord × Nat
  | .reg t .. => (t, BitVec.allOnes 64, 0)
  | .acc t _ => (t, 0, 2)
  | .row t _ => (t, 0, 2)
  | .pad t a tag => (t, granuleAt a tag, 1)
  | .l1 t pa tag => (t, granuleAt (physOf pa) tag, 3)
  | .l2 j pa tag => (264 + j, granuleAt (physOf pa) tag, 4)
  | .hbm pa tag => (256 + stackOf pa, BitVec.ofNat 64 ((if tag then peatOf pa else pa) / 32 * 32), 6)
  | .icache t i unit => (t, (((s.tile t).icache[i]?).map fun x => BitVec.ofNat 64 (physOf (256 * x.line + 8 * unit))).getD 0, 3)
  | .tlb t _ => (t, 0, 5)
  | .l2tlb _ => (328, 0, 5)

/-- CORRECTED for a site. -/
def State.corrected (s : State) (c : ErrorSite) : State := let r := s.siteRecord c; s.logCorrected r.1 r.2.1 r.2.2

/-- An error that the code cannot correct: a clean copy is dropped and CORRECTED is logged, the only valid copy is poisoned (21 R377,
R378). -/
def State.uncorrectable (s : State) (c : ErrorSite) : State :=
  match c with
  | .reg t slot k r l part =>
    s.updSlice t slot k fun x => { x with bad := Sparse.insert x.bad (4 * r + l) (x.badOf r l ||| (1#3 <<< part)) }
  | .acc t n => s.updTile t fun x => { x with accBad := if x.accBad.elem n then x.accBad else x.accBad ++ [n] }
  | .row t n => s.updTile t fun x => { x with accBad := if x.accBad.elem (32768 + n) then x.accBad else x.accBad ++ [32768 + n] }
  | .pad t a tag => s.spoil (padKey t a) tag
  | .l1 t pa tag =>
    if dirtySector (s.tile t).l1 pa then s.spoilAt pa tag
    else (s.corrected c).updTile t fun x => { x with l1 := dropSector x.l1 pa }
  | .l2 _ pa tag =>
    if dirtySector s.l2 pa && s.tiles.all fun p => !dirtySector p.2.l1 pa then s.spoilAt pa tag
    else { s.corrected c with l2 := dropSector s.l2 pa }
  | .hbm pa tag => ((hbmUnits pa tag).filter fun k => s.onlyHbm k tag).foldl (fun r k => r.spoil k tag) s
  | .icache t i _ => (s.corrected c).updTile t fun x => { x with icache := x.icache.eraseIdx i }
  | .tlb t i => (s.corrected c).updTile t fun x => { x with tlb := x.tlb.eraseIdx i }
  | .l2tlb i => { s.corrected c with tents := s.tents.filter fun e => s.l2Tlb[i]? ≠ some e }

/-- One error. Nothing strikes a package without power. -/
def State.upset (s : State) (u : Upset) : State :=
  if !s.powered then s
  else
    match u with
    | .single c => if s.struck c then s.corrected c else s
    | .double c => if s.struck c then s.uncorrectable c else s
    | .differ t slot k again =>
      if (s.group? t slot).any fun g => g.dual && (g.slice k).live then
        s.updSlice t slot k fun x => { x with glitch := if again then 2 else 1 }
      else s

end Sys2Proof.Machine
end

