-- ==== Sys2Proof/Machine/Step.lean ====
section
/-! DEFINITION. One step of the machine (log 3): the next act of the plan, or of the default order. -/

namespace Sys2Proof.Machine

/-- A tile issues its next beat: exec of the instruction fetched, by the gang selected; nothing where no gang may issue. -/
def issueStep (s : State) (t : Nat) : Host.Outcome State Fault Refusal :=
  match s.turns t 4 with
  | .none s1 => .next s1
  | .issue r s1 =>
    match r.instr with
    | some i => exec i (s1.focusOn t r)
    | none => execBreach r.w0 r.w1 (s1.focusOn t r)

/-- One act. An instruction of a program is no event: it does nothing here. -/
def actStep (a : Act) (s : State) : Host.Outcome State Fault Refusal :=
  match a with
  | .event i => if i.kind = .event then exec i s else .next s
  | .arrive i => .next (s.arriveError i)
  | .issue t => issueStep s t
  | .tick ns => .next (s.tick ns)
  | .upset u => .next (s.upset u)

/-- One step of the machine. -/
def step (s : State) : Host.Outcome State Fault Refusal :=
  match s.agenda with
  | a :: rest => actStep a { s with agenda := rest }
  | [] => actStep s.nextAct.1 s.nextAct.2

/-- The machine whose next step runs the instruction of a word (host interface). -/
def State.withFetchWord (s : State) (nbits w : Nat) : State :=
  s.placeWords (tableWords nbits w).1 (tableWords nbits w).2

end Sys2Proof.Machine
end

