-- ==== Sys2Proof/Safety.lean ====
section
/-! DEFINITION. The terms in which the claims speak: the gang that may issue an instruction, what a beat leaves as it was, and the
invariants of a state. -/

namespace Sys2Proof.Machine

/-! ## A beat that may issue -/

/-- The gang in focus, the slices `l` of group `g`, is to issue `i` in class `c` at a cost: the package runs, the allowance covers the
cost (09 R185), nothing holds the slices (09 R177), and no asynchronous trap is to be taken first (18 R337). -/
structure ToIssue (s : State) (i : Instr) (g : Group) (l : List Nat) (c : UClass) (cost : Nat) : Prop where
  power : s.powered = true
  boot : s.booted = true
  here : s.group? s.focus.tile s.focus.slot = some g
  gang : (s.focus.slices.filter fun k => (g.slice k).live) = l
  some_ : l ≠ []
  distinct : l.Nodup
  covered : s.classCost s.focus.tile s.focus.slot g l i 1 = some (c, cost)
  ready : ∀ k ∈ l, (g.slice k).wait = .run
  calm : ∀ k ∈ l, (g.slice k).asyncNow = none

/-- It may issue `i`: no check before the instruction's own finds a breach in a slice (05 R94, 09 R176, 18 R343). -/
structure MayIssue (s : State) (i : Instr) (g : Group) (l : List Nat) (c : UClass) (cost : Nat) : Prop extends ToIssue s i g l c cost where
  clear : ∀ k ∈ l, s.preTrap g (g.slice k) i = none

/-- The same where no register of the slices holds an error, and no copies of a dual-issued instruction are to differ (21 R378, R385). -/
structure Issues (s : State) (i : Instr) (g : Group) (l : List Nat) (c : UClass) (cost : Nat) : Prop extends MayIssue s i g l c cost where
  sound : ∀ k ∈ l, (g.slice k).sound

/-- The gang in focus comes to the rendezvous point `i`, which costs nothing (06 R121, 08 R158). -/
structure Comes (s : State) (i : Instr) (g : Group) (l : List Nat) : Prop where
  power : s.powered = true
  boot : s.booted = true
  here : s.group? s.focus.tile s.focus.slot = some g
  gang : (s.focus.slices.filter fun k => (g.slice k).live) = l
  some_ : l ≠ []
  distinct : l.Nodup
  ready : ∀ k ∈ l, (g.slice k).wait = .run
  calm : ∀ k ∈ l, (g.slice k).asyncNow = none

/-- It may reach it: no check before finds a breach. -/
structure Arrives (s : State) (i : Instr) (g : Group) (l : List Nat) : Prop extends Comes s i g l where
  clear : ∀ k ∈ l, s.preTrap g (g.slice k) i = none

/-- A slice that a beat does not issue for is as it was; one that is being resumed may be taken into the gang that its image records (09
R173). -/
def Untouched (before after : Slice) : Prop :=
  after = { before with gang := after.gang } ∧ (before.glead = none → after = before)

/-- What a beat of the slices `l` of the group in slot `q` of tile `t` may change of `m`: those slices, the tile's allowance, its
reservation and its A latches, and the counter of free choices. Memory, tags, every other tile, group, slice and register (but for the
gang of slices being resumed), and the hub are as they were. -/
structure BeatFrame (m r : State) (t q : Nat) (l : List Nat) : Prop where
  rest : r = { m with tiles := r.tiles, free := m.free + 1 }
  tiles : ∀ t', t' ≠ t → r.tile t' = m.tile t'
  tile : r.tile t =
    { m.tile t with
        groups := (r.tile t).groups, allow := (r.tile t).allow, reserve := (r.tile t).reserve, alatch := (r.tile t).alatch }
  groups : ∀ q', q' ≠ q → r.group? t q' = m.group? t q'
  group : ∃ a b, m.group? t q = some a ∧ r.group? t q = some b ∧ b = { a with slices := b.slices } ∧
    ∀ k, k ∉ l → Untouched (a.slice k) (b.slice k)

/-- A slice, `old` before its instruction, which makes `before` of it, and as the beat leaves it (05 R83, 09 R174-R176), in the gang that 09
R172 gives it. -/
def Settles (g : Group) (i : Instr) (old before after : Slice) : Prop := after = { before.finish old g i with gang := after.gang }

/-- The instruction completes: exec answers a next state, in which each slice of the gang is what `y` gives, settled, the tile has
paid the cost, and everything else that a beat may not change is as in `s`. -/
def Ran (s : State) (i : Instr) (g : Group) (l : List Nat) (cost : Nat) (y : Nat → Slice) : Prop :=
  ∃ r, exec i s = .next r ∧ BeatFrame s r s.focus.tile s.focus.slot l ∧
    (∀ k ∈ l, Settles g i (g.slice k) (y k) (r.slice s.focus.tile s.focus.slot k)) ∧
    (r.tile s.focus.tile).allow = (s.tile s.focus.tile).allow - cost

/-- The same for an instruction that changes more than its slices: `m` is the machine as the instruction leaves it. -/
def Made (s : State) (i : Instr) (g : Group) (l : List Nat) (cost : Nat) (m : State) : Prop :=
  ∃ r, exec i s = .next r ∧ BeatFrame m r s.focus.tile s.focus.slot l ∧
    (∀ k ∈ l, Settles g i (g.slice k) (m.slice s.focus.tile s.focus.slot k) (r.slice s.focus.tile s.focus.slot k)) ∧
    (r.tile s.focus.tile).allow = (m.tile s.focus.tile).allow - cost

/-- The slices of a gang act in turn on the state, each from its registers as they stood before the beat; none where one of them does
not complete. -/
def inTurn (f : State → Nat → Option State) : State → List Nat → Option State
  | s, [] => some s
  | s, k :: l =>
    match f s k with
    | some r => inTurn f r l
    | none => none

/-- The machine with the slices `l` of the gang in focus as `y` gives them. -/
def State.replaced (s : State) (l : List Nat) (y : Nat → Slice) : State :=
  l.foldl (fun r k => r.setSlice s.focus.tile s.focus.slot k (y k)) s

/-- Two states of which every reading of tiles, groups and slices, and everything else, agrees. -/
structure Alike (s r : State) : Prop where
  rest : r = { s with tiles := r.tiles }
  tile : ∀ t, r.tile t = { s.tile t with groups := (r.tile t).groups }
  group : ∀ t q, r.group? t q = s.group? t q

/-- Every slice of the gang takes a trap, in ascending index, with fault records of the beat numbered `beat` (0: none), in the machine `m`. -/
def TrapsIn (s m : State) (i : Instr) (l : List Nat) (tr : Nat → Trap) (beat : Nat) : Prop :=
  ∃ r, Alike m r ∧ exec i s = .next (l.foldl (fun r k => r.raise s.focus.tile s.focus.slot k (tr k) beat) r).fresh

/-- Every slice of the gang takes a trap, in ascending index, and nothing else happens. -/
def Trapped (s : State) (i : Instr) (l : List Nat) (tr : Nat → Trap) : Prop := TrapsIn s s i l tr 0

/-- The slices of a gang act in turn on the state, of which each may trap: the machine after all, and the traps; none where one of them
waits. -/
def inTurns (f : State → Nat → Option (State × Option Trap)) : State → List Nat → Option (State × List (Nat × Trap))
  | s, [] => some (s, [])
  | s, k :: l =>
    match f s k with
    | some (r, none) => inTurns f r l
    | some (r, some tr) => (inTurns f r l).map fun p => (p.1, (k, tr) :: p.2)
    | none => none

/-- The slices of the gang that `trs` names take their traps, in its order, and the others complete: `m` is the machine as the
instruction leaves it, from which they settle, and the tile has paid unless every slice traps. Without a trap this is `Made`. -/
def Parted (s : State) (i : Instr) (g : Group) (l : List Nat) (cost : Nat) (m : State) (trs : List (Nat × Trap)) : Prop :=
  let go := l.filter fun k => !trs.any fun q => q.1 = k
  ∃ r, exec i s = .next (trs.foldl (fun r q => r.raise s.focus.tile s.focus.slot q.1 q.2 0) r).fresh ∧
    if go = [] then Alike m r
    else
      BeatFrame m r.fresh s.focus.tile s.focus.slot go ∧
        (∀ k ∈ go, Settles g i (g.slice k) (m.slice s.focus.tile s.focus.slot k) (r.slice s.focus.tile s.focus.slot k)) ∧
        (r.tile s.focus.tile).allow = (m.tile s.focus.tile).allow - cost

/-- The machine once the slices `l` of the gang in focus have each carried out `y` for themselves, those that trap left as they were. -/
def State.enacted (s : State) (l : List Nat) (y : Nat → Except Trap Slice) : State :=
  l.foldl (fun r k =>
    match y k with
    | .ok x => r.setSlice s.focus.tile s.focus.slot k x
    | .error _ => r) s

/-- The traps among what the slices `l` come to. -/
def trapsOf (l : List Nat) (y : Nat → Except Trap Slice) : List (Nat × Trap) :=
  l.filterMap fun k =>
    match y k with
    | .ok _ => none
    | .error tr => some (k, tr)

/-- The slices of the gang each carry out `y` for themselves, after which the beat does `f`. -/
def Divided (s : State) (i : Instr) (g : Group) (l : List Nat) (cost : Nat) (f : State → State) (y : Nat → Except Trap Slice) : Prop :=
  Parted s i g l cost (f (s.enacted l y)) (trapsOf l y)

/-! ## Invariants -/

/-- The canonical form of memory, of the tags, and of every tile's scratchpad: addresses strictly rising, and nothing listed that an
unlisted address reads as. -/
def State.MemoryWf (s : State) : Prop :=
  Memory.wf s.mem = true ∧ Sparse.wf 0 s.tags = true ∧
    ∀ t, Sparse.wf 0 (s.tile t).scratch = true ∧ Sparse.wf 0 (s.tile t).scratchTags = true

end Sys2Proof.Machine
end

