-- ==== Sys2Proof/Certificates/Slice0/Obligations.lean ====
section
/-! DEFINITION. The statements for the provers, and the tables of values they speak of. -/

namespace Sys2Proof.Spec

open Sys2Proof.Machine

/-! ## What instructions write -/

/-- Sd of the scalar class and the value written, by the operands as read (06 R106-R112). -/
def scalarValue : Instr → Option (Hdr × SReg × (Ctx → Slice → DWord))
  | .sadd h d a y => some (h, d, fun c x => c.rdS x 0 a.toNat + c.sY x 1 y)
  | .ssub h d a y => some (h, d, fun c x => c.rdS x 0 a.toNat - c.sY x 1 y)
  | .saddi h d a imm => some (h, d, fun c x => c.rdS x 0 a.toNat + imm.signExtend 64)
  | .smul h d a y => some (h, d, fun c x => c.rdS x 0 a.toNat * c.sY x 1 y)
  | .smulh h d a y => some (h, d, fun c x => mulHigh (c.rdS x 0 a.toNat).toInt (c.sY x 1 y).toInt)
  | .smulhn h d a y => some (h, d, fun c x => mulHigh ((c.rdS x 0 a.toNat).toNat : Int) ((c.sY x 1 y).toNat : Int))
  | .sdiv h d a y => some (h, d, fun c x => sQuot (c.rdS x 0 a.toNat) (c.sY x 1 y))
  | .sdivn h d a y => some (h, d, fun c x => nQuot (c.rdS x 0 a.toNat) (c.sY x 1 y))
  | .srem h d a y => some (h, d, fun c x => sRem (c.rdS x 0 a.toNat) (c.sY x 1 y))
  | .sremn h d a y => some (h, d, fun c x => nRem (c.rdS x 0 a.toNat) (c.sY x 1 y))
  | .sand h d a y => some (h, d, fun c x => c.rdS x 0 a.toNat &&& c.sY x 1 y)
  | .sandn h d a y => some (h, d, fun c x => c.rdS x 0 a.toNat &&& ~~~(c.sY x 1 y))
  | .sor h d a y => some (h, d, fun c x => c.rdS x 0 a.toNat ||| c.sY x 1 y)
  | .sxor h d a y => some (h, d, fun c x => c.rdS x 0 a.toNat ^^^ c.sY x 1 y)
  | .sshl h d a y => some (h, d, fun c x => c.rdS x 0 a.toNat <<< ((c.sY x 1 y).toNat % 64))
  | .sshr h d a y => some (h, d, fun c x => c.rdS x 0 a.toNat >>> ((c.sY x 1 y).toNat % 64))
  | .ssra h d a y => some (h, d, fun c x => (c.rdS x 0 a.toNat).sshiftRight ((c.sY x 1 y).toNat % 64))
  | .srot h d a y => some (h, d, fun c x => (c.rdS x 0 a.toNat).rotateLeft ((c.sY x 1 y).toNat % 64))
  | .smin h d a y => some (h, d, fun c x =>
      if (c.rdS x 0 a.toNat).toInt ≤ (c.sY x 1 y).toInt then c.rdS x 0 a.toNat else c.sY x 1 y)
  | .smax h d a y => some (h, d, fun c x =>
      if (c.rdS x 0 a.toNat).toInt ≤ (c.sY x 1 y).toInt then c.sY x 1 y else c.rdS x 0 a.toNat)
  | .sminn h d a y => some (h, d, fun c x =>
      if (c.rdS x 0 a.toNat).toNat ≤ (c.sY x 1 y).toNat then c.rdS x 0 a.toNat else c.sY x 1 y)
  | .smaxn h d a y => some (h, d, fun c x =>
      if (c.rdS x 0 a.toNat).toNat ≤ (c.sY x 1 y).toNat then c.sY x 1 y else c.rdS x 0 a.toNat)
  | .sclz h d a => some (h, d, fun c x => BitVec.ofNat 64 (clzFrom (c.rdS x 0 a.toNat).toNat 64))
  | .sctz h d a => some (h, d, fun c x => BitVec.ofNat 64 (ctzFrom (c.rdS x 0 a.toNat).toNat 0 64))
  | .spop h d a => some (h, d, fun c x => BitVec.ofNat 64 (popFrom (c.rdS x 0 a.toNat).toNat 64))
  | .sbfe h d a pos len => some (h, d, fun c x =>
      BitVec.ofNat 64 ((c.rdS x 0 a.toNat).toNat / 2 ^ pos.toNat % 2 ^ len.toNat))
  | .sbfi h d a pos len => some (h, d, fun c x =>
      BitVec.ofNat 64 (putField (c.rdS x 1 d.toNat).toNat (c.rdS x 0 a.toNat).toNat pos.toNat len.toNat))
  | .ssetc h d a b cc => some (h, d, fun c x => if condHolds cc (c.rdS x 0 a.toNat) (c.rdS x 1 b.toNat) then 1 else 0)
  | .ssel h d a b k => some (h, d, fun c x => if c.rdS x 2 k.toNat ≠ 0 then c.rdS x 0 a.toNat else c.rdS x 1 b.toNat)
  | .smov h d a => some (h, d, fun c x => c.rdS x 0 a.toNat)
  | .sli h d imm => some (h, d, fun _ _ => imm.signExtend 64)
  | .sliw h d imm => some (h, d, fun _ _ => imm)
  | .movsr h d sel => some (h, d, fun c x => c.special x sel.toNat)
  | _ => none

/-- What a lane writes: from the context and the slice as read, the resolved type and the lane. -/
abbrev LaneWrites := Ctx → Slice → Ty → Nat → List RegWrite

/-- One source a, in the type. -/
def one (d a : VReg) (f : Ty → Val → Nat × Eb16) : LaneWrites := fun c x t l =>
  wTy t d.toNat l (f t (c.valV x t 0 a.toNat l)).1 (f t (c.valV x t 0 a.toNat l)).2

/-- Two sources a and b. -/
def two (d a : VReg) (b : VOpnd) (f : Ty → Val → Val → Nat × Eb16) : LaneWrites := fun c x t l =>
  wTy t d.toNat l (f t (c.valV x t 0 a.toNat l) (c.valO x t 2 b l)).1 (f t (c.valV x t 0 a.toNat l) (c.valO x t 2 b l)).2

/-- A shift of a by a count modulo the width, 0 bound when both are exact (07 R131). -/
def shift (d a : VReg) (y : ShOpnd) (f : Nat → Nat → Nat → Nat) : LaneWrites := fun c x t l =>
  wTy t d.toNat l (f (tyWidth t) (c.valV x t 0 a.toNat l).n (c.shiftCount x t y l).1)
    (exactOnly [(c.valV x t 0 a.toNat l).b, (c.shiftCount x t y l).2])

/-- The vector integer class (07 R129-R135) with the bounds of 04 R66. -/
def intWrites : Instr → Option (Hdr × LaneWrites)
  | .vadd h _ d a b => some (h, two d a b fun t p q =>
      intArith t (p.int t + q.int t) (bAdd (ebReal p.b) (ebReal q.b)) (p.b ≠ 0 || q.b ≠ 0))
  | .vsub h _ d a b => some (h, two d a b fun t p q =>
      intArith t (p.int t - q.int t) (bAdd (ebReal p.b) (ebReal q.b)) (p.b ≠ 0 || q.b ≠ 0))
  | .vmul h _ d a b => some (h, two d a b fun t p q => intArith t (p.int t * q.int t) (vMulBound t p q) (p.b ≠ 0 || q.b ≠ 0))
  | .vmulh h _ d a b => some (h, two d a b fun t p q =>
      (natOf (tyWidth t) (Int.fdiv (intOf true (tyWidth t) p.n * intOf true (tyWidth t) q.n) ((2 ^ tyWidth t : Nat) : Int)),
        exactOnly [p.b, q.b]))
  | .vmulhn h _ d a b => some (h, two d a b fun t p q =>
      (natOf (tyWidth t) (Int.fdiv (intOf false (tyWidth t) p.n * intOf false (tyWidth t) q.n) ((2 ^ tyWidth t : Nat) : Int)),
        exactOnly [p.b, q.b]))
  | .vmad h _ d a b c => some (h, fun e x t l => wTy t d.toNat l
      (vMad t (e.valV x t 0 a.toNat l) (e.valO x t 2 b l) (e.valO x t 4 c l)).1
      (vMad t (e.valV x t 0 a.toNat l) (e.valO x t 2 b l) (e.valO x t 4 c l)).2)
  | .vdiv h _ d a b => some (h, fun e x t l =>
      let p := e.valV x t 0 a.toNat l
      let q := e.valO x t 2 b l
      wTy t d.toNat l (vDivide true t p q).1 (exactOnly [p.b, q.b]) ++
        wTy t (d.toNat + t.regs) l (vDivide true t p q).2 (exactOnly [p.b, q.b]))
  | .vdivn h _ d a b => some (h, fun e x t l =>
      let p := e.valV x t 0 a.toNat l
      let q := e.valO x t 2 b l
      wTy t d.toNat l (vDivide false t p q).1 (exactOnly [p.b, q.b]) ++
        wTy t (d.toNat + t.regs) l (vDivide false t p q).2 (exactOnly [p.b, q.b]))
  | .vand h _ d a b => some (h, two d a b fun _ p q => (p.n &&& q.n, exactOnly [p.b, q.b]))
  | .vor h _ d a b => some (h, two d a b fun _ p q => (p.n ||| q.n, exactOnly [p.b, q.b]))
  | .vxor h _ d a b => some (h, two d a b fun _ p q => (p.n ^^^ q.n, exactOnly [p.b, q.b]))
  | .vnot h _ d a => some (h, one d a fun t p => (2 ^ tyWidth t - 1 - p.n, exactOnly [p.b]))
  | .vshl h _ d a y => some (h, shift d a y fun w n k => n * 2 ^ k % 2 ^ w)
  | .vshr h _ d a y => some (h, shift d a y fun _ n k => n / 2 ^ k)
  | .vsra h _ d a y => some (h, shift d a y fun w n k => natOf w (Int.fdiv (intOf true w n) ((2 ^ k : Nat) : Int)))
  | .vrot h _ d a y => some (h, shift d a y fun w n k => (n * 2 ^ k + n / 2 ^ (w - k)) % 2 ^ w)
  | .vmin h _ d a b => some (h, two d a b (vMinMax false true))
  | .vmax h _ d a b => some (h, two d a b (vMinMax true true))
  | .vminn h _ d a b => some (h, two d a b (vMinMax false false))
  | .vmaxn h _ d a b => some (h, two d a b (vMinMax true false))
  | .vabs h _ d a => some (h, one d a fun t p => intArith t ((p.int t).natAbs : Int) (ebReal p.b) (p.b ≠ 0))
  | .vneg h _ d a => some (h, one d a fun t p => intArith t (-(p.int t)) (ebReal p.b) (p.b ≠ 0))
  | .vclz h _ d a => some (h, one d a fun _ p => (clzFrom p.n 32, exactOnly [p.b]))
  | .vpop h _ d a => some (h, one d a fun _ p => (popFrom p.n 32, exactOnly [p.b]))
  | .vbfe h _ d a pos len => some (h, one d a fun t p =>
      (if t = .i32 then natOf 32 (intOf true len.toNat (p.n / 2 ^ pos.toNat % 2 ^ len.toNat)) else p.n / 2 ^ pos.toNat % 2 ^ len.toNat,
        exactOnly [p.b]))
  | .vbfi h _ d a pos len => some (h, two d a (.v d) fun _ p o => (putField o.n p.n pos.toNat len.toNat, exactOnly [p.b, o.b]))
  | .vbrev h _ d a => some (h, one d a fun _ p => (revFrom p.n 32 32, exactOnly [p.b]))
  | .vprmb h _ d a b c => some (h, fun e x t l =>
      let p := e.valV x t 0 a.toNat l
      let q := e.valO x t 2 b l
      let k := e.valO x t 4 c l
      wTy t d.toNat l (permBytes p.n q.n k.n) (exactOnly [p.b, q.b, k.b]))
  | .vsetp h _ p a b cc => some (h, fun e x t l => [wP p.toNat l (vCompare cc t (e.valV x t 0 a.toNat l) (e.valO x t 2 b l))])
  | .vsel h _ d a b p => some (h, fun e x t l =>
      let v := if e.rdP x 4 p.toNat l then e.valV x t 0 a.toNat l else e.valO x t 2 b l
      wTy t d.toNat l v.n v.b)
  | .vmov h _ d b => some (h, fun e x t l => wTy t d.toNat l (e.valO x t 2 b l).n (e.valO x t 2 b l).b)
  | .vli h d imm => some (h, fun _ _ _ l => [wV d.toNat l (imm.signExtend 32) 0])
  | .vlid h _ d imm => some (h, fun _ _ t l => wTy t d.toNat l imm.toNat 0)
  | .plop h d a b k => some (h, fun e x _ l =>
      [wP d.toNat l (k.getLsbD (2 * b2n (e.rdP x 0 a.toNat l) + b2n (e.rdP x 1 b.toNat l)))])
  | _ => none

/-- A value of f32 with its bound, written to one register. -/
def f32Write (d : VReg) (a : VReg) (f : Val → FRes) : LaneWrites := fun c x _ l =>
  [wV d.toNat l (BitVec.ofNat 32 (FF.f32.encode (f (c.val32 x 0 a.toNat l)).v)) (f (c.val32 x 0 a.toNat l)).b]

/-- The special functions, the fraction, the rounding to integral values, UNPK and the bound class (07 R141, R145, 08 R152, R156). -/
def laneWrites : Instr → Option (Hdr × LaneWrites)
  | .frcp h _ d a => some (h, f32Write d a fun v => spApply .rcp v.n v.b)
  | .frsq h _ d a => some (h, f32Write d a fun v => spApply .rsq v.n v.b)
  | .fexp2 h _ d a => some (h, f32Write d a fun v => spApply .exp2 v.n v.b)
  | .flog2 h _ d a => some (h, f32Write d a fun v => spApply .log2 v.n v.b)
  | .fsin h _ d a => some (h, f32Write d a fun v => spApply .sin v.n v.b)
  | .fcos h _ d a => some (h, f32Write d a fun v => spApply .cos v.n v.b)
  | .ftanh h _ d a => some (h, f32Write d a fun v => spApply .tanh v.n v.b)
  | .ffrc h _ d a => some (h, f32Write d a fun v => fFrc (FF.f32.decode v.n) (ebReal v.b))
  | .frnd h ty rnd d a => some (h, fun c x _ l =>
      let v := c.val32 x 0 a.toNat l
      let r := fRnd (x.rmode ty rnd 0) (FF.f32.decode v.n) (ebReal v.b)
      [wV d.toNat l (BitVec.ofNat 32 (FF.f32.encode r.v)) r.b])
  | .unpk h _ src d a => some (h, fun c x t l => (List.range src.packN).flatMap fun k =>
      let v := c.val32 x 0 a.toNat l
      let r := convTo t .rne (tyValue src (v.n / 2 ^ (tyWidth src * k) % 2 ^ tyWidth src)) (ebReal v.b)
      wTy t (d.toNat + k) l r.1 r.2)
  | .bget h _ d a => some (h, fun c x t l =>
      let b := (c.rdV x 0 a.toNat l).bnd
      if t = .f32 then (if ebIsU b then [wV d.toNat l 0x7F800000 ebU] else [wV d.toNat l (b.setWidth 32 <<< 16) 0])
      else [wV d.toNat l (b.setWidth 32) 0])
  | .bset h _ d a b => some (h, fun c x t l => [wV d.toNat l (c.rdV x 0 a.toNat l).val (bsetBound t (c.valO x .b32 2 b l))])
  | .bzero h _ d a => some (h, fun c x _ l => [wV d.toNat l (c.rdV x 0 a.toNat l).val 0])
  | .bmax h _ d a b => some (h, fun c x _ l =>
      [wV d.toNat l (c.rdV x 0 a.toNat l).val (ebMax (c.rdV x 0 a.toNat l).bnd (c.rdV x 1 b.toNat l).bnd)])
  | .btest h _ p a b => some (h, fun c x t l =>
      let v := c.valV x t 0 a.toNat l
      let bud : BitVec 17 := match b with
        | some r => (c.rdS x 2 r.toNat).setWidth 17
        | none => x.ebud
      [wP p.toNat l (!exceeds bud v.b (chkMag t v.n))])
  | _ => none

/-- The elements that a lane's floating-point operation delivers in a class (07 R137-R142). -/
abbrev LaneFloats := UClass → Ctx → Slice → Ty → Nat → List FRes

/-- Two operands, element by element, rounded as the instruction says. -/
def flt2 (ty : TyF) (rnd : Rnd) (a : VReg) (b : VOpnd) (f : FF → UClass → RMode → FOp → FOp → FRes) : LaneFloats :=
  fun u c x t l => List.zipWith (f (fmtOf t) u (x.rmode ty rnd 0)) (opElems t u (c.valV x t 0 a.toNat l)) (opElems t u (c.valO x t 2 b l))

/-- A fused multiply-add, rounded to nearest even or as FMT says. -/
def flt3 (ty : TyF) (a : VReg) (b k : VOpnd) : LaneFloats := fun u c x t l =>
  List.zipWith (fun p q => fFma (fmtOf t) u (x.rmode ty .dflt 0) p q.1 q.2) (opElems t u (c.valV x t 0 a.toNat l))
    (List.zip (opElems t u (c.valO x t 2 b l)) (opElems t u (c.valO x t 4 k l)))

/-- The floating-point instructions that run in a unit class: destination, class field and elements. -/
def floatElems : Instr → Option (Hdr × VReg × UC × LaneFloats)
  | .fadd h ty uc rnd d a b | .hadd2 h ty uc rnd d a b | .dadd h ty uc rnd d a b => some (h, d, uc, flt2 ty rnd a b fAdd)
  | .fsub h ty uc rnd d a b => some (h, d, uc, flt2 ty rnd a b fSub)
  | .fmul h ty uc rnd d a b | .hmul2 h ty uc rnd d a b | .dmul h ty uc rnd d a b => some (h, d, uc, flt2 ty rnd a b fMul)
  | .fdiv h ty uc rnd d a b | .ddiv h ty uc rnd d a b => some (h, d, uc, flt2 ty rnd a b fDiv)
  | .fmin h ty uc d a b => some (h, d, uc, flt2 ty .dflt a b fun _ _ _ => fMinMax false)
  | .fmax h ty uc d a b => some (h, d, uc, flt2 ty .dflt a b fun _ _ _ => fMinMax true)
  | .ffma h ty uc d a b k | .hfma2 h ty uc d a b k | .dfma h ty uc d a b k => some (h, d, uc, flt3 ty a b k)
  | .fsqrt h ty uc rnd d a => some (h, d, uc, fun u c x t l =>
      (opElems t u (c.valV x t 0 a.toNat l)).map fun p => fSqrt (fmtOf t) u (x.rmode ty rnd 0) p)
  | _ => none

/-- What a lane of a conversion writes; `m` gives the rounding mode of each of its draws (03 R58, 07 R143-R148). -/
abbrev LaneConv := Ctx → Slice → Ty → Nat → (Nat → RMode) → List RegWrite

/-- The elements of a quantised block, their payload bytes and their bounds. -/
def quantised (t : Ty) (m : Nat → RMode) (xs : List (FVal × Eb16)) : List (Word × Eb16) :=
  let vals := xs.map Prod.fst
  let e := blockExp t vals
  let bytes := blockBytes t (fun k => m (2 * k)) e vals
  payloadRegs bytes ((xs.zip (blockVals t (e + 127).toNat bytes)).map fun p => quantBound p.1.1 p.2 p.1.2)

/-- The conversions, with the type and the rounding field. -/
def convWrites : Instr → Option (Hdr × TyF × Rnd × LaneConv)
  | .cvt h ty src rnd d a b => some (h, ty, rnd, cvtLane src d a b)
  | .cvti h ty src rnd d a b => some (h, ty, rnd, fun c x t l m =>
      let v := c.valV x src 0 a.toNat l
      let y := c.valO x .b32 2 b l
      let k := intOf true 8 y.n
      let r := convTo t (m 0) ((tyValue src v.n).scale k) (bScale (pow2 k) (ebReal v.b))
      wTy t d.toNat l r.1 (if y.b = 0 then r.2 else ebU))
  | .pack h ty src rnd d a => some (h, ty, rnd, fun c x t l m =>
      let rs := (List.range t.packN).map fun k =>
        let v := c.val32 x 0 (a.toNat + k) l
        convTo t (m (16 * k)) (tyValue src v.n) (ebReal v.b)
      [wV d.toNat l (packElems (tyWidth t) (rs.map Prod.fst)) (ebMaxL (rs.map Prod.snd))])
  | .qnt h ty src rc d a vs => some (h, ty, rc, fun c x t l m =>
      (quantised t m (blockSource c x src a.toNat l)).zipIdx.map (fun p => wV (d.toNat + p.2) l p.1.1 p.1.2) ++
        [wV vs.toNat l (BitVec.ofNat 32 (blockExp t ((blockSource c x src a.toNat l).map Prod.fst) + 127).toNat) 0])
  | .dqnt h ty src rnd d a vs => some (h, ty, rnd, fun c x t l m =>
      let sc := c.val32 x 3 vs.toNat l
      let rs := (List.range 4).flatMap fun r =>
        let v := c.val32 x 0 (a.toNat + r) l
        (blockVals src (sc.n % 256) ((List.range 4).map fun k => v.n / 2 ^ (8 * k) % 2 ^ 8)).map fun y =>
          let q := convTo t (m 0) y (ebReal v.b)
          (q.1, if sc.b = 0 then q.2 else ebU)
      if t = .f32 then rs.zipIdx.map fun p => wV (d.toNat + p.2) l (BitVec.ofNat 32 p.1.1) p.1.2
      else (List.range 16).map fun j =>
        let p := rs.getD (2 * j) (0, 0)
        let q := rs.getD (2 * j + 1) (0, 0)
        wV (d.toNat + j) l (packElems 16 [p.1, q.1]) (ebMax p.2 q.2))
  | _ => none

/-- A slice after an instruction that changes nothing but its slice; none where it traps or waits to be executed again. -/
def sliceAfter (i : Instr) (u : UClass) (c : Ctx) (x : Slice) : Option Slice :=
  match i with
  | .movrs h sel a =>
    let v := c.rdS x 0 a.toNat
    if !c.performs x h then some (x.adv i)
    else if sel = 0x01 then
      (if x.lmask &&& v.setWidth 4 = 0 then none else some ({ x with lmask := x.lmask &&& v.setWidth 4 }.adv i))
    else if sel = 0x0A then (if bits v 7 4 = 15 then none else some ({ x with fmt := v.setWidth 8 &&& 0xFC }.adv i))
    else if sel = 0x0B then some ({ x with ebud := v.setWidth 17 }.adv i)
    else if sel = 0x0C then some ({ x with hx := v.setWidth 8 }.adv i)
    else none
  | .bra h t => some { x with pc := if c.performs x h then x.pc + BitVec.ofInt 64 (8 * t.toInt) else x.pc + 8 }
  | .brs h t cc a =>
    some { x with pc :=
      if c.performs x h && condHolds cc (c.rdS x 0 a.toNat) 0 then x.pc + BitVec.ofInt 64 (8 * t.toInt) else x.pc + 8 }
  | .brv h t j =>
    let taken := mask4 (c.guarded x h)
    let tgt := x.pc + BitVec.ofInt 64 (8 * t.toInt)
    if taken = 0 then some { x with pc := x.pc + 8 }
    else if x.lmask &&& ~~~taken = 0 then some { x with pc := tgt }
    else
      some { x with
        div := { calli := false, join := x.pc + BitVec.ofInt 64 (8 * j.toInt), saved := x.lmask, pend := taken, resume := tgt,
                 fmt := x.fmt } :: x.div,
        lmask := x.lmask &&& ~~~taken, pc := x.pc + 8 }
  | .join _ =>
    match x.div with
    | [] => none
    | e :: rest =>
      if e.calli then none
      else if e.pend ≠ 0 then some { x with fmt := e.fmt, lmask := e.pend, pc := e.resume, div := { e with pend := 0 } :: rest }
      else some { x with fmt := e.fmt, lmask := e.saved, pc := e.join, div := rest }
  | .yield h =>
    let n := (c.st.tile c.t).cycle
    some (if c.performs x h then { x.adv i with wait := .pause (n + 9), stamp := n } else x.adv i)
  | .waitt h a =>
    let v := c.rdS x 0 a.toNat
    some (if c.performs x h && decide (c.st.time.toNat < v.toNat) then { x.adv i with wait := .waitt v, parkPc := x.pc } else x.adv i)
  | .nop _ => some (x.adv i)
  | .trap h _ | .sysc h _ => if c.performs x h then none else some (x.adv i)
  | .setfmt h ty rm => some (if c.performs x h then { x.adv i with fmt := BitVec.ofNat 8 (16 * ty.code + 4 * rm.toNat) } else x.adv i)
  | .setbud h src =>
    let e : BitVec 17 := match src with
      | .imm mode bud => (if mode then 0x10000 else 0) ||| bud.setWidth 17
      | .s a => (c.rdS x 0 a.toNat).setWidth 17
    some (if c.performs x h then { x.adv i with ebud := e } else x.adv i)
  | .fsetp h _ _ p a b cc =>
    some ((x.post ((c.guarded x h).map fun l =>
      let va := c.val32 x 0 a.toNat l
      let vb := c.valO x .f32 2 b l
      wP p.toNat l (fcondHolds cc (takeOp .f32 u (FF.f32.decode va.n) va.b).v (takeOp .f32 u (FF.f32.decode vb.n) vb.b).v))).adv i)
  | .chkb h ty a n =>
    let t := x.ty ty
    if (c.guarded x h).any fun l => (chkRegs t a n).any fun r => exceeds x.ebud (c.valV x t 0 r l).b (chkMag t (c.valV x t 0 r l).n) then none
    else some (x.adv i)
  | .vtos h ty d a sel =>
    match c.guarded x h with
    | [] => some (x.adv i)
    | low :: _ =>
      let t := x.ty ty
      let l := match sel with
        | some j => j.toNat
        | none => low
      let v := c.valV x t 0 a.toNat l
      if exceeds x.ebud v.b (tyMag t v.n) then none
      else
        let w : DWord := if t = .i32 then BitVec.ofInt 64 (intOf true 32 v.n) else BitVec.ofNat 64 v.n
        some ((x.post [wS d.toNat w]).adv i)
  | .barw _ k a =>
    let gen := (c.st.bar c.t c.g.team k.toNat).gen
    let tok := (c.rdS x 0 a.toNat).setWidth 32
    if (c.st.barTrap c.t c.g k.toNat false).isSome then none
    else if tokenDone gen tok then some (x.adv i)
    else if tok = gen || tok = gen + 1 then some { x.adv i with wait := .barrier k.toNat tok, parkPc := x.pc }
    else none
  | .barq h d k =>
    if !c.performs x h then some (x.adv i)
    else if (c.st.barTrap c.t c.g k.toNat false).isSome then none
    else some ((x.post [wS d.toNat (barWord (c.st.bar c.t c.g.team k.toNat) (c.g.barBits k.toNat))]).adv i)
  | .gearw h d =>
    if !c.performs x h then some (x.adv i)
    else if c.st.gearReady c.t c.g then some ((x.post [wS d.toNat (BitVec.ofNat 64 (b2n (c.st.tile c.t).fast))]).adv i)
    else none
  | .call h t =>
    if !c.performs x h then some (x.adv i)
    else if x.ret.length < 8 then
      some { x with ret := { addr := x.pc + 8, flag := false } :: x.ret, pc := x.pc + BitVec.ofInt 64 (8 * t.toInt) }
    else none
  | .ret h =>
    if !c.performs x h then some (x.adv i)
    else
      match x.ret with
      | [] => none
      | e :: rest =>
        if !e.flag then some { x with ret := rest, pc := e.addr }
        else
          match x.div with
          | [] => none
          | d :: _ => if d.calli then some { x with ret := rest, lmask := d.pend, fmt := d.fmt, pc := d.resume, cont := true } else none
  | .calli h a =>
    let ls := c.guarded x h
    let tgt (l : Nat) : Nat := (c.valV x .n64 0 a.toNat l).n
    let m := mask4 (ls.filter fun l => tgt l = tgt (ls.headD 0))
    let dest := BitVec.ofNat 64 (tgt (ls.headD 0))
    let push (flag : Bool) : Slice := { x with ret := { addr := x.pc + 8, flag := flag } :: x.ret }
    if ls.any fun l => tgt l % 8 ≠ 0 then none
    else if x.cont then
      match x.div with
      | [] => none
      | e :: up =>
        if ls.isEmpty then some { x with cont := false, lmask := e.saved, fmt := e.fmt, div := up, pc := x.pc + 8 }
        else if 8 ≤ x.ret.length then none
        else some { push true with cont := false, div := { e with pend := x.lmask &&& ~~~m } :: up, lmask := m, pc := dest }
    else if ls.isEmpty then some (x.adv i)
    else if 8 ≤ x.ret.length then none
    else if m = x.lmask then some { push false with pc := dest }
    else
      some { push true with
        div := { calli := true, join := x.pc + 8, saved := x.lmask, pend := x.lmask &&& ~~~m, resume := x.pc, fmt := x.fmt } :: x.div,
        lmask := m, pc := dest }
  | _ => none

/-- An instruction whose effect is a trap. -/
def isTrap : Instr → Bool
  | .trap .. | .sysc .. | .undefinedOpcode .. => true
  | _ => false

/-- The trap that it raises in a slice (06 R126, 18 R343, 05 R98). -/
def raises (i : Instr) (c : Ctx) (x : Slice) : Option Trap :=
  match i with
  | .trap h imm => if c.performs x h then some { mkTrap 0x0B imm.toNat with rpc := some (x.pc + 8) } else none
  | .sysc h imm => if c.performs x h then some { mkTrap 0x0C imm.toNat with rpc := some (x.pc + 8) } else none
  | .undefinedOpcode w0 w1 => some { mkTrap 0x02 0 with aux0 := w0, aux1 := if wBit w0 then w1 else 0 }
  | _ => none

/-- An instruction of a program with the hint n in place of its own (05 R93). -/
def withHint (n : BitVec 4) : Instr → Instr
  | .sadd h d a y => .sadd { h with hn := n } d a y
  | .ssub h d a y => .ssub { h with hn := n } d a y
  | .saddi h d a imm => .saddi { h with hn := n } d a imm
  | .smul h d a y => .smul { h with hn := n } d a y
  | .smulh h d a y => .smulh { h with hn := n } d a y
  | .smulhn h d a y => .smulhn { h with hn := n } d a y
  | .sdiv h d a y => .sdiv { h with hn := n } d a y
  | .sdivn h d a y => .sdivn { h with hn := n } d a y
  | .srem h d a y => .srem { h with hn := n } d a y
  | .sremn h d a y => .sremn { h with hn := n } d a y
  | .sand h d a y => .sand { h with hn := n } d a y
  | .sandn h d a y => .sandn { h with hn := n } d a y
  | .sor h d a y => .sor { h with hn := n } d a y
  | .sxor h d a y => .sxor { h with hn := n } d a y
  | .sshl h d a y => .sshl { h with hn := n } d a y
  | .sshr h d a y => .sshr { h with hn := n } d a y
  | .ssra h d a y => .ssra { h with hn := n } d a y
  | .srot h d a y => .srot { h with hn := n } d a y
  | .smin h d a y => .smin { h with hn := n } d a y
  | .smax h d a y => .smax { h with hn := n } d a y
  | .sminn h d a y => .sminn { h with hn := n } d a y
  | .smaxn h d a y => .smaxn { h with hn := n } d a y
  | .sclz h d a => .sclz { h with hn := n } d a
  | .sctz h d a => .sctz { h with hn := n } d a
  | .spop h d a => .spop { h with hn := n } d a
  | .sbfe h d a pos len => .sbfe { h with hn := n } d a pos len
  | .sbfi h d a pos len => .sbfi { h with hn := n } d a pos len
  | .ssetc h d a b cc => .ssetc { h with hn := n } d a b cc
  | .ssel h d a b c => .ssel { h with hn := n } d a b c
  | .smov h d a => .smov { h with hn := n } d a
  | .sli h d imm => .sli { h with hn := n } d imm
  | .sliw h d imm => .sliw { h with hn := n } d imm
  | .movsr h d sel => .movsr { h with hn := n } d sel
  | .movrs h sel a => .movrs { h with hn := n } sel a
  | .bra h t => .bra { h with hn := n } t
  | .brs h t cc a => .brs { h with hn := n } t cc a
  | .brv h t j => .brv { h with hn := n } t j
  | .join h => .join { h with hn := n }
  | .call h t => .call { h with hn := n } t
  | .calli h a => .calli { h with hn := n } a
  | .ret h => .ret { h with hn := n }
  | .regang h => .regang { h with hn := n }
  | .setw h lo hi e => .setw { h with hn := n } lo hi e
  | .exit h => .exit { h with hn := n }
  | .yield h => .yield { h with hn := n }
  | .waitt h a => .waitt { h with hn := n } a
  | .nop h => .nop { h with hn := n }
  | .trap h imm => .trap { h with hn := n } imm
  | .vadd h ty d a b => .vadd { h with hn := n } ty d a b
  | .vsub h ty d a b => .vsub { h with hn := n } ty d a b
  | .vmul h ty d a b => .vmul { h with hn := n } ty d a b
  | .vmulh h ty d a b => .vmulh { h with hn := n } ty d a b
  | .vmulhn h ty d a b => .vmulhn { h with hn := n } ty d a b
  | .vmad h ty d a b c => .vmad { h with hn := n } ty d a b c
  | .vdiv h ty d a b => .vdiv { h with hn := n } ty d a b
  | .vdivn h ty d a b => .vdivn { h with hn := n } ty d a b
  | .vand h ty d a b => .vand { h with hn := n } ty d a b
  | .vor h ty d a b => .vor { h with hn := n } ty d a b
  | .vxor h ty d a b => .vxor { h with hn := n } ty d a b
  | .vnot h ty d a => .vnot { h with hn := n } ty d a
  | .vshl h ty d a y => .vshl { h with hn := n } ty d a y
  | .vshr h ty d a y => .vshr { h with hn := n } ty d a y
  | .vsra h ty d a y => .vsra { h with hn := n } ty d a y
  | .vrot h ty d a y => .vrot { h with hn := n } ty d a y
  | .vmin h ty d a b => .vmin { h with hn := n } ty d a b
  | .vmax h ty d a b => .vmax { h with hn := n } ty d a b
  | .vminn h ty d a b => .vminn { h with hn := n } ty d a b
  | .vmaxn h ty d a b => .vmaxn { h with hn := n } ty d a b
  | .vabs h ty d a => .vabs { h with hn := n } ty d a
  | .vneg h ty d a => .vneg { h with hn := n } ty d a
  | .vclz h ty d a => .vclz { h with hn := n } ty d a
  | .vpop h ty d a => .vpop { h with hn := n } ty d a
  | .vbfe h ty d a pos len => .vbfe { h with hn := n } ty d a pos len
  | .vbfi h ty d a pos len => .vbfi { h with hn := n } ty d a pos len
  | .vbrev h ty d a => .vbrev { h with hn := n } ty d a
  | .vprmb h ty d a b c => .vprmb { h with hn := n } ty d a b c
  | .vsetp h ty p a b cc => .vsetp { h with hn := n } ty p a b cc
  | .vsel h ty d a b p => .vsel { h with hn := n } ty d a b p
  | .vmov h ty d src => .vmov { h with hn := n } ty d src
  | .vli h d imm => .vli { h with hn := n } d imm
  | .vlid h ty d imm => .vlid { h with hn := n } ty d imm
  | .plop h d a b t => .plop { h with hn := n } d a b t
  | .vtos h ty d a sel => .vtos { h with hn := n } ty d a sel
  | .fadd h ty uc rnd d a b => .fadd { h with hn := n } ty uc rnd d a b
  | .fsub h ty uc rnd d a b => .fsub { h with hn := n } ty uc rnd d a b
  | .fmul h ty uc rnd d a b => .fmul { h with hn := n } ty uc rnd d a b
  | .ffma h ty uc d a b c => .ffma { h with hn := n } ty uc d a b c
  | .fmin h ty uc d a b => .fmin { h with hn := n } ty uc d a b
  | .fmax h ty uc d a b => .fmax { h with hn := n } ty uc d a b
  | .fsetp h ty uc p a b cc => .fsetp { h with hn := n } ty uc p a b cc
  | .frcp h ty d a => .frcp { h with hn := n } ty d a
  | .frsq h ty d a => .frsq { h with hn := n } ty d a
  | .fsqrt h ty uc rnd d a => .fsqrt { h with hn := n } ty uc rnd d a
  | .fdiv h ty uc rnd d a b => .fdiv { h with hn := n } ty uc rnd d a b
  | .fexp2 h ty d a => .fexp2 { h with hn := n } ty d a
  | .flog2 h ty d a => .flog2 { h with hn := n } ty d a
  | .fsin h ty d a => .fsin { h with hn := n } ty d a
  | .fcos h ty d a => .fcos { h with hn := n } ty d a
  | .ftanh h ty d a => .ftanh { h with hn := n } ty d a
  | .ffrc h ty d a => .ffrc { h with hn := n } ty d a
  | .frnd h ty rnd d a => .frnd { h with hn := n } ty rnd d a
  | .hadd2 h ty uc rnd d a b => .hadd2 { h with hn := n } ty uc rnd d a b
  | .hmul2 h ty uc rnd d a b => .hmul2 { h with hn := n } ty uc rnd d a b
  | .hfma2 h ty uc d a b c => .hfma2 { h with hn := n } ty uc d a b c
  | .dadd h ty uc rnd d a b => .dadd { h with hn := n } ty uc rnd d a b
  | .dmul h ty uc rnd d a b => .dmul { h with hn := n } ty uc rnd d a b
  | .dfma h ty uc d a b c => .dfma { h with hn := n } ty uc d a b c
  | .ddiv h ty uc rnd d a b => .ddiv { h with hn := n } ty uc rnd d a b
  | .cvt h ty src rnd d a b => .cvt { h with hn := n } ty src rnd d a b
  | .cvti h ty src rnd d a b => .cvti { h with hn := n } ty src rnd d a b
  | .pack h ty src rnd d a => .pack { h with hn := n } ty src rnd d a
  | .unpk h ty src d a => .unpk { h with hn := n } ty src d a
  | .qnt h ty src rc d a vs => .qnt { h with hn := n } ty src rc d a vs
  | .dqnt h ty src rnd d a vs => .dqnt { h with hn := n } ty src rnd d a vs
  | .srseed h a => .srseed { h with hn := n } a
  | .setfmt h ty rm => .setfmt { h with hn := n } ty rm
  | .bget h ty d a => .bget { h with hn := n } ty d a
  | .bset h ty d a b => .bset { h with hn := n } ty d a b
  | .bzero h ty d a => .bzero { h with hn := n } ty d a
  | .bmax h ty d a b => .bmax { h with hn := n } ty d a b
  | .chkb h ty a m => .chkb { h with hn := n } ty a m
  | .btest h ty p a b => .btest { h with hn := n } ty p a b
  | .setbud h src => .setbud { h with hn := n } src
  | .shfl h ty d a k pv => .shfl { h with hn := n } ty d a k pv
  | .shflu h ty d a k pv => .shflu { h with hn := n } ty d a k pv
  | .shfld h ty d a k pv => .shfld { h with hn := n } ty d a k pv
  | .shflx h ty d a k pv => .shflx { h with hn := n } ty d a k pv
  | .bcast h ty d a k pv => .bcast { h with hn := n } ty d a k pv
  | .red h ty uc op d a pc pd => .red { h with hn := n } ty uc op d a pc pd
  | .scan h ty uc op ex d a pc pd => .scan { h with hn := n } ty uc op ex d a pc pd
  | .vote h mode d pa pc => .vote { h with hn := n } mode d pa pc
  | .matchv h ty d a pc pd => .matchv { h with hn := n } ty d a pc pd
  | .first h d pc pd => .first { h with hn := n } d pc pd
  | .ld h sz base d off sc od inv nr => .ld { h with hn := n } sz base d off sc od inv nr
  | .st h sz base b off sc od nochk => .st { h with hn := n } sz base b off sc od nochk
  | .lds h sz base d off sc od => .lds { h with hn := n } sz base d off sc od
  | .sts h sz base b off sc od nochk => .sts { h with hn := n } sz base b off sc od nochk
  | .sld h sz a d off sc od => .sld { h with hn := n } sz a d off sc od
  | .sst h sz a b off sc od => .sst { h with hn := n } sz a b off sc od
  | .atom h sz base d b op ty sc od nochk => .atom { h with hn := n } sz base d b op ty sc od nochk
  | .atoms h sz base d b op ty sc od nochk => .atoms { h with hn := n } sz base d b op ty sc od nochk
  | .cas h sz base d b off sc od nochk => .cas { h with hn := n } sz base d b off sc od nochk
  | .cass h sz base d b off sc od nochk => .cass { h with hn := n } sz base d b off sc od nochk
  | .ldf h sz base d off sc od pa => .ldf { h with hn := n } sz base d off sc od pa
  | .stf h sz base b off sc od => .stf { h with hn := n } sz base b off sc od
  | .clrf h base off sc od => .clrf { h with hn := n } base off sc od
  | .fence h kinds sc od => .fence { h with hn := n } kinds sc od
  | .pref h base l2 off sc => .pref { h with hn := n } base l2 off sc
  | .pgreq h base w off sc => .pgreq { h with hn := n } base w off sc
  | .cctlCln1 h base off sc => .cctlCln1 { h with hn := n } base off sc
  | .cctlInv1 h base off sc => .cctlInv1 { h with hn := n } base off sc
  | .cctlClnm h base off sc => .cctlClnm { h with hn := n } base off sc
  | .cctlFlsm h base off sc => .cctlFlsm { h with hn := n } base off sc
  | .cctlInvi h base off sc => .cctlInvi { h with hn := n } base off sc
  | .bufdef h k base sz nm1 => .bufdef { h with hn := n } k base sz nm1
  | .cpyin h c => .cpyin { h with hn := n } c
  | .cpyout h c => .cpyout { h with hn := n } c
  | .cpynb h c => .cpynb { h with hn := n } c
  | .cpyg h c => .cpyg { h with hn := n } c
  | .waitb h d k => .waitb { h with hn := n } d k
  | .acqb h f d k => .acqb { h with hn := n } f d k
  | .relb h k => .relb { h with hn := n } k
  | .mma h ta tb uc k a src vs za ru rl => .mma { h with hn := n } ta tb uc k a src vs za ru rl
  | .mzero h k => .mzero { h with hn := n } k
  | .mld h ty d k c0 nm1 => .mld { h with hn := n } ty d k c0 nm1
  | .mst h td ts rnd k a b scr sp nc => .mst { h with hn := n } td ts rnd k a b scr sp nc
  | .mscl h ty k a cm => .mscl { h with hn := n } ty k a cm
  | .attach h role a b => .attach { h with hn := n } role a b
  | .detach h cond => .detach { h with hn := n } cond
  | .bara h d k => .bara { h with hn := n } d k
  | .barw h k a => .barw { h with hn := n } k a
  | .bars h k => .bars { h with hn := n } k
  | .barq h d k => .barq { h with hn := n } d k
  | .gear h fast => .gear { h with hn := n } fast
  | .gearw h d => .gearw { h with hn := n } d
  | .nopre h => .nopre { h with hn := n }
  | .pre h => .pre { h with hn := n }
  | .spawn h pd a => .spawn { h with hn := n } pd a
  | .slput h d a b => .slput { h with hn := n } d a b
  | .slrel h a b => .slrel { h with hn := n } a b
  | .slveto h a b => .slveto { h with hn := n } a b
  | .sysc h imm => .sysc { h with hn := n } imm
  | .rft h => .rft { h with hn := n }
  | .stctx h item a off => .stctx { h with hn := n } item a off
  | .ldctx h item a off => .ldctx { h with hn := n } item a off
  | .csrr h d num => .csrr { h with hn := n } d num
  | .csrw h num a => .csrw { h with hn := n } num a
  | .tlbinvAll h => .tlbinvAll { h with hn := n }
  | .tlbinvAsid h b => .tlbinvAsid { h with hn := n } b
  | .tlbinvPg h a b => .tlbinvPg { h with hn := n } a b
  | .haltKill h => .haltKill { h with hn := n }
  | .haltSave h a => .haltSave { h with hn := n } a
  | .haltSaveRls h a => .haltSaveRls { h with hn := n } a
  | .emret h => .emret { h with hn := n }
  | .emretDcl h => .emretDcl { h with hn := n }
  | i => i

/-- The header of a privileged instruction (18 R336). -/
def privHdr : Instr → Option Hdr
  | .rft h | .emret h | .emretDcl h | .stctx h .. | .ldctx h .. | .csrr h .. | .csrw h .. | .tlbinvAll h | .tlbinvAsid h _
  | .tlbinvPg h .. | .haltKill h | .haltSave h _ | .haltSaveRls h _ => some h
  | _ => none

/-- The trap that an instruction's operands or its slice's stacks raise, in a slice in which it is performed (06 R112, R116-R120, 07 R136,
08 R155, 10 R194-R197, 18 R344, R347, R348). A return from a trap apart, and a slice that has arrived at the barrier already. -/
def sliceTrap (i : Instr) (c : Ctx) (x : Slice) : Option Trap :=
  let push : Option Trap :=
    let a := c.rdS x 3 29
    if x.ret.length < 8 then none
    else if 1 ≤ x.td || 2 ^ 32 - 1 ≤ x.spill then some (illegal 3)
    else if a.toNat % 8 ≠ 0 then some (misalign [4 * c.i + x.active.headD 0] (addrOf true (a.toNat : Int)))
    else none
  let low (h : Hdr) : Nat := 4 * c.i + (c.guarded x h).headD 0
  let item (h : Hdr) (n : BitVec 8) (a : SReg) (off : BitVec 10) : Option Trap :=
    if !c.performs x h || !x.pm then none
    else if !ctxThere x c.g.allot n then some (illegal 3)
    else if ctxAddr c x a off % 64 ≠ 0 then some (misalign [low h] (ctxAddr c x a off))
    else none
  let save (h : Hdr) (a : SReg) : Option Trap :=
    let v := (c.rdS x 0 a.toNat).toNat
    if !c.performs x h || !x.pm then none
    else if !(x.td = 1 && x.top.vec = 0x0D) then some (illegal 3)
    else if v % 64 ≠ 0 then some (misalign [4 * c.i + x.active.headD 0] v)
    else none
  let arrive (k : Nat) : Option Trap :=
    let m := c.g.barBits k
    if x.arrv.getLsbD k then none
    else if (c.st.barTrap c.t c.g k true).isSome then c.st.barTrap c.t c.g k true
    else if !m.getLsbD 0 && !m.getLsbD 1 then some (illegal 3)
    else none
  match i with
  | .movrs h sel a =>
    let v := c.rdS x 0 a.toNat
    if !c.performs x h then none
    else if sel = 0x01 then (if x.lmask &&& v.setWidth 4 = 0 then some (illegal 3) else none)
    else if sel = 0x0A then (if bits v 7 4 = 15 then some (illegal 0) else none)
    else if sel = 0x0B || sel = 0x0C then none
    else some (illegal 0)
  | .join _ =>
    match x.div with
    | [] => some (illegal 3)
    | e :: _ => if e.calli then some (illegal 3) else none
  | .call h _ => if c.performs x h then push else none
  | .ret h =>
    if !c.performs x h then none
    else
      match x.ret with
      | [] =>
        let a := c.rdS x 3 29 - 8
        if x.spill = 0 then some (illegal 3)
        else if a.toNat % 8 ≠ 0 then some (misalign [4 * c.i + x.active.headD 0] (addrOf true (a.toNat : Int)))
        else none
      | e :: _ =>
        match x.div with
        | d :: _ => if e.flag && !d.calli then some (illegal 3) else none
        | [] => if e.flag then some (illegal 3) else none
  | .calli h a =>
    let ls := c.guarded x h
    let tgt (l : Nat) : Nat := (c.valV x .n64 0 a.toNat l).n
    let bad := ls.filter fun l => tgt l % 8 ≠ 0
    if !bad.isEmpty then some (misalign (bad.map fun l => 4 * c.i + l) ((bad.tail.map tgt).foldl min (tgt (bad.headD 0))))
    else if x.cont && x.div.isEmpty then some (illegal 3)
    else if ls.isEmpty then none
    else push
  | .chkb h ty a n =>
    let t := x.ty ty
    let bad := (c.guarded x h).flatMap fun l => (chkRegs t a n).filterMap fun r =>
      let v := c.valV x t 0 r l
      if exceeds x.ebud v.b (chkMag t v.n) then some (4 * c.i + l, v.b) else none
    if bad.isEmpty then none else some (breach (bad.map Prod.fst) (ebMaxL (bad.map Prod.snd)))
  | .vtos h ty _ a sel =>
    match c.guarded x h with
    | [] => none
    | first :: _ =>
      let l := match sel with
        | some j => j.toNat
        | none => first
      let v := c.valV x (x.ty ty) 0 a.toNat l
      if exceeds x.ebud v.b (tyMag (x.ty ty) v.n) then some (breach [4 * c.i + l] v.b) else none
  | .bara _ _ k | .bars _ k => arrive k.toNat
  | .barw _ k a =>
    let gen := (c.st.bar c.t c.g.team k.toNat).gen
    let tok := (c.rdS x 0 a.toNat).setWidth 32
    if (c.st.barTrap c.t c.g k.toNat false).isSome then c.st.barTrap c.t c.g k.toNat false
    else if tokenDone gen tok || tok = gen || tok = gen + 1 then none
    else some (illegal 3)
  | .barq h _ k => if c.performs x h then c.st.barTrap c.t c.g k.toNat false else none
  | .csrr h _ num | .csrw h num _ => if c.performs x h && x.pm && (c.st.csrRead x.td num.toNat).isNone then some (illegal 0) else none
  | .stctx h n a off | .ldctx h n a off => item h n a off
  | .haltSave h a | .haltSaveRls h a => save h a
  | _ => none

/-- The handle that a buffer instruction or a copy names, of an attached group and owned by its team (13 R270). -/
def ownedHandle (r : State) (c : Ctx) (k : Nat) : Option Handle :=
  if c.g.attached then
    match r.handle? c.t k with
    | some h => if h.team = c.g.team then some h else none
    | none => none
  else none

/-- A slice of the group in turn, replaced. -/
def put (r : State) (c : Ctx) (x : Slice) : State := r.setSlice c.t c.slot c.i x

/-- What the slice's turn at an instruction gives: the machine after, and its trap if it takes one; none where it waits. -/
abbrev SliceTurn := Option (State × Option Trap)

/-- BUFFER; for a group that is not attached, ILLEGAL (13 R270). -/
def handleTrap (c : Ctx) : Trap := if c.g.attached then mkTrap 0x12 0 else illegal 3

/-- MISALIGN with the lowest of the values that are not multiples of 8. -/
def oddTrap (l : List Nat) : Option Trap :=
  let odd := l.filter fun v => v % 8 ≠ 0
  if odd.isEmpty then none else some { mkTrap 0x06 0 with aux0 := BitVec.ofNat 64 (odd.tail.foldl min (odd.headD 0)) }

/-- What a buffer instruction leaves of its handle and writes to Sd, or BUFFER; none where it waits (13 R264, R276, R277). -/
def bufferActs (i : Instr) (h : Handle) : Option (Except Trap (Handle × Option DWord)) :=
  let y := h.at h.q
  match i with
  | .waitb .. =>
    if y.st ≠ .full then none
    else if y.fail then some (.error (mkTrap 0x12 0))
    else some (.ok (h, some (BitVec.ofNat 64 (h.off h.q))))
  | .acqb _ f _ _ =>
    if y.st ≠ .full then none
    else if y.fail && !f then some (.error (mkTrap 0x12 0))
    else
      some (.ok ({ (h.setSlot h.q { y with st := .drainProg }) with q := (h.q + 1) % h.slots.length },
        some (BitVec.ofNat 64 (h.off h.q + if f && y.fail then 2 ^ 63 else 0))))
  | .relb .. =>
    if (h.at h.f).st = .drainEng then none
    else if (h.at h.f).st = .drainProg then some (.ok (h.free h.f, none))
    else some (.error (mkTrap 0x12 0))
  | _ => none

/-- The slice's turn at a buffer instruction or BUFDEF (13 R263, R264, R276, R277). -/
def bufferTurn (i : Instr) (r : State) (c : Ctx) (x : Slice) : SliceTurn :=
  let act (h : Hdr) (d : SReg) (k : BitVec 5) : SliceTurn :=
    if !c.performs x h then some (put r c (x.adv i), none)
    else
      match ownedHandle r c k.toNat with
      | none => some (r, some (handleTrap c))
      | some hd =>
        match bufferActs i hd with
        | none => none
        | some (.error tr) => some (r, some tr)
        | some (.ok (h1, v)) =>
          let y : Slice := match v with
            | some v => x.post [wS d.toNat v]
            | none => x
          some (put (r.setHandle c.t k.toNat h1) c (y.adv i), none)
  match i with
  | .waitb h d k => act h d k
  | .acqb h _ d k => act h d k
  | .relb h k => act h 0 k
  | .bufdef h k base sz nm1 =>
    let n := nm1.toNat + 1
    let busy : Bool := match r.handle? c.t k.toNat with
      | some q => decide (q.team ≠ c.g.team) || (q.slots.any fun y => decide (y.st ≠ .free)) || (r.tile c.t).namesHandle k.toNat
      | none => false
    if !c.performs x h then some (put r c (x.adv i), none)
    else if !c.g.attached then some (r, some (illegal 3))
    else if r.padSize c.t c.g < base.toNat + n * sz.toNat then some (r, some (mkTrap 0x07 0))
    else if busy then some (r, some (mkTrap 0x12 0))
    else
      some (put (r.setHandle c.t k.toNat
        { team := c.g.team, base := base.toNat, sz := sz.toNat, slots := List.replicate n { st := .free, fail := false }, p := 0,
          q := 0, f := 0 }) c (x.adv i), none)
  | _ => none

/-- The kind, header and fields of a copy. -/
def copyOf : Instr → Option (CopyKind × Hdr × CpyArgs)
  | .cpyin h a => some (.cin, h, a)
  | .cpyout h a => some (.cout, h, a)
  | .cpynb h a => some (.nb, h, a)
  | .cpyg h a => some (.g, h, a)
  | _ => none

/-- The slice's turn at a copy: once its checks pass, in R270's order, its fields become an entry of the store queue under the next name,
and a `.yield` slice waits for it; a copy with a handle takes the slot at P, or for CPYOUT the full slot at Q (13 R264, R267, R270, R272,
R274). -/
def copyTurn (i : Instr) (r : State) (c : Ctx) (x : Slice) : SliceTurn :=
  match copyOf i with
  | none => none
  | some (kind, h, a) =>
    let send (r1 : State) (y : Copy) : SliceTurn :=
      some (put (({ r1 with nextId := r1.nextId + 1 }).push c.t c.slot (.copy y)) c
        (if y.yld then { x.adv i with pc := y.cont, wait := .yieldCopy y.id, parkPc := y.cont } else x.adv i), none)
    let raw : Side :=
      if kind = .g then .glob (BitVec.ofNat 64 (addrOf true ((c.rdS x 0 a.d.toNat).toNat : Int)))
      else .pad c.t (r.padStart c.t c.g + (c.rdS x 0 a.d.toNat).toNat)
    let y0 := mkCopy r c x kind a raw none
    let unfit : Option Trap :=
      match oddTrap (cpyAligned c x kind a) with
      | some tr => some tr
      | none => if cpyRange r c x kind a y0 then none else some (mkTrap 0x07 0)
    if !c.performs x h then some (put r c (x.adv i), none)
    else if !a.hd then
      match unfit with
      | some tr => some (r, some tr)
      | none => send r y0
    else
      match ownedHandle r c a.d.toNat with
      | none => some (r, some (handleTrap c))
      | some hd =>
        let j := if kind = .cout then hd.q else hd.p
        if hd.sz < y0.x0 * y0.x1 * y0.x2 then some (r, some (mkTrap 0x12 0))
        else
          match unfit with
          | some tr => some (r, some tr)
          | none =>
            if (hd.at j).st ≠ (if kind = .cout then .full else .free) then none
            else if kind = .cout && (hd.at j).fail then some (r, some (mkTrap 0x12 0))
            else
              let h1 : Handle :=
                if kind = .cout then { (hd.setSlot j { hd.at j with st := .drainEng }) with q := (j + 1) % hd.slots.length }
                else { (hd.setSlot j { hd.at j with st := .filling }) with p := (j + 1) % hd.slots.length }
              send (r.setHandle c.t a.d.toNat h1)
                (mkCopy r c x kind a (.pad c.t (r.padStart c.t c.g + hd.off j)) (some (a.d.toNat, j)))

/-- The barrier and the destination of an arrival. -/
def arrival : Instr → Option (Nat × Option SReg)
  | .bara _ d k => some (k.toNat, some d)
  | .bars _ k => some (k.toNat, none)
  | _ => none

/-- The slice's turn at an arrival that can be made: it has arrived, with the token of the arrival in progress or a new one, in Sd or
waited for (10 R187, R194, R196). -/
def arriveTurn (i : Instr) (r : State) (c : Ctx) (x : Slice) : SliceTurn :=
  match arrival i, r.group? c.t c.slot with
  | some (k, d), some g =>
    let m := g.barBits k
    match r.barTrap c.t g k true with
    | some tr => some (r, some tr)
    | none =>
      if !(m.getLsbD 0 || m.getLsbD 1) then some (r, some (illegal 3))
      else if x.arrv.getLsbD k || (!g.inProgress k && g.arriveFull k) then none
      else
        let tok := if g.inProgress k then Sparse.get 0 g.arrTok k else g.newToken (r.bar c.t g.team k).gen k
        let y : Slice := { x.adv i with arrv := x.arrv ||| (1#128 <<< k) }
        let z : Slice := match d with
          | some d => y.post [wS d.toNat (tok.setWidth 64)]
          | none => { y with wait := .barrier k tok, parkPc := x.pc }
        some (r.setGroup c.t c.slot ({ g with arrTok := Sparse.set 0 g.arrTok k tok }.setSlice c.i z), none)
  | _, _ => none

/-- The slice's turn at a sluice instruction: an entry of the store queue where its checks pass (19 R369-R371). -/
def sluiceTurn (i : Instr) (r : State) (c : Ctx) (x : Slice) : SliceTurn :=
  let go (h : Hdr) (a : SReg) (ok : Sluice → Bool) (act : State → Nat → State) : SliceTurn :=
    let n := (c.rdS x 0 a.toNat).toNat
    if !c.performs x h then some (put r c (x.adv i), none)
    else if n < 4096 && (r.sluice n).en && ok (r.sluice n) then
      some (act ((put r c (x.adv i)).relFence c.t c.slot .rel .sys) n, none)
    else some (r, some (illegal 3))
  match i with
  | .slput h d a b =>
    go h a (fun q => q.prAsid = c.g.asid) fun r1 n =>
      (({ r1 with nextId := r1.nextId + 1 }).postTok c.t c.slot c.i r1.nextId 1).push c.t c.slot
        (.slput n r1.nextId c.i d ((List.range 6).map fun k => c.rdS x 1 (b.toNat + k)))
  | .slrel h a b =>
    let n := (c.rdS x 1 b.toNat).toNat
    go h a (fun q => q.ckAsid = c.g.asid && n < q.put.toNat) fun r1 k => r1.push c.t c.slot (.slrel k n)
  | .slveto h a b =>
    let n := (c.rdS x 1 b.toNat).toNat
    go h a (fun q => q.ckAsid = c.g.asid && n < q.put.toNat && q.rel.toNat ≤ n) fun r1 k => r1.push c.t c.slot (.slveto k n)
  | _ => none

/-- A slice that a wait has ended for: it goes on, with a new run, once its results have returned (09 R175). -/
def goes (x : Slice) : Slice :=
  if x.out.isEmpty then { x with wait := .run, newRun := true, wset := 0 } else { x with wait := .results }

/-- The accesses that instructions make beside the memory instructions: the kind, and the addresses of a slice (06 R117, 18 R342,
R347). -/
def besides : Instr → Option (AccKind × (Ctx → Slice → List LaneReq))
  | .call h _ => some (.store, fun c x => if c.performs x h then pushReqs c x else [])
  | .ret h => some (.load, fun c x => if c.performs x h then popReqs c x else [])
  | .calli h a => some (.store, calliReqs h a)
  | .rft h => some (.load, rftReqs h none)
  | .emret h | .emretDcl h => some (.load, rftReqs h (some 0x02))
  | .stctx h item a off => some (.store, ctxBeatReqs h item a off)
  | .ldctx h item a off => some (.load, ctxBeatReqs h item a off)
  | _ => none

/-- A lookup of the beat waits for a copy engine (12 R253), or reads a poisoned table entry (21 R379). -/
def lookStops (s : State) (t : Nat) (g : Group) (rs : List LaneReq) : Bool :=
  s.walkHeld t g.asid (rs.map LaneReq.va) || rs.any fun r => (s.walkPoison t g.asid r.va).isSome

/-- The slices `l` act in turn, once the pages of the beat's accesses have been found (17 R323, R327): the machine after, and the traps; none
where a page is not there, a lookup stops, or a slice waits. -/
def turns (i : Instr) (s : State) (g : Group) (l : List Nat) (f : List BeatPage → State → Ctx → Slice → SliceTurn) :
    Option (State × List (Nat × Trap)) :=
  let t := s.focus.tile
  let q := s.focus.slot
  match besides i with
  | none => inTurns (fun r k => f [] r (ctxOf s t q g k) (g.slice k)) s l
  | some (kind, reqs) =>
    let rs := beatReqs s t q g l reqs
    if lookStops s t g rs then none
    else
      match s.beatPages t g kind false rs with
      | .ok p => inTurns (fun r k => f p.1 r (ctxOf p.2 t q g k) (g.slice k)) p.2 l
      | .error _ => none

/-- What a beat does once its slices have acted: returns may let REGRANT or a held pre-emption be taken (18 R340, R351), an exit lets arrivals
that waited for it be made (06 R123, 10 R194), the last slice's arrival is its group's (10 R194), HALT.kill ends a group all of whose
slices have halted (18 R348), and draws advance the quarter's generator (03 R58). -/
def afterBeat (i : Instr) (s m : State) : State :=
  let t := s.focus.tile
  let q := s.focus.slot
  match i with
  | .rft _ | .emret _ => m.updGroup t q fun g => (g.takeRegrant m).letPreempt
  | .exit _ => m.updGroup t q fun g => g.completeArrivals.letPreempt
  | .bara _ _ k | .bars _ k => m.updGroup t q fun g => g.completeArrival k.toNat
  | .haltKill _ | .haltSave .. | .haltSaveRls .. =>
    match m.group? t q with
    | some g =>
      match g.haltKind with
      | some (.haltKill _) => m.endGroup t q
      | _ => m
    | none => m
  | i =>
    match convWrites i with
    | some (_, _, .sr, _) => m.updTile t fun x => x.setSr (q / 16) (srNext ((s.tile t).srOf (q / 16)))
    | _ => m

/-- The record CONSUMED of poison in a unit of an array, which some lanes of a beat consume, and the trap (21 R379, R390). -/
def consumed (r : State) (t : Nat) (g : Group) (ad array : Nat) (lanes : List Nat) : State × Trap :=
  let n := lanes.headD 0
  (r.logError 0x03 (BitVec.ofNat 64 (physOf ad)) g.asid t n g.idx g.team (n / 4) (g.slice (n / 4)).pc (r.groupTag t g)
      (BitVec.ofNat 64 array),
    { mkTrap 0x0E 1 with lanes := some (laneMask lanes), aux0 := BitVec.ofNat 64 (physOf ad) })

/-- A slice's return through its frame, which goes on at `rpc` of the frame's words, or waits for REGRANT (18 R342, R351): the state and the
trap; ILLEGAL where the words are out of their limits. -/
def returnTurn (ps : List BeatPage) (h : Hdr) (used : Nat → Bool) (rpc : List DWord → DWord) (r : State) (c : Ctx) (x : Slice) : SliceTurn :=
  match r.frame ps c x h used with
  | .words r1 ws =>
    match x.rft x.top ws (rpc ws) with
    | none => some (r, some (illegal 3))
    | some y =>
      some ((put r1 c (if c.g.regrant ≠ 0 && x.td = 1 then { y with wait := .regrant, parkPc := y.pc } else goes y)).checkDone c x.top, none)
  | .trap r1 tr _ => some (r1, some tr)
  | .wait _ => none

/-- The slice's turn at a privileged instruction (18 R336, R342-R348); none where it waits or starts a reset. -/
def privTurn (i : Instr) (ps : List BeatPage) (r : State) (c : Ctx) (x : Slice) : SliceTurn :=
  let halt (a : Option SReg) : SliceTurn :=
    let sa := match a with
      | some a => c.rdS x 0 a.toNat
      | none => 0
    if a.isSome && !(x.td = 1 && x.top.vec = 0x0D) then some (r, some (illegal 3))
    else if sa.toNat % 64 ≠ 0 then some (r, some (misalign [4 * c.i + x.active.headD 0] sa.toNat))
    else
      let r1 := put r c { x with wait := .halted (withHint 0 i) sa, parkPc := x.pc }
      some (if 1 ≤ x.td then r1.checkDone c x.top else r1, none)
  let inv (kind asid va : Nat) : SliceTurn := some (put r c { x.adv i with wait := .tlbinv kind asid va, parkPc := x.pc }, none)
  match privHdr i with
  | none => none
  | some h =>
    let low := 4 * c.i + (c.guarded x h).headD 0
    if !c.performs x h then some (put r c (x.adv i), none)
    else if !x.pm then some (r, some (illegal 2))
    else
      match i with
      | .csrr _ d num =>
        match r.csrRead x.td num.toNat with
        | some v =>
          some (put (if num = 0x042 || num = 0x046 then r.idleFence c.t c.slot .acq .sys else r) c ((x.post [wS d.toNat v]).adv i), none)
        | none => some (r, some (illegal 0))
      | .csrw _ num a =>
        if (r.csrRead x.td num.toNat).isNone then some (r, some (illegal 0))
        else if num = 0x05B then none
        else some ((put r c (x.adv i)).csrWrite num.toNat (c.rdS x 0 a.toNat), none)
      | .tlbinvAll _ => inv 0 0 0
      | .tlbinvAsid _ b => inv 1 ((c.rdS x 1 b.toNat).toNat % 2 ^ 15) 0
      | .tlbinvPg _ a b => inv 2 ((c.rdS x 1 b.toNat).toNat % 2 ^ 15) ((c.rdS x 0 a.toNat).toNat % 2 ^ 56)
      | .haltKill _ => halt none
      | .haltSave _ a | .haltSaveRls _ a => halt (some a)
      | .rft _ => if x.td = 0 then some (r, some (illegal 3)) else returnTurn ps h rftWords (fun ws => ws.getD 1 0) r c x
      | .emret _ =>
        if x.td = 0 || x.top.vec ≠ 0x02 then some (r, some (illegal 3)) else returnTurn ps h emretWords emretPc r c x
      | .stctx _ item a off =>
        let va := ctxAddr c x a off
        if !ctxThere x c.g.allot item then some (r, some (illegal 3))
        else if va % 64 ≠ 0 then some (r, some (misalign [low] va))
        else
          some (put (r.push c.t c.slot (.store false ((ctxReqs c x h va (ctxSize item)).zipIdx.map fun q =>
            { loc := r.locIn ps q.1.va, data := ((ctxBytes c x item).drop (64 * q.2)).take 64, bnd := 0 }))) c (x.adv i), none)
      | .ldctx _ item a off =>
        let va := ctxAddr c x a off
        if !ctxThere x c.g.allot item then some (r, some (illegal 3))
        else if va % 64 ≠ 0 then some (r, some (misalign [low] va))
        else
          match r.group? c.t c.slot with
          | none => none
          | some g =>
            let locs := (ctxReqs c x h va (ctxSize item)).map fun q => (r.locIn ps q.va, 64)
            if r.loadHeld g false locs || r.linkHeld (r.l1Misses c.t locs) then none
            else
              match locs.find? fun q => (r.view g).poisonFrom c.t q.1.key 64 with
              | some q =>
                let ad := r.badUnit c.t q.1.key 64
                let p := consumed r c.t g ad (r.arrayOf c.t ad) [low]
                some (p.1, some p.2)
              | none =>
                let s1 := r.touch c.t g.asid false locs
                let bs := locs.flatMap fun q => (s1.view g).readBytes q.1.key 64
                if ctxFits item bs then some (put s1 c { x with wait := .context item.toNat bs, parkPc := x.pc }, none)
                else some (r, some (illegal 3))
      | _ => none

/-- A slice after an instruction that changes nothing but its slice, whatever its class, and whose accesses are none; none where it traps or
waits to be executed again. -/
def plainAfter (i : Instr) (u : UClass) (c : Ctx) (x : Slice) : Option Slice :=
  let t := x.tyOf i
  match scalarValue i, intWrites i, laneWrites i, floatElems i, convWrites i with
  | some (h, d, f), _, _, _, _ => some ((if c.performs x h then x.post [wS d.toNat (f c x)] else x).adv i)
  | _, some (h, f), _, _, _ | _, _, some (h, f), _, _ => some ((x.post ((c.guarded x h).flatMap fun n => f c x t n)).adv i)
  | _, _, _, some (h, d, uc, f), _ =>
    let ls := c.guarded x h
    some ((x.postHx (ls.flatMap fun n => wTy t d.toNat n (joinElems t (f u c x t n)) (joinBound (f u c x t n)))
      (if uc = .auto then some (ls.map fun n => { bnd := joinBound (f u c x t n), ex := joinEx (f u c x t n) }) else none)).adv i)
  | _, _, _, _, some (h, ty, rnd, f) =>
    some ((x.post ((c.guarded x h).flatMap fun n =>
      f c x t n fun j => x.rmode ty rnd (srDraw ((c.st.tile c.t).srOf (c.slot / 16)) (2 * ((4 * c.i + n) % 32) + j)))).adv i)
  | none, none, none, none, none => if (besides i).isSome then none else sliceAfter i u c x

/-- What such an instruction comes to in a slice: its trap, or the slice after it. -/
def plainOutcome (i : Instr) (u : UClass) (c : Ctx) (x : Slice) : Option (Except Trap Slice) :=
  match raises i c x, sliceTrap i c x with
  | some tr, _ | none, some tr => some (.error tr)
  | none, none => (plainAfter i u c x).map Except.ok

/-- The trap that a slice takes before its instruction's own checks: a breakpoint in user mode, then a breach of decode in this slice, then
a register of its write set (18 R343, 02 R22, 05 R94, 09 R176). -/
def earlyTrap (s : State) (g : Group) (x : Slice) (i : Instr) : Option Trap :=
  let u := Instr.vTouch i (x.tyOf i)
  if !x.pm && !x.skipBp && s.breakAt x.pc then some (mkTrap 0x11 0)
  else if !x.decodes g.allot i then some (illegal 0)
  else if g.hazchk && (rangeRegs (u.1 ++ u.2)).any fun n => n < 256 && x.wset.getLsbD n then some (mkTrap 0x03 0)
  else none

/-! ## Beats that access memory -/

/-- What a beat asks of memory: the kind of access, the global window or the scratchpad, bytes a lane, whether only lanes whose page is
there access it and whether a page that is not resident is let pass (11 R220), the addresses of a slice, and the checkpoint. -/
structure MemForm where
  kind : AccKind
  glob : Bool
  n : Nat
  part : Bool
  nr : Bool
  reqs : Ctx → Slice → List LaneReq
  chk : State → Nat → Nat → Group → List LaneReq → Option Trap

/-- The beats that access memory (11 R225-R231, R235). -/
def memForm : Instr → Option MemForm
  | .ld h sz base _ off _ _ _ nr =>
    some ⟨.load, true, sz.bytes, true, nr.isSome, fun c x => c.addrs x h base (offBytes off sz.bytes) sz.bytes true, fun _ _ _ _ _ => none⟩
  | .lds h sz base _ off _ _ =>
    some ⟨.load, false, sz.bytes, false, false, fun c x => c.addrs x h base (offBytes off sz.bytes) sz.bytes false, fun _ _ _ _ _ => none⟩
  | .sld h sz a _ off _ _ =>
    some ⟨.load, true, sz.bytes, false, false, fun c x => c.addr1 x h a (offBytes off sz.bytes) true, fun _ _ _ _ _ => none⟩
  | .st h sz base b off _ _ nochk =>
    some ⟨.store, true, sz.bytes, false, false, fun c x => c.addrs x h base (offBytes off sz.bytes) sz.bytes true,
      fun s t q g rs => storeBreach g nochk rs (laneData s t q g b sz.bytes)⟩
  | .sts h sz base b off _ _ nochk =>
    some ⟨.store, false, sz.bytes, false, false, fun c x => c.addrs x h base (offBytes off sz.bytes) sz.bytes false,
      fun s t q g rs => storeBreach g nochk rs (laneData s t q g b sz.bytes)⟩
  | .sst h sz a _ off _ _ =>
    some ⟨.store, true, sz.bytes, false, false, fun c x => c.addr1 x h a (offBytes off sz.bytes) true, fun _ _ _ _ _ => none⟩
  | .atom h sz base _ b op ty _ _ nochk =>
    some ⟨.atomic, true, sz.bytes, false, false, fun c x => c.atomAddrs x h base 0 sz.bytes true,
      fun s t q g rs => atomBreach s t q g (.op op ty) nochk base b sz.bytes rs⟩
  | .atoms h sz base _ b op ty _ _ nochk =>
    some ⟨.atomic, false, sz.bytes, false, false, fun c x => c.atomAddrs x h base 0 sz.bytes false,
      fun s t q g rs => atomBreach s t q g (.op op ty) nochk base b sz.bytes rs⟩
  | .cas h sz base _ b off _ _ nochk =>
    some ⟨.atomic, true, sz.bytes, false, false, fun c x => c.atomAddrs x h base (offBytes off sz.bytes) sz.bytes true,
      fun s t q g rs => atomBreach s t q g .cas nochk base b sz.bytes rs⟩
  | .cass h sz base _ b off _ _ nochk =>
    some ⟨.atomic, false, sz.bytes, false, false, fun c x => c.atomAddrs x h base (offBytes off sz.bytes) sz.bytes false,
      fun s t q g rs => atomBreach s t q g .cas nochk base b sz.bytes rs⟩
  | .ldf h sz base _ off _ _ _ =>
    some ⟨.ldf, true, sz.bytes, false, false, fun c x => c.addrs x h base (offBytes off sz.bytes) sz.bytes true, fun _ _ _ _ _ => none⟩
  | .stf h sz base _ off _ _ =>
    some ⟨.stf, true, sz.bytes, false, false, fun c x => c.addrs x h base (offBytes off sz.bytes) sz.bytes true, fun _ _ _ _ _ => none⟩
  | .clrf h base off _ _ =>
    some ⟨.stf, true, 8, false, false, fun c x => c.addrs x h base (offBytes off 8) 8 true, fun _ _ _ _ _ => none⟩
  | .cctlCln1 h base off _ | .cctlInv1 h base off _ | .cctlClnm h base off _ | .cctlFlsm h base off _ | .cctlInvi h base off _ =>
    some ⟨.cctl, true, 1, false, false, fun c x => c.addrs x h base off.toInt 256 true, fun _ _ _ _ _ => none⟩
  | _ => none

/-- The trap that every slice of the beat takes: an address that is not a multiple of the size, then the checkpoint, then the end of
the scratchpad (04 R76, 11 R208, R209, R224), with the active lanes of all the beat's slices (log 81). -/
def memTrap (F : MemForm) (s : State) (t q : Nat) (g : Group) (l : List Nat) : Option Trap :=
  let rs := beatReqs s t q g l F.reqs
  let bad := rs.filter fun r => r.va % F.n ≠ 0
  if !bad.isEmpty then some (misalign (bad.map LaneReq.lane) ((bad.tail.map LaneReq.va).foldl min (bad.headD ⟨0, 0, 0⟩).va))
  else
    match F.chk s t q g rs with
    | some tr => some tr
    | none => if !F.glob && rs.any fun r => s.padSize t g < r.va + F.n then
        some { mkTrap 0x07 0 with lanes := some (laneMask (l.flatMap fun k => (g.slice k).laneSet k)) }
      else none

/-- The machine once the pages of a beat have been found, and those pages; none where a lane's page has a cause (17 R323, R326), or a
lookup stops. -/
def memPages (F : MemForm) (s : State) (t q : Nat) (g : Group) (l : List Nat) : Option (State × List BeatPage) :=
  let rs := beatReqs s t q g l F.reqs
  if !F.glob then some (s, [])
  else if lookStops s t g rs then none
  else
    match s.beatPages t g F.kind F.nr rs with
    | .ok p => some (p.2, p.1)
    | .error _ => none

/-- The accesses of a beat for which pages are translated: their kind, whether a page that is not resident is let pass, and the accesses;
none where a check before finds a breach. -/
def pagedReqs (i : Instr) (s : State) (t q : Nat) (g : Group) (l : List Nat) : Option (AccKind × Bool × List LaneReq) :=
  match memForm i, besides i with
  | some F, _ => if F.glob && (memTrap F s t q g l).isNone then some (F.kind, F.nr, beatReqs s t q g l F.reqs) else none
  | none, some (kind, reqs) => some (kind, false, beatReqs s t q g l reqs)
  | none, none => none

/-- The accesses whose table entries a beat reads: those, and the lines of PGREQ. -/
def lookedUp (i : Instr) (s : State) (t q : Nat) (g : Group) (l : List Nat) : Option (List LaneReq) :=
  match i with
  | .pgreq h base _ off _ => some (beatReqs s t q g l fun c x => c.addrs x h base off.toInt 256 true)
  | i => (pagedReqs i s t q g l).map fun p => p.2.2

/-- The accesses of a beat whose page is there, each with its place. -/
def memHere (F : MemForm) (s : State) (ps : List BeatPage) (t q : Nat) (g : Group) (l : List Nat) (s0 : State) :
    List (LaneReq × Loc) :=
  let rs := beatReqs s0 t q g l F.reqs
  if F.glob then (if F.part then rs.filter fun r => (pageOf ps r.va).any fun p => p.cause = 0 else rs).map fun r => (r, s.locIn ps r.va)
  else rs.map fun r => (r, s.padLoc t g r.va)

/-- The loads of a memory beat wait: for the group's queue, for a copy engine, or for a peer without a route (12 R241, R248, R253, 19 R366). -/
def memWaits (i : Instr) (F : MemForm) (s1 : State) (t : Nat) (g : Group) (pl : List (LaneReq × Loc)) : Bool :=
  let ls := pl.map fun p => (p.2, F.n)
  if F.kind = .ldf then s1.loadHeld g true ls || s1.linkHeld ls
  else match i with
    | .ld .. | .lds .. | .sld .. => s1.loadHeld g false ls || s1.linkHeld (s1.l1Misses t ls)
    | _ => false

/-- What a load writes: a request with its bytes and tag, one whose page is there, and one whose page is not resident. `inv` is given for
LD, which alone may see a broken promise (11 R221). -/
structure LoadForm where
  od : Order
  sc : Scope
  inv : Option Bool
  wr : LaneReq → List Byte → Eb16 → List RegWrite
  hit : LaneReq → List RegWrite
  miss : LaneReq → List RegWrite

/-- The loads (11 R220, R221, R224, R225, R227): 1 and 2 bytes zero-extend, 8 and 16 fill two and four registers, the tag becomes the
bound of each; `.nr` gives its predicate, and 0 where the page is not resident. -/
def loadForm : Instr → Option LoadForm
  | .ld _ sz _ d _ sc od inv nr =>
    some ⟨od, sc, some inv, fun r bs tag => loadWrites d.toNat r.l bs tag,
      fun r => match nr with
        | some p => [wP p.toNat r.l true]
        | none => [],
      fun r => match nr with
        | some p => (List.range sz.regs).map (fun j => wV (d.toNat + j) r.l 0 0) ++ [wP p.toNat r.l false]
        | none => []⟩
  | .lds _ _ _ d _ sc od => some ⟨od, sc, none, fun r bs tag => loadWrites d.toNat r.l bs tag, fun _ => [], fun _ => []⟩
  | .sld _ _ _ d _ sc od => some ⟨od, sc, none, fun _ bs _ => [wS d.toNat (BitVec.ofNat 64 (leNat bs))], fun _ => [], fun _ => []⟩
  | _ => none

/-- The machine after a load that neither traps nor waits: each lane's bytes are those of memory under the group's queued stores, or
of a line that an `.inv` promise kept (11 R221, R224, 12 R241), given to each slice as one outstanding result. -/
def loadAfter (i : Instr) (F : MemForm) (L : LoadForm) (s : State) (t q : Nat) (g : Group) (l : List Nat) : Option State :=
  match memPages F s t q g l with
  | none => none
  | some (s1, ps) =>
    let rs := beatReqs s t q g l F.reqs
    let pl := memHere F s1 ps t q g l s
    let ls := pl.map fun p => (p.2, F.n)
    let away := if F.part then rs.filter fun r => !(pageOf ps r.va).any fun p => p.cause = 0 else []
    let give (r : State) (strict : Bool) : State :=
      (l.foldl (fun u k => u.postTo t q k
        ((pl.filter fun p => p.1.k = k).flatMap (fun p =>
            let b := (r.view g).loadBytes t (r.groupLaunch t g) p.1.lane strict p.2 F.n
            L.wr p.1 b.data b.tag) ++
          ((away.filter fun x => x.k = k).flatMap L.miss ++ (pl.filter fun p => p.1.k = k).flatMap fun p => L.hit p.1))) r).advAll t q i l
    let strict : Bool := L.od = .acq || L.inv.isNone
    if pl.isEmpty then some (give (if rs.isEmpty then s1.idleFence t q L.od L.sc else s1) true)
    else if s1.loadHeld g false ls || s1.linkHeld (s1.l1Misses t ls) ||
        pl.any fun p => ((s1.view g).loadBytes t (s1.groupLaunch t g) p.1.lane strict p.2 F.n).bad then none
    else
      let s2 := s1.touch t g.asid false ls
      let s3 := if L.inv = some true then s1.noteInv s2 t (s2.groupLaunch t g) F.n (pl.map Prod.snd) else s2
      some (give (s3.deferPoison t g (l.headD 0) (g.slice (l.headD 0)).pc F.n (pl.map Prod.snd)) strict)

/-- The stores: the order and scope, the data of a lane with its bound, and the entries of the store queue: one for the beat, or for SST one for
each slice (11 R226, R227, R231). -/
def storeForm : Instr → Option (Order × Scope × (State → Nat → Nat → Group → LaneReq → List Byte × Eb16) × (List Acc → List SqKind))
  | .st _ sz _ b _ sc od _ | .sts _ sz _ b _ sc od _ => some (od, sc, fun s t q g => laneData s t q g b sz.bytes, fun as => [.store false as])
  | .sst _ sz _ b _ sc od => some (od, sc, fun s t q g => sData s t q g b sz.bytes, fun as => as.map fun a => .store false [a])
  | .stf _ sz _ b _ sc od => some (od, sc, fun s t q g => laneData s t q g b sz.bytes, fun as => [.stf as])
  | _ => none

/-- The accesses of a memory beat that consume poison where they are made, and the tile whose caches they are read in, if any: a load's
bytes, the tag from which a store makes another (11 R217), and at the L2 slice those of an atomic and of an LDF on a FULL granule (21 R379). -/
def memPoison (i : Instr) (F : MemForm) (s s1 : State) (ps : List BeatPage) (t q : Nat) (g : Group) (l : List Nat) :
    List (LaneReq × Loc) × Nat :=
  let pl := memHere F s1 ps t q g l s
  let at_ (p : LaneReq × Loc) : Bool := (s1.view g).poisonAt p.2.key F.n
  match loadForm i, storeForm i with
  | some L, _ =>
    let strict : Bool := L.od = .acq || L.inv.isNone
    (pl.filter fun p => ((s1.view g).loadBytes t (s1.groupLaunch t g) p.1.lane strict p.2 F.n).bad, t)
  | none, some (_, _, data, _) =>
    let acc (p : LaneReq × Loc) : Acc := { loc := p.2, data := (data s t q g p.1).1, bnd := (data s t q g p.1).2 }
    (pl.filter fun p => (s1.view g).tagBad (pl.map acc) (acc p), t)
  | none, none =>
    match F.kind with
    | .atomic => (pl.filter at_, noTile)
    | .ldf => (pl.filter fun p => !s1.granEmpty p.2.key && at_ p, noTile)
    | _ => ([], t)

/-- The machine after a store's beat, or one of cache control: the stores of its lanes, in ascending lane, enter the group's queue (12
R240); a release waits for what the group has under way, and without a lane it is a fence of its own (12 R247, R251). None where the stores
make a tag from a poisoned one (11 R217, 21 R379). -/
def storeAfter (i : Instr) (F : MemForm) (s : State) (t q : Nat) (g : Group) (l : List Nat) : Option State :=
  match memPages F s t q g l with
  | none => none
  | some (s1, ps) =>
    let pl := memHere F s1 ps t q g l s
    let done (r : State) : Option State := some (r.advAll t q i l)
    let cctl (op : Nat) : Option State :=
      done (if pl.isEmpty then s1 else s1.push t q (.cctl op (lineLocs (pl.map Prod.snd))))
    match i with
    | .clrf _ _ _ sc od =>
      if s1.pinFull (pl.map Prod.snd) then none
      else done (if pl.isEmpty then s1.idleFence t q od sc else (s1.relFence t q od sc).push t q (.clrf (pl.map Prod.snd)))
    | .cctlCln1 .. => cctl 0
    | .cctlInv1 .. => cctl 1
    | .cctlClnm .. => cctl 2
    | .cctlFlsm .. => cctl 3
    | .cctlInvi .. => cctl 4
    | _ =>
      match storeForm i with
      | some (od, sc, data, es) =>
        let accs : List Acc := pl.map fun p => { loc := p.2, data := (data s t q g p.1).1, bnd := (data s t q g p.1).2 }
        if accs.any fun a => (s1.view g).tagBad accs a then none
        else done (if pl.isEmpty then s1.idleFence t q od sc else (es accs).foldl (fun r e => r.push t q e) (s1.relFence t q od sc))
      | none => none

/-- An atomic: its function, base, registers, size, order and scope (11 R229, R230). -/
def atomForm : Instr → Option (AtomFn × Base × VReg × VReg × Nat × Order × Scope)
  | .atom _ sz base d b op ty sc od _ | .atoms _ sz base d b op ty sc od _ => some (.op op ty, base, d, b, sz.bytes, od, sc)
  | .cas _ sz base d b _ sc od _ | .cass _ sz base d b _ sc od _ => some (.cas, base, d, b, sz.bytes, od, sc)
  | _ => none

/-- The machine after an atomic's beat: its lanes, with their operands, enter the store queue, and each slice's results are outstanding
until they are performed (12 R240). -/
def atomAfter (i : Instr) (F : MemForm) (s : State) (t q : Nat) (g : Group) (l : List Nat) : Option State :=
  match atomForm i, memPages F s t q g l with
  | some (f, base, d, b, n, od, sc), some (s1, ps) =>
    let pl := memHere F s1 ps t q g l s
    if pl.isEmpty then some ((s1.idleFence t q od sc).advAll t q i l)
    else if pl.any fun p => (s1.view g).poisonAt p.2.key n then none
    else
      let lane (p : LaneReq × Loc) : AtomLane :=
        { loc := p.2, val := BitVec.ofNat 64 (atomVal s1 t q g base 1 b n p.1).n, bnd := (atomVal s1 t q g base 1 b n p.1).b,
          exp := BitVec.ofNat 64 (if f = .cas then (atomVal s1 t q g base 2 d n p.1).n else 0), slice := p.1.k,
          lane := p.1.lane, pc := (g.slice p.1.k).pc,
          dst := match base with
            | .v _ => .v d.toNat p.1.l
            | .s _ => .s d.toNat }
      let r := ({ s1 with nextId := s1.nextId + 1 }.relFence t q od sc).push t q
        (.atomic (od = Order.acq || od = Order.ar) f n s1.nextId (pl.map lane))
      some (((nubNat (pl.map fun p => p.1.k)).foldl (fun r k => r.postTok t q k s1.nextId (match base with
        | .v _ => (n + 3) / 4
        | .s _ => 1)) r).advAll t q i l)
  | _, _ => none

/-- The machine after LDF: lanes on FULL granules have their result and Pa true; those on EMPTY granules are held, their slices with
them, or refused with Pa false where no deferral entry is left (11 R223, R231). -/
def ldfAfter (i : Instr) (F : MemForm) (s : State) (t q : Nat) (g : Group) (l : List Nat) : Option State :=
  match i, memPages F s t q g l with
  | .ldf _ _ _ d _ sc od pa, some (s1, ps) =>
    let pl := memHere F s1 ps t q g l s
    let ls := pl.map fun p => (p.2, F.n)
    let full := pl.filter fun p => !s1.granEmpty p.2.key
    if pl.isEmpty then some ((s1.idleFence t q od sc).advAll t q i l)
    else if s1.loadHeld g true ls || s1.linkHeld ls || full.any fun p => (s1.view g).poisonAt p.2.key F.n then none
    else
      let tok := s1.nextId
      let s2 := (({ s1 with nextId := tok + 1 } : State).atSlice (t / 32) g.asid false ls).deferPoison t g (l.headD 0)
        (g.slice (l.headD 0)).pc F.n (full.map Prod.snd)
      let s3 := (l.foldl (fun u k => u.postTo t q k ((full.filter fun p => p.1.k = k).flatMap fun p =>
        loadWrites d.toNat p.1.l ((s2.view g).readBytes p.2.key F.n) ((s2.view g).locTag p.2) ++ [wP pa.toNat p.1.l true])) s2).advAll t q i l
      let s4 := (pl.filter fun p => s1.granEmpty p.2.key).foldl (fun r p => r.ldfLane t q tok F.n d pa p.1 p.2) s3
      let mine := s4.deferral.filter fun h => h.tok = tok
      let s5 := (nubNat (mine.map Held.slice)).foldl
        (fun r k => (r.gatherTok t q k tok ((F.n + 3) / 4 + 1) (s2.slice t q k).out.length).updSlice t q k fun x => { x with wait := .future, parkPc := (g.slice k).pc }) s4
      some (if mine.isEmpty then (if full.isEmpty then s5.idleFence t q od sc else s5)
        else if od = .acq then s5.push t q (.fence 15 false false [tok] [] false) else s5)
  | _, _ => none

/-- The machine after a memory instruction's beat that neither traps nor waits. -/
def memAfter (i : Instr) (s : State) (t q : Nat) (g : Group) (l : List Nat) : Option State :=
  match memForm i with
  | none => none
  | some F =>
    if (memTrap F s t q g l).isSome then none
    else
      match loadForm i with
      | some L => loadAfter i F L s t q g l
      | none =>
        match F.kind with
        | .atomic => atomAfter i F s t q g l
        | .ldf => ldfAfter i F s t q g l
        | _ => storeAfter i F s t q g l

/-- The machine after a beat of FENCE, PREF, PGREQ, GEAR, NOPRE or PRE (10 R199, R204, 11 R232-R234, 12 R252, 17 R332). -/
def hintAfter (i : Instr) (s : State) (t q : Nat) (g : Group) (l : List Nat) : Option State :=
  let adv (r : State) : Option State := some (r.advAll t q i l)
  let lines (h : Hdr) (base : Base) (off : BitVec 10) : List LaneReq := beatReqs s t q g l fun c x => c.addrs x h base off.toInt 256 true
  match i with
  | .fence _ kinds sc od =>
    let acq : List SqKind := if od = .rel then [] else [.fence kinds false false (s.heldToks t q) [] false]
    let rel : List SqKind :=
      if od = .rel || od = .ar then
        [.fence (if od = .ar then kinds ||| 2 else 2) (od = .ar) (sc = .sys && kinds &&& 0b1110 ≠ 0)
          (if kinds.getLsbD 0 then s.heldToks t q else []) (if kinds.getLsbD 2 then s.groupCopies t q g else [])
          (kinds.getLsbD 3 && s.groupMatrix t q)]
      else []
    adv ((acq ++ rel).foldl (fun r e => r.push t q e) s)
  | .pref h base l2 off _ =>
    let rs := lines h base off
    if s.walkHeld t g.asid (rs.map LaneReq.va) then none else
    let p := s.translate t g.asid .pref (fun lane => (g.slice (lane / 4)).pm) (rs.map fun r => (r.lane, r.va))
    let locs := (rs.filter fun r => (s.walkPoison t g.asid r.va).isNone && (pageOf p.1 r.va).any fun b => b.cause = 0).map fun r =>
      p.2.locIn p.1 r.va
    let lines := locs.map fun x => (x.line, 256)
    let s1 := if l2 then p.2.atSlice (t / 32) g.asid false lines else p.2.touch t g.asid false lines
    adv (match rs.filterMap fun r => s.walkPoison t g.asid r.va with
      | [] => s1.deferPoison t g (l.headD 0) (g.slice (l.headD 0)).pc 0 locs
      | u :: _ => s1.deferAt t g (l.headD 0) (g.slice (l.headD 0)).pc u (s.arrayOf noTile u))
  | .pgreq h base w off _ =>
    if lookStops s t g (lines h base off) then none else
    let p := s.translate t g.asid .pgreq (fun lane => (g.slice (lane / 4)).pm) ((lines h base off).map fun r => (r.lane, r.va))
    let bad := p.1.filter fun b => b.page.cause = 1 || b.page.cause = 2
    let recs := bad.zipIdx.map fun b => p.2.beatRec t g .pgreq (if w then 0x11 else 0x10) bad.length b.2 b.1
    adv { p.2.sendRecords p.2.nextId recs with nextId := p.2.nextId + 1 }
  | .gear _ fast => adv (s.updGroup t q fun g => { g with gearReq := fast })
  | .nopre _ => adv (s.updGroup t q fun g => if g.sect then g else { g with sect := true, sectStart := s.time })
  | .pre _ =>
    some ((s.advAll t q i l).updGroup t q fun g => if l.any fun k => (g.slice k).td = 0 then { g with sect := false }.letPreempt else g)
  | _ => none

/-! ## SPAWN and the collectives -/

/-- The task records of a beat's lanes, each with its lane. -/
def spawnRecs (s : State) (t q : Nat) (g : Group) (l : List Nat) (h : Hdr) (a : VReg) : List (Nat × List DWord) :=
  l.flatMap fun k =>
    let c := ctxOf s t q g k
    (c.guarded (g.slice k) h).map fun n => (4 * k + n, c.taskWords (g.slice k) a n)

/-- The trap of a beat of SPAWN: an ENTRY that is no multiple of 8, then any other breach of a record (16 R319). -/
def spawnCheck (s : State) (t : Nat) (g : Group) (recs : List (Nat × List DWord)) : Option Trap :=
  let entry (p : Nat × List DWord) : Nat := (p.2.getD 0 0).toNat
  let odd := recs.filter fun p => entry p % 8 ≠ 0
  if !odd.isEmpty then some (misalign (odd.map Prod.fst) ((odd.tail.map entry).foldl min (entry (odd.headD (0, [])))))
  else if recs.any fun p => !s.taskOk (s.groupLaunch t g) p.2 then some (illegal 3)
  else none

/-- The machine after SPAWN where every record passes its checks: the records of the beat's lanes are one entry of the store queue, and
each slice with one has its predicate outstanding (16 R318, R319). -/
def spawnAfter (i : Instr) (h : Hdr) (pd : PReg) (a : VReg) (s : State) (t q : Nat) (g : Group) (l : List Nat) : Option State :=
  let recs := spawnRecs s t q g l h a
  if (spawnCheck s t g recs).isSome then none
  else
    let r := if recs.isEmpty then s
      else ({ s with nextId := s.nextId + 1 }.relFence t q .rel .pkg).push t q (.spawn s.nextId pd.toNat recs)
    some (((l.filter fun k => !((ctxOf s t q g k).guarded (g.slice k) h).isEmpty).foldl (fun r k => r.postTok t q k s.nextId 1) r).advAll t q i l)

/-- The collectives: the instructions at which a group meets (06 R121). -/
def isCollective : Instr → Bool
  | .regang .. | .setw .. | .attach .. | .detach .. | .shfl .. | .shflu .. | .shfld .. | .shflx .. | .bcast .. | .red .. | .scan ..
  | .vote .. | .matchv .. | .first .. | .mma .. | .mzero .. | .mld .. | .mst .. | .mscl .. => true
  | _ => false

/-- The machine once the slices `l` have arrived at the rendezvous point `i`: they are parked there, at no cost. What is kept of the
instruction has no hint (05 R93). -/
structure Arrived (s : State) (i : Instr) (g : Group) (l : List Nat) (m : State) : Prop where
  frame : BeatFrame s m s.focus.tile s.focus.slot l
  slices : ∀ k ∈ l, Settles g i (g.slice k) { g.slice k with wait := .rdv (withHint 0 i), parkPc := (g.slice k).pc, newRun := true, wset := 0 }
    (m.slice s.focus.tile s.focus.slot k)
  free_ : (m.tile s.focus.tile).allow = (s.tile s.focus.tile).allow

/-- With the slices `l`, every live slice of the group has come, and to `i` where they stand at one address; their results can return,
none has an asynchronous trap to take (08 R158, 18 R337), and no register of the group holds an error (21 R378). -/
structure Gathered (g : Group) (i : Instr) (l : List Nat) : Prop where
  come : ∀ k ∈ g.liveIdx, k ∈ l ∨ (g.slice k).wait.coll?.isSome
  same : (∀ k ∈ g.liveIdx, (g.slice k).pc = g.leader.pc) → ∀ k ∈ g.liveIdx, k ∈ l ∨ (g.slice k).wait.coll? = some (withHint 0 i)
  returns : ∀ k ∈ g.liveIdx, (g.slice k).drainable
  calm : ∀ k ∈ g.liveIdx, (g.slice k).asyncNow = none
  sound : g.sound = true

/-- The machine and the group once the outstanding results of the group's live slices have returned. -/
def gathered (m : State) (t q : Nat) : Option (State × Group) :=
  (m.group? t q).map fun g =>
    let g1 := g.liveIdx.foldl (fun r k => r.setSlice k (m.drained k (r.slice k))) g
    (m.setGroup t q g1, g1)

/-- Every live slice after its collective instruction. -/
def goOn (g : Group) (i : Instr) : Group :=
  g.liveIdx.foldl (fun r k => r.setSlice k { (r.slice k).adv i with wait := .run, newRun := true, wset := 0 }) g

/-- Every live slice waits at its collective: for room, or presented for its one issue. -/
def standBy (g : Group) (w : Wait) : Group :=
  g.liveIdx.foldl (fun r k => r.setSlice k { r.slice k with wait := w, parkPc := (r.slice k).pc }) g

/-- The value of a lane of the group in a type. -/
def groupVal (s : State) (t q : Nat) (g : Group) (ty : Ty) (a : VReg) (lane : Nat) : Val :=
  (ctxOf s t q g (lane / 4)).valV (g.slice (lane / 4)) ty 0 a.toNat (lane % 4)

/-- A predicate of a lane of the group, at an operand. -/
def groupP (s : State) (t q : Nat) (g : Group) (site : Nat) (p : PReg) (lane : Nat) : Bool :=
  (ctxOf s t q g (lane / 4)).rdP (g.slice (lane / 4)) site p.toNat (lane % 4)

/-- The lanes below G that are active and whose Pc is true, ascending (08 R163). -/
def givers (s : State) (t q : Nat) (g : Group) (pc : PReg) : List Nat :=
  (List.range g.grant).filter fun n =>
    (g.slice (n / 4)).live && (g.slice (n / 4)).lmask.getLsbD (n % 4) && groupP s t q g 2 pc n

/-- What a cross-lane instruction writes in a lane, and what that gives HX. -/
abbrev CrossWrites := UClass → State → Nat → Nat → Group → Ty → Nat → List RegWrite × Option HxItem

/-- A shuffle reads lane `f lane index`, in range and with Pv true, or the lane's own value (08 R161, R162). -/
def shuffled (d a : VReg) (k : LaneIdx) (pv : PReg) (f : Int → Int → Int) : CrossWrites := fun _ s t q g ty lane =>
  let x := g.slice (lane / 4)
  let ix : Val := match k with
    | .v b => (ctxOf s t q g (lane / 4)).val32 x 1 b.toNat (lane % 4)
    | .s b => { n := (g.leader.sReg b.toNat).toNat, b := 0 }
    | .imm k => { n := k.toNat, b := 0 }
  let src := f lane ix.n
  let v := groupVal s t q g ty a (if 0 ≤ src ∧ src < g.grant then src.toNat else lane)
  let there : Bool := decide (0 ≤ src ∧ src < g.grant)
  (wTy ty d.toNat (lane % 4) v.n (if there && ix.b ≠ 0 then ebU else v.b) ++ [wP pv.toNat (lane % 4) there], none)

/-- The leaves of a tree over the next power of two of lanes: the givers' values, identities elsewhere (04 R77). -/
def leaves (s : State) (t q : Nat) (g : Group) (ty : Ty) (a : VReg) (pc : PReg) : List (Option Val) :=
  (List.range (2 ^ log2Up g.grant)).map fun n =>
    if (givers s t q g pc).elem n then some (groupVal s t q g ty a n) else none

/-- Sets of lanes as three words (08 R165). -/
def ballot (d lane : Nat) (set : List Nat) : List RegWrite :=
  (List.range 3).map fun w =>
    wV (d + w) (lane % 4) (BitVec.ofNat 32 ((set.filter fun n => n / 32 = w).foldl (fun r n => r + 2 ^ (n % 32)) 0)) 0

/-- The cross-lane class (08 R161-R167). -/
def crossWrites : Instr → Option (Hdr × CrossWrites)
  | .shfl h _ d a k pv | .bcast h _ d a k pv => some (h, shuffled d a k pv fun _ n => n)
  | .shflu h _ d a k pv => some (h, shuffled d a k pv fun lane n => lane - n)
  | .shfld h _ d a k pv => some (h, shuffled d a k pv fun lane n => lane + n)
  | .shflx h _ d a k pv => some (h, shuffled d a k pv fun lane n => ((lane.toNat ^^^ n.toNat : Nat) : Int))
  | .red h tyf uc op d a pc pd => some (h, fun c s t q g ty lane =>
      let ls := leaves s t q g ty a pc
      let root := treeRoot (redOpt (redNode op ty c (g.leader.rmode tyf .dflt 0))) (log2Up g.grant) ls
      redWrites op ty uc d pd (ls.any Option.isSome) (root.headD none) lane)
  | .scan h tyf uc op ex d a pc pd => some (h, fun c s t q g ty lane =>
      let ls := leaves s t q g ty a pc
      let f := redOpt (redNode op ty c (g.leader.rmode tyf .dflt 0))
      let pre := (scanPre f none (log2Up g.grant) ls).getD lane none
      redWrites op ty uc d pd (ls.any Option.isSome) (if ex then pre else f pre (ls.getD lane none)) lane)
  | .vote h mode d pa pc => some (h, fun _ s t q g _ lane =>
      let cs := givers s t q g pc
      let yes := cs.filter fun n => groupP s t q g 3 pa n
      (match mode with
        | .all => [wP d.toNat (lane % 4) (yes.length = cs.length)]
        | .any => [wP d.toNat (lane % 4) (!yes.isEmpty)]
        | .uni => [wP d.toNat (lane % 4) (yes.isEmpty || yes.length = cs.length)]
        | .ballot => ballot d.toNat lane yes, none))
  | .matchv h _ d a pc pd => some (h, fun _ s t q g ty lane =>
      let same := (givers s t q g pc).filter fun n => (groupVal s t q g ty a n).n = (groupVal s t q g ty a lane).n
      (ballot d.toNat lane same ++ [wP pd.toNat (lane % 4) (same.head? = some lane)], none))
  | .first h d pc pd => some (h, fun _ s t q g _ lane =>
      match givers s t q g pc with
      | [] => ([wV d.toNat (lane % 4) 0xFFFFFFFF 0, wP pd.toNat (lane % 4) false], none)
      | n :: _ => ([wV d.toNat (lane % 4) (BitVec.ofNat 32 n) 0, wP pd.toNat (lane % 4) true], none))
  | _ => none

/-- The barriers that Sa and Sb name (10 R189). -/
def namedBars (x : Slice) (a b : SReg) : List Nat :=
  (List.range 128).filter fun k => if k < 64 then (x.sReg a.toNat).getLsbD k else (x.sReg b.toNat).getLsbD (k - 64)

/-- The trap of a collective whose group has gathered (06 R121, R122, 10 R189, R190, 14 R282). -/
def collectiveTrap (i : Instr) (s : State) (t : Nat) (g : Group) : Option Trap :=
  let diverged := g.liveIdx.any fun k => !(g.slice k).div.isEmpty
  if Instr.isMatrix i then s.mxTrap t g i
  else if !g.leader.legal g.allot i then some (illegal 0)
  else
    match i with
    | .setw _ lo _ e =>
      let rgh := match e with
        | some a => (g.leader.sReg a.toNat).toNat
        | none => 0
      if diverged then some (mkTrap 0x04 0)
      else if !couldFit g.dual g.allot lo.toNat then some (illegal 0)
      else if rgh % 8 ≠ 0 then some { mkTrap 0x06 0 with aux0 := BitVec.ofNat 64 rgh }
      else none
    | .attach _ role a b =>
      match s.team? t g.team with
      | none => some (illegal 3)
      | some m =>
        let n := match role with
          | .none => 0
          | .producer => 1
          | .consumer => 2
        if if g.attached then n ≠ g.role else decide (n ≠ 0) ≠ m.roles then some (illegal 3)
        else if (namedBars g.leader a b).any fun k => k < 112 && m.nbars ≤ k then some (illegal 0)
        else none
    | .detach .. => if diverged then some (mkTrap 0x04 0) else none
    | _ => none

/-- The machine after a collective whose group `g` has gathered in slot `q` of tile `t` of `s`; none where it traps. Cross-lane and matrix
instructions are presented from then on, for an issue of their own (08 R158, 14 R282). -/
def collective (i : Instr) (s : State) (t q : Nat) (g : Group) : Option State :=
  if (collectiveTrap i s t g).isSome then none
  else
    match i with
    | .regang _ => some (s.setGroup t q (goOn g i).regang)
    | .setw _ lo hi e =>
      let g1 := standBy g (.setw i)
      let s1 := s.setGroup t q g1
      match (s1.tile t).setwFit q g1 lo.toNat hi.toNat with
      | none => some s1
      | some (g2, wins) =>
        let g3 : Group := match e with
          | some a => { g1 with elastic := true, rgh := g1.leader.sReg a.toNat }
          | none => g1
        some (s1.regranted t q g3 g2 wins)
    | .attach _ role a b =>
      match s.team? t g.team with
      | none => none
      | some m =>
        let n := match role with
          | .none => 0
          | .producer => 1
          | .consumer => 2
        let g1 := if g.attached then g
          else { g with role := n, attached := true }.setAllot (if n = 2 then m.allotC else m.allotP)
        some (((namedBars g.leader a b).filter fun k => !((g.barBits k).getLsbD 0 || (g.barBits k).getLsbD 1)).foldl
          (fun r k => r.join t q k) (s.setGroup t q (goOn g1 i)))
    | .detach _ cond =>
      if cond && (match s.team? t g.team with
        | some m => m.shrink = 0
        | none => true) then some (s.setGroup t q (goOn g i))
      else some ((s.leaveAll t q).updGroup t q fun g => g.liveIdx.foldl (fun r k => r.setSlice k Slice.absent) g)
    | .mma .. | .mzero .. | .mld .. | .mst .. | .mscl .. => some (s.setGroup t q (standBy g (.present i)))
    | _ => (crossWrites i).map fun _ => s.updGroup t q fun g => standBy g (.present i)

/-- The machine after the issue of the cross-lane or matrix instruction that a group presents; none where it waits, for the allowance or
for the matrix unit, or where a register holds an error (08 R158, 14 R282, R289). -/
def presented (i : Instr) (s : State) (t q : Nat) (g : Group) : Option State :=
  if !g.sound then none
  else if Instr.isMatrix i then
    match s.mxAccepts t q g with
    | some (_, c, cost) => if (s.tile t).accBad.isEmpty then some (s.mxTake t q g i c cost) else none
    | none => none
  else
    match crossWrites i, s.classCost t q g g.liveIdx i ((g.grant + 31) / 32) with
    | some (h, f), some (c, cost) =>
      let res := g.liveIdx.map fun k =>
        (k, ((ctxOf s t q g k).guarded (g.slice k) h).map fun n => f c s t q g (g.leader.tyOf i) (4 * k + n))
      let g1 := res.foldl
        (fun r p =>
          let hx := p.2.filterMap Prod.snd
          let x : Slice := { (r.slice p.1).adv i with wait := .run }
          r.setSlice p.1 ((x.postHx (p.2.flatMap Prod.fst) (if hx.isEmpty then none else some hx)).finish (r.slice p.1) r i)) g
      some ((s.setGroup t q g1).updTile t fun x => x.debit q g.leader.gang cost)
    | _, _ => none

/-! ## Events: what each does where it is due -/

/-- Events of slices and groups (05 R83, 06 R121-R125, 09 R174, R175, R185, 10 R195, R201, R205, 18 R337-R347, R351). -/
def kernelEvent : Instr → State → Option State
  | .resultWriteback t q k i, s =>
    let x := s.slice t q k
    match s.group? t q, x.out[i]? with
    | some _, some p =>
      if p.tok ≠ 0 then none
      else
        let later (w : RegWrite) : Bool := p.writes.any fun u => u.dst = w.dst && s.choose (64 * (k * 2048 + w.dst.code) + 9) 2 = 1
        let y : Slice := { x with out := (x.out.eraseIdx i).map fun o => { o with writes := o.writes.filter fun w => !later w } }
        let z := p.writes.foldl Slice.write y
        some (s.setSlice t q k (match p.hx with
          | some items => { z with hx := updateHx z.ebud z.hx items }
          | none => z))
    | _, _ => none
  | .parkRelease t q k, s =>
    let x := s.slice t q k
    match s.group? t q, x.wait with
    | some _, .results => if x.out.isEmpty then some (s.setSlice t q k (goes x)) else none
    | some _, .refused | some _, .slot => some (s.setSlice t q k { x with wait := .run })
    | some g, .gear =>
      if (s.tile t).fast = g.gearReq || (g.gearReq && almCauses s.csr.almCause ≠ 0) then some (s.setSlice t q k { x with wait := .run })
      else none
    | some _, .context item bs =>
      let s1 := s.setSlice t q k (goes { (s.drained k x).ldctx item bs with pc := x.pc + 8 })
      let s2 := if item = 3 then s1.updGroup t q fun g => g.ldctx bs else s1
      some (if 0x10 ≤ item then s2.updTile t fun x => { x with alatch := Sparse.erase x.alatch (q / 16) } else s2)
    | some g, .regrant => some (s.setGroup t q (g.takeRegrant s).letPreempt)
    | _, _ => none
  | .rendezvousComplete t q, s =>
    match s.group? t q, gathered s t q with
    | some g, some p =>
      if g.atRendezvous && p.2.sound && p.2.liveIdx.all fun k => (p.2.slice k).pc = p.2.leader.pc then
        match p.2.leader.wait.coll? with
        | some i => collective i p.1 t q p.2
        | none => none
      else none
    | _, _ => none
  | .setwGrant t q, s =>
    match s.group? t q with
    | none => none
    | some g =>
      match (if g.liveIdx.all fun k => (g.slice k).wait = g.leader.wait then g.leader.wait else .run) with
      | .setw (.setw _ lo hi e) =>
        match (s.tile t).setwFit q g lo.toNat hi.toNat with
        | some (g2, wins) =>
          let g1 : Group := match e with
            | some a => { g with elastic := true, rgh := g.leader.sReg a.toNat }
            | none => g
          some (s.regranted t q g1 g2 wins)
        | none => none
      | _ => none
  | .gangPromotion t q gang, s =>
    match (s.tile t).reserve, (s.readyGangs t (q / 16)).filter fun r => r.key = (q, gang) with
    | none, [r] =>
      if (r.l.any fun k => 256 ≤ (r.g.slice k).promo) && (s.coverOf t r).isNone && !(r.pres && r.instr.any (s.lacksToken t)) then
        some (s.updTile t fun x => { x with reserve := some (q, gang, s.wantCost t r) })
      else none
    | _, _ => none
  | .yieldPauseEnd t q k, s =>
    match s.group? t q, (s.slice t q k).wait with
    | some _, .pause c => if c ≤ (if (s.tile t).qturn < 4 then (s.tile t).cycle else (s.tile t).cycle + 1) then some (s.setSlice t q k (goes (s.slice t q k))) else none
    | _, _ => none
  | .waittWake t q k, s =>
    match s.group? t q, (s.slice t q k).wait with
    | some _, .waitt v => if v.toNat ≤ s.time.toNat then some (s.setSlice t q k (goes (s.slice t q k))) else none
    | _, _ => none
  | .watchdog t q, s =>
    match s.group? t q with
    | some g =>
      if g.sect && decide (g.sectStart.toNat + 100000 ≤ s.time.toNat) then
        some (s.setGroup t q (g.liveIdx.foldl (fun r k => r.setSlice k { r.slice k with async := (r.slice k).async ++ [mkTrap 0x0F 0] })
          { g with sect := false }))
      else none
    | none => none
  | .trapDelivery t q k, s =>
    let x := s.slice t q k
    match x.wait with
    | .records tr beat =>
      if x.live && x.drainable && (beat = 0 || s.sending.all fun r => r.beat ≠ beat) && !s.frameHeld t q k then some (s.deliver t q k tr)
      else none
    | w =>
      match x.asyncNow with
      | some tr =>
        if x.live && x.drainable && w.interruptible && w ≠ .future then
          let rpc := tr.rpc.getD x.resumePc
          let y : Slice := { x with pc := rpc, async := x.async.erase tr, wait := .records { tr with rpc := some rpc } 0 }
          let r := (s.setSlice t q k y).updGroup t q fun g => (if tr.vec = 0x0D then g.noteGang k else g).leaveGang k
          some (if r.frameHeld t q k then r else r.deliver t q k { tr with rpc := some rpc })
        else none
      | none => none
  | .preemptionRequest t q, s => (s.group? t q).map fun g => s.setGroup t q { g with preReq := true }.letPreempt
  | .tlbinvComplete t q k, s =>
    match s.group? t q, (s.slice t q k).wait with
    | some _, .tlbinv kind asid va =>
      let drop (e lv pre : Nat) : Bool := kind = 0 || (e = asid && (kind = 1 || (decide (lv < 5) && pre = va / 2 ^ levelShift lv)))
      let r := s.setSlice t q k (goes (s.slice t q k))
      some { r with
        tents := r.tents.filter fun e => !drop e.asid e.level e.prefix_,
        tiles := (r.tiles.map fun p => (p.1, { p.2 with tlb := p.2.tlb.filter fun e => !drop (e.1 / 8) (e.1 % 8) e.2 })).filter fun p =>
          decide (p.2 ≠ Tile.reset) }
    | _, _ => none
  | _, _ => none

/-- Events of tiles (09 R182-R184, 10 R193-R203, 11 R210, 14 R289, R293, R297, R298, 22 R395). -/
def tileEvent : Instr → State → Option State
  | .reedRingInjection die, s =>
    let us := (Sparse.get Ring.reset s.rings die).us
    if s.powered && s.booted && die < 8 && (Sparse.get Ring.reset s.rings die).todo.isEmpty && 1000 * us ≤ s.time.toNat then
      let r : Ring :=
        { us := us + 1, share := max 1536 (min ((s.csr.pwrLim - 240) * 1000000 / 16384) 156250), carry := 0,
          todo := (List.range 4).flatMap fun c => (List.range 8).map fun p => 32 * die + 8 * ((us + c) % 4) + p }
      some { s with rings := Sparse.set Ring.reset s.rings die r }
    else none
  | .shareArrival t, s =>
    let r := Sparse.get Ring.reset s.rings (t / 32)
    if r.todo.head? = some t then
      let got := min (r.share + r.carry) (262143 - ((s.tile t).allow + (s.tile t).incoming))
      let r1 : Ring := { r with carry := r.share + r.carry - got, todo := r.todo.tail }
      some (({ s with rings := Sparse.set Ring.reset s.rings (t / 32) r1 } : State).updTile t fun x => { x with incoming := x.incoming + got })
    else none
  | .barrierArrive t q k, s =>
    match s.group? t q with
    | some g =>
      match g.arrSent.find? fun a => a.k = k with
      | none => none
      | some a =>
        if s.arrivalHeld t g a then none
        else
          let b := s.bar t g.team a.k
          let m := g.barBits a.k
          let now := m.getLsbD 0 && !m.getLsbD 2
          some (((s.setGroup t q ({ g with arrSent := g.arrSent.erase a }.setBits a.k (m ||| (if now then 4 else 8)))).setBar t g.team a.k
            (if now then { b with c := b.c + 1 } else { b with na := b.na + 1 })).advance t g.team a.k 3)
    | none => none
  | .barrierLeave i, s =>
    let s1 := s.leaveArrivals i ((s.leaves[i]?).elim 0 Leave.arrs)
    if (s.leaves[i]?).any s.leaveHeld then none
    else (s1.leaves[i]?).map fun l =>
      let b := s1.bar l.tile l.team l.k
      let b1 : Bar := if l.bits.getLsbD 3 then { b with na := b.na - 1 } else b
      let b2 : Bar :=
        if l.bits.getLsbD 1 then { b1 with j := b1.j - 1 }
        else { b1 with c := if l.bits.getLsbD 2 then b1.c else b1.c + 1, x := b1.x + 1 }
      (({ s1 with leaves := s1.leaves.eraseIdx i } : State).setBar l.tile l.team l.k b2).advance l.tile l.team l.k 3
  | .barrierRelease t, s =>
    some (s.updTile t fun x => { x with groups := x.groups.map fun p => (p.1, { p.2 with slices := p.2.slices.map fun y =>
      (y.1, match y.2.wait with
        | .barrier k tok => if tokenDone (s.bar t p.2.team k).gen tok then goes y.2 else y.2
        | .arrive k => if !y.2.arrv.getLsbD k && (p.2.inProgress k || !p.2.arriveFull k) then { y.2 with wait := .run } else y.2
        | _ => y.2) }) })
  | .gearResolveChange t, s =>
    if (s.tile t).phase = .idle && s.resolved t ≠ (s.tile t).fast then some (s.updTile t fun x => { x with phase := .stopping, reserve := none })
    else none
  | .gearSwitchStart t, s =>
    if (s.tile t).phase = .stopping && s.settled t false then
      some (s.updTile t fun x =>
        if s.resolved t = x.fast then { x with phase := .idle }
        else { x with phase := .switching (s.resolved t), fast := x.fast && s.resolved t, inBurst := false })
    else none
  | .gearSwitchEnd t, s =>
    match s.alarmed, (s.tile t).phase with
    | false, .switching f => some (s.updTile t fun x => { x with phase := .idle, fast := f })
    | false, .forced => some (s.updTile t fun x => { x with phase := .idle })
    | _, _ => none
  | .dozeStart t, s =>
    if s.settled t true && (s.tile t).phase = .idle && !(s.tile t).doze &&
        (s.tile t).groups.all fun p => !p.2.atRendezvous && p.2.liveIdx.all fun k => (p.2.slice k).wait.dozes then
      some (s.updTile t fun x => { x with doze := true, inBurst := false, reserve := none })
    else none
  | .dozeWake t, s => some (s.updTile t fun x => { x with doze := false })
  | .instructionFetchMiss t q k, s =>
    match s.group? t q with
    | none => none
    | some g =>
      let l := g.gangSlices (g.slice k).gang
      if (g.slice k).live && l.all fun j => (g.slice j).wait = .run && !g.gathers j then
        match s.fetch t g (l.headD k) with
        | .words .. | .held => none
        | .fault s1 tr beat =>
          if l.all fun j => (g.slice j).asyncNow.isNone && ((g.slice j).pm || (g.slice j).skipBp || !s.breakAt (g.slice j).pc) then
            some (l.foldl (fun r j => r.raise t q j tr beat) s1)
          else none
        | .miss s1 loc =>
          if (s1.tile t).icPend.elem (loc.key / 256) then some s1
          else
            some (((s1.countReq (t / 32) loc).sliceLine (some g.asid) false loc.line 0b1111).updTile t fun x =>
              { x with icPend := x.icPend ++ [loc.key / 256] })
      else none
  | .icacheFill t i, s =>
    match (s.tile t).icPend[i]? with
    | none => none
    | some n =>
      if s.owned (256 * n) 256 || s.linkHeld [({ key := 256 * n, tagged := false, l2s := 0, cp := 0 }, 256)] then none
      else
        some (s.updTile t fun x =>
          { x with icPend := x.icPend.eraseIdx i,
                   icache := icInsert x.icache
                     { line := n, data := (List.range 256).map fun i => s.byte (256 * n + i),
                       bad := (List.range 32).filter fun j => s.poisonAt (256 * n + 8 * j) 8 } })
  | .matrixAccept t q, s =>
    match s.quarter t with
    | .none _ => none
    | .issue r s1 =>
      let m := s1.focusOn t r
      if !(r.pres && r.slot = q && r.instr.any Instr.isMatrix) then none
      else
        match m.group? t q with
        | none => none
        | some g => (m.mxAccepts t q g).map fun a => m.mxIssue t q g a.1 a.2.1 a.2.2
  | .matrixComplete t, s =>
    match (s.tile t).mx with
    | none => none
    | some m =>
      let idle (x : Tile) : Tile := { x with mx := none, burstIdle := match m.instr with
        | .mma .. => 0
        | _ => x.burstIdle }
      match m.instr, s.group? t m.slot with
      | .mst .., _ => none
      | _, none => some (s.updTile t idle)
      | _, some g =>
        if g.gid ≠ m.gid then some (s.updTile t idle)
        else
          let rows := s.mxRows t g m
          let cols : Nat → Bool := match m.instr with
            | .mscl _ _ _ _ cm => cm.getLsbD
            | _ => fun _ => true
          let g1 := g.liveIdx.foldl
            (fun r k => let y := (r.slice k).answer m.tok; r.setSlice k (if m.auto && m.ty ≠ .i8 then y.mxHx k rows else y)) g
          some ((s.updTile t fun x => idle (rows.foldl (fun y r => y.setRow r.1.1 r.1.2 r.2.1 r.2.2 cols) x)).setGroup t m.slot
            { g1 with sq := g1.sq.map fun e => match e with
                | .fence hold full sys ts cs _ => .fence hold full sys ts cs false
                | e => e })
  | .mstConvertDone t, s =>
    match (s.tile t).mx with
    | none => none
    | some m =>
      match m.instr with
      | .mst _ td ts rnd k _ _ _ sp nc =>
        let s1 := s.updTile t fun x => { x with mx := none }
        match s1.group? t m.slot with
        | none => some s1
        | some g => if g.gid = m.gid && !g.liveIdx.isEmpty then s1.mstFinish t g m td ts rnd k sp nc else some s1
      | _ => none
  | .burstEnd t, s =>
    if 64 < (s.tile t).burstIdle then some (s.updTile t fun x => { x with inBurst := false, burstIdle := 0 }) else none
  | .burstTokenRotate, s =>
    if s.powered && s.booted then
      let seen (x : Tile) : Tile := if x.qturn = 0 || x.qturn = 4 then { x with token := s.time.toNat / 50 } else x
      some { s with tiles := (s.tiles.map fun p => (p.1, seen p.2)).filter fun p => decide (p.2 ≠ Tile.reset) }
    else none
  | .alarmQuietExpiry, s =>
    if s.powered && s.booted && almCauses s.csr.almCause = 0 && s.almQuiet.toNat + 2000 ≤ s.time.toNat then
      some (s.tiles.keys.foldl (fun r t =>
        if (r.tile t).phase = .idle && r.resolved t ≠ (r.tile t).fast then r.updTile t fun x => { x with phase := .stopping, reserve := none }
        else r) s)
    else none
  | _, _ => none

/-- Events of the store queues, the engines and the sluice unit (11 R213-R235, 12 R240-R254, 13 R265-R274, 16 R319, 17 R332, 19 R370,
R371). -/
def queueEvent : Instr → State → Option State
  | .storeQueuePerform t q, s =>
    match s.group? t q with
    | none => none
    | some g =>
      match s.sqIdle g.sq 0 with
      | some (n, sys) => some ((if sys then s.drainHost t g.asid else s).setGroup t q (g.popAt n))
      | none =>
        match s.sqHead g with
        | none => none
        | some (e, g1) =>
          let s1 := s.setGroup t q g1
          match e with
          | .store _ accs =>
            if s1.writeHeld (accLens accs) then none
            else
              let ok := accs.filter fun a => reaches a.loc
              some ((s1.touch t g1.asid true (accLens ok)).perform ok)
          | .stf accs =>
            if s1.writeHeld (accLens accs) then none
            else
              let ok := accs.filter fun a => reaches a.loc
              some ((s1.atSlice (t / 32) g1.asid true (accLens ok)).fillGranules ok)
          | .clrf locs =>
            if s1.writeHeld (locs.map fun l => (l, 8)) then none
            else
              let ok := locs.filter reaches
              some (ok.foldl
                (fun r l => if r.emptyGran.any fun p => p.1 = l.key / 8 then r
                  else { r with emptyGran := r.emptyGran ++ [(l.key / 8, l.l2s)] })
                (s1.atSlice (t / 32) g1.asid false (ok.map fun l => (l, 8))))
          | .atomic _ f n tok lanes =>
            let ls := lanes.map fun a => (a.loc, n)
            if s1.linkHeld ls || ls.any fun p => s1.owned p.1.key p.2 then none
            else
              match lanes.filter fun a => s1.poisonAt a.loc.key n with
              | a :: bad => some (s1.atomPoison t q g1 n tok lanes a bad)
              | [] =>
                let s2 := lanes.foldl (fun r a => r.atomLane t q f n tok a) (s1.atSlice (t / 32) g1.asid true ls)
                some ((nubNat (lanes.map AtomLane.slice)).foldl (fun r k => r.updSlice t q k fun x => x.answer tok) s2)
          | .cctl op locs => some (locs.foldl (fun r l => r.cctlLine t g1.asid op l) s1)
          | .spawn tok pd recs =>
            some ((nubNat (recs.map fun p => p.1 / 4)).foldl (fun r k => r.updSlice t q k fun x => x.answer tok)
              (s1.offer t q (s1.groupLaunch t g1) tok pd recs true))
          | .slrel k n => some (s1.advanceRel k n)
          | .slveto k n =>
            let v := s1.sluice k
            let a := v.slotAt n + 8
            if s1.owned (v.slotAt n) 64 then none
            else if v.rel.toNat ≤ n then some ((s1.hubStore a (leBytes 8 (s1.read64 a ||| (1#64 <<< 63)).toNat)).advanceRel k n)
            else some ((s1.setSluice k { v with vlost := true }).advanceRel k n)
          | .fence .. | .copy _ | .slput .. => none
  | .sluicePut t q, s =>
    match s.group? t q with
    | none => none
    | some g =>
      match s.sqHead g with
      | some (.slput k tok j d payload, g1) =>
        let v := s.sluice k
        let a := v.slotAt v.put.toNat
        if v.put.toNat - v.host.toNat = v.n || s.owned a 64 then none
        else
          let rec_ := [BitVec.ofNat 64 v.put.toNat, packBits [(g.asid % 2 ^ 15, 48), (t % 512, 39), (j % 32, 34)]] ++ payload
          some ((((s.setGroup t q g1).hubStore a (wordBytes rec_)).setSluice k { v with put := v.put + 1 }).updSlice t q j
            fun x => (x.give tok [wS d.toNat v.put]).answer tok)
      | _ => none
  | .engineIssue t q, s =>
    match s.group? t q with
    | none => none
    | some g =>
      match s.sqHead g with
      | some (.copy c, g1) =>
        let x := s.tile t
        let e := if x.eng0.length ≤ x.eng1.length then 0 else 1
        if 16 ≤ (x.eng e).length then none
        else
          some (({ s.setGroup t q g1 with nextId := s.nextId + 1 } : State).updTile t
            fun x => x.setEng e (x.eng e ++ [{ c with seq := s.nextId }]))
      | _ => none
  | .copyCompletion t e, s =>
    match (s.tile t).eng e with
    | [] => none
    | c :: _ =>
      if c.miss.isSome then none
      else
        match s.reach t c with
        | (n, none) => some ((s.moveTo t c n).copyOver t e c false)
        | (n, some (.nonres w va entry)) =>
          some ((((s.moveTo t c (c.cut n)).noteStop t c w va).setCopy t e
            { c with done := c.cut n, miss := some (BitVec.ofNat 64 va) }).sendEngine (s.engineRec t c va (if w then 0x11 else 0x10) 7 entry))
        | (n, some .held) => some ((s.moveTo t c (c.cut n)).setCopy t e { c with done := c.cut n })
        | (_, some (.fail ..)) => none
        | (_, some (.span _)) => none
  | .copyFailure t e, s =>
    match (s.tile t).eng e with
    | [] => none
    | c :: _ =>
      match c.miss, s.reach t c with
      | none, (n, some (.fail w va cause entry)) =>
        some (((((s.moveTo t c n).noteStop t c w va).copyOver t e c (c.kind ≠ .cout)).sendEngine
          (s.engineRec t c va cause (if w then 5 else 4) entry)).copyTrap t c
            { mkTrap (causeVec .csrc cause) 0 with aux0 := BitVec.ofNat 64 va, aux1 := packBits [(1, 8), (cause, 0)] })
      | none, (n, some (.span va)) =>
        some (((s.moveTo t c n).copyOver t e c (c.kind ≠ .cout)).copyTrap t c { mkTrap 0x06 0 with aux0 := BitVec.ofNat 64 va })
      | _, _ => none
  | .engineTranslationRetry t e, s =>
    match (s.tile t).eng e with
    | [] => none
    | c :: _ =>
      match (s.reach t c).2 with
      | some (.nonres _ va _) =>
        if c.miss.any fun m => (s.pageAt c.asid va).holds m.toNat then none else some (s.setCopy t e { c with miss := none })
      | _ => some (s.setCopy t e { c with miss := none })
  | .residencyNotify asid va, s =>
    let one (t : Nat) (c : Copy) : Copy :=
      if c.asid = asid && c.miss.any fun m => (s.pageAt asid va).holds m.toNat then
        (match (s.reach t c).2 with
          | some (.nonres _ v _) => if c.miss.any fun m => (s.pageAt c.asid v).holds m.toNat then c else { c with miss := none }
          | _ => { c with miss := none })
      else c
    some { s with tiles := s.tiles.map fun p =>
      (p.1, { p.2 with eng0 := p.2.eng0.map (one p.1), eng1 := p.2.eng1.map (one p.1) }) }
  | _, _ => none

/-- Events of groups' ends and of the scheduler (10 R186, R191, 16 R304-R317, 18 R348, 21 R382-R389). -/
def schedEvent : Instr → State → Option State
  | .groupSaveLeave t q, s =>
    match s.group? t q with
    | none => none
    | some g =>
      match g.saveKind with
      | none => none
      | some (addr, rls) =>
        if !g.sq.isEmpty || !(s.groupCopies t q g).isEmpty || (s.tile t).mxOf g then none
        else
          let s1 := g.arrSent.foldl (fun r a => r.arriveAt t q a.k) (s.drainHost t g.asid)
          match s1.group? t q with
          | none => none
          | some g1 =>
            let v : Saved :=
              { tile := t, away := none, drained := if s.draining t then some s.testStart else none, rls := rls || s.draining t, level := s.teamLevel t g.team,
                grp := { g1 with image := addr } }
            let s2 := s1.updTile t fun x => x.dropGroup q g
            some (({ s2 with resumed := s2.resumed ++ [Resume.group v] } : State).settle t g.team)
  | .groupEnd t q, s =>
    match s.group? t q with
    | none => none
    | some g =>
      if !g.liveIdx.isEmpty || !g.sq.isEmpty || (s.tile t).mxOf g then none
      else
        some ((((s.leaveAll t q).updTile t fun x => x.dropGroup q g).updTeam t g.team fun m => { m with live := m.live - 1 }).settle t g.team)
  | .teamKilled t k, s =>
    match s.team? t k with
    | none => none
    | some m =>
      if !m.doomed then none
      else
        let qs := ((s.tile t).teamGroups k).keys
        let stop (r : State) (q : Nat) : State :=
          ({ r with deferral := r.deferral.filter fun h => !(h.tile = t && h.slot = q) }).endGroup t q
        some ((qs.foldl (fun r q => r.groupEnd t q) (qs.foldl stop s)).settle t k)
  | .launchRecordRead n, s =>
    let x := s.queue n
    if !(s.powered && s.booted) || !x.en || x.stop || x.tail = x.head then none
    else if x.n < (x.tail - x.head).toNat then some (s.refuseRecord n 0x0B)
    else if x.cur.isSome then none
    else
      match s.hubRead x.asid .load x.slotVa 16 with
      | .wait => none
      | .bad s1 | .nonres s1 _ => some (s1.refuseRecord n 0x0A)
      | .ok s1 loc _ =>
        let ws := (List.range 16).map fun i =>
          BitVec.ofNat 64 (leNat (s1.unitSince x.since (64 * i + 17) (loc.key / 8 + i)).data)
        match s1.dependence x.asid ws false with
        | (s2, none) => some (s2.refuseRecord n 0x0C)
        | (s2, some d) =>
          let code := s2.recordCode (x.launch n 0 ws)
          some (if code = 0 then s2.setQueue n { x with cur := some { words := ws, depMet := d.1, asked := d.2 } } else s2.refuseRecord n code)
  | .launchRecordAccept n, s =>
    let x := s.queue n
    match x.cur with
    | none => none
    | some r =>
      let free := s.powered && s.booted && x.en && !x.stop && decide (x.tail ≠ x.head)
      if free && decide (x.n < (x.tail - x.head).toNat) then some (s.refuseRecord n 0x0B)
      else if free && r.depMet && (r.words.getD 6 0).toNat ≤ s.time.toNat && s.lastPlaced x && s.launches.length < 4096 then
        let l : Launch :=
          { id := s.nextId, queue := n, level := min (fieldAt r.words 11 13 12) x.prio, asid := x.asid, words := r.words, placed := 0,
            complete := 0, kills := [], lost := false, asked := false }
        some { s.putQueue n { x with cur := none, head := x.head + 1, last := some s.nextId } with
          launches := s.launches ++ [l], nextId := s.nextId + 1 }
      else none
  | .dependenceRecheck n, s =>
    let x := s.queue n
    match x.cur with
    | none => none
    | some r =>
      if !(s.powered && s.booted) || !x.en || x.stop || x.tail = x.head then none
      else if x.n < (x.tail - x.head).toNat then some (s.refuseRecord n 0x0B)
      else
        match s.dependence x.asid r.words r.asked with
        | (s1, none) => some (s1.refuseRecord n 0x0C)
        | (s1, some d) => some (s1.setQueue n { x with cur := some { r with depMet := d.1, asked := d.2 } })
  | .schedulerPlacement, s => some (State.serve s.offers s)
  | .growthGroupStart t k, s =>
    match s.team? t k with
    | none => none
    | some m =>
      match s.launch? m.launch with
      | none => none
      | some l =>
        if m.task.isSome || m.doomed || m.maxGroups ≤ m.live || s.waitsAbove l.level ||
            !(m.grownAt.all fun v => v.toNat + 1000 ≤ s.time.toNat) || !s.inService t then none
        else
          ((s.tile t).addGroup (max m.allotP m.allotC) (l.flag 6) (fun n => List.range (n / 4)) l.wlo l.whi fun p =>
            l.group s.nextId k (s.freeIdx t k) 0 (max m.allotP m.allotC) (s.tile t).cycle false p
              (l.teamSlice m.idx k (s.freeIdx t k) p.grant (s.tile t).cycle)).map fun y =>
            ({ s.setTile t y with nextId := s.nextId + 1 } : State).updTeam t k fun m => { m with live := m.live + 1, grownAt := some s.time }
  | .shrinkRequest t k, s =>
    match s.team? t k with
    | none => none
    | some m =>
      if s.waitsAbove (s.levelOf m.launch) && m.minGroups < m.live && m.shrink < m.live - m.minGroups &&
          m.shrunkAt.all fun v => v.toNat + 10000 ≤ s.time.toNat then
        some (s.updTile t fun x => x.setTeam k { m with shrink := m.shrink + 1, shrunkAt := some s.time })
      else none
  | .preemptEscalation, s =>
    match s.starved with
    | none => none
    | some o =>
      some ((s.untilFits o (s.victims (s.offerLevel o))).foldl
        (fun r v => match r.group? v.1 v.2 with
          | some g => if g.beingPreempted then r else r.setGroup v.1 v.2 { g with preReq := true }.letPreempt
          | none => r) s)
  | .gatherClose i, s =>
    match s.gathers[i]? with
    | some q =>
      if s.powered && s.booted && q.start.toNat + 2000 ≤ s.time.toNat then
        some { s with
          gathers := s.gathers.filter fun p => p.id ≠ q.id,
          taskQ := s.taskQ ++ (s.gathers.filter fun p => p.id = q.id).map fun p => { p with isOpen := false } }
      else none
    | none => none
  | .taskRetire i, s =>
    match s.retiring[i]? with
    | none => none
    | some r =>
      let succ := r.words.getD 2 0
      let asid := s.launchAsid r.launch
      let gone (q : State) : State := { q with retiring := q.retiring.eraseIdx i }
      if !(s.powered && s.booted) || (s.retiring.take i).any fun p => p.grp = r.grp then none
      else
        match r.dep with
        | some ws => if s.taskRoom (s.levelOf r.launch) then some (s.enqueueDep i r ws) else none
        | none =>
          if succ = 0 then some (gone s)
          else
            match s.hubRead asid .atomic (succ.toNat % 2 ^ 56) 2 with
            | .wait => none
            | .bad s1 => some (gone s1)
            | .nonres s1 entry =>
              some (if r.asked then s1
                else ({ s1 with retiring := s1.retiring.set i { r with asked := true } } : State).hubRequestPage asid
                  (succ.toNat % 2 ^ 56) true (s.launchTag r.launch) entry)
            | .ok s1 loc v =>
              let n := v.getD 0 0
              if n = 0 then some ((gone s1).logRetire r 0x0C succ)
              else
                let s2 := (s1.hubTouch true [(loc, 8)]).perform [{ loc := loc, data := leBytes 8 (n - 1).toNat, bnd := 0 }]
                if n = 1 && v.getD 1 0 ≠ 0 then some ((s2.readDep i r (v.getD 1 0)).getD s) else some (gone s2)
  | .launchCompletion id, s =>
    match s.launch? id with
    | none => none
    | some l =>
      let done := (l.words.getD 7 0).toNat % 2 ^ 56
      let s0 := s.drainLaunch l
      if !(s.powered && s.booted) || !s.launchOver l then none
      else if l.words.getD 7 0 = 0 then some (s0.dropLaunch id)
      else
        match s0.hubRead l.asid .atomic done 1 with
        | .wait => none
        | .nonres s1 entry =>
          some (if l.asked then s1
            else (s1.hubRequestPage l.asid done true (l.words.getD 12 0) entry).updLaunch id fun l => { l with asked := true })
        | .bad s1 => some ((s1.logError 0x11 0 l.asid 328 0 0 0 0 0 (l.words.getD 12 0) (BitVec.ofNat 64 done)).dropLaunch id)
        | .ok s1 loc v =>
          some (((s1.hubTouch true [(loc, 8)]).perform
            [{ loc := loc, data := leBytes 8 (v.getD 0 0 + (if l.lost then (1#64 <<< 63) + 1 else 1)).toNat, bnd := 0 }]).dropLaunch id)
  | .testInterval, s =>
    let v := s.csr.testStat
    if s.powered && s.booted && s.csr.testCfg.getLsbD 32 && !v.getLsbD 8 && !v.getLsbD 9 &&
        s.testStart.toNat + bits s.csr.testCfg 31 0 * 1000000 ≤ s.time.toNat then
      (((List.range 32).map fun k => (bits v 4 0 + 1 + k) % 32).find? fun c => !v.getLsbD (32 + c)).map fun c =>
        ((List.range 8).map fun k => 8 * c + k).foldl
          (fun r t => ((s.tile t).groups.keys.foldl (fun q k => q.preempt t k) r).settleAll t)
          (State.drainSaved
            { s with csr := { s.csr with testStat := keep v 63 32 ||| packBits [(1, 9), (0, 8), (c, 0)] }, testStart := s.time } c)
    else none
  | .scanStart, s =>
    let v := s.csr.testStat
    if s.powered && s.booted && v.getLsbD 9 && s.drained? (bits v 4 0) then
      some { s with csr := { s.csr with testStat := keep v 63 32 ||| packBits [(0, 9), (1, 8), (bits v 4 0, 0)] } }
    else none
  | .testPass, s =>
    let v := s.csr.testStat
    if s.powered && s.booted && v.getLsbD 8 then
      some (({ s with csr := { s.csr with testStat := keep v 63 32 ||| packBits [(0, 9), (0, 8), (bits v 4 0, 0)] } } : State).logError
        0x0A 0 0 330 0 0 0 0 0 0 (BitVec.ofNat 64 (bits v 4 0)))
    else none
  | .testFail tiles, s =>
    let v := s.csr.testStat
    let n := bits v 4 0
    if s.powered && s.booted && v.getLsbD 8 then
      some (({ s with csr := { s.csr with testStat := keep v 63 32 ||| packBits [(0, 9), (0, 8), (n, 0)] ||| 1#64 <<< (32 + n) } } : State).logError
        0x0B 0 0 330 0 0 0 0 0 0 (BitVec.ofNat 64 (n * 2 ^ 32 + tiles.toNat)))
    else none
  | _, _ => none

/-- Events of records, logs, interrupts and the host's accesses (16 R304, 17 R328-R331, 18 R344, 19 R359-R362, R368, R371, R372, 21 R390,
22 R392, R394, R399). -/
def hostEvent : Instr → State → Option State
  | .faultRecordAccept i, s =>
    match s.sending[i]? with
    | none => none
    | some r =>
      let rest := s.sending.eraseIdx i
      let gone : State := { s with sending := (rest.filter fun q => q.beat ≠ r.beat) ++ rest.filter fun q => q.beat = r.beat }
      let sent (j : Nat) (q : SentRec) : Bool := (s.sending.take j).all fun p => p.beat ≠ q.beat
      if !(s.powered && s.booted) || r.refused.isSome || !sent i r ||
          (r.home ≠ s.csr.fldomId.toNat && (s.sending.take i).zipIdx.any fun q => q.1.home = r.home && sent q.2 q.1) then none
      else if r.home ≠ s.csr.fldomId.toNat then (if s.unroutable then none else some gone)
      else if 4096 ≤ s.mergeBuf.length then some { s with sending := s.sending.set i { r with refused := some s.time } }
      else
        let late := (r.words.getD 0 0).toNat + 2000 < s.time.toNat
        let r1 : SentRec := if late then { r with words := r.words.set 2 (r.words.getD 2 0 ||| (1#64 <<< 63)) } else r
        some (({ gone with mergeBuf := s.mergeBuf ++ [r1] } : State).charge (fieldAt r.words 2 62 48) .frec 1)
  | .faultRecordResend i, s =>
    match s.sending[i]? with
    | some r =>
      match r.refused with
      | some v => if v.toNat + 1000 ≤ s.time.toNat then some { s with sending := s.sending.set i { r with refused := none } } else none
      | none => none
    | none => none
  | .faultLogWrite, s =>
    match s.logNext s.mergeBuf s.csr.flCfg s.csr.flW s.csr.flR with
    | none => none
    | some (i, r) =>
      let a := logSlot s.csr.flBase s.csr.flCfg s.csr.flW
      if s.owned a 64 then none
      else
        let s1 := s.hubStore a (wordBytes r.words)
        some { s1 with
          mergeBuf := s1.mergeBuf.eraseIdx i, csr := { s1.csr with flW := s.csr.flW + 1 }, msixPend := s1.msixPend ||| (1#64 <<< 0) }
  | .errorLogWrite, s =>
    match s.logNext s.errBuf s.csr.elCfg s.csr.elW s.csr.elR with
    | none => none
    | some (i, r) =>
      let a := logSlot s.csr.elBase s.csr.elCfg s.csr.elW
      if s.owned a 64 then none
      else
        let s1 := s.hubStore a (wordBytes r.words)
        some { s1 with
          errBuf := s1.errBuf.eraseIdx i, csr := { s1.csr with elW := s.csr.elW + 1 }, msixPend := s1.msixPend ||| (1#64 <<< 1) }
  | .msixMessage v, s =>
    if s.powered && s.booted && v < 64 && s.msixPend.getLsbD v && !s.msixMasked v &&
        (Sparse.find? s.msixLast v).all (fun w => w.toNat + 1000 ≤ s.time.toNat) then
      some { s with
        msixPend := s.msixPend &&& ~~~(1#64 <<< v), msixLast := Sparse.insert s.msixLast v s.time, msixSent := s.msixSent ++ [v] }
    else none
  | .qdb n tail, s =>
    if s.powered && s.booted && n < 16384 then some (s.putQueue n { s.queue n with tail := tail }) else none
  | .qcfgWrite n v, s =>
    let x := s.queue n
    if !(s.powered && s.booted) || 16384 ≤ n then none
    else if x.en then some (s.putQueue n (if v.getLsbD 0 then x else { x with cfg := x.cfg &&& ~~~1, cur := none }))
    else some (s.putQueue n { x with cfg := qcfgBits v })
  | .qstatStopClear n, s =>
    let x := s.queue n
    if s.powered && s.booted && n < 16384 && x.stop then
      some (s.putQueue n { x with stop := false, head := x.head + 1, cur := none })
    else none
  | .hostWrite .host off data, s =>
    if s.powered && s.booted && !data.isEmpty && off + data.length ≤ 2 ^ 52 && !s.owned (outerKey 0 off) data.length then
      let lines : List Loc := (List.range ((off % 256 + data.length + 255) / 256)).map fun i =>
        { key := outerKey 0 ((off / 256 + i) * 256), tagged := false, l2s := interleaved ((off / 256 + i) * 256), cp := 0 }
      let accs : List Acc := [{ loc := { key := outerKey 0 off, tagged := true, l2s := 0, cp := 4 }, data := data, bnd := 0 }]
      let s1 := (lines.foldl (fun r l => (r.recall none noTile l true).l2Clean none true l) s).perform accs
      let secs := nubNat (accs.flatMap accSectors)
      some { secs.foldl (fun r k => r.setTag (64 * k) 0) s1 with badTags := s1.badTags.filter fun k => !secs.elem k }
    else none
  | .hostWrite .data off data, s =>
    if s.powered && s.booted && s.hdm.getLsbD 0 && 0 < data.length && off + data.length ≤ dataEnd && !s.owned off data.length then
      let accs : List Acc := (data.zipIdx.filter fun p => !s.inRing (off + p.2)).map fun p =>
        { loc := { hubLoc (off + p.2) with tagged := false }, data := [p.1], bnd := 0 }
      let s1 := (s.hubTouch true (sectorPieces hubLoc off data.length)).perform accs
      let secs := nubNat (accs.flatMap accSectors)
      some { secs.foldl (fun r k => r.setTag (64 * k) 0) s1 with badTags := s1.badTags.filter fun k => !secs.elem k }
    else none
  | .hostWrite .peat off data, s =>
    let pa := peatBase + off
    if s.powered && s.booted && s.hdm.getLsbD 1 && 0 < data.length && off + data.length ≤ 2 ^ 34 && !s.owned pa data.length &&
        off % 128 + data.length ≤ 128 then
      some ((s.hubTouch true (sectorPieces hubLoc pa data.length)).perform ((data.zipIdx.filter fun p => !s.inRing (pa + p.2)).map fun p =>
        { loc := { hubLoc (pa + p.2) with tagged := false }, data := [p.1], bnd := 0 }))
    else none
  | .hostRead peat off n, s =>
    let pa := (if peat then peatBase else 0) + off
    if s.powered && s.booted && s.hdm.getLsbD (if peat then 1 else 0) && 0 < n && off + n ≤ (if peat then 2 ^ 34 else dataEnd) &&
        !s.owned pa n then
      let ans : Answer :=
        { data := (List.range n).map fun i => if s.unreleased (pa + i) then 0 else s.byte (pa + i), tag := 0, poisoned := s.poisoned pa n,
          refused := false }
      some { s.hubTouch false (sectorPieces hubLoc pa n) with hostOut := some ans }
    else none
  | .slhostWrite n v, s =>
    let x := s.sluice n
    if s.powered && s.booted && n < 4096 && v.toNat ≤ x.rel.toNat && x.host.toNat ≤ v.toNat then some (s.setSluice n { x with host := v })
    else none
  | .slcfgWrite n v, s =>
    let x := s.sluice n
    if !(s.powered && s.booted) || 4096 ≤ n then none
    else if x.en then some (s.setSluice n (if v.getLsbD 0 then x else { x with cfg := x.cfg &&& ~~~1 }))
    else if v.getLsbD 0 then some (s.setSluice n { x with cfg := slcfgBits v, put := 0, rel := 0, host := 0 })
    else some (s.setSluice n { x with cfg := slcfgBits v })
  | .almcauseClear v, s =>
    if s.powered && s.booted then
      let m : BitVec 16 :=
        if s.almTie.seenAt = s.time && s.choose 18 2 = 1 then v.setWidth 16 &&& ~~~s.almTie.seen else v.setWidth 16
      let a := s.csr.almCause &&& ~~~m
      some { s with
        csr := { s.csr with almCause := a },
        almQuiet := if almCauses s.csr.almCause ≠ 0 && almCauses a = 0 then s.time else s.almQuiet,
        almTie := { s.almTie with clearedAt := s.time, cleared := s.csr.almCause &&& m } }
    else none
  | .pwrlimWrite v, s =>
    if s.powered && s.booted then some { s with csr := { s.csr with pwrLim := max 266 (min (bits v 11 0) 2800) } } else none
  | .flridxWrite el v, s =>
    if s.powered && s.booted then
      some { s with csr := if el then { s.csr with elR := v.setWidth 32 } else { s.csr with flR := v.setWidth 32 } }
    else none
  | .registerWrite (.hdm peat) v, s =>
    if s.powered && s.booted then
      some { s with hdm := if v.getLsbD 0 then s.hdm ||| (1#2 <<< b2n peat) else s.hdm &&& ~~~(1#2 <<< b2n peat) }
    else none
  | .registerWrite (.bar off) v, s =>
    if off % 8 ≠ 0 || !(s.powered && s.booted) then none
    else if off < 0x080000 then
      let x := s.queue (off / 32)
      some (s.putQueue (off / 32) (match off / 8 % 4 with
        | 0 => if x.en then x else { x with base := keep v 55 7 }
        | 1 => x.writeCfg v
        | 2 => { x with tail := v.setWidth 32 }
        | _ => if v.getLsbD 8 && x.stop then { x with stop := false, head := x.head + 1, cur := none } else x))
    else if off < 0x084000 then
      if off / 8 % 8 = 7 then none else some { s with counters := Sparse.set 0 s.counters ((off - 0x080000) / 8) v }
    else if 0x0A0000 ≤ off && off < 0x0A6000 then some (s.csrWrite ((off - 0x0A0000) / 8) v)
    else if 0x100000 ≤ off && off < 0x140000 then
      some (s.setSluice ((off - 0x100000) / 64) ((s.sluice ((off - 0x100000) / 64)).write (off / 8 % 8) v))
    else if 0x180000 ≤ off && off < 0x180400 then
      let k := (off - 0x180000) / 8
      some { s with msixTable := Sparse.set (if k % 2 = 1 then 1#64 <<< 32 else 0) s.msixTable k v }
    else none
  | .rstctlWrite v, s => if s.powered && rstMatch v then some s.warm else none
  | _, _ => none

/-- Events of Fenlink, alarms, power and attestation (19 R364-R367, 22 R394-R401). -/
def packageEvent : Instr → State → Option State
  | .fenlinkRequest peer req, s =>
    if !(s.powered && s.booted) || s.csr.fldomCount ≤ peer || peer = s.csr.fldomId.toNat || s.unroutable then none
    else
      let log (pa : Nat) : State :=
        s.logError 0x0E (BitVec.ofNat 64 pa) 0 (333 + s.choose 8 16) 0 0 0 0 0 0 (BitVec.ofNat 64 peer)
      let ans (r : State) (bs : List Byte) (tag : Eb16) (bad : Bool) : State :=
        { r with fenOut := r.fenOut ++ [(peer, { data := bs, tag := tag, poisoned := bad, refused := false })] }
      let none_ (n : Nat) : List Byte := List.replicate n 0
      let tagOf (m : FenMap) (pa : Nat) : Eb16 := if m.bm then s.tagAt pa else 0
      match req with
      | .load m pa n =>
        if dataEnd < pa + n then some (ans (log pa) (none_ n) 0 true)
        else if s.owned pa n then none
        else some (ans (s.hubTouch false (sectorPieces (fenLoc m) pa n)) (s.readBytes pa n) (tagOf m pa) (s.poisoned pa n))
      | .store m pa data b =>
        if dataEnd < pa + data.length then some (log pa)
        else if s.owned pa data.length then none
        else some ((s.hubTouch true (sectorPieces (fenLoc m) pa data.length)).perform [{ loc := fenLoc m pa, data := data, bnd := b }])
      | .atomic m pa n op val exp b =>
        if dataEnd < pa + n then some (ans (log pa) (none_ n) 0 true)
        else if s.owned pa n then none
        else if s.poisoned pa n then some (ans s (none_ n) 0 true)
        else
          let old := s.readNat pa n
          let t := tagOf m pa
          let new : Option (Nat × Eb16) :=
            match op with
            | some (o, ty) =>
              let r := atomOp o ty n { n := old, b := t } { n := val.toNat, b := b }
              some (r.1, ebMax t r.2)
            | none => if old = exp.toNat then some (val.toNat, ebMax t b) else none
          let s1 := s.hubTouch true [(fenLoc m pa, n)]
          some (ans (match new with
            | some (v, w) => s1.perform [{ loc := fenLoc m pa, data := leBytes n v, bnd := w }]
            | none => s1) (leBytes n old) t false)
      | .ldf m pa n =>
        if dataEnd < pa + n then some (ans (log pa) (none_ n) 0 true)
        else if s.owned pa n then none
        else
          let s1 := s.hubTouch false [(fenLoc m pa, n)]
          if !s.granEmpty pa then some (ans s1 (s.readBytes pa n) (tagOf m pa) (s.poisoned pa n))
          else if s1.deferRoom s1.nextId (fenLoc m pa) then
            let h : Held :=
              { loc := fenLoc m pa, size := n, tile := noTile + peer, slot := 0, slice := 0, lane := 0, dst := 0, pa := 0, tok := s1.nextId }
            some { s1 with nextId := s1.nextId + 1, deferral := s1.deferral ++ [h] }
          else some { s1 with fenOut := s1.fenOut ++ [(peer, { data := [], tag := 0, poisoned := false, refused := true })] }
      | .stf m pa data b =>
        if dataEnd < pa + data.length then some (log pa)
        else if s.owned pa data.length then none
        else some ((s.hubTouch true [(fenLoc m pa, data.length)]).fillGranules [{ loc := fenLoc m pa, data := data, bnd := b }])
      | .clrf m pa =>
        if dataEnd < pa + 8 then some (log pa)
        else if s.owned pa 8 || s.pinFull [fenLoc m pa] then none
        else
          let s1 := s.hubTouch false [(fenLoc m pa, 8)]
          some (if s1.emptyGran.any fun p => p.1 = pa / 8 then s1
            else { s1 with emptyGran := s1.emptyGran ++ [(pa / 8, (fenLoc m pa).l2s)] })
      | .withdraw pa n =>
        some { s with deferral := s.deferral.filter fun h => !(h.tile = noTile + peer && h.loc.key = pa && h.size = n) }
      | .record ws =>
        if 4096 ≤ s.mergeBuf.length then none
        else
          let late := if s.timeSync = .converging && s.choose 19 2 = 1 then true else decide ((ws.getD 0 0).toNat + 2000 < s.time.toNat)
          let r : SentRec :=
            { beat := 0, home := s.csr.fldomId.toNat, refused := none,
              words := if late then ws.set 2 (ws.getD 2 0 ||| (1#64 <<< 63)) else ws }
          some (({ s with mergeBuf := s.mergeBuf ++ [r] } : State).charge (fieldAt ws 2 62 48) .frec 1)
  | .laneShed p, s =>
    if s.powered && s.booted && p < 16 && Sparse.get 0 s.ports p = 0 then
      let s1 : State := { s with ports := Sparse.set 0 s.ports p 1 }
      some (if s1.unroutable then { s1 with downAt := s.time } else s1)
    else none
  | .portDown p, s =>
    if s.powered && s.booted && p < 16 && Sparse.get 0 s.ports p < 2 then
      let s1 : State := { s with ports := Sparse.set 0 s.ports p 2 }
      some (if s1.unroutable then { s1 with downAt := s.time } else s1)
    else none
  | .noRouteTimeout peer, s =>
    if s.powered && s.booted && s.isPeerId peer && s.unroutable && s.downAt.toNat + 1000000 ≤ s.time.toNat && !s.noRoute.elem peer then
      some { s with noRoute := s.noRoute ++ [peer] }
    else none
  | .fenlinkRouteReturn peer, s =>
    if s.powered && s.booted && s.isPeerId peer && s.unroutable then some { s with ports := Sparse.set 0 s.ports 0 0, noRoute := [] } else none
  | .timeSource e src, s =>
    if s.powered && s.booted && s.isPeerId src && src < s.csr.fldomId.toNat then
      match e, s.timeSync with
      | .cut, .synced | .cut, .converging =>
        some (({ s with timeSync := .cut } : State).logError 0x0F 0 0 330 0 0 0 0 0 0 (BitVec.ofNat 64 src))
      | .rejoin, .cut => some { s with timeSync := .converging }
      | .converged, .converging => some { s with timeSync := .synced }
      | _, _ => none
    else none
  | .alarm bit die, s =>
    if !s.powered || 6 < bit then none
    else
      let bits16 : BitVec 16 := (1#16 <<< bit) ||| (if die < 8 then 1#16 <<< (8 + die) else 0)
      let a := s.csr.almCause ||| bits16
      let s1 : State := { s with
        csr := { s.csr with almCause := a },
        almTie := { s.almTie with seenAt := s.time, seen := bits16 ||| (if s.almTie.seenAt = s.time then s.almTie.seen else 0) } }
      if s.csr.almCause.getLsbD bit || s.almTie.clearedAt = s.time && s.almTie.cleared.getLsbD bit && s.choose 18 2 = 1 then some s1
      else
        let nt (x : Tile) : Tile :=
          { x with
              fast := false, inBurst := false, reserve := none,
              phase := if x.phase = .switching false then .switching false
                else if x.phase = .idle && !x.doze then .idle else .forced }
        some (({ s1 with
            forcedAt := (s.time, s.stalled) :: s.forcedAt.filter fun p => decide ((s.time - p.1).toNat < 150),
            tiles := (s1.tiles.map fun p => (p.1, nt p.2)).filter fun p => decide (p.2 ≠ Tile.reset) } : State).logError
          0x10 0 0 (if die < 8 then 349 + die else 330) 0 0 0 0 0 0 (a.setWidth 64))
  | .powerOn, s => if s.powered then none else some { s with powered := true }.boot
  | .powerOff, s =>
    let k := s.loseDirty
    some { State.reset with
      mem := k.mem.filter fun c => 2 ^ 52 ≤ c.1, tags := k.tags.filter fun c => 2 ^ 46 ≤ c.1, powered := false, booted := false,
      poison := k.poison.filter (fun g => 2 ^ 52 ≤ 8 * g && 8 * g < padBase),
      badTags := k.badTags.filter (fun n => 2 ^ 52 ≤ 64 * n && 64 * n < padBase), measLog := [], agenda := s.agenda, nextId := s.nextId }
  | .warmReset, s =>
    if !s.powered then none
    else
      let k := s.loseDirty
      some ({ State.reset with
        time := s.time, mem := k.mem, tags := k.tags, poison := k.poison.filter (fun g => 8 * g < padBase),
        badTags := k.badTags.filter (fun n => 64 * n < padBase),
        csr := { Csr.reset with almCause := s.csr.almCause },
        almQuiet := s.almQuiet, almTie := s.almTie, hostOut := s.hostOut, fenOut := s.fenOut, quoteOut := s.quoteOut, agenda := s.agenda,
        nextId := s.nextId } : State).boot
  | .port1Reset, s => some s
  | .quoteRequest nonce, s =>
    if s.powered && s.booted then
      let serial : DWord := BitVec.ofNat 64 (flashNat 8 8)
      let sig := Config.sign (Config.sha3 (leBytes 64 nonce.toNat ++ leBytes 8 serial.toNat ++ leBytes 8 s.csr.almCause.toNat ++
        s.measLog.flatMap fun e => leBytes 8 e.1 ++ leBytes 64 e.2.bits.toNat))
      some { s with quoteOut := some { nonce := nonce, serial := serial, almCause := s.csr.almCause, entries := s.measLog, sig := sig } }
    else none
  | .measurementAppend kind d, s =>
    if s.powered && s.booted && 4 ≤ kind && kind ≤ 255 && s.measLog.length < 64 then
      some { s with measLog := s.measLog ++ [(kind, .given d)] }
    else none
  | _, _ => none

/-! ## Calls, traps and returns -/

/-- A call, return or indirect call in one slice, with R117's push and pop; none where it waits. -/
def callTurn (i : Instr) (ps : List BeatPage) (r : State) (c : Ctx) (x : Slice) : SliceTurn :=
  let push (flag : Bool) (f : Slice → Slice) : SliceTurn :=
    match r.pushRet ps c x { addr := x.pc + 8, flag := flag } with
    | .done r1 y _ => some (put r1 c (f y), none)
    | .trap r1 tr _ => some (r1, some tr)
    | .wait _ => none
  match i with
  | .call h t =>
    if c.performs x h then push false fun y => { y with pc := x.pc + BitVec.ofInt 64 (8 * t.toInt) }
    else some (put r c { x with pc := x.pc + 8 }, none)
  | .ret h =>
    if c.performs x h then
      match r.popRet ps c x with
      | .done r1 y e =>
        if !e.flag then some (put r1 c { y with pc := e.addr }, none)
        else
          match x.div with
          | d :: _ =>
            if d.calli then some (put r1 c { y with lmask := d.pend, fmt := d.fmt, pc := d.resume, cont := true }, none)
            else some (r, some (illegal 3))
          | [] => some (r, some (illegal 3))
      | .trap r1 tr _ => some (r1, some tr)
      | .wait _ => none
    else some (put r c { x with pc := x.pc + 8 }, none)
  | .calli h a =>
    let ls := c.guarded x h
    let tgt (l : Nat) : Nat := (c.valV x .n64 0 a.toNat l).n
    let bad := ls.filter fun l => tgt l % 8 ≠ 0
    let m := mask4 (ls.filter fun l => tgt l = tgt (ls.headD 0))
    let dest := BitVec.ofNat 64 (tgt (ls.headD 0))
    if !bad.isEmpty then
      some (r, some (misalign (bad.map fun l => 4 * c.i + l) ((bad.tail.map tgt).foldl min (tgt (bad.headD 0)))))
    else if x.cont then
      match x.div with
      | [] => some (r, some (illegal 3))
      | e :: up =>
        if ls.isEmpty then some (put r c { x with cont := false, lmask := e.saved, fmt := e.fmt, div := up, pc := x.pc + 8 }, none)
        else push true fun y => { y with cont := false, div := { e with pend := x.lmask &&& ~~~m } :: up, lmask := m, pc := dest }
    else if ls.isEmpty then some (put r c { x with pc := x.pc + 8 }, none)
    else if m = x.lmask then push false fun y => { y with pc := dest }
    else
      push true fun y =>
        { y with
          div := { calli := true, join := x.pc + 8, saved := x.lmask, pend := x.lmask &&& ~~~m, resume := x.pc, fmt := x.fmt } :: x.div,
          lmask := m, pc := dest }
  | _ => none

/-- EMRET.dcl in one slice: the return, after which it raises ILLEGAL (18 R343); none where it waits. -/
def declineTurn (h : Hdr) (ps : List BeatPage) (r : State) (c : Ctx) (x : Slice) : SliceTurn :=
  if !c.performs x h then some (put r c { x with pc := x.pc + 8 }, none)
  else if !x.pm then some (r, some (illegal 2))
  else if x.td = 0 || x.top.vec ≠ 0x02 then some (r, some (illegal 3))
  else
    match returnTurn ps h (fun k => emretWords k && k ≠ 5) (fun ws => ws.getD 0 0) r c x with
    | some (r1, none) => some (r1, some (illegal 1))
    | q => q

/-- CSRW of RSTCTL in one slice (22 R399). -/
def resetTurn (h : Hdr) (a : SReg) (r : State) (c : Ctx) (x : Slice) : Option State :=
  let r1 := put r c { x with pc := x.pc + 8 }
  let v := c.rdS x 0 a.toNat
  if !c.performs x h then some r1
  else if !x.pm then none
  else some (if bits v 31 16 = 0x5752 && v.getLsbD 0 then r1.warm else r1)

/-- The slice once its trap is delivered with vector v and its frame at f (18 R338): its stacks are set aside, and it stands at the
handler in privileged mode. Its scalar registers apart. -/
def handlerSlice (x : Slice) (k v f : Nat) (csr : Csr) : Slice :=
  { (x.write (wS 4 (BitVec.ofNat 64 f))).write (wS 5 (BitVec.ofNat 64 v)) with
    levels := x.levels.take x.td ++ [x.setAside v k], div := [], ret := [], spill := 0, pm := true, td := x.td + 1, lmask := 0xF,
    fmt := 0x30, ebud := 0x08000, hx := 127, cont := false, wait := .run, newRun := true, wset := 0, skipBp := false, promo := 0,
    lead := none, glead := if x.td = 0 then none else x.glead,
    pc := if v = 0x02 then csr.emvec else csr.ptvec + BitVec.ofNat 64 (256 * v) }

/-- The group and state in which a slice enters delivery: alone in its gang (18 R338). -/
def delivering (s : State) (t q k : Nat) (tr : Trap) : State :=
  s.updGroup t q fun g => (g.leaveGang k).setSlice k { (g.leaveGang k).slice k with wait := .records tr 0 }

/-- The trap as delivered: an unassigned opcode without an emulation handler is ILLEGAL with CODE 0x00 (18 R343). -/
def deliveredTrap (s : State) (tr : Trap) : Trap :=
  if tr.vec = 0x02 && s.csr.emvec = 0 then { tr with code := 0, aux0 := 0, aux1 := 0 } else tr

/-- The slots of the frame at an address are mapped for the store, and no table entry that says so is poisoned (18 R338, 21 R379). -/
def frameMapped (s : State) (t k : Nat) (g : Group) (f : Nat) : Bool :=
  (s.walkPoison t g.asid f).isNone && (s.translate t g.asid .store (fun _ => true) [(4 * k, f)]).1.all fun b => b.page.cause = 0

/-- What slice k adds to the error log as it is about to execute: copies that differ, once or twice, CONSUMED for the first lane that
consumes an error in a V register, and DEFERRED for the first that reads one it does not use (21 R379, R380, R385). -/
def upsetNotes (s : State) (t q : Nat) (g : Group) (i : Instr) (r : State) (k : Nat) : State :=
  let e := ctxOf s t q g k
  let x := g.slice k
  let log (r : State) (kind n : Nat) (ad : DWord) : State := r.logError kind ad g.asid t n g.idx g.team k x.pc (s.groupTag t g) 0
  let twice := g.dual && decide (1 < x.glitch)
  let r1 := if g.dual && decide (0 < x.glitch) then
      (if twice then log (log r 0x05 (4 * k) 0) 0x06 (4 * k) 0 else log r 0x05 (4 * k) 0).updSlice t q k fun y => { y with glitch := 0 }
    else r
  let r2 := match (if twice then [] else e.consumers x i) with
    | n :: _ => log r1 0x03 n 0xFFFFFFFFFFFFFFFF
    | [] => r1
  match e.badReaders x i with
  | n :: _ => log r2 0x02 n 0xFFFFFFFFFFFFFFFF
  | [] => r2

/-- The trap that it takes then: copies that differ a second time, or the consumption (21 R379, R385). -/
def upsetTrap (s : State) (t q : Nat) (g : Group) (i : Instr) (k : Nat) : Option Trap :=
  let use := (ctxOf s t q g k).consumers (g.slice k) i
  if g.dual && decide (1 < (g.slice k).glitch) then some (mkTrap 0x0E 2)
  else if use.isEmpty then none
  else some { mkTrap 0x0E 1 with lanes := some (laneMask use), aux0 := 0xFFFFFFFFFFFFFFFF }

end Sys2Proof.Spec

open Sys2Proof Sys2Proof.Machine Sys2Proof.Spec

/-- 06 R106-R112. A register whose result is outstanding reads old or new, the model's free choice (log 11). -/
def Obligations.ScalarCompletes : Prop :=
  ∀ (s : State) (i : Instr) (g : Group) (l : List Nat) (c : UClass) (cost : Nat) (h : Hdr) (d : SReg) (f : Ctx → Slice → DWord),
    scalarValue i = some (h, d, f) → Issues s i g l c cost →
      Ran s i g l cost fun k =>
        let x := g.slice k
        let e := ctxOf s s.focus.tile s.focus.slot g k
        (if e.performs x h then x.post [wS d.toNat (f e x)] else x).adv i

/-- 07 R129-R135. -/
def Obligations.VectorIntegerCompletes : Prop :=
  ∀ (s : State) (i : Instr) (g : Group) (l : List Nat) (c : UClass) (cost : Nat) (h : Hdr) (f : LaneWrites),
    intWrites i = some (h, f) → Issues s i g l c cost →
      Ran s i g l cost fun k =>
        let x := g.slice k
        let e := ctxOf s s.focus.tile s.focus.slot g k
        (x.post ((e.guarded x h).flatMap fun n => f e x (x.tyOf i) n)).adv i

/-- 07 R141, R145, 08 R152, R156. The model's readings are the value that a special function delivers within its error (log 13), the
subnormal results of FEXP2 (log 42), the sign of FRND's zeros (log 92) and a negative element in n32 (log 95). -/
def Obligations.SpecialAndBoundComplete : Prop :=
  ∀ (s : State) (i : Instr) (g : Group) (l : List Nat) (c : UClass) (cost : Nat) (h : Hdr) (f : LaneWrites),
    laneWrites i = some (h, f) → Issues s i g l c cost →
      Ran s i g l cost fun k =>
        let x := g.slice k
        let e := ctxOf s s.focus.tile s.focus.slot g k
        (x.post ((e.guarded x h).flatMap fun n => f e x (x.tyOf i) n)).adv i

/-- 07 R137-R140, R142, 04 R67, R70: the elements that the class delivers are packed, the bound is the larger of theirs, and a result of
automatic class is to set HX. Where overflow is decided in classes S and T (log 21), their signs of zero (log 22), and FSUB from zero as an
addition (log 90) are the model's readings. -/
def Obligations.FloatCompletes : Prop :=
  ∀ (s : State) (i : Instr) (g : Group) (l : List Nat) (c : UClass) (cost : Nat) (h : Hdr) (d : VReg) (uc : UC) (f : LaneFloats),
    floatElems i = some (h, d, uc, f) → Issues s i g l c cost →
      Ran s i g l cost fun k =>
        let x := g.slice k
        let e := ctxOf s s.focus.tile s.focus.slot g k
        let t := x.tyOf i
        let ls := e.guarded x h
        (x.postHx (ls.flatMap fun n => wTy t d.toNat n (joinElems t (f c e x t n)) (joinBound (f c e x t n)))
          (if uc = .auto then some (ls.map fun n => { bnd := joinBound (f c e x t n), ex := joinEx (f c e x t n) }) else none)).adv i

/-- 07 R143-R148, 03 R57-R59: under `.sr` each lane takes its draws from the quarter's generator, which then advances once: that all draw
from the state at issue (log 41), the sign of an e2m1 code of zero (log 96) and the special elements of a block (log 42) are the model's
readings. -/
def Obligations.ConversionCompletes : Prop :=
  ∀ (s : State) (i : Instr) (g : Group) (l : List Nat) (c : UClass) (cost : Nat) (h : Hdr) (ty : TyF) (rnd : Rnd) (f : LaneConv),
    convWrites i = some (h, ty, rnd, f) → Issues s i g l c cost →
      let q := s.focus.slot / 16
      let seed := (s.tile s.focus.tile).srOf q
      let m := s.replaced l fun k =>
        let x := g.slice k
        let e := ctxOf s s.focus.tile s.focus.slot g k
        (x.post ((e.guarded x h).flatMap fun n =>
          f e x (x.tyOf i) n fun j => x.rmode ty rnd (srDraw seed (2 * ((4 * k + n) % 32) + j)))).adv i
      Made s i g l cost (if rnd = .sr then m.updTile s.focus.tile fun x => x.setSr q (srNext seed) else m)

/-- 06 R112, R114-R116, R118-R120, R124-R126, 07 R136, R139, R150, 08 R155, R157, 10 R195, R197, R201: where no slice traps and no
stack entry is spilled or filled. What a budget compares for NaN and infinity is the model's reading (log 23). -/
def Obligations.SliceInstructionsComplete : Prop :=
  ∀ (s : State) (i : Instr) (g : Group) (l : List Nat) (c : UClass) (cost : Nat) (y : Nat → Slice), Issues s i g l c cost →
    (∀ k ∈ l, sliceAfter i c (ctxOf s s.focus.tile s.focus.slot g k) (g.slice k) = some (y k)) → Ran s i g l cost y

/-- 07 R149: in ascending index, each performing slice writes its quarter's generator. -/
def Obligations.SrseedCompletes : Prop :=
  ∀ (s : State) (g : Group) (l : List Nat) (c : UClass) (cost : Nat) (h : Hdr) (a : SReg), Issues s (.srseed h a) g l c cost →
    Made s (.srseed h a) g l cost (l.foldl (fun r k =>
      let x := g.slice k
      let e := ctxOf s s.focus.tile s.focus.slot g k
      put (if e.performs x h then r.updTile s.focus.tile fun y => y.setSr (s.focus.slot / 16) (e.rdS x 0 a.toNat) else r) e
        (x.adv (.srseed h a))) s)

/-- 06 R123: with the divergence stack empty the lanes leave for good, and a slice without lanes retires; arrivals that waited for it
are made (10 R194), and a held pre-emption may be let through (18 R340). A slice whose stack is not empty raises ILLEGAL, with the CODE 0x03 of
log 26. -/
def Obligations.ExitCompletes : Prop :=
  ∀ (s : State) (g : Group) (l : List Nat) (c : UClass) (cost : Nat) (h : Hdr), Issues s (.exit h) g l c cost →
    Divided s (.exit h) g l cost (afterBeat (.exit h) s) fun k =>
      let x := g.slice k
      let rest := x.lmask &&& ~~~(mask4 ((ctxOf s s.focus.tile s.focus.slot g k).guarded x h))
      if x.div ≠ [] then .error (illegal 3)
      else if rest = 0 then .ok { x with live := false, lmask := 0, wins := [], wait := .run, async := [], arrv := 0 }
      else .ok { x.adv (.exit h) with lmask := rest }

/-- 06 R126, 18 R343, 05 R98: the slices in which the instruction is performed take its trap, and the others go on. -/
def Obligations.TrapInstructionsTrap : Prop :=
  ∀ (s : State) (i : Instr) (g : Group) (l : List Nat) (c : UClass) (cost : Nat), isTrap i → Issues s i g l c cost →
    Divided s i g l cost id fun k =>
      match raises i (ctxOf s s.focus.tile s.focus.slot g k) (g.slice k) with
      | some tr => .error tr
      | none => .ok ((g.slice k).adv i)

/-- 06 R112, R116, R117-R120, 07 R136, 08 R155, 10 R194-R197, 18 R344, R347, R348: where an instruction of one slice traps on its
operands, what it raises; the slices that do not trap complete. The CODE of each ILLEGAL (log 26), what an empty divergence stack under
CONT means (log 84), and that CHKB's slices trap each for themselves (log 108) are the model's readings. -/
def Obligations.SliceInstructionsTrap : Prop :=
  ∀ (s : State) (i : Instr) (g : Group) (l : List Nat) (c : UClass) (cost : Nat) (y : Nat → Except Trap Slice), Issues s i g l c cost →
    (∀ k ∈ l, plainOutcome i c (ctxOf s s.focus.tile s.focus.slot g k) (g.slice k) = some (y k)) →
      Divided s i g l cost (afterBeat i s) y

/-- 18 R336: in user mode a privileged instruction raises ILLEGAL with CODE 0x02, and does nothing else; the slices in which it is not
performed go on. -/
def Obligations.PrivilegedTrapsInUserMode : Prop :=
  ∀ (s : State) (i : Instr) (g : Group) (l : List Nat) (c : UClass) (cost : Nat) (h : Hdr), privHdr i = some h → Issues s i g l c cost →
    let acts (k : Nat) : Bool := (ctxOf s s.focus.tile s.focus.slot g k).performs (g.slice k) h
    (∀ k ∈ l, acts k = true → (g.slice k).pm = false) →
      Divided s i g l cost (afterBeat i s) fun k => if acts k then .error (illegal 2) else .ok ((g.slice k).adv i)

/-- 13 R263, R264, R270, R276, R277: where no slice waits; a slice whose checks fail traps, and the others act. How F advances past the queue
(log 48), and that BUFFER stands before R272's clearing and SP_RANGE before BUFFER (log 110), are the model's readings. -/
def Obligations.BufferInstructionsComplete : Prop :=
  ∀ (s : State) (i : Instr) (g : Group) (l : List Nat) (c : UClass) (cost : Nat) (m : State) (trs : List (Nat × Trap)), Issues s i g l c cost →
    inTurns (fun r k => bufferTurn i r (ctxOf s s.focus.tile s.focus.slot g k) (g.slice k)) s l = some (m, trs) → Parted s i g l cost m trs

/-- 13 R264, R267, R270-R272, R274: where no slice waits for a slot; a slice whose checks fail traps, in R270's order, and the others' copies
enter. Unused strides as 0 and the unchecked dense side of CPYG are the model's readings (log 48). -/
def Obligations.CopiesEnterTheQueue : Prop :=
  ∀ (s : State) (i : Instr) (g : Group) (l : List Nat) (c : UClass) (cost : Nat) (m : State) (trs : List (Nat × Trap)), Issues s i g l c cost →
    inTurns (fun r k => copyTurn i r (ctxOf s s.focus.tile s.focus.slot g k) (g.slice k)) s l = some (m, trs) → Parted s i g l cost m trs

/-- 10 R187, R194, R196: where no slice waits; one that may not arrive traps. When the last live slice has come, the group's arrival is on
its way. The CODE of each ILLEGAL (log 26), an interrupted BARS that arrives anew (log 19) and a joiner that has arrived in GEN + 1 (log 100) are
the model's readings. -/
def Obligations.ArrivalsComplete : Prop :=
  ∀ (s : State) (i : Instr) (g : Group) (l : List Nat) (c : UClass) (cost : Nat) (m : State) (trs : List (Nat × Trap)),
    (arrival i).isSome → Issues s i g l c cost →
      inTurns (fun r n => arriveTurn i r (ctxOf s s.focus.tile s.focus.slot g n) (g.slice n)) s l = some (m, trs) →
        Parted s i g l cost (afterBeat i s m) trs

/-- 19 R369-R371: a slice whose checks pass enters the queue, and one of whose checks any fails raises ILLEGAL with CODE 0x03; that they
are made at issue alone is the model's reading (log 78). -/
def Obligations.SluiceInstructionsEnterTheQueue : Prop :=
  ∀ (s : State) (i : Instr) (g : Group) (l : List Nat) (c : UClass) (cost : Nat) (m : State) (trs : List (Nat × Trap)), Issues s i g l c cost →
    inTurns (fun r k => sluiceTurn i r (ctxOf s s.focus.tile s.focus.slot g k) (g.slice k)) s l = some (m, trs) → Parted s i g l cost m trs

/-- 18 R336, R342-R345, R347, R348: where no slice waits; one whose checks fail traps, and the others complete. A return may let REGRANT or a
held pre-emption be taken (R340, R351), and HALT.kill ends the group once every live slice has halted (R348). The CODE of each ILLEGAL that no
rule gives (log 26), that RGH's low bits load as 0 (log 83), and that a beat's context pages are found first (log 76) are the model's readings. -/
def Obligations.PrivilegedInstructionsComplete : Prop :=
  ∀ (s : State) (i : Instr) (g : Group) (l : List Nat) (c : UClass) (cost : Nat) (m : State) (trs : List (Nat × Trap)), Issues s i g l c cost →
    turns i s g l (privTurn i) = some (m, trs) → Parted s i g l cost (afterBeat i s m) trs

/-- 11 R208-R235, 12 R240, R247, R251: where no slice traps and nothing makes the beat wait. The model's readings are the entry that an
acquire or release without a lane leaves (log 47), the values after a broken LD.inv (log 77), the line requests (log 20), the lane of
an access with an S base (log 71), and which bits of an address count (log 27). -/
def Obligations.MemoryInstructionsComplete : Prop :=
  ∀ (s : State) (i : Instr) (g : Group) (l : List Nat) (c : UClass) (cost : Nat) (m : State), Issues s i g l c cost →
    memAfter i s s.focus.tile s.focus.slot g l = some m → Made s i g l cost m

/-- 04 R76, 11 R208, R209, R217, R224, 21 R379: the beat's first check that fails is the trap of every slice of it, and nothing is accessed:
first of the accesses; then, before a page counts, of the table entries, which no lookup may use poisoned; and where no load waits, of
the data, the tag that a store builds on, and an atomic's granule. What is consumed is logged. LANES of an access with an S base (log 71), LANES
of SP_RANGE (log 81), the type in which a stored value's magnitude is read (logs 44, 23), which accesses consume (logs 30, 45), and the trap
of the whole beat (log 30) are the model's readings. -/
def Obligations.MemoryChecksTrapTheBeat : Prop :=
  ∀ (s : State) (i : Instr) (g : Group) (l : List Nat) (c : UClass) (cost : Nat), Issues s i g l c cost →
    let t := s.focus.tile
    let q := s.focus.slot
    (∀ (F : MemForm) (tr : Trap), memForm i = some F → memTrap F s t q g l = some tr → Trapped s i l fun _ => tr) ∧
    (∀ (rs : List LaneReq), lookedUp i s t q g l = some rs → s.walkHeld t g.asid (rs.map LaneReq.va) = false →
      ∀ a rest, (rs.filter fun r => (s.walkPoison t g.asid r.va).isSome) = a :: rest →
        let ad := (s.walkPoison t g.asid a.va).getD 0
        let p := consumed s t g ad (s.arrayOf noTile ad) ((a :: rest).map LaneReq.lane)
        TrapsIn s (afterBeat i s p.1) i l (fun _ => p.2) 0) ∧
    (∀ (F : MemForm) (s1 : State) (ps : List BeatPage), memForm i = some F → memTrap F s t q g l = none →
      memPages F s t q g l = some (s1, ps) → memWaits i F s1 t g (memHere F s1 ps t q g l s) = false →
        let b := memPoison i F s s1 ps t q g l
        ∀ a rest, b.1 = a :: rest →
          let ad := s1.badUnit b.2 a.2.key F.n
          let p := consumed s1 t g ad (s1.arrayOf b.2 ad) ((a :: rest).map fun r => r.1.lane)
          TrapsIn s p.1 i l (fun _ => p.2) 0)

/-- 11 R224, 17 R325-R327, 18 R338: a beat that accesses memory, or a stack, frame or context item beside it, and that finds a page with
a cause: each such page gives a record, numbered in the beat, nothing is accessed, and every slice takes the vector of record 0. That
stack, frame and context pages are the whole beat's (log 76), CCTL's vector (log 28) and a future's code (log 24) are the model's. -/
def Obligations.PagesFaultTheBeat : Prop :=
  ∀ (s : State) (i : Instr) (g : Group) (l : List Nat) (c : UClass) (cost : Nat) (kind : AccKind) (nr : Bool) (rs : List LaneReq),
    Issues s i g l c cost → pagedReqs i s s.focus.tile s.focus.slot g l = some (kind, nr, rs) →
      lookStops s s.focus.tile g rs = false →
        let p := s.translate s.focus.tile g.asid kind (fun lane => (g.slice (lane / 4)).pm) (rs.map fun r => (r.lane, r.va))
        ∀ b rest, (p.1.filter fun b => decide (b.page.cause ≠ 0) && !(nr && decide (b.page.cause = 2))) = b :: rest →
          let recs := (b :: rest).zipIdx.map fun q => p.2.beatRec s.focus.tile g kind q.1.page.cause (rest.length + 1) q.2 q.1
          let hit (r : LaneReq) : Bool :=
            (b :: rest).any fun q => decide (q.page.base ≤ r.va) && decide (r.va < q.page.base + 2 ^ q.page.bits_)
          let vec := if b.page.cause = 1 ∨ b.page.cause = 2 ∨ kind = .cctl then 0x08 else 0x09
          let tr : Trap :=
            { mkTrap vec 0 with
              lanes := some (laneMask ((rs.filter hit).map LaneReq.lane)), aux0 := BitVec.ofNat 64 b.va,
              aux1 := packBits [(rest.length + 1, 8), (b.page.cause, 0)] }
          TrapsIn s (afterBeat i s { p.2.sendRecords p.2.nextId recs with nextId := p.2.nextId + 1 }) i l (fun _ => tr) p.2.nextId

/-- 10 R199, R204, 11 R232-R234, 12 R252, 17 R332. That a FENCE is an entry of the group's store queue, and what it waits for (log 47), and
the causes that PGREQ and PREF pass over (log 46) are the model's readings. -/
def Obligations.FencesAndHintsComplete : Prop :=
  ∀ (s : State) (i : Instr) (g : Group) (l : List Nat) (c : UClass) (cost : Nat) (m : State), Issues s i g l c cost →
    hintAfter i s s.focus.tile s.focus.slot g l = some m → Made s i g l cost m

/-- 16 R318, R319: where every record passes its checks, and where one does not. That the beat is checked as one, and its records are one
entry of the store queue (log 51), and ILLEGAL's CODE (log 26), are the model's reading. -/
def Obligations.SpawnCompletes : Prop :=
  ∀ (s : State) (g : Group) (l : List Nat) (c : UClass) (cost : Nat) (h : Hdr) (pd : PReg) (a : VReg),
    Issues s (.spawn h pd a) g l c cost →
      (∀ m, spawnAfter (.spawn h pd a) h pd a s s.focus.tile s.focus.slot g l = some m → Made s (.spawn h pd a) g l cost m) ∧
      ∀ tr, spawnCheck s s.focus.tile g (spawnRecs s s.focus.tile s.focus.slot g l h a) = some tr →
        Trapped s (.spawn h pd a) l fun _ => tr

/-- 06 R121: while a live slice has yet to come, those that have come wait. -/
def Obligations.CollectivesWaitForTheGroup : Prop :=
  ∀ (s : State) (i : Instr) (g : Group) (l : List Nat), isCollective i → Arrives s i g l →
    (∃ k ∈ g.liveIdx, k ∉ l ∧ (g.slice k).wait.coll? = none) → ∃ m, Arrived s i g l m ∧ exec i s = .next m

/-- 06 R121, R122, 08 R158-R167, 10 R189-R191, 14 R282: once every live slice has come to one address, and where no check fails. A
cross-lane or matrix instruction is then presented, and issues as `PresentedCollectivesComplete` says. The slices that a SETW adds (log 50) and
results of exited slices (log 98) are the model's readings. -/
def Obligations.CollectivesComplete : Prop :=
  ∀ (s : State) (i : Instr) (g : Group) (l : List Nat), isCollective i → Arrives s i g l → Gathered g i l →
    (∀ k ∈ g.liveIdx, (g.slice k).pc = g.leader.pc) →
      (∀ m p, Arrived s i g l m → gathered m s.focus.tile s.focus.slot = some p →
        (collective (withHint 0 i) p.1 s.focus.tile s.focus.slot p.2).isSome) →
        ∃ m p r, Arrived s i g l m ∧ gathered m s.focus.tile s.focus.slot = some p ∧
          collective (withHint 0 i) p.1 s.focus.tile s.focus.slot p.2 = some r ∧ exec i s = .next r

/-- 08 R158-R167, 09 R183, 14 R282, R284-R295: the one issue of a cross-lane or matrix instruction that a group presents, where the
allowance covers it and, for the matrix unit, where the unit is free and B is there. The draw states that an MST takes at acceptance (log 41),
the lanes of retired slices after a resume (log 97), the moment at which a latch falls (log 69) and ex of special values (log 91) are the
model's readings. -/
def Obligations.PresentedCollectivesComplete : Prop :=
  ∀ (s : State) (i : Instr) (g : Group) (m : State), s.powered = true → s.booted = true →
    s.group? s.focus.tile s.focus.slot = some g → (s.focus.slices.any fun k => (g.slice k).live) = true →
      g.presented? = some (withHint 0 i) → presented (withHint 0 i) s s.focus.tile s.focus.slot g = some m → exec i s = .next m.fresh

/-- 06 R121, R122, 10 R189, R190, 14 R282, 18 R339: a collective's trap, for slices at differing addresses RDV_MISMATCH, else its own
failing check, is taken by every live slice, with COLL = 1; that each frame has the same lanes, those of the check or the group's active
ones (log 25), and the CODE of each ILLEGAL (log 26), are the model's readings. -/
def Obligations.CollectivesTrapTogether : Prop :=
  ∀ (s : State) (i : Instr) (g : Group) (l : List Nat), isCollective i → Arrives s i g l → Gathered g i l →
    ∃ m p, Arrived s i g l m ∧ gathered m s.focus.tile s.focus.slot = some p ∧
      ∀ tr, (if ∀ k ∈ p.2.liveIdx, (p.2.slice k).pc = p.2.leader.pc then collectiveTrap i p.1 s.focus.tile p.2
          else some (mkTrap 0x05 0)) = some tr →
        let lanes := tr.lanes.getD (laneMask (p.2.liveIdx.flatMap fun k => (p.2.slice k).laneSet k))
        exec i s = .next (p.2.liveIdx.foldl
          (fun r k => r.raise s.focus.tile s.focus.slot k { tr with coll := true, lanes := some lanes } 0) p.1)

/-- What a next state has apart from the counter of free choices, which is the model's own (log 4). -/
def Sys2Proof.Spec.Becomes (i : Instr) (s r : State) : Prop := ∃ n, exec i s = .next { r with free := n }

/-- 05 R83, 06 R121-R125, 09 R174, R185, 10 R201, R205, 18 R337-R351. The model's: that an event is a step where it is due (log 3), the choice
among results (log 11), what TLBINV drops (log 18), when a held PREEMPT is let through (log 49), SETW's added slices (log 50), where an
interrupted slice resumes (log 83), and results of exited slices (log 98). -/
def Obligations.KernelEventsHappen : Prop := ∀ (i : Instr) (s r : State), kernelEvent i s = some r → Becomes i s r

/-- 09 R182-R184, 10 R193-R203, 11 R210, 14 R289-R298, 22 R395. The model's: when the events are due (log 3), a burst's idle count and the token
interval that a tile sees (log 53), doze (log 74), the order of sums in the matrix unit (log 43), and an MST's records by blocks (log 88). -/
def Obligations.TileEventsHappen : Prop := ∀ (i : Instr) (s r : State), tileEvent i s = some r → Becomes i s r

/-- 11 R213-R235, 12 R240-R254, 13 R265-R274, 16 R319, 17 R332, 19 R370, R371. The model's: when the events are due (log 3), the fence's place in
the queue (log 47), the engine's order, its source values and its stop (logs 11, 48), what a failed copy leaves (logs 48, 85), a sluice whose base
lies outside the data space (log 35), and when a veto's record is numbered (log 78). -/
def Obligations.QueueAndEngineEventsHappen : Prop := ∀ (i : Instr) (s r : State), queueEvent i s = some r → Becomes i s r

/-- 10 R186, R191, 16 R304-R317, 18 R348, R350, 21 R382-R389. The model's: when the events are due (log 3), units of a record (log 62), its page (log 56)
and a code (log 57), failing counters and pages (logs 58, 59), the end of a launch (log 60), places (log 61), growth beside saved groups (log 38),
escalation's order (log 49), the return of a team (logs 33, 34, 54), drained teams (log 86), retired lanes (log 97), and identities of records (log 55). -/
def Obligations.SchedulerEventsHappen : Prop := ∀ (i : Instr) (s r : State), schedEvent i s = some r → Becomes i s r

/-- 16 R304, 17 R328-R331, 18 R344, 19 R359-R372, 21 R390, 22 R394, R399. The model's: when the events are due (log 3), a log's or sluice's base outside
the data space (log 35), MSI-X masking and its table (log 36, PRESUMED), how a decoder is committed (log 37), the host's view without its caches
(log 40), set 0 of hub requests (log 64), accesses to BAR0 of other shapes (log 65), the hub cycle of an alarm and a write (log 11), and a peat-window
write over two granules (log 85). -/
def Obligations.HostEventsHappen : Prop := ∀ (i : Instr) (s r : State), hostEvent i s = some r → Becomes i s r

/-- 19 R364-R367, 22 R394-R401. The model's: when the events are due (log 3), what a reset keeps (logs 6, 31), a peer's requests (log 66), ports and
routes (logs 63, 89), which source writes REMOTE_POISON and which detection ties with a write (log 11), the boot's checks (logs 17, 73, 82), the
quote's layout (log 67), and port 1's reset (log 68). -/
def Obligations.PackageEventsHappen : Prop := ∀ (i : Instr) (s r : State), packageEvent i s = some r → Becomes i s r

/-- 06 R117, R118-R120: calls and returns of slices that do not wait, their stacks spilled and filled where R117 says so; a slice that
may not push, or return, traps, and the others go on. That the pages of the beat's spills and fills are found first (log 76), the CODE of
each ILLEGAL (log 26) and an empty divergence stack under CONT (log 84) are the model's readings. -/
def Obligations.CallsComplete : Prop :=
  ∀ (s : State) (i : Instr) (g : Group) (l : List Nat) (c : UClass) (cost : Nat) (m : State) (trs : List (Nat × Trap)), Issues s i g l c cost →
    turns i s g l (callTurn i) = some (m, trs) → Parted s i g l cost m trs

/-- 06 R118. Of its spills (R117) the model's reading is log 76. -/
def Obligations.CallPushesAndJumps : Prop :=
  ∀ (h : Hdr) (t : BitVec 20),
    encode (.call h t) = [(BWord.mk h.pk false 0x044 h.pn h.ps t 0 h.hn 0).word] ∧
    ∀ (s : State) (g : Group) (l : List Nat) (c : UClass) (cost : Nat) (m : State) (trs : List (Nat × Trap)),
      Issues s (.call h t) g l c cost →
      turns (.call h t) s g l (fun ps r e x =>
        if e.guarded x h ≠ [] then
          match r.pushRet ps e x { addr := x.pc + 8, flag := false } with
          | .done r1 y _ => some (put r1 e { y with pc := x.pc + BitVec.ofInt 64 (8 * t.toInt) }, none)
          | .trap r1 tr _ => some (r1, some tr)
          | .wait _ => none
        else some (put r e { x with pc := x.pc + 8 }, none)) = some (m, trs) →
      Parted s (.call h t) g l cost m trs

/-- 06 R119, of slices whose pop need not wait, whether its entry lies in the stack or is filled from memory (R117): a flagged
entry under another divergence entry than CALLI's raises ILLEGAL, whose CODE 0x03 is the model's reading (log 26), and pops nothing. Of the
pages of its fills the model's reading is log 76. -/
def Obligations.ReturnFromCall : Prop :=
  ∀ (h : Hdr),
    encode (.ret h) = [(VWord.mk h.pk false 0x046 h.pn h.ps 0 0 0 0 0 false false 0 h.hn 0).word] ∧
    ∀ (s : State) (g : Group) (l : List Nat) (c : UClass) (cost : Nat) (m : State) (trs : List (Nat × Trap)), Issues s (.ret h) g l c cost →
      turns (.ret h) s g l (fun ps r e x =>
        if e.guarded x h ≠ [] then
          match r.popRet ps e x with
          | .done r1 y a =>
            if a.flag = false then some (put r1 e { y with pc := a.addr }, none)
            else
              match x.div with
              | d :: _ =>
                if d.calli then some (put r1 e { y with lmask := d.pend, fmt := d.fmt, pc := d.resume, cont := true }, none)
                else some (r, some (illegal 3))
              | [] => some (r, some (illegal 3))
          | .trap r1 tr _ => some (r1, some tr)
          | .wait _ => none
        else some (put r e { x with pc := x.pc + 8 }, none)) = some (m, trs) → Parted s (.ret h) g l cost m trs

/-- 18 R343: the slices return and are at once stopped by ILLEGAL with CODE 0x01, at the level they return to; one that may not return traps
for that, and one in which the instruction is not performed goes on. -/
def Obligations.EmretDclDeclines : Prop :=
  ∀ (s : State) (g : Group) (l : List Nat) (c : UClass) (cost : Nat) (h : Hdr) (m : State) (trs : List (Nat × Trap)),
    Issues s (.emretDcl h) g l c cost → turns (.emretDcl h) s g l (declineTurn h) = some (m, trs) → Parted s (.emretDcl h) g l cost m trs

/-- 22 R399: CSRW of RSTCTL with the key and WARM set resets the package, and any other value does nothing. What memory then holds of
sectors dirty in a cache (log 31) and that TIME goes on (log 6) are the model's readings. -/
def Obligations.RstctlResets : Prop :=
  ∀ (s : State) (g : Group) (l : List Nat) (c : UClass) (cost : Nat) (h : Hdr) (a : SReg) (m : State),
    Issues s (.csrw h 0x05B a) g l c cost →
      inTurn (fun r k => resetTurn h a r (ctxOf s s.focus.tile s.focus.slot g k) (g.slice k)) s l = some m →
        if l.any fun k =>
          let e := ctxOf s s.focus.tile s.focus.slot g k
          let v := e.rdS (g.slice k) 0 a.toNat
          e.performs (g.slice k) h && bits v 31 16 = 0x5752 && v.getLsbD 0
        then exec (.csrw h 0x05B a) s = .next m.fresh
        else Made s (.csrw h 0x05B a) g l cost m

/-- 18 R338: a slice whose results can return, and whose frame's lookup need not wait (12 R253), takes its trap at once. Its frame goes into the group's store queue as the group's
youngest entry, S4 and S5 hold the frame's address and the vector, the other slices keep all but their gang, and memory is as before.
That it stands alone in its gang is the model's reading (log 16). -/
def Obligations.TrapEntry : Prop :=
  ∀ (s : State) (t q k : Nat) (g : Group) (tr : Trap), s.group? t q = some g → (g.slice k).live = true → (g.slice k).drainable = true →
    (g.slice k).td ≠ 2 → killsTeam tr = false → (delivering s t q k tr).frameHeld t q k = false →
      let d := delivering s t q k tr
      let x := s.drained k (g.slice k)
      let v := s.vecOf tr
      let f := frameAddr s.csr.tfbase t q k x.td
      let r := s.raise t q k tr 0
      frameMapped d t k g f = true →
        (∃ g' a, r.group? t q = some g' ∧ g' = { g with slices := g'.slices, sq := g.sq ++ [.store false [a]] } ∧
          a.data = wordBytes (frameWords x k (deliveredTrap s tr) v x.pc (tr.rpc.getD x.pc)) ∧ a.bnd = 0 ∧ a.loc.tagged = false ∧
          a.loc.key = ((d.translate t g.asid .store (fun _ => true) [(4 * k, f)]).2.locIn
            (d.translate t g.asid .store (fun _ => true) [(4 * k, f)]).1 f).key ∧
          g'.slice k = { handlerSlice x k v f s.csr with gang := (g'.slice k).gang } ∧
          (g'.slice k).sReg 4 = BitVec.ofNat 64 f ∧ (g'.slice k).sReg 5 = BitVec.ofNat 64 v ∧
          (∀ n, n ≠ 4 → n ≠ 5 → (g'.slice k).sReg n = x.sReg n) ∧
          ∀ j, j ≠ k → g'.slice j = { g.slice j with gang := (g'.slice j).gang }) ∧
        r.mem = s.mem ∧ r.tags = s.tags ∧ r.csr = { s.csr with nearReq := r.csr.nearReq, farReq := r.csr.farReq }

/-- 18 R338, R340, 21 R381: a trap at trap depth 2, one whose frame cannot be stored, or MACHINE_CHECK with CODE 0x02 or 0x03, has the
team killed, and the slice goes no further. That a poisoned table entry on the frame's walk is such a frame is the model's reading (log 45). -/
def Obligations.TrapKillsTheTeam : Prop :=
  ∀ (s : State) (t q k : Nat) (g : Group) (m : Team) (tr : Trap), s.group? t q = some g → s.team? t g.team = some m →
    (g.slice k).live = true → (g.slice k).drainable = true → (delivering s t q k tr).frameHeld t q k = false →
      let x := s.drained k (g.slice k)
      (x.td = 2 ∨ frameMapped (delivering s t q k tr) t k g (frameAddr s.csr.tfbase t q k x.td) = false ∨
        tr.vec = 0x0E ∧ (tr.code = 2 ∨ tr.code = 3)) →
        let r := s.raise t q k tr 0
        r.team? t g.team = some { m with doomed := true } ∧
          (r.slice t q k).wait = .records (deliveredTrap s tr) 0 ∧
          (r.slice t q k).pc = x.pc ∧ (r.slice t q k).td = x.td ∧ r.mem = s.mem

/-- 21 R379, R380, R385: slices that consume an error in a V register, and slices whose copies differ a second time, log it and take
MACHINE_CHECK, with CODE 0x01 and 0x02. Where all do, nothing else happens but the records; where some do, the others execute, and, of
a plain instruction, complete. A cross-lane or matrix instruction that its group presents does the same for the whole group. Which
parts of a register an instruction uses (log 39), the order of the records and traps (log 30), and the lanes of a group's frames (log 25) are the
model's readings. -/
def Obligations.RegisterErrorsTrap : Prop :=
  (∀ (s : State) (i : Instr) (g : Group) (l : List Nat) (c : UClass) (cost : Nat), MayIssue s i g l c cost → i.kind ≠ .event →
    isCollective i = false →
      let t := s.focus.tile
      let q := s.focus.slot
      let s1 := l.foldl (upsetNotes s t q g i) s
      (∀ tr : Nat → Trap, (∀ k ∈ l, upsetTrap s t q g i k = some (tr k)) → TrapsIn s s1 i l tr 0) ∧
      ∀ (g1 : Group) (y : Nat → Except Trap Slice), s1.group? t q = some g1 →
        let hard := l.filterMap fun k => (upsetTrap s t q g i k).map fun tr => (k, tr)
        let go := l.filter fun k => (upsetTrap s t q g i k).isNone
        go ≠ [] → (∀ k ∈ go, plainOutcome i c (ctxOf s1 t q g1 k) (g1.slice k) = some (y k)) →
          Parted s i g l cost (afterBeat i s (s1.enacted go y)) (hard ++ trapsOf go y)) ∧
  ∀ (s : State) (i : Instr) (g : Group), s.powered = true → s.booted = true →
    let t := s.focus.tile
    let q := s.focus.slot
    let j := withHint 0 i
    s.group? t q = some g → (s.focus.slices.any fun k => (g.slice k).live) = true → g.presented? = some j →
      let cross : Prop := (crossWrites i).isSome ∧ (s.classCost t q g g.liveIdx j ((g.grant + 31) / 32)).isSome ∧ g.sound = false
      let matrix : Prop := (s.mxAccepts t q g).isSome ∧ (g.sound = false ∨ (s.tile t).accBad ≠ [])
      let log (kind : Nat) (ad detail : DWord) (r : State) (n : Nat) : State :=
        r.logError kind ad g.asid t n g.idx g.team (n / 4) (g.slice (n / 4)).pc (s.groupTag t g) detail
      let differ (r : State) (k : Nat) : State :=
        if g.dual && decide (0 < (g.slice k).glitch) then
          (if 1 < (g.slice k).glitch then log 0x06 0 0 (log 0x05 0 0 r (4 * k)) (4 * k) else log 0x05 0 0 r (4 * k)).updSlice t q k fun y =>
            { y with glitch := 0 }
        else r
      let deferred (r : State) (ls : List Nat) : State :=
        match ls with
        | n :: _ => log 0x02 0xFFFFFFFFFFFFFFFF 0 r n
        | [] => r
      let checked (use : List Nat) (ad : DWord) : Trap := { mkTrap 0x0E 1 with lanes := some (laneMask use), aux0 := ad }
      let s1 := g.liveIdx.foldl differ s
      let twice : Prop := g.dual = true ∧ ∃ k ∈ g.liveIdx, 1 < (g.slice k).glitch
      (cross ∨ matrix → twice → exec i s = .next (s1.raiseAll t q (mkTrap 0x0E 2) 0).fresh) ∧
      (cross → ¬twice → ∀ n use, (collBad s t q g j).1 = n :: use →
        exec i s = .next ((deferred (log 0x03 0xFFFFFFFFFFFFFFFF 0 s1 n) (collBad s t q g j).2).raiseAll t q
          (checked (n :: use) 0xFFFFFFFFFFFFFFFF) 0).fresh) ∧
      (matrix → ¬twice →
        let s2 := deferred s1 (s1.mxIgnores t q g j)
        ∀ g2, s2.group? t q = some g2 → ∀ n use,
          ((s2.mxBad t q g2 j).1 = n :: use → exec i s = .next ((log 0x03 0xFFFFFFFFFFFFFFFF 0 s2 n).raiseAll t q
            (checked (n :: use) 0xFFFFFFFFFFFFFFFF) 0).fresh) ∧
          ((s2.mxBad t q g2 j).1 = [] → (s2.mxBad t q g2 j).2 = n :: use →
            exec i s = .next ((log 0x03 0 2 s2 n).raiseAll t q (checked (n :: use) 0) 0).fresh))

/-- The units, or with `tag` the sectors' tags, at some places are spoilt, and no others. -/
def Sys2Proof.Spec.Spoilt (s r : State) (l : List Nat) (tag : Bool) : Prop :=
  (∀ n, n ∈ r.poison ↔ n ∈ s.poison ∨ tag = false ∧ ∃ a ∈ l, n = a / 8) ∧
    ∀ n, n ∈ r.badTags ↔ n ∈ s.badTags ∨ tag = true ∧ ∃ a ∈ l, n = a / 64

/-- What an error that the code cannot correct leaves at a site (21 R377, R378): a valid copy elsewhere, once the struck one is dropped, or
the mark of what is lost. -/
def Sys2Proof.Spec.ErrorLeaves (s r : State) : ErrorSite → Prop
  | .reg t q k n l part => Spoilt s r [] false ∧ (r.slice t q k).badOf n l = (s.slice t q k).badOf n l ||| (1#3 <<< part)
  | .acc t n => Spoilt s r [] false ∧ ∀ u, u ∈ (r.tile t).accBad ↔ u ∈ (s.tile t).accBad ∨ u = n
  | .row t n => Spoilt s r [] false ∧ ∀ u, u ∈ (r.tile t).accBad ↔ u ∈ (s.tile t).accBad ∨ u = 32768 + n
  | .pad t a tag => Spoilt s r [padKey t a] tag
  | .l1 t pa tag =>
    if dirtySector (s.tile t).l1 pa then Spoilt s r [pa] tag else Spoilt s r [] tag ∧ holdsSector (r.tile t).l1 pa = false
  | .l2 _ pa tag =>
    if dirtySector s.l2 pa ∧ ∀ p ∈ s.tiles, dirtySector p.2.l1 pa = false then Spoilt s r [pa] tag
    else Spoilt s r [] tag ∧ holdsSector r.l2 pa = false
  | .hbm pa tag => Spoilt s r (hbmUnits pa tag) tag
  | .icache t i _ => Spoilt s r [] false ∧ (r.tile t).icache = (s.tile t).icache.eraseIdx i
  | .tlb t i => Spoilt s r [] false ∧ (r.tile t).tlb = (s.tile t).tlb.eraseIdx i
  | .l2tlb i => Spoilt s r [] false ∧ ∀ e, s.l2Tlb[i]? = some e → e ∉ r.tents

/-- 21 R377, R378, R390: an error that strikes a place of any memory of Table 21.1. One that the code corrects leaves nothing but its record
in the error log; another drops a copy of which there is a valid one elsewhere, and else spoils the place. Which place stands for a site,
and that the instruction cache counts as an L1, is the model's (log 39). -/
def Obligations.ErrorsStrike : Prop :=
  ∀ (s : State) (rest : List Act) (c : ErrorSite), s.powered = true → s.struck c = true →
    (s.agenda = .upset (.single c) :: rest →
      ∃ r, step s = .next r ∧ r = { s with agenda := rest, errSent := r.errSent, corr := r.corr }) ∧
    (s.agenda = .upset (.double c) :: rest →
      ∃ r, step s = .next r ∧ r.mem = s.mem ∧ r.tags = s.tags ∧ r.csr = s.csr ∧ ErrorLeaves s r c)

/-- 18 R338, R342: a return through an untouched frame gives the interrupted slice back: `x` is the slice as its trap was delivered
from level TD to a handler, and `z` is the slice as it stands at the handler's RFT, with the level still as it was set aside. V and P registers,
and the other scalar registers, are the handler's. -/
def Obligations.TrapReturnRestores : Prop :=
  ∀ (x z : Slice) (i v : Nat) (tr : Trap) (pc rpc : DWord), z.td = x.td + 1 → x.td < 2 → x.lmask ≠ 0 → bits (x.fmt.setWidth 64) 7 4 ≠ 15 →
    x.fmt &&& 0xFC = x.fmt → rpc.toNat % 8 = 0 → x.div.length ≤ 3 → x.ret.length ≤ 8 → (∀ e ∈ x.div, e.saved ≠ 0) →
      ∃ r, z.rft (x.setAside v i) (frameWords x i tr v pc rpc) rpc = some r ∧
        r.div = x.div ∧ r.ret = x.ret ∧ r.spill = x.spill ∧ r.lmask = x.lmask ∧ r.fmt = x.fmt ∧ r.ebud = x.ebud ∧ r.hx = x.hx ∧
        r.cont = x.cont ∧ r.pm = x.pm ∧ r.td = x.td ∧ r.pc = rpc ∧ r.skipBp = tr.bps ∧
        (∀ n, 4 ≤ n → n ≤ 11 → r.sReg n = x.sReg n) ∧ (∀ n, n < 4 ∨ 11 < n → r.sReg n = z.sReg n) ∧ r.v = z.v ∧ r.p = z.p

/-! ## Memory -/

/-- 11 R215, R218, 12 R239, R240: the store that is next in a group's queue is performed: each byte that an access writes, in the tags'
window too, holds what the last of them gives it, and every other byte is as before. Of the window this is said where no access is to a
tagged page, whose tags `StoresSetTags` gives. -/
def Obligations.StoresLandInMemory : Prop :=
  ∀ (s : State) (t q : Nat) (g g1 : Group) (mst : Bool) (accs : List Acc), s.group? t q = some g → s.sqIdle g.sq 0 = none →
    s.sqHead g = some (.store mst accs, g1) → (s.setGroup t q g1).writeHeld (accLens accs) = false →
      ∃ r, exec (.storeQueuePerform t q) s = .next r ∧
        ∀ k, (isPeat k = false ∨ ∀ a ∈ accs, reaches a.loc = true → a.loc.tagged = false) → r.byte k =
          match (accs.filter fun a => reaches a.loc).reverse.find? fun a => accCovers a k with
          | some a => a.data.getD (k - a.loc.key) 0
          | none => s.byte k

/-- 11 R217, 12 R239: with the bytes, the tag of each sector that a tagged access touches becomes what R217 says, and every other tag
is as before. -/
def Obligations.StoresSetTags : Prop :=
  ∀ (s : State) (t q : Nat) (g g1 : Group) (mst : Bool) (accs : List Acc), s.group? t q = some g → s.sqIdle g.sq 0 = none →
    s.sqHead g = some (.store mst accs, g1) → (s.setGroup t q g1).writeHeld (accLens accs) = false →
      (∀ a ∈ accs, ∀ j, j < a.data.length → isPeat (a.loc.key + j) = false) →
        ∃ r, exec (.storeQueuePerform t q) s = .next r ∧
          ∀ n, r.tagAt (64 * n) =
            let ok := accs.filter fun a => reaches a.loc
            if ok.any fun a => a.loc.tagged && (accSectors a).elem n then storeTag ok n (s.tagAt (64 * n)) else s.tagAt (64 * n)

/-- The places whose bytes an entry of a store queue writes when it is performed, as key and length. -/
def Sys2Proof.Spec.entrySpans (s : State) : SqKind → List (Nat × Nat)
  | .store _ accs | .stf accs => accs.map fun a => (a.loc.key, a.data.length)
  | .atomic _ _ n _ lanes => lanes.map fun a => (a.loc.key, n)
  | .slveto k n => [((s.sluice k).slotAt n + 8, 8)]
  | _ => []

/-- 11 R226-R235, 12 R240, R252, 19 R371: whatever entry of a store queue is next, the queue's turn changes no byte outside the tags'
window but those of its own places. -/
def Obligations.StoreQueueFrame : Prop :=
  ∀ (s : State) (t q : Nat) (g : Group), s.group? t q = some g →
    ∃ r, exec (.storeQueuePerform t q) s = .next r ∧
      ∀ k, isPeat k = false →
        (∀ e g1, s.sqHead g = some (e, g1) → ∀ p ∈ entrySpans s e, ¬ (p.1 ≤ k ∧ k < p.1 + p.2)) → r.byte k = s.byte k

/-- 12 R240: no instruction of a program writes memory in its own beat: every byte and every tag is as before, whatever the instruction
(stores are performed from the group's queue, other units write by events), but for a CSRW that resets the package (22 R399). -/
def Obligations.ProgramInstructionsLeaveMemory : Prop :=
  ∀ (s r : State) (i : Instr), i.kind ≠ .event → (∀ h a, i ≠ .csrw h 0x05B a) → exec i s = .next r →
    (∀ k, r.byte k = s.byte k) ∧ ∀ n, r.tagAt n = s.tagAt n

/-- 18 R336, R344: apart from the counts of requests, an instruction of a program changes a system register only if it is CSRW in
privileged mode. -/
def Obligations.UserModeKeepsSystemRegisters : Prop :=
  ∀ (s r : State) (i : Instr), i.kind ≠ .event →
    ((∀ h n a, i ≠ .csrw h n a) ∨ ∀ k ∈ s.focus.slices, (s.slice s.focus.tile s.focus.slot k).pm = false) → exec i s = .next r →
      r.csr = { s.csr with nearReq := r.csr.nearReq, farReq := r.csr.farReq } ∧ r.queues = s.queues ∧ r.powered = s.powered ∧
        r.booted = s.booted ∧ r.time = s.time

/-- Every step keeps the canonical form of memory, tags and scratchpads: the model's own form (log 1) of what
11 R207 and R217 give every address, with the reset contents of log 5. -/
def Obligations.StepKeepsMemoryWf : Prop := ∀ (s r : State), s.MemoryWf → step s = .next r → r.MemoryWf

/-- Reset memory has that form, of 11 R207 and R217 (logs 1, 5). -/
def Obligations.ResetMemoryWf : Prop := State.reset.MemoryWf

/-! ## Words -/

/-- 05 R82-R97 and the chapters' field tables: the words of a well-formed instruction, laid out in memory before any other bytes, decode to
it, and leave those bytes. Of every instruction that a program's words name. -/
def Obligations.DecodeEncodeAgree : Prop :=
  ∀ (i : Instr) (rest : List Byte), i.wellFormed = true → i.hdr?.isSome = true → decodeBytes (encodeBytes i ++ rest) = .ok (i, rest)

/-- 05 R94, R98: what decodes to an instruction is well-formed and has the words decoded, and an unassigned opcode is the rest. -/
def Obligations.DecodedIsWellFormed : Prop :=
  ∀ (w0 w1 : DWord) (i : Instr), decodeWords w0 w1 = .ok i →
    (i.hdr?.isSome = true ∧ i.wellFormed = true ∧ encode i = if needsSecond w0 then [w0, w1] else [w0]) ∨
      i = .undefinedOpcode w0 (if needsSecond w0 then w1 else 0)

/-- 05 R93: a nonzero bit of MZ makes the word of an assigned opcode a breach, which raises ILLEGAL. -/
def Obligations.NonzeroMzIsABreach : Prop :=
  ∀ (w0 w1 : DWord), (readFields w0 (if needsSecond w0 then w1 else 0)).isSome = true → bits w0 3 0 ≠ 0 →
    decodeWords w0 w1 = .error .illegal

/-- 05 R93: at any value of HN the word decodes, to the same instruction but for the hint itself, and the two execute identically. -/
def Obligations.HintIsIgnored : Prop :=
  ∀ (w0 w1 : DWord) (n : BitVec 4) (i : Instr), decodeWords w0 w1 = .ok i → i.hdr?.isSome = true →
    decodeWords ((w0 &&& ~~~0xF0#64) ||| (n.setWidth 64 <<< 4)) w1 = .ok (withHint n i) ∧ ∀ s, exec (withHint n i) s = exec i s

/-- Words that the spec writes out (05 Table 5.10, 06, 07, 08, 10, 11, 13, 14, 16, 18), and the instructions they stand for. -/
def Obligations.DecodeWords : Prop :=
  (decodeWords 0x1007010000000300 0).toOption = some (.fadd ⟨false, false, 7, 0⟩ (.ty .f32) .auto .dflt 1 0 (.v 0)) ∧
  (decodeWords 0x9EE7001C01000000 0).toOption = some (.st ⟨true, false, 7, 0⟩ .w (.s 28) 1 0 .grp .rlx false) ∧
  (decodeWords 0x41F7050000000000 0x0123456789ABCDEF).toOption = some (.sliw ⟨false, false, 7, 0⟩ 5 0x0123456789ABCDEF) ∧
  (decodeWords 0x0417FFFFE0002400 0).toOption = some (.brs ⟨false, false, 7, 0⟩ (-2) .ne 4) ∧
  (decodeWords 0x09C2010609022200 0).toOption = some (.vsetp ⟨false, false, 2, 0⟩ (.ty .n32) 1 6 (.s 9) .lt) ∧
  (decodeWords 0x1C670C0307030000 0).toOption = some (.vote ⟨false, false, 7, 0⟩ .ballot 12 3 7) ∧
  (decodeWords 0x1E71060283004000 0).toOption = some (.ld ⟨false, false, 1, 0⟩ .d (.v 2) 6 1 .grp .rlx false (some 3)) ∧
  (decodeWords 0x2827050300000000 0).toOption = some (.bara ⟨false, false, 7, 0⟩ 5 3)

/-! ## Steps -/

/-- A tile's turns pass without a beat. -/
inductive Sys2Proof.Spec.Passes (t : Nat) : State → State → Prop
  | here (s : State) : Passes t s s
  | turn (s u v : State) : s.quarter t = .none u → Passes t u v → Passes t s v

/-- 05 R81, 09 R177, R179, 08 R158, 14 R282: a tile issues, in the first of its quarters' turns that has one, the gang that comes first. It is
a gang of slices that nothing holds, and the words at its PC are those that a line of the instruction cache holds; or it is the gang
that presents its group's collective. Where there is an instruction, decoded from the words or presented, the step is exec of it, by that
gang; where the words breach their encoding, the gang takes a breach's trap. -/
def Obligations.StepRunsDecoded : Prop :=
  ∀ (s s1 : State) (t : Nat) (rest : List Act) (r : Ready), s.agenda = .issue t :: rest →
    ({ s with agenda := rest } : State).turns t 4 = .issue r s1 →
      (∀ i, r.instr = some i → step s = exec i (s1.focusOn t r)) ∧
      (r.instr = none → step s = execBreach r.w0 r.w1 (s1.focusOn t r)) ∧
      ∃ u, Passes t { s with agenda := rest } u ∧ u.quarter t = .issue r s1 ∧
        let b := u.updTile t fun x => x.beginTurn (u.time.toNat / 50)
        let sa := b.parkFull t (b.readyGangs t (b.tile t).turn)
        (r.slot, r.g) ∈ (sa.tile t).groups ∧ r.slot / 16 = (b.tile t).turn ∧
          if r.pres then r.instr.isSome ∧ r.g.presented? = r.instr ∧ r.l = r.g.gangSlices r.g.leader.gang
          else r.l ≠ [] ∧ (∀ k ∈ r.l, (r.g.slice k).free = true) ∧ (∃ s2, sa.fetch t r.g (r.l.headD 0) = .words s2 r.w0 r.w1) ∧
            (∃ line ∈ (sa.tile t).icache, ∃ n, r.w0 = bytesWord (line.data.drop n) 0) ∧
            r.instr = match decodeWords r.w0 r.w1 with
              | .ok i => some i
              | .error _ => none

/-- 05 R94: a breach raises ILLEGAL with CODE 0x00 in every slice of the gang. 14 R282: a word with an opcode of the matrix unit is a
rendezvous point, at which the group, once it has come, takes ILL_CONV where a divergence stack is not empty, MZERO's opcode apart, and
else that ILLEGAL. 02 R22, 09 R176, 18 R343: a slice about to issue that stands at a breakpoint, in which the instruction does not
decode, or that names a register of its write set takes that trap instead, and, of a plain instruction, the other slices complete. That
the breakpoint comes first, and what a collective's slices check before they meet, are the model's readings (logs 80, 25). -/
def Obligations.BreachTraps : Prop :=
  (∀ (s : State) (w0 w1 : DWord) (g : Group) (l : List Nat),
    (isMatrixOpcode w0 = false → ∀ (c : UClass) (cost : Nat), Issues s (.undefinedOpcode w0 w1) g l c cost →
      ∃ m, Alike s m ∧
        execBreach w0 w1 s = .next (l.foldl (fun r k => r.raise s.focus.tile s.focus.slot k (illegal 0) 0) m).fresh) ∧
    (isMatrixOpcode w0 = true → Arrives s (.undefinedOpcode w0 w1) g l → Gathered g (.undefinedOpcode w0 w1) l →
      (∀ k ∈ g.liveIdx, (g.slice k).pc = g.leader.pc) →
        ∃ m p, Arrived s (.undefinedOpcode w0 w1) g l m ∧ gathered m s.focus.tile s.focus.slot = some p ∧
          let tr := if opcodeOf w0 ≠ 0x261 ∧ ∃ k ∈ p.2.liveIdx, (p.2.slice k).div ≠ [] then mkTrap 0x04 0 else illegal 0
          let lanes := laneMask (p.2.liveIdx.flatMap fun k => (p.2.slice k).laneSet k)
          execBreach w0 w1 s = .next (p.2.liveIdx.foldl
            (fun r k => r.raise s.focus.tile s.focus.slot k { tr with coll := true, lanes := some lanes } 0) p.1))) ∧
  (∀ (s : State) (i : Instr) (g : Group) (l : List Nat) (tr : Nat → Trap), i.kind ≠ .event →
    (if isCollective i then Comes s i g l else ∃ c cost, ToIssue s i g l c cost) →
      (∀ k ∈ l, earlyTrap s g (g.slice k) i = some (tr k)) → Trapped s i l tr) ∧
  ∀ (s : State) (i : Instr) (g : Group) (l : List Nat) (c : UClass) (cost : Nat) (y : Nat → Except Trap Slice), ToIssue s i g l c cost →
    (∀ k ∈ l, (g.slice k).sound) →
      let early := l.filterMap fun k => (earlyTrap s g (g.slice k) i).map fun tr => (k, tr)
      let go := l.filter fun k => (earlyTrap s g (g.slice k) i).isNone
      go ≠ [] → (∀ k ∈ go, plainOutcome i c (ctxOf s s.focus.tile s.focus.slot g k) (g.slice k) = some (y k)) →
        Parted s i g l cost (afterBeat i s (s.enacted go y)) (early ++ trapsOf go y)

/-- The model's own (log 3): a planned event is the step; an instruction of a program is none. -/
def Obligations.StepTakesEvents : Prop :=
  ∀ (s : State) (i : Instr) (rest : List Act), s.agenda = .event i :: rest →
    step s = if i.kind = .event then exec i { s with agenda := rest } else .next { s with agenda := rest }

/-- 03 R58, 09 R181, R182, 10 R192, 16 Table 16.1, 17 Tables 17.9 and 17.10, 18 Table 18.3, 19 R366 and Table 19.4, 21 Table 21.2, 22 Tables
22.2, 22.3 and 22.6: what reset leaves. -/
def Obligations.ResetValues : Prop :=
  let s := State.reset
  (∀ t q, s.group? t q = none ∧ ((s.tile t).srOf q) = 0x9E3779B97F4A7C15) ∧ (∀ t, (s.tile t).allow = 0 ∧ (s.tile t).mx = none) ∧
  s.csr.ptvec = 0 ∧ s.csr.tfbase = 0 ∧ s.csr.asidtb = 0 ∧ (∀ n, Sparse.get 0 s.csr.bpa n = 0) ∧ s.csr.flCfg = 6 ∧ s.csr.elCfg = 6 ∧
  s.csr.flBase = 0 ∧ s.csr.flW = 0 ∧ s.csr.flR = 0 ∧ s.csr.elBase = 0 ∧ s.csr.elW = 0 ∧ s.csr.elR = 0 ∧
  (∀ n, Sparse.get 0 s.csr.nearReq n = 0 ∧ Sparse.get 0 s.csr.farReq n = 0) ∧
  (∀ n, Sparse.get 0 s.csr.cxlLo n = 0 ∧ Sparse.get 0 s.csr.cxlHi n = 0 ∧ Sparse.get 0 s.csr.ownLo n = 0 ∧ Sparse.get 0 s.csr.ownHi n = 0) ∧
  s.csr.testCfg = 0x10036EE80 ∧ s.csr.testStat = 31 ∧ s.csr.pwrLim = 2800 ∧ s.csr.fldomCount = 1 ∧ s.csr.almCause = 0 ∧ s.csr.bootStat = 0 ∧
  (∀ n, let x := Sparse.get Queue.reset s.queues n
    x = { base := 0, cfg := 0x1000002, tail := 0, head := 0, stop := false, err := 0, since := x.since, cur := none, last := none }) ∧
  (∀ n, s.sluice n = { base := 0, cfg := 2, put := 0, rel := 0, host := 0, vlost := false }) ∧ s.counters = [] ∧
  s.launches = [] ∧ s.taskQ = [] ∧ s.resumed = [] ∧ s.measLog = [(1, .rom), (2, .firmware), (3, .config)]

/-! ## Registers -/

/-- 02 R27. -/
def Obligations.ScalarRegisters : Prop :=
  ∀ (c : Ctx) (x : Slice) (site lane : Nat) (v : DWord) (b : Eb16) (t : Ty) (a n : SReg),
    c.rdS x site 0 = 0 ∧ x.sReg 0 = 0 ∧ x.write { dst := .s 0, val := v, bnd := b } = x ∧
    (n ≠ 0 → (x.write (wS n.toNat v)).sReg n.toNat = v) ∧ (c.valO x t site (.s a) lane).b = 0

/-- 06 R108: the quotients and remainders of division by zero and of signed overflow, and the example; no operand traps. -/
def Obligations.DivisionSpecialCases : Prop :=
  ∀ (s : State) (i : Instr) (g : Group) (l : List Nat) (c : UClass) (cost : Nat) (h : Hdr) (d a : SReg) (y : SOpnd) (p q : DWord),
    Issues s i g l c cost →
    (∀ k ∈ l, let e := ctxOf s s.focus.tile s.focus.slot g k
      e.performs (g.slice k) h = true ∧ e.rdS (g.slice k) 0 a.toNat = p ∧ e.sY (g.slice k) 1 y = q) →
    let gives (v : DWord) : Prop := Ran s i g l cost fun k => ((g.slice k).post [wS d.toNat v]).adv i
    (i = .sdiv h d a y → (q = 0 → gives (-1)) ∧ (p = 0x8000000000000000 → q = -1 → gives 0x8000000000000000) ∧ (p = -7 → q = 2 → gives (-3))) ∧
    (i = .sdivn h d a y → q = 0 → gives 0xFFFFFFFFFFFFFFFF) ∧
    (i = .srem h d a y → (q = 0 → gives p) ∧ (p = 0x8000000000000000 → q = -1 → gives 0) ∧ (p = -7 → q = 2 → gives (-1))) ∧
    (i = .sremn h d a y → q = 0 → gives p)

/-- 03 R58: the xorshift step, and SRSEED's replacement of 0. -/
def Obligations.GeneratorStep : Prop :=
  (∀ s : DWord, srNext s =
    let a := s ^^^ (s <<< 13)
    let b := a ^^^ (a >>> 7)
    b ^^^ (b <<< 17)) ∧
  ∀ (x : Tile) (q : Nat) (v : DWord), (x.setSr q v).srOf q = if v = 0 then 0x9E3779B97F4A7C15 else v
end

