-- ==== Sys2Proof/Laws/Sparse.lean ====
section
/-! SUPPORT. Reading after writing a sparse table, and its canonical form. -/

namespace Sys2Proof.Sparse

variable {α : Type}

theorem find?_insert_self (t : Sparse α) (n : Nat) (x : α) : find? (insert t n x) n = some x := by
  induction t with
  | nil => simp [insert, find?]
  | cons p rest ih =>
    obtain ⟨k, v⟩ := p
    simp only [insert]
    split
    · simp [find?]
    · split
      · simp [find?]
      · simp [find?, *]

theorem find?_insert_ne (t : Sparse α) {n m : Nat} (x : α) (h : m ≠ n) : find? (insert t n x) m = find? t m := by
  induction t with
  | nil => simp [insert, find?, Ne.symm h]
  | cons p rest ih =>
    obtain ⟨k, v⟩ := p
    simp only [insert]
    split
    · rename_i hk
      simp [find?, Ne.symm h, show k ≠ m from fun e => h (by omega)]
    · split
      · simp [find?, Ne.symm h]
      · simp [find?, ih]

theorem get_eq_find? (d : α) (t : Sparse α) (n : Nat) : get d t n = (find? t n).getD d := by
  induction t with
  | nil => rfl
  | cons p rest ih =>
    obtain ⟨k, v⟩ := p
    simp only [get, find?]
    split <;> simp [ih]

theorem get_insert_self (d : α) (t : Sparse α) (n : Nat) (x : α) : get d (insert t n x) n = x := by
  simp [get_eq_find?, find?_insert_self]

theorem get_insert_ne (d : α) (t : Sparse α) {n m : Nat} (x : α) (h : m ≠ n) : get d (insert t n x) m = get d t m := by
  simp [get_eq_find?, find?_insert_ne t x h]

theorem find?_erase_ne (t : Sparse α) {n m : Nat} (h : m ≠ n) : find? (erase t n) m = find? t m := by
  induction t with
  | nil => rfl
  | cons p rest ih =>
    obtain ⟨k, v⟩ := p
    simp only [erase]
    split
    · simp [find?, ih, show k ≠ m from fun e => h (by omega)]
    · simp [find?, ih]

theorem get_erase_self (d : α) (t : Sparse α) (n : Nat) : get d (erase t n) n = d := by
  induction t with
  | nil => rfl
  | cons p rest ih =>
    obtain ⟨k, v⟩ := p
    simp only [erase]
    split
    · exact ih
    · simp [get, *]

theorem get_erase_ne (d : α) (t : Sparse α) {n m : Nat} (h : m ≠ n) : get d (erase t n) m = get d t m := by
  simp [get_eq_find?, find?_erase_ne t h]

/-! ## Canonical form -/

variable [DecidableEq α]

theorem get_set_ne (d : α) (t : Sparse α) {n m : Nat} (x : α) (h : m ≠ n) : get d (set d t n x) m = get d t m := by
  unfold set
  split
  · exact get_erase_ne d t h
  · exact get_insert_ne d t x h

theorem get_set_self_of_ne (d : α) (t : Sparse α) (n : Nat) {x : α} (h : x ≠ d) : get d (set d t n x) n = x := by
  simp [set, h, get_insert_self]

theorem wfFrom_mono {d : α} {lo lo' : Nat} {t : Sparse α} (h : wfFrom d lo t = true) (hl : lo' ≤ lo) : wfFrom d lo' t = true := by
  cases t with
  | nil => rfl
  | cons p rest =>
    obtain ⟨k, v⟩ := p
    simp only [wfFrom, Bool.and_eq_true, decide_eq_true_eq] at h ⊢
    exact ⟨⟨by omega, h.1.2⟩, h.2⟩

/-- Below its keys a canonical table reads as the default. -/
theorem get_of_wfFrom {d : α} {lo n : Nat} {t : Sparse α} (h : wfFrom d lo t = true) (hn : n < lo) : get d t n = d := by
  induction t generalizing lo with
  | nil => rfl
  | cons p rest ih =>
    obtain ⟨k, v⟩ := p
    simp only [wfFrom, Bool.and_eq_true, decide_eq_true_eq] at h
    simp only [get]
    split
    · omega
    · exact ih h.2 (by omega)

theorem wfFrom_erase {d : α} {lo : Nat} {t : Sparse α} (n : Nat) (h : wfFrom d lo t = true) : wfFrom d lo (erase t n) = true := by
  induction t generalizing lo with
  | nil => rfl
  | cons p rest ih =>
    obtain ⟨k, v⟩ := p
    simp only [wfFrom, Bool.and_eq_true, decide_eq_true_eq] at h
    simp only [erase]
    split
    · exact wfFrom_mono (ih h.2) (by omega)
    · simp only [wfFrom, Bool.and_eq_true, decide_eq_true_eq]
      exact ⟨h.1, ih h.2⟩

theorem wfFrom_insert {d : α} {lo n : Nat} {x : α} {t : Sparse α} (hx : x ≠ d) (hn : lo ≤ n) (h : wfFrom d lo t = true) :
    wfFrom d lo (insert t n x) = true := by
  induction t generalizing lo with
  | nil => simp [insert, wfFrom, hx, hn]
  | cons p rest ih =>
    obtain ⟨k, v⟩ := p
    have h' := h
    simp only [wfFrom, Bool.and_eq_true, decide_eq_true_eq] at h'
    simp only [insert]
    split
    · rename_i hk
      simp only [wfFrom, Bool.and_eq_true, decide_eq_true_eq]
      exact ⟨⟨hn, hx⟩, hk ▸ h'.2⟩
    · split
      · simp only [wfFrom, Bool.and_eq_true, decide_eq_true_eq]
        exact ⟨⟨hn, hx⟩, ⟨by omega, h'.1.2⟩, h'.2⟩
      · simp only [wfFrom, Bool.and_eq_true, decide_eq_true_eq]
        exact ⟨h'.1, ih (by omega) h'.2⟩

/-- A write keeps the canonical form. -/
theorem wf_set {d : α} {t : Sparse α} (n : Nat) (x : α) (h : wf d t = true) : wf d (set d t n x) = true := by
  unfold set
  split
  · exact wfFrom_erase n h
  · rename_i hx
    exact wfFrom_insert hx (Nat.zero_le n) h

/-- A read after a write. -/
theorem get_set_self (d : α) (t : Sparse α) (n : Nat) (x : α) : get d (set d t n x) n = x := by
  unfold set
  split
  · rename_i hx
    rw [hx]
    exact get_erase_self d t n
  · exact get_insert_self d t n x

end Sys2Proof.Sparse
end

