-- ==== Sys2Proof/Laws/State.lean ====
section
/-! SUPPORT. What each update of the state leaves as it was, field by field: a reader of a field never unfolds an update. -/

namespace Sys2Proof.Machine

/-! ## Reading after writing -/

@[simp] theorem tile_setTile_self (s : State) (t : Nat) (x : Tile) : (s.setTile t x).tile t = x := Sparse.get_set_self _ _ _ _

theorem tile_setTile_ne (s : State) {t t' : Nat} (x : Tile) (h : t' ≠ t) : (s.setTile t x).tile t' = s.tile t' :=
  Sparse.get_set_ne _ _ _ h

@[simp] theorem tile_updTile_self (s : State) (t : Nat) (f : Tile → Tile) : (s.updTile t f).tile t = f (s.tile t) :=
  tile_setTile_self _ _ _

theorem tile_updTile_ne (s : State) {t t' : Nat} (f : Tile → Tile) (h : t' ≠ t) : (s.updTile t f).tile t' = s.tile t' :=
  tile_setTile_ne _ _ h

@[simp] theorem tile_setGroup_self (s : State) (t q : Nat) (g : Group) : (s.setGroup t q g).tile t = (s.tile t).setGroup q g :=
  tile_setTile_self _ _ _

theorem tile_setGroup_ne (s : State) {t t' : Nat} (q : Nat) (g : Group) (h : t' ≠ t) : (s.setGroup t q g).tile t' = s.tile t' :=
  tile_setTile_ne _ _ h

@[simp] theorem group?_setGroup_self (s : State) (t q : Nat) (g : Group) : (s.setGroup t q g).group? t q = some g := by
  simp [State.group?, Tile.group?, Tile.setGroup, Sparse.find?_insert_self]

theorem group?_setGroup_ne (s : State) (t : Nat) {q q' : Nat} (g : Group) (h : q' ≠ q) :
    (s.setGroup t q g).group? t q' = s.group? t q' := by
  simp [State.group?, Tile.group?, Tile.setGroup, Sparse.find?_insert_ne _ _ h]

theorem group?_updTile (s : State) (t : Nat) {f : Tile → Tile} (hf : (f (s.tile t)).groups = (s.tile t).groups) (q : Nat) :
    (s.updTile t f).group? t q = s.group? t q := by
  simp [State.group?, Tile.group?, hf]

@[simp] theorem slice_setSlice_self (g : Group) (k : Nat) (x : Slice) : (g.setSlice k x).slice k = x := Sparse.get_insert_self _ _ _ _

theorem slice_setSlice_ne (g : Group) {k j : Nat} (x : Slice) (h : j ≠ k) : (g.setSlice k x).slice j = g.slice j :=
  Sparse.get_insert_ne _ _ _ h

theorem slice_of_group {s : State} {t q : Nat} {g : Group} (h : s.group? t q = some g) (k : Nat) : s.slice t q k = g.slice k := by
  simp [State.slice, h]

theorem updGroup_eq {m : State} {t q : Nat} {g : Group} (h : m.group? t q = some g) (f : Group → Group) :
    m.updGroup t q f = m.setGroup t q (f g) := by
  simp [State.updGroup, h]

theorem updSlice_eq {m : State} {t q : Nat} {g : Group} (h : m.group? t q = some g) (k : Nat) (f : Slice → Slice) :
    m.updSlice t q k f = m.setGroup t q (g.setSlice k (f (g.slice k))) :=
  updGroup_eq h _

@[simp] theorem sReg_zero (x : Slice) : x.sReg 0 = 0 := rfl

/-- 02 R27. -/
@[simp] theorem write_s_zero (x : Slice) (v : DWord) (b : Eb16) : x.write { dst := .s 0, val := v, bnd := b } = x := rfl

theorem sReg_write_self (x : Slice) {n : Nat} (v : DWord) (h : n ≠ 0) : (x.write (wS n v)).sReg n = v := by
  simp [Slice.write, wS, Slice.sReg, h, Sparse.get_set_self]

theorem sReg_write_ne (x : Slice) {n m : Nat} (v : DWord) (h : m ≠ n) : (x.write (wS n v)).sReg m = x.sReg m := by
  by_cases hn : n = 0
  · simp [Slice.write, wS, hn]
  · simp [Slice.write, wS, Slice.sReg, hn, Sparse.get_set_ne _ _ _ h]

theorem vReg_write_self (x : Slice) (r lane : Nat) (v : Word) (b : Eb16) : (x.write (wV r lane v b)).vReg r lane = { val := v, bnd := ebWritten b } := by
  simp [Slice.write, wV, Slice.vReg, Sparse.get_set_self]

/-! ## A tile -/

@[simp] theorem setTile_time (s : State) (t : Nat) (x : Tile) : (s.setTile t x).time = s.time := rfl
@[simp] theorem setTile_mem (s : State) (t : Nat) (x : Tile) : (s.setTile t x).mem = s.mem := rfl
@[simp] theorem setTile_tags (s : State) (t : Nat) (x : Tile) : (s.setTile t x).tags = s.tags := rfl
@[simp] theorem setTile_poison (s : State) (t : Nat) (x : Tile) : (s.setTile t x).poison = s.poison := rfl
@[simp] theorem setTile_badTags (s : State) (t : Nat) (x : Tile) : (s.setTile t x).badTags = s.badTags := rfl
@[simp] theorem setTile_emptyGran (s : State) (t : Nat) (x : Tile) : (s.setTile t x).emptyGran = s.emptyGran := rfl
@[simp] theorem setTile_behind (s : State) (t : Nat) (x : Tile) : (s.setTile t x).behind = s.behind := rfl
@[simp] theorem setTile_invMarks (s : State) (t : Nat) (x : Tile) : (s.setTile t x).invMarks = s.invMarks := rfl
@[simp] theorem setTile_past (s : State) (t : Nat) (x : Tile) : (s.setTile t x).past = s.past := rfl
@[simp] theorem setTile_deferral (s : State) (t : Nat) (x : Tile) : (s.setTile t x).deferral = s.deferral := rfl
@[simp] theorem setTile_tents (s : State) (t : Nat) (x : Tile) : (s.setTile t x).tents = s.tents := rfl
@[simp] theorem setTile_l2 (s : State) (t : Nat) (x : Tile) : (s.setTile t x).l2 = s.l2 := rfl
@[simp] theorem setTile_counters (s : State) (t : Nat) (x : Tile) : (s.setTile t x).counters = s.counters := rfl
@[simp] theorem setTile_csr (s : State) (t : Nat) (x : Tile) : (s.setTile t x).csr = s.csr := rfl
@[simp] theorem setTile_almQuiet (s : State) (t : Nat) (x : Tile) : (s.setTile t x).almQuiet = s.almQuiet := rfl
@[simp] theorem setTile_almTie (s : State) (t : Nat) (x : Tile) : (s.setTile t x).almTie = s.almTie := rfl
@[simp] theorem setTile_forcedAt (s : State) (t : Nat) (x : Tile) : (s.setTile t x).forcedAt = s.forcedAt := rfl
@[simp] theorem setTile_rings (s : State) (t : Nat) (x : Tile) : (s.setTile t x).rings = s.rings := rfl
@[simp] theorem setTile_queues (s : State) (t : Nat) (x : Tile) : (s.setTile t x).queues = s.queues := rfl
@[simp] theorem setTile_launches (s : State) (t : Nat) (x : Tile) : (s.setTile t x).launches = s.launches := rfl
@[simp] theorem setTile_taskQ (s : State) (t : Nat) (x : Tile) : (s.setTile t x).taskQ = s.taskQ := rfl
@[simp] theorem setTile_gathers (s : State) (t : Nat) (x : Tile) : (s.setTile t x).gathers = s.gathers := rfl
@[simp] theorem setTile_running (s : State) (t : Nat) (x : Tile) : (s.setTile t x).running = s.running := rfl
@[simp] theorem setTile_retiring (s : State) (t : Nat) (x : Tile) : (s.setTile t x).retiring = s.retiring := rfl
@[simp] theorem setTile_resumed (s : State) (t : Nat) (x : Tile) : (s.setTile t x).resumed = s.resumed := rfl
@[simp] theorem setTile_away (s : State) (t : Nat) (x : Tile) : (s.setTile t x).away = s.away := rfl
@[simp] theorem setTile_rr (s : State) (t : Nat) (x : Tile) : (s.setTile t x).rr = s.rr := rfl
@[simp] theorem setTile_waitSince (s : State) (t : Nat) (x : Tile) : (s.setTile t x).waitSince = s.waitSince := rfl
@[simp] theorem setTile_objects (s : State) (t : Nat) (x : Tile) : (s.setTile t x).objects = s.objects := rfl
@[simp] theorem setTile_sharedBars (s : State) (t : Nat) (x : Tile) : (s.setTile t x).sharedBars = s.sharedBars := rfl
@[simp] theorem setTile_leaves (s : State) (t : Nat) (x : Tile) : (s.setTile t x).leaves = s.leaves := rfl
@[simp] theorem setTile_sending (s : State) (t : Nat) (x : Tile) : (s.setTile t x).sending = s.sending := rfl
@[simp] theorem setTile_mergeBuf (s : State) (t : Nat) (x : Tile) : (s.setTile t x).mergeBuf = s.mergeBuf := rfl
@[simp] theorem setTile_errSent (s : State) (t : Nat) (x : Tile) : (s.setTile t x).errSent = s.errSent := rfl
@[simp] theorem setTile_errBuf (s : State) (t : Nat) (x : Tile) : (s.setTile t x).errBuf = s.errBuf := rfl
@[simp] theorem setTile_corr (s : State) (t : Nat) (x : Tile) : (s.setTile t x).corr = s.corr := rfl
@[simp] theorem setTile_sluices (s : State) (t : Nat) (x : Tile) : (s.setTile t x).sluices = s.sluices := rfl
@[simp] theorem setTile_msixTable (s : State) (t : Nat) (x : Tile) : (s.setTile t x).msixTable = s.msixTable := rfl
@[simp] theorem setTile_msixPend (s : State) (t : Nat) (x : Tile) : (s.setTile t x).msixPend = s.msixPend := rfl
@[simp] theorem setTile_msixLast (s : State) (t : Nat) (x : Tile) : (s.setTile t x).msixLast = s.msixLast := rfl
@[simp] theorem setTile_msixSent (s : State) (t : Nat) (x : Tile) : (s.setTile t x).msixSent = s.msixSent := rfl
@[simp] theorem setTile_hdm (s : State) (t : Nat) (x : Tile) : (s.setTile t x).hdm = s.hdm := rfl
@[simp] theorem setTile_ports (s : State) (t : Nat) (x : Tile) : (s.setTile t x).ports = s.ports := rfl
@[simp] theorem setTile_noRoute (s : State) (t : Nat) (x : Tile) : (s.setTile t x).noRoute = s.noRoute := rfl
@[simp] theorem setTile_downAt (s : State) (t : Nat) (x : Tile) : (s.setTile t x).downAt = s.downAt := rfl
@[simp] theorem setTile_fenOut (s : State) (t : Nat) (x : Tile) : (s.setTile t x).fenOut = s.fenOut := rfl
@[simp] theorem setTile_timeSync (s : State) (t : Nat) (x : Tile) : (s.setTile t x).timeSync = s.timeSync := rfl
@[simp] theorem setTile_measLog (s : State) (t : Nat) (x : Tile) : (s.setTile t x).measLog = s.measLog := rfl
@[simp] theorem setTile_powered (s : State) (t : Nat) (x : Tile) : (s.setTile t x).powered = s.powered := rfl
@[simp] theorem setTile_booted (s : State) (t : Nat) (x : Tile) : (s.setTile t x).booted = s.booted := rfl
@[simp] theorem setTile_testStart (s : State) (t : Nat) (x : Tile) : (s.setTile t x).testStart = s.testStart := rfl
@[simp] theorem setTile_hostOut (s : State) (t : Nat) (x : Tile) : (s.setTile t x).hostOut = s.hostOut := rfl
@[simp] theorem setTile_quoteOut (s : State) (t : Nat) (x : Tile) : (s.setTile t x).quoteOut = s.quoteOut := rfl
@[simp] theorem setTile_agenda (s : State) (t : Nat) (x : Tile) : (s.setTile t x).agenda = s.agenda := rfl
@[simp] theorem setTile_focus (s : State) (t : Nat) (x : Tile) : (s.setTile t x).focus = s.focus := rfl
@[simp] theorem setTile_nextTile (s : State) (t : Nat) (x : Tile) : (s.setTile t x).nextTile = s.nextTile := rfl
@[simp] theorem setTile_free (s : State) (t : Nat) (x : Tile) : (s.setTile t x).free = s.free := rfl
@[simp] theorem setTile_nextId (s : State) (t : Nat) (x : Tile) : (s.setTile t x).nextId = s.nextId := rfl

@[simp] theorem updTile_time (s : State) (t : Nat) (f : Tile → Tile) : (s.updTile t f).time = s.time := rfl
@[simp] theorem updTile_mem (s : State) (t : Nat) (f : Tile → Tile) : (s.updTile t f).mem = s.mem := rfl
@[simp] theorem updTile_tags (s : State) (t : Nat) (f : Tile → Tile) : (s.updTile t f).tags = s.tags := rfl
@[simp] theorem updTile_poison (s : State) (t : Nat) (f : Tile → Tile) : (s.updTile t f).poison = s.poison := rfl
@[simp] theorem updTile_badTags (s : State) (t : Nat) (f : Tile → Tile) : (s.updTile t f).badTags = s.badTags := rfl
@[simp] theorem updTile_emptyGran (s : State) (t : Nat) (f : Tile → Tile) : (s.updTile t f).emptyGran = s.emptyGran := rfl
@[simp] theorem updTile_behind (s : State) (t : Nat) (f : Tile → Tile) : (s.updTile t f).behind = s.behind := rfl
@[simp] theorem updTile_invMarks (s : State) (t : Nat) (f : Tile → Tile) : (s.updTile t f).invMarks = s.invMarks := rfl
@[simp] theorem updTile_past (s : State) (t : Nat) (f : Tile → Tile) : (s.updTile t f).past = s.past := rfl
@[simp] theorem updTile_deferral (s : State) (t : Nat) (f : Tile → Tile) : (s.updTile t f).deferral = s.deferral := rfl
@[simp] theorem updTile_tents (s : State) (t : Nat) (f : Tile → Tile) : (s.updTile t f).tents = s.tents := rfl
@[simp] theorem updTile_l2 (s : State) (t : Nat) (f : Tile → Tile) : (s.updTile t f).l2 = s.l2 := rfl
@[simp] theorem updTile_counters (s : State) (t : Nat) (f : Tile → Tile) : (s.updTile t f).counters = s.counters := rfl
@[simp] theorem updTile_csr (s : State) (t : Nat) (f : Tile → Tile) : (s.updTile t f).csr = s.csr := rfl
@[simp] theorem updTile_almQuiet (s : State) (t : Nat) (f : Tile → Tile) : (s.updTile t f).almQuiet = s.almQuiet := rfl
@[simp] theorem updTile_almTie (s : State) (t : Nat) (f : Tile → Tile) : (s.updTile t f).almTie = s.almTie := rfl
@[simp] theorem updTile_forcedAt (s : State) (t : Nat) (f : Tile → Tile) : (s.updTile t f).forcedAt = s.forcedAt := rfl
@[simp] theorem updTile_rings (s : State) (t : Nat) (f : Tile → Tile) : (s.updTile t f).rings = s.rings := rfl
@[simp] theorem updTile_queues (s : State) (t : Nat) (f : Tile → Tile) : (s.updTile t f).queues = s.queues := rfl
@[simp] theorem updTile_launches (s : State) (t : Nat) (f : Tile → Tile) : (s.updTile t f).launches = s.launches := rfl
@[simp] theorem updTile_taskQ (s : State) (t : Nat) (f : Tile → Tile) : (s.updTile t f).taskQ = s.taskQ := rfl
@[simp] theorem updTile_gathers (s : State) (t : Nat) (f : Tile → Tile) : (s.updTile t f).gathers = s.gathers := rfl
@[simp] theorem updTile_running (s : State) (t : Nat) (f : Tile → Tile) : (s.updTile t f).running = s.running := rfl
@[simp] theorem updTile_retiring (s : State) (t : Nat) (f : Tile → Tile) : (s.updTile t f).retiring = s.retiring := rfl
@[simp] theorem updTile_resumed (s : State) (t : Nat) (f : Tile → Tile) : (s.updTile t f).resumed = s.resumed := rfl
@[simp] theorem updTile_away (s : State) (t : Nat) (f : Tile → Tile) : (s.updTile t f).away = s.away := rfl
@[simp] theorem updTile_rr (s : State) (t : Nat) (f : Tile → Tile) : (s.updTile t f).rr = s.rr := rfl
@[simp] theorem updTile_waitSince (s : State) (t : Nat) (f : Tile → Tile) : (s.updTile t f).waitSince = s.waitSince := rfl
@[simp] theorem updTile_objects (s : State) (t : Nat) (f : Tile → Tile) : (s.updTile t f).objects = s.objects := rfl
@[simp] theorem updTile_sharedBars (s : State) (t : Nat) (f : Tile → Tile) : (s.updTile t f).sharedBars = s.sharedBars := rfl
@[simp] theorem updTile_leaves (s : State) (t : Nat) (f : Tile → Tile) : (s.updTile t f).leaves = s.leaves := rfl
@[simp] theorem updTile_sending (s : State) (t : Nat) (f : Tile → Tile) : (s.updTile t f).sending = s.sending := rfl
@[simp] theorem updTile_mergeBuf (s : State) (t : Nat) (f : Tile → Tile) : (s.updTile t f).mergeBuf = s.mergeBuf := rfl
@[simp] theorem updTile_errSent (s : State) (t : Nat) (f : Tile → Tile) : (s.updTile t f).errSent = s.errSent := rfl
@[simp] theorem updTile_errBuf (s : State) (t : Nat) (f : Tile → Tile) : (s.updTile t f).errBuf = s.errBuf := rfl
@[simp] theorem updTile_corr (s : State) (t : Nat) (f : Tile → Tile) : (s.updTile t f).corr = s.corr := rfl
@[simp] theorem updTile_sluices (s : State) (t : Nat) (f : Tile → Tile) : (s.updTile t f).sluices = s.sluices := rfl
@[simp] theorem updTile_msixTable (s : State) (t : Nat) (f : Tile → Tile) : (s.updTile t f).msixTable = s.msixTable := rfl
@[simp] theorem updTile_msixPend (s : State) (t : Nat) (f : Tile → Tile) : (s.updTile t f).msixPend = s.msixPend := rfl
@[simp] theorem updTile_msixLast (s : State) (t : Nat) (f : Tile → Tile) : (s.updTile t f).msixLast = s.msixLast := rfl
@[simp] theorem updTile_msixSent (s : State) (t : Nat) (f : Tile → Tile) : (s.updTile t f).msixSent = s.msixSent := rfl
@[simp] theorem updTile_hdm (s : State) (t : Nat) (f : Tile → Tile) : (s.updTile t f).hdm = s.hdm := rfl
@[simp] theorem updTile_ports (s : State) (t : Nat) (f : Tile → Tile) : (s.updTile t f).ports = s.ports := rfl
@[simp] theorem updTile_noRoute (s : State) (t : Nat) (f : Tile → Tile) : (s.updTile t f).noRoute = s.noRoute := rfl
@[simp] theorem updTile_downAt (s : State) (t : Nat) (f : Tile → Tile) : (s.updTile t f).downAt = s.downAt := rfl
@[simp] theorem updTile_fenOut (s : State) (t : Nat) (f : Tile → Tile) : (s.updTile t f).fenOut = s.fenOut := rfl
@[simp] theorem updTile_timeSync (s : State) (t : Nat) (f : Tile → Tile) : (s.updTile t f).timeSync = s.timeSync := rfl
@[simp] theorem updTile_measLog (s : State) (t : Nat) (f : Tile → Tile) : (s.updTile t f).measLog = s.measLog := rfl
@[simp] theorem updTile_powered (s : State) (t : Nat) (f : Tile → Tile) : (s.updTile t f).powered = s.powered := rfl
@[simp] theorem updTile_booted (s : State) (t : Nat) (f : Tile → Tile) : (s.updTile t f).booted = s.booted := rfl
@[simp] theorem updTile_testStart (s : State) (t : Nat) (f : Tile → Tile) : (s.updTile t f).testStart = s.testStart := rfl
@[simp] theorem updTile_hostOut (s : State) (t : Nat) (f : Tile → Tile) : (s.updTile t f).hostOut = s.hostOut := rfl
@[simp] theorem updTile_quoteOut (s : State) (t : Nat) (f : Tile → Tile) : (s.updTile t f).quoteOut = s.quoteOut := rfl
@[simp] theorem updTile_agenda (s : State) (t : Nat) (f : Tile → Tile) : (s.updTile t f).agenda = s.agenda := rfl
@[simp] theorem updTile_focus (s : State) (t : Nat) (f : Tile → Tile) : (s.updTile t f).focus = s.focus := rfl
@[simp] theorem updTile_nextTile (s : State) (t : Nat) (f : Tile → Tile) : (s.updTile t f).nextTile = s.nextTile := rfl
@[simp] theorem updTile_free (s : State) (t : Nat) (f : Tile → Tile) : (s.updTile t f).free = s.free := rfl
@[simp] theorem updTile_nextId (s : State) (t : Nat) (f : Tile → Tile) : (s.updTile t f).nextId = s.nextId := rfl

/-! ## A group -/

@[simp] theorem setGroup_time (s : State) (t q : Nat) (g : Group) : (s.setGroup t q g).time = s.time := rfl
@[simp] theorem setGroup_mem (s : State) (t q : Nat) (g : Group) : (s.setGroup t q g).mem = s.mem := rfl
@[simp] theorem setGroup_tags (s : State) (t q : Nat) (g : Group) : (s.setGroup t q g).tags = s.tags := rfl
@[simp] theorem setGroup_poison (s : State) (t q : Nat) (g : Group) : (s.setGroup t q g).poison = s.poison := rfl
@[simp] theorem setGroup_badTags (s : State) (t q : Nat) (g : Group) : (s.setGroup t q g).badTags = s.badTags := rfl
@[simp] theorem setGroup_emptyGran (s : State) (t q : Nat) (g : Group) : (s.setGroup t q g).emptyGran = s.emptyGran := rfl
@[simp] theorem setGroup_behind (s : State) (t q : Nat) (g : Group) : (s.setGroup t q g).behind = s.behind := rfl
@[simp] theorem setGroup_invMarks (s : State) (t q : Nat) (g : Group) : (s.setGroup t q g).invMarks = s.invMarks := rfl
@[simp] theorem setGroup_past (s : State) (t q : Nat) (g : Group) : (s.setGroup t q g).past = s.past := rfl
@[simp] theorem setGroup_deferral (s : State) (t q : Nat) (g : Group) : (s.setGroup t q g).deferral = s.deferral := rfl
@[simp] theorem setGroup_tents (s : State) (t q : Nat) (g : Group) : (s.setGroup t q g).tents = s.tents := rfl
@[simp] theorem setGroup_l2 (s : State) (t q : Nat) (g : Group) : (s.setGroup t q g).l2 = s.l2 := rfl
@[simp] theorem setGroup_counters (s : State) (t q : Nat) (g : Group) : (s.setGroup t q g).counters = s.counters := rfl
@[simp] theorem setGroup_csr (s : State) (t q : Nat) (g : Group) : (s.setGroup t q g).csr = s.csr := rfl
@[simp] theorem setGroup_almQuiet (s : State) (t q : Nat) (g : Group) : (s.setGroup t q g).almQuiet = s.almQuiet := rfl
@[simp] theorem setGroup_almTie (s : State) (t q : Nat) (g : Group) : (s.setGroup t q g).almTie = s.almTie := rfl
@[simp] theorem setGroup_forcedAt (s : State) (t q : Nat) (g : Group) : (s.setGroup t q g).forcedAt = s.forcedAt := rfl
@[simp] theorem setGroup_rings (s : State) (t q : Nat) (g : Group) : (s.setGroup t q g).rings = s.rings := rfl
@[simp] theorem setGroup_queues (s : State) (t q : Nat) (g : Group) : (s.setGroup t q g).queues = s.queues := rfl
@[simp] theorem setGroup_launches (s : State) (t q : Nat) (g : Group) : (s.setGroup t q g).launches = s.launches := rfl
@[simp] theorem setGroup_taskQ (s : State) (t q : Nat) (g : Group) : (s.setGroup t q g).taskQ = s.taskQ := rfl
@[simp] theorem setGroup_gathers (s : State) (t q : Nat) (g : Group) : (s.setGroup t q g).gathers = s.gathers := rfl
@[simp] theorem setGroup_running (s : State) (t q : Nat) (g : Group) : (s.setGroup t q g).running = s.running := rfl
@[simp] theorem setGroup_retiring (s : State) (t q : Nat) (g : Group) : (s.setGroup t q g).retiring = s.retiring := rfl
@[simp] theorem setGroup_resumed (s : State) (t q : Nat) (g : Group) : (s.setGroup t q g).resumed = s.resumed := rfl
@[simp] theorem setGroup_away (s : State) (t q : Nat) (g : Group) : (s.setGroup t q g).away = s.away := rfl
@[simp] theorem setGroup_rr (s : State) (t q : Nat) (g : Group) : (s.setGroup t q g).rr = s.rr := rfl
@[simp] theorem setGroup_waitSince (s : State) (t q : Nat) (g : Group) : (s.setGroup t q g).waitSince = s.waitSince := rfl
@[simp] theorem setGroup_objects (s : State) (t q : Nat) (g : Group) : (s.setGroup t q g).objects = s.objects := rfl
@[simp] theorem setGroup_sharedBars (s : State) (t q : Nat) (g : Group) : (s.setGroup t q g).sharedBars = s.sharedBars := rfl
@[simp] theorem setGroup_leaves (s : State) (t q : Nat) (g : Group) : (s.setGroup t q g).leaves = s.leaves := rfl
@[simp] theorem setGroup_sending (s : State) (t q : Nat) (g : Group) : (s.setGroup t q g).sending = s.sending := rfl
@[simp] theorem setGroup_mergeBuf (s : State) (t q : Nat) (g : Group) : (s.setGroup t q g).mergeBuf = s.mergeBuf := rfl
@[simp] theorem setGroup_errSent (s : State) (t q : Nat) (g : Group) : (s.setGroup t q g).errSent = s.errSent := rfl
@[simp] theorem setGroup_errBuf (s : State) (t q : Nat) (g : Group) : (s.setGroup t q g).errBuf = s.errBuf := rfl
@[simp] theorem setGroup_corr (s : State) (t q : Nat) (g : Group) : (s.setGroup t q g).corr = s.corr := rfl
@[simp] theorem setGroup_sluices (s : State) (t q : Nat) (g : Group) : (s.setGroup t q g).sluices = s.sluices := rfl
@[simp] theorem setGroup_msixTable (s : State) (t q : Nat) (g : Group) : (s.setGroup t q g).msixTable = s.msixTable := rfl
@[simp] theorem setGroup_msixPend (s : State) (t q : Nat) (g : Group) : (s.setGroup t q g).msixPend = s.msixPend := rfl
@[simp] theorem setGroup_msixLast (s : State) (t q : Nat) (g : Group) : (s.setGroup t q g).msixLast = s.msixLast := rfl
@[simp] theorem setGroup_msixSent (s : State) (t q : Nat) (g : Group) : (s.setGroup t q g).msixSent = s.msixSent := rfl
@[simp] theorem setGroup_hdm (s : State) (t q : Nat) (g : Group) : (s.setGroup t q g).hdm = s.hdm := rfl
@[simp] theorem setGroup_ports (s : State) (t q : Nat) (g : Group) : (s.setGroup t q g).ports = s.ports := rfl
@[simp] theorem setGroup_noRoute (s : State) (t q : Nat) (g : Group) : (s.setGroup t q g).noRoute = s.noRoute := rfl
@[simp] theorem setGroup_downAt (s : State) (t q : Nat) (g : Group) : (s.setGroup t q g).downAt = s.downAt := rfl
@[simp] theorem setGroup_fenOut (s : State) (t q : Nat) (g : Group) : (s.setGroup t q g).fenOut = s.fenOut := rfl
@[simp] theorem setGroup_timeSync (s : State) (t q : Nat) (g : Group) : (s.setGroup t q g).timeSync = s.timeSync := rfl
@[simp] theorem setGroup_measLog (s : State) (t q : Nat) (g : Group) : (s.setGroup t q g).measLog = s.measLog := rfl
@[simp] theorem setGroup_powered (s : State) (t q : Nat) (g : Group) : (s.setGroup t q g).powered = s.powered := rfl
@[simp] theorem setGroup_booted (s : State) (t q : Nat) (g : Group) : (s.setGroup t q g).booted = s.booted := rfl
@[simp] theorem setGroup_testStart (s : State) (t q : Nat) (g : Group) : (s.setGroup t q g).testStart = s.testStart := rfl
@[simp] theorem setGroup_hostOut (s : State) (t q : Nat) (g : Group) : (s.setGroup t q g).hostOut = s.hostOut := rfl
@[simp] theorem setGroup_quoteOut (s : State) (t q : Nat) (g : Group) : (s.setGroup t q g).quoteOut = s.quoteOut := rfl
@[simp] theorem setGroup_agenda (s : State) (t q : Nat) (g : Group) : (s.setGroup t q g).agenda = s.agenda := rfl
@[simp] theorem setGroup_focus (s : State) (t q : Nat) (g : Group) : (s.setGroup t q g).focus = s.focus := rfl
@[simp] theorem setGroup_nextTile (s : State) (t q : Nat) (g : Group) : (s.setGroup t q g).nextTile = s.nextTile := rfl
@[simp] theorem setGroup_free (s : State) (t q : Nat) (g : Group) : (s.setGroup t q g).free = s.free := rfl
@[simp] theorem setGroup_nextId (s : State) (t q : Nat) (g : Group) : (s.setGroup t q g).nextId = s.nextId := rfl

/-- A change of a group changes nothing outside the tiles. -/
theorem updGroup_rest (s : State) (t q : Nat) (f : Group → Group) : s.updGroup t q f = { s with tiles := (s.updGroup t q f).tiles } := by
  unfold State.updGroup
  split <;> rfl

@[simp] theorem updGroup_time (s : State) (t q : Nat) (f : Group → Group) : (s.updGroup t q f).time = s.time := (congrArg State.time (updGroup_rest s t q f) :)
@[simp] theorem updGroup_mem (s : State) (t q : Nat) (f : Group → Group) : (s.updGroup t q f).mem = s.mem := (congrArg State.mem (updGroup_rest s t q f) :)
@[simp] theorem updGroup_tags (s : State) (t q : Nat) (f : Group → Group) : (s.updGroup t q f).tags = s.tags := (congrArg State.tags (updGroup_rest s t q f) :)
@[simp] theorem updGroup_poison (s : State) (t q : Nat) (f : Group → Group) : (s.updGroup t q f).poison = s.poison := (congrArg State.poison (updGroup_rest s t q f) :)
@[simp] theorem updGroup_badTags (s : State) (t q : Nat) (f : Group → Group) : (s.updGroup t q f).badTags = s.badTags := (congrArg State.badTags (updGroup_rest s t q f) :)
@[simp] theorem updGroup_emptyGran (s : State) (t q : Nat) (f : Group → Group) : (s.updGroup t q f).emptyGran = s.emptyGran := (congrArg State.emptyGran (updGroup_rest s t q f) :)
@[simp] theorem updGroup_behind (s : State) (t q : Nat) (f : Group → Group) : (s.updGroup t q f).behind = s.behind := (congrArg State.behind (updGroup_rest s t q f) :)
@[simp] theorem updGroup_invMarks (s : State) (t q : Nat) (f : Group → Group) : (s.updGroup t q f).invMarks = s.invMarks := (congrArg State.invMarks (updGroup_rest s t q f) :)
@[simp] theorem updGroup_past (s : State) (t q : Nat) (f : Group → Group) : (s.updGroup t q f).past = s.past := (congrArg State.past (updGroup_rest s t q f) :)
@[simp] theorem updGroup_deferral (s : State) (t q : Nat) (f : Group → Group) : (s.updGroup t q f).deferral = s.deferral := (congrArg State.deferral (updGroup_rest s t q f) :)
@[simp] theorem updGroup_tents (s : State) (t q : Nat) (f : Group → Group) : (s.updGroup t q f).tents = s.tents := (congrArg State.tents (updGroup_rest s t q f) :)
@[simp] theorem updGroup_l2 (s : State) (t q : Nat) (f : Group → Group) : (s.updGroup t q f).l2 = s.l2 := (congrArg State.l2 (updGroup_rest s t q f) :)
@[simp] theorem updGroup_counters (s : State) (t q : Nat) (f : Group → Group) : (s.updGroup t q f).counters = s.counters := (congrArg State.counters (updGroup_rest s t q f) :)
@[simp] theorem updGroup_csr (s : State) (t q : Nat) (f : Group → Group) : (s.updGroup t q f).csr = s.csr := (congrArg State.csr (updGroup_rest s t q f) :)
@[simp] theorem updGroup_almQuiet (s : State) (t q : Nat) (f : Group → Group) : (s.updGroup t q f).almQuiet = s.almQuiet := (congrArg State.almQuiet (updGroup_rest s t q f) :)
@[simp] theorem updGroup_almTie (s : State) (t q : Nat) (f : Group → Group) : (s.updGroup t q f).almTie = s.almTie := (congrArg State.almTie (updGroup_rest s t q f) :)
@[simp] theorem updGroup_forcedAt (s : State) (t q : Nat) (f : Group → Group) : (s.updGroup t q f).forcedAt = s.forcedAt := (congrArg State.forcedAt (updGroup_rest s t q f) :)
@[simp] theorem updGroup_rings (s : State) (t q : Nat) (f : Group → Group) : (s.updGroup t q f).rings = s.rings := (congrArg State.rings (updGroup_rest s t q f) :)
@[simp] theorem updGroup_queues (s : State) (t q : Nat) (f : Group → Group) : (s.updGroup t q f).queues = s.queues := (congrArg State.queues (updGroup_rest s t q f) :)
@[simp] theorem updGroup_launches (s : State) (t q : Nat) (f : Group → Group) : (s.updGroup t q f).launches = s.launches := (congrArg State.launches (updGroup_rest s t q f) :)
@[simp] theorem updGroup_taskQ (s : State) (t q : Nat) (f : Group → Group) : (s.updGroup t q f).taskQ = s.taskQ := (congrArg State.taskQ (updGroup_rest s t q f) :)
@[simp] theorem updGroup_gathers (s : State) (t q : Nat) (f : Group → Group) : (s.updGroup t q f).gathers = s.gathers := (congrArg State.gathers (updGroup_rest s t q f) :)
@[simp] theorem updGroup_running (s : State) (t q : Nat) (f : Group → Group) : (s.updGroup t q f).running = s.running := (congrArg State.running (updGroup_rest s t q f) :)
@[simp] theorem updGroup_retiring (s : State) (t q : Nat) (f : Group → Group) : (s.updGroup t q f).retiring = s.retiring := (congrArg State.retiring (updGroup_rest s t q f) :)
@[simp] theorem updGroup_resumed (s : State) (t q : Nat) (f : Group → Group) : (s.updGroup t q f).resumed = s.resumed := (congrArg State.resumed (updGroup_rest s t q f) :)
@[simp] theorem updGroup_away (s : State) (t q : Nat) (f : Group → Group) : (s.updGroup t q f).away = s.away := (congrArg State.away (updGroup_rest s t q f) :)
@[simp] theorem updGroup_rr (s : State) (t q : Nat) (f : Group → Group) : (s.updGroup t q f).rr = s.rr := (congrArg State.rr (updGroup_rest s t q f) :)
@[simp] theorem updGroup_waitSince (s : State) (t q : Nat) (f : Group → Group) : (s.updGroup t q f).waitSince = s.waitSince := (congrArg State.waitSince (updGroup_rest s t q f) :)
@[simp] theorem updGroup_objects (s : State) (t q : Nat) (f : Group → Group) : (s.updGroup t q f).objects = s.objects := (congrArg State.objects (updGroup_rest s t q f) :)
@[simp] theorem updGroup_sharedBars (s : State) (t q : Nat) (f : Group → Group) : (s.updGroup t q f).sharedBars = s.sharedBars := (congrArg State.sharedBars (updGroup_rest s t q f) :)
@[simp] theorem updGroup_leaves (s : State) (t q : Nat) (f : Group → Group) : (s.updGroup t q f).leaves = s.leaves := (congrArg State.leaves (updGroup_rest s t q f) :)
@[simp] theorem updGroup_sending (s : State) (t q : Nat) (f : Group → Group) : (s.updGroup t q f).sending = s.sending := (congrArg State.sending (updGroup_rest s t q f) :)
@[simp] theorem updGroup_mergeBuf (s : State) (t q : Nat) (f : Group → Group) : (s.updGroup t q f).mergeBuf = s.mergeBuf := (congrArg State.mergeBuf (updGroup_rest s t q f) :)
@[simp] theorem updGroup_errSent (s : State) (t q : Nat) (f : Group → Group) : (s.updGroup t q f).errSent = s.errSent := (congrArg State.errSent (updGroup_rest s t q f) :)
@[simp] theorem updGroup_errBuf (s : State) (t q : Nat) (f : Group → Group) : (s.updGroup t q f).errBuf = s.errBuf := (congrArg State.errBuf (updGroup_rest s t q f) :)
@[simp] theorem updGroup_corr (s : State) (t q : Nat) (f : Group → Group) : (s.updGroup t q f).corr = s.corr := (congrArg State.corr (updGroup_rest s t q f) :)
@[simp] theorem updGroup_sluices (s : State) (t q : Nat) (f : Group → Group) : (s.updGroup t q f).sluices = s.sluices := (congrArg State.sluices (updGroup_rest s t q f) :)
@[simp] theorem updGroup_msixTable (s : State) (t q : Nat) (f : Group → Group) : (s.updGroup t q f).msixTable = s.msixTable := (congrArg State.msixTable (updGroup_rest s t q f) :)
@[simp] theorem updGroup_msixPend (s : State) (t q : Nat) (f : Group → Group) : (s.updGroup t q f).msixPend = s.msixPend := (congrArg State.msixPend (updGroup_rest s t q f) :)
@[simp] theorem updGroup_msixLast (s : State) (t q : Nat) (f : Group → Group) : (s.updGroup t q f).msixLast = s.msixLast := (congrArg State.msixLast (updGroup_rest s t q f) :)
@[simp] theorem updGroup_msixSent (s : State) (t q : Nat) (f : Group → Group) : (s.updGroup t q f).msixSent = s.msixSent := (congrArg State.msixSent (updGroup_rest s t q f) :)
@[simp] theorem updGroup_hdm (s : State) (t q : Nat) (f : Group → Group) : (s.updGroup t q f).hdm = s.hdm := (congrArg State.hdm (updGroup_rest s t q f) :)
@[simp] theorem updGroup_ports (s : State) (t q : Nat) (f : Group → Group) : (s.updGroup t q f).ports = s.ports := (congrArg State.ports (updGroup_rest s t q f) :)
@[simp] theorem updGroup_noRoute (s : State) (t q : Nat) (f : Group → Group) : (s.updGroup t q f).noRoute = s.noRoute := (congrArg State.noRoute (updGroup_rest s t q f) :)
@[simp] theorem updGroup_downAt (s : State) (t q : Nat) (f : Group → Group) : (s.updGroup t q f).downAt = s.downAt := (congrArg State.downAt (updGroup_rest s t q f) :)
@[simp] theorem updGroup_fenOut (s : State) (t q : Nat) (f : Group → Group) : (s.updGroup t q f).fenOut = s.fenOut := (congrArg State.fenOut (updGroup_rest s t q f) :)
@[simp] theorem updGroup_timeSync (s : State) (t q : Nat) (f : Group → Group) : (s.updGroup t q f).timeSync = s.timeSync := (congrArg State.timeSync (updGroup_rest s t q f) :)
@[simp] theorem updGroup_measLog (s : State) (t q : Nat) (f : Group → Group) : (s.updGroup t q f).measLog = s.measLog := (congrArg State.measLog (updGroup_rest s t q f) :)
@[simp] theorem updGroup_powered (s : State) (t q : Nat) (f : Group → Group) : (s.updGroup t q f).powered = s.powered := (congrArg State.powered (updGroup_rest s t q f) :)
@[simp] theorem updGroup_booted (s : State) (t q : Nat) (f : Group → Group) : (s.updGroup t q f).booted = s.booted := (congrArg State.booted (updGroup_rest s t q f) :)
@[simp] theorem updGroup_testStart (s : State) (t q : Nat) (f : Group → Group) : (s.updGroup t q f).testStart = s.testStart := (congrArg State.testStart (updGroup_rest s t q f) :)
@[simp] theorem updGroup_hostOut (s : State) (t q : Nat) (f : Group → Group) : (s.updGroup t q f).hostOut = s.hostOut := (congrArg State.hostOut (updGroup_rest s t q f) :)
@[simp] theorem updGroup_quoteOut (s : State) (t q : Nat) (f : Group → Group) : (s.updGroup t q f).quoteOut = s.quoteOut := (congrArg State.quoteOut (updGroup_rest s t q f) :)
@[simp] theorem updGroup_agenda (s : State) (t q : Nat) (f : Group → Group) : (s.updGroup t q f).agenda = s.agenda := (congrArg State.agenda (updGroup_rest s t q f) :)
@[simp] theorem updGroup_focus (s : State) (t q : Nat) (f : Group → Group) : (s.updGroup t q f).focus = s.focus := (congrArg State.focus (updGroup_rest s t q f) :)
@[simp] theorem updGroup_nextTile (s : State) (t q : Nat) (f : Group → Group) : (s.updGroup t q f).nextTile = s.nextTile := (congrArg State.nextTile (updGroup_rest s t q f) :)
@[simp] theorem updGroup_free (s : State) (t q : Nat) (f : Group → Group) : (s.updGroup t q f).free = s.free := (congrArg State.free (updGroup_rest s t q f) :)
@[simp] theorem updGroup_nextId (s : State) (t q : Nat) (f : Group → Group) : (s.updGroup t q f).nextId = s.nextId := (congrArg State.nextId (updGroup_rest s t q f) :)

@[simp] theorem updSlice_time (s : State) (t q k : Nat) (f : Slice → Slice) : (s.updSlice t q k f).time = s.time := updGroup_time s t q _
@[simp] theorem updSlice_mem (s : State) (t q k : Nat) (f : Slice → Slice) : (s.updSlice t q k f).mem = s.mem := updGroup_mem s t q _
@[simp] theorem updSlice_tags (s : State) (t q k : Nat) (f : Slice → Slice) : (s.updSlice t q k f).tags = s.tags := updGroup_tags s t q _
@[simp] theorem updSlice_poison (s : State) (t q k : Nat) (f : Slice → Slice) : (s.updSlice t q k f).poison = s.poison := updGroup_poison s t q _
@[simp] theorem updSlice_badTags (s : State) (t q k : Nat) (f : Slice → Slice) : (s.updSlice t q k f).badTags = s.badTags := updGroup_badTags s t q _
@[simp] theorem updSlice_emptyGran (s : State) (t q k : Nat) (f : Slice → Slice) : (s.updSlice t q k f).emptyGran = s.emptyGran := updGroup_emptyGran s t q _
@[simp] theorem updSlice_behind (s : State) (t q k : Nat) (f : Slice → Slice) : (s.updSlice t q k f).behind = s.behind := updGroup_behind s t q _
@[simp] theorem updSlice_invMarks (s : State) (t q k : Nat) (f : Slice → Slice) : (s.updSlice t q k f).invMarks = s.invMarks := updGroup_invMarks s t q _
@[simp] theorem updSlice_past (s : State) (t q k : Nat) (f : Slice → Slice) : (s.updSlice t q k f).past = s.past := updGroup_past s t q _
@[simp] theorem updSlice_deferral (s : State) (t q k : Nat) (f : Slice → Slice) : (s.updSlice t q k f).deferral = s.deferral := updGroup_deferral s t q _
@[simp] theorem updSlice_tents (s : State) (t q k : Nat) (f : Slice → Slice) : (s.updSlice t q k f).tents = s.tents := updGroup_tents s t q _
@[simp] theorem updSlice_l2 (s : State) (t q k : Nat) (f : Slice → Slice) : (s.updSlice t q k f).l2 = s.l2 := updGroup_l2 s t q _
@[simp] theorem updSlice_counters (s : State) (t q k : Nat) (f : Slice → Slice) : (s.updSlice t q k f).counters = s.counters := updGroup_counters s t q _
@[simp] theorem updSlice_csr (s : State) (t q k : Nat) (f : Slice → Slice) : (s.updSlice t q k f).csr = s.csr := updGroup_csr s t q _
@[simp] theorem updSlice_almQuiet (s : State) (t q k : Nat) (f : Slice → Slice) : (s.updSlice t q k f).almQuiet = s.almQuiet := updGroup_almQuiet s t q _
@[simp] theorem updSlice_almTie (s : State) (t q k : Nat) (f : Slice → Slice) : (s.updSlice t q k f).almTie = s.almTie := updGroup_almTie s t q _
@[simp] theorem updSlice_forcedAt (s : State) (t q k : Nat) (f : Slice → Slice) : (s.updSlice t q k f).forcedAt = s.forcedAt := updGroup_forcedAt s t q _
@[simp] theorem updSlice_rings (s : State) (t q k : Nat) (f : Slice → Slice) : (s.updSlice t q k f).rings = s.rings := updGroup_rings s t q _
@[simp] theorem updSlice_queues (s : State) (t q k : Nat) (f : Slice → Slice) : (s.updSlice t q k f).queues = s.queues := updGroup_queues s t q _
@[simp] theorem updSlice_launches (s : State) (t q k : Nat) (f : Slice → Slice) : (s.updSlice t q k f).launches = s.launches := updGroup_launches s t q _
@[simp] theorem updSlice_taskQ (s : State) (t q k : Nat) (f : Slice → Slice) : (s.updSlice t q k f).taskQ = s.taskQ := updGroup_taskQ s t q _
@[simp] theorem updSlice_gathers (s : State) (t q k : Nat) (f : Slice → Slice) : (s.updSlice t q k f).gathers = s.gathers := updGroup_gathers s t q _
@[simp] theorem updSlice_running (s : State) (t q k : Nat) (f : Slice → Slice) : (s.updSlice t q k f).running = s.running := updGroup_running s t q _
@[simp] theorem updSlice_retiring (s : State) (t q k : Nat) (f : Slice → Slice) : (s.updSlice t q k f).retiring = s.retiring := updGroup_retiring s t q _
@[simp] theorem updSlice_resumed (s : State) (t q k : Nat) (f : Slice → Slice) : (s.updSlice t q k f).resumed = s.resumed := updGroup_resumed s t q _
@[simp] theorem updSlice_away (s : State) (t q k : Nat) (f : Slice → Slice) : (s.updSlice t q k f).away = s.away := updGroup_away s t q _
@[simp] theorem updSlice_rr (s : State) (t q k : Nat) (f : Slice → Slice) : (s.updSlice t q k f).rr = s.rr := updGroup_rr s t q _
@[simp] theorem updSlice_waitSince (s : State) (t q k : Nat) (f : Slice → Slice) : (s.updSlice t q k f).waitSince = s.waitSince := updGroup_waitSince s t q _
@[simp] theorem updSlice_objects (s : State) (t q k : Nat) (f : Slice → Slice) : (s.updSlice t q k f).objects = s.objects := updGroup_objects s t q _
@[simp] theorem updSlice_sharedBars (s : State) (t q k : Nat) (f : Slice → Slice) : (s.updSlice t q k f).sharedBars = s.sharedBars := updGroup_sharedBars s t q _
@[simp] theorem updSlice_leaves (s : State) (t q k : Nat) (f : Slice → Slice) : (s.updSlice t q k f).leaves = s.leaves := updGroup_leaves s t q _
@[simp] theorem updSlice_sending (s : State) (t q k : Nat) (f : Slice → Slice) : (s.updSlice t q k f).sending = s.sending := updGroup_sending s t q _
@[simp] theorem updSlice_mergeBuf (s : State) (t q k : Nat) (f : Slice → Slice) : (s.updSlice t q k f).mergeBuf = s.mergeBuf := updGroup_mergeBuf s t q _
@[simp] theorem updSlice_errSent (s : State) (t q k : Nat) (f : Slice → Slice) : (s.updSlice t q k f).errSent = s.errSent := updGroup_errSent s t q _
@[simp] theorem updSlice_errBuf (s : State) (t q k : Nat) (f : Slice → Slice) : (s.updSlice t q k f).errBuf = s.errBuf := updGroup_errBuf s t q _
@[simp] theorem updSlice_corr (s : State) (t q k : Nat) (f : Slice → Slice) : (s.updSlice t q k f).corr = s.corr := updGroup_corr s t q _
@[simp] theorem updSlice_sluices (s : State) (t q k : Nat) (f : Slice → Slice) : (s.updSlice t q k f).sluices = s.sluices := updGroup_sluices s t q _
@[simp] theorem updSlice_msixTable (s : State) (t q k : Nat) (f : Slice → Slice) : (s.updSlice t q k f).msixTable = s.msixTable := updGroup_msixTable s t q _
@[simp] theorem updSlice_msixPend (s : State) (t q k : Nat) (f : Slice → Slice) : (s.updSlice t q k f).msixPend = s.msixPend := updGroup_msixPend s t q _
@[simp] theorem updSlice_msixLast (s : State) (t q k : Nat) (f : Slice → Slice) : (s.updSlice t q k f).msixLast = s.msixLast := updGroup_msixLast s t q _
@[simp] theorem updSlice_msixSent (s : State) (t q k : Nat) (f : Slice → Slice) : (s.updSlice t q k f).msixSent = s.msixSent := updGroup_msixSent s t q _
@[simp] theorem updSlice_hdm (s : State) (t q k : Nat) (f : Slice → Slice) : (s.updSlice t q k f).hdm = s.hdm := updGroup_hdm s t q _
@[simp] theorem updSlice_ports (s : State) (t q k : Nat) (f : Slice → Slice) : (s.updSlice t q k f).ports = s.ports := updGroup_ports s t q _
@[simp] theorem updSlice_noRoute (s : State) (t q k : Nat) (f : Slice → Slice) : (s.updSlice t q k f).noRoute = s.noRoute := updGroup_noRoute s t q _
@[simp] theorem updSlice_downAt (s : State) (t q k : Nat) (f : Slice → Slice) : (s.updSlice t q k f).downAt = s.downAt := updGroup_downAt s t q _
@[simp] theorem updSlice_fenOut (s : State) (t q k : Nat) (f : Slice → Slice) : (s.updSlice t q k f).fenOut = s.fenOut := updGroup_fenOut s t q _
@[simp] theorem updSlice_timeSync (s : State) (t q k : Nat) (f : Slice → Slice) : (s.updSlice t q k f).timeSync = s.timeSync := updGroup_timeSync s t q _
@[simp] theorem updSlice_measLog (s : State) (t q k : Nat) (f : Slice → Slice) : (s.updSlice t q k f).measLog = s.measLog := updGroup_measLog s t q _
@[simp] theorem updSlice_powered (s : State) (t q k : Nat) (f : Slice → Slice) : (s.updSlice t q k f).powered = s.powered := updGroup_powered s t q _
@[simp] theorem updSlice_booted (s : State) (t q k : Nat) (f : Slice → Slice) : (s.updSlice t q k f).booted = s.booted := updGroup_booted s t q _
@[simp] theorem updSlice_testStart (s : State) (t q k : Nat) (f : Slice → Slice) : (s.updSlice t q k f).testStart = s.testStart := updGroup_testStart s t q _
@[simp] theorem updSlice_hostOut (s : State) (t q k : Nat) (f : Slice → Slice) : (s.updSlice t q k f).hostOut = s.hostOut := updGroup_hostOut s t q _
@[simp] theorem updSlice_quoteOut (s : State) (t q k : Nat) (f : Slice → Slice) : (s.updSlice t q k f).quoteOut = s.quoteOut := updGroup_quoteOut s t q _
@[simp] theorem updSlice_agenda (s : State) (t q k : Nat) (f : Slice → Slice) : (s.updSlice t q k f).agenda = s.agenda := updGroup_agenda s t q _
@[simp] theorem updSlice_focus (s : State) (t q k : Nat) (f : Slice → Slice) : (s.updSlice t q k f).focus = s.focus := updGroup_focus s t q _
@[simp] theorem updSlice_nextTile (s : State) (t q k : Nat) (f : Slice → Slice) : (s.updSlice t q k f).nextTile = s.nextTile := updGroup_nextTile s t q _
@[simp] theorem updSlice_free (s : State) (t q k : Nat) (f : Slice → Slice) : (s.updSlice t q k f).free = s.free := updGroup_free s t q _
@[simp] theorem updSlice_nextId (s : State) (t q k : Nat) (f : Slice → Slice) : (s.updSlice t q k f).nextId = s.nextId := updGroup_nextId s t q _

@[simp] theorem setSlice_time (s : State) (t q k : Nat) (x : Slice) : (s.setSlice t q k x).time = s.time := updGroup_time s t q _
@[simp] theorem setSlice_mem (s : State) (t q k : Nat) (x : Slice) : (s.setSlice t q k x).mem = s.mem := updGroup_mem s t q _
@[simp] theorem setSlice_tags (s : State) (t q k : Nat) (x : Slice) : (s.setSlice t q k x).tags = s.tags := updGroup_tags s t q _
@[simp] theorem setSlice_poison (s : State) (t q k : Nat) (x : Slice) : (s.setSlice t q k x).poison = s.poison := updGroup_poison s t q _
@[simp] theorem setSlice_badTags (s : State) (t q k : Nat) (x : Slice) : (s.setSlice t q k x).badTags = s.badTags := updGroup_badTags s t q _
@[simp] theorem setSlice_emptyGran (s : State) (t q k : Nat) (x : Slice) : (s.setSlice t q k x).emptyGran = s.emptyGran := updGroup_emptyGran s t q _
@[simp] theorem setSlice_behind (s : State) (t q k : Nat) (x : Slice) : (s.setSlice t q k x).behind = s.behind := updGroup_behind s t q _
@[simp] theorem setSlice_invMarks (s : State) (t q k : Nat) (x : Slice) : (s.setSlice t q k x).invMarks = s.invMarks := updGroup_invMarks s t q _
@[simp] theorem setSlice_past (s : State) (t q k : Nat) (x : Slice) : (s.setSlice t q k x).past = s.past := updGroup_past s t q _
@[simp] theorem setSlice_deferral (s : State) (t q k : Nat) (x : Slice) : (s.setSlice t q k x).deferral = s.deferral := updGroup_deferral s t q _
@[simp] theorem setSlice_tents (s : State) (t q k : Nat) (x : Slice) : (s.setSlice t q k x).tents = s.tents := updGroup_tents s t q _
@[simp] theorem setSlice_l2 (s : State) (t q k : Nat) (x : Slice) : (s.setSlice t q k x).l2 = s.l2 := updGroup_l2 s t q _
@[simp] theorem setSlice_counters (s : State) (t q k : Nat) (x : Slice) : (s.setSlice t q k x).counters = s.counters := updGroup_counters s t q _
@[simp] theorem setSlice_csr (s : State) (t q k : Nat) (x : Slice) : (s.setSlice t q k x).csr = s.csr := updGroup_csr s t q _
@[simp] theorem setSlice_almQuiet (s : State) (t q k : Nat) (x : Slice) : (s.setSlice t q k x).almQuiet = s.almQuiet := updGroup_almQuiet s t q _
@[simp] theorem setSlice_almTie (s : State) (t q k : Nat) (x : Slice) : (s.setSlice t q k x).almTie = s.almTie := updGroup_almTie s t q _
@[simp] theorem setSlice_forcedAt (s : State) (t q k : Nat) (x : Slice) : (s.setSlice t q k x).forcedAt = s.forcedAt := updGroup_forcedAt s t q _
@[simp] theorem setSlice_rings (s : State) (t q k : Nat) (x : Slice) : (s.setSlice t q k x).rings = s.rings := updGroup_rings s t q _
@[simp] theorem setSlice_queues (s : State) (t q k : Nat) (x : Slice) : (s.setSlice t q k x).queues = s.queues := updGroup_queues s t q _
@[simp] theorem setSlice_launches (s : State) (t q k : Nat) (x : Slice) : (s.setSlice t q k x).launches = s.launches := updGroup_launches s t q _
@[simp] theorem setSlice_taskQ (s : State) (t q k : Nat) (x : Slice) : (s.setSlice t q k x).taskQ = s.taskQ := updGroup_taskQ s t q _
@[simp] theorem setSlice_gathers (s : State) (t q k : Nat) (x : Slice) : (s.setSlice t q k x).gathers = s.gathers := updGroup_gathers s t q _
@[simp] theorem setSlice_running (s : State) (t q k : Nat) (x : Slice) : (s.setSlice t q k x).running = s.running := updGroup_running s t q _
@[simp] theorem setSlice_retiring (s : State) (t q k : Nat) (x : Slice) : (s.setSlice t q k x).retiring = s.retiring := updGroup_retiring s t q _
@[simp] theorem setSlice_resumed (s : State) (t q k : Nat) (x : Slice) : (s.setSlice t q k x).resumed = s.resumed := updGroup_resumed s t q _
@[simp] theorem setSlice_away (s : State) (t q k : Nat) (x : Slice) : (s.setSlice t q k x).away = s.away := updGroup_away s t q _
@[simp] theorem setSlice_rr (s : State) (t q k : Nat) (x : Slice) : (s.setSlice t q k x).rr = s.rr := updGroup_rr s t q _
@[simp] theorem setSlice_waitSince (s : State) (t q k : Nat) (x : Slice) : (s.setSlice t q k x).waitSince = s.waitSince := updGroup_waitSince s t q _
@[simp] theorem setSlice_objects (s : State) (t q k : Nat) (x : Slice) : (s.setSlice t q k x).objects = s.objects := updGroup_objects s t q _
@[simp] theorem setSlice_sharedBars (s : State) (t q k : Nat) (x : Slice) : (s.setSlice t q k x).sharedBars = s.sharedBars := updGroup_sharedBars s t q _
@[simp] theorem setSlice_leaves (s : State) (t q k : Nat) (x : Slice) : (s.setSlice t q k x).leaves = s.leaves := updGroup_leaves s t q _
@[simp] theorem setSlice_sending (s : State) (t q k : Nat) (x : Slice) : (s.setSlice t q k x).sending = s.sending := updGroup_sending s t q _
@[simp] theorem setSlice_mergeBuf (s : State) (t q k : Nat) (x : Slice) : (s.setSlice t q k x).mergeBuf = s.mergeBuf := updGroup_mergeBuf s t q _
@[simp] theorem setSlice_errSent (s : State) (t q k : Nat) (x : Slice) : (s.setSlice t q k x).errSent = s.errSent := updGroup_errSent s t q _
@[simp] theorem setSlice_errBuf (s : State) (t q k : Nat) (x : Slice) : (s.setSlice t q k x).errBuf = s.errBuf := updGroup_errBuf s t q _
@[simp] theorem setSlice_corr (s : State) (t q k : Nat) (x : Slice) : (s.setSlice t q k x).corr = s.corr := updGroup_corr s t q _
@[simp] theorem setSlice_sluices (s : State) (t q k : Nat) (x : Slice) : (s.setSlice t q k x).sluices = s.sluices := updGroup_sluices s t q _
@[simp] theorem setSlice_msixTable (s : State) (t q k : Nat) (x : Slice) : (s.setSlice t q k x).msixTable = s.msixTable := updGroup_msixTable s t q _
@[simp] theorem setSlice_msixPend (s : State) (t q k : Nat) (x : Slice) : (s.setSlice t q k x).msixPend = s.msixPend := updGroup_msixPend s t q _
@[simp] theorem setSlice_msixLast (s : State) (t q k : Nat) (x : Slice) : (s.setSlice t q k x).msixLast = s.msixLast := updGroup_msixLast s t q _
@[simp] theorem setSlice_msixSent (s : State) (t q k : Nat) (x : Slice) : (s.setSlice t q k x).msixSent = s.msixSent := updGroup_msixSent s t q _
@[simp] theorem setSlice_hdm (s : State) (t q k : Nat) (x : Slice) : (s.setSlice t q k x).hdm = s.hdm := updGroup_hdm s t q _
@[simp] theorem setSlice_ports (s : State) (t q k : Nat) (x : Slice) : (s.setSlice t q k x).ports = s.ports := updGroup_ports s t q _
@[simp] theorem setSlice_noRoute (s : State) (t q k : Nat) (x : Slice) : (s.setSlice t q k x).noRoute = s.noRoute := updGroup_noRoute s t q _
@[simp] theorem setSlice_downAt (s : State) (t q k : Nat) (x : Slice) : (s.setSlice t q k x).downAt = s.downAt := updGroup_downAt s t q _
@[simp] theorem setSlice_fenOut (s : State) (t q k : Nat) (x : Slice) : (s.setSlice t q k x).fenOut = s.fenOut := updGroup_fenOut s t q _
@[simp] theorem setSlice_timeSync (s : State) (t q k : Nat) (x : Slice) : (s.setSlice t q k x).timeSync = s.timeSync := updGroup_timeSync s t q _
@[simp] theorem setSlice_measLog (s : State) (t q k : Nat) (x : Slice) : (s.setSlice t q k x).measLog = s.measLog := updGroup_measLog s t q _
@[simp] theorem setSlice_powered (s : State) (t q k : Nat) (x : Slice) : (s.setSlice t q k x).powered = s.powered := updGroup_powered s t q _
@[simp] theorem setSlice_booted (s : State) (t q k : Nat) (x : Slice) : (s.setSlice t q k x).booted = s.booted := updGroup_booted s t q _
@[simp] theorem setSlice_testStart (s : State) (t q k : Nat) (x : Slice) : (s.setSlice t q k x).testStart = s.testStart := updGroup_testStart s t q _
@[simp] theorem setSlice_hostOut (s : State) (t q k : Nat) (x : Slice) : (s.setSlice t q k x).hostOut = s.hostOut := updGroup_hostOut s t q _
@[simp] theorem setSlice_quoteOut (s : State) (t q k : Nat) (x : Slice) : (s.setSlice t q k x).quoteOut = s.quoteOut := updGroup_quoteOut s t q _
@[simp] theorem setSlice_agenda (s : State) (t q k : Nat) (x : Slice) : (s.setSlice t q k x).agenda = s.agenda := updGroup_agenda s t q _
@[simp] theorem setSlice_focus (s : State) (t q k : Nat) (x : Slice) : (s.setSlice t q k x).focus = s.focus := updGroup_focus s t q _
@[simp] theorem setSlice_nextTile (s : State) (t q k : Nat) (x : Slice) : (s.setSlice t q k x).nextTile = s.nextTile := updGroup_nextTile s t q _
@[simp] theorem setSlice_free (s : State) (t q k : Nat) (x : Slice) : (s.setSlice t q k x).free = s.free := updGroup_free s t q _
@[simp] theorem setSlice_nextId (s : State) (t q k : Nat) (x : Slice) : (s.setSlice t q k x).nextId = s.nextId := updGroup_nextId s t q _

@[simp] theorem push_time (s : State) (t q : Nat) (e : SqKind) : (s.push t q e).time = s.time := updGroup_time s t q _
@[simp] theorem push_mem (s : State) (t q : Nat) (e : SqKind) : (s.push t q e).mem = s.mem := updGroup_mem s t q _
@[simp] theorem push_tags (s : State) (t q : Nat) (e : SqKind) : (s.push t q e).tags = s.tags := updGroup_tags s t q _
@[simp] theorem push_poison (s : State) (t q : Nat) (e : SqKind) : (s.push t q e).poison = s.poison := updGroup_poison s t q _
@[simp] theorem push_badTags (s : State) (t q : Nat) (e : SqKind) : (s.push t q e).badTags = s.badTags := updGroup_badTags s t q _
@[simp] theorem push_emptyGran (s : State) (t q : Nat) (e : SqKind) : (s.push t q e).emptyGran = s.emptyGran := updGroup_emptyGran s t q _
@[simp] theorem push_behind (s : State) (t q : Nat) (e : SqKind) : (s.push t q e).behind = s.behind := updGroup_behind s t q _
@[simp] theorem push_invMarks (s : State) (t q : Nat) (e : SqKind) : (s.push t q e).invMarks = s.invMarks := updGroup_invMarks s t q _
@[simp] theorem push_past (s : State) (t q : Nat) (e : SqKind) : (s.push t q e).past = s.past := updGroup_past s t q _
@[simp] theorem push_deferral (s : State) (t q : Nat) (e : SqKind) : (s.push t q e).deferral = s.deferral := updGroup_deferral s t q _
@[simp] theorem push_tents (s : State) (t q : Nat) (e : SqKind) : (s.push t q e).tents = s.tents := updGroup_tents s t q _
@[simp] theorem push_l2 (s : State) (t q : Nat) (e : SqKind) : (s.push t q e).l2 = s.l2 := updGroup_l2 s t q _
@[simp] theorem push_counters (s : State) (t q : Nat) (e : SqKind) : (s.push t q e).counters = s.counters := updGroup_counters s t q _
@[simp] theorem push_csr (s : State) (t q : Nat) (e : SqKind) : (s.push t q e).csr = s.csr := updGroup_csr s t q _
@[simp] theorem push_almQuiet (s : State) (t q : Nat) (e : SqKind) : (s.push t q e).almQuiet = s.almQuiet := updGroup_almQuiet s t q _
@[simp] theorem push_almTie (s : State) (t q : Nat) (e : SqKind) : (s.push t q e).almTie = s.almTie := updGroup_almTie s t q _
@[simp] theorem push_forcedAt (s : State) (t q : Nat) (e : SqKind) : (s.push t q e).forcedAt = s.forcedAt := updGroup_forcedAt s t q _
@[simp] theorem push_rings (s : State) (t q : Nat) (e : SqKind) : (s.push t q e).rings = s.rings := updGroup_rings s t q _
@[simp] theorem push_queues (s : State) (t q : Nat) (e : SqKind) : (s.push t q e).queues = s.queues := updGroup_queues s t q _
@[simp] theorem push_launches (s : State) (t q : Nat) (e : SqKind) : (s.push t q e).launches = s.launches := updGroup_launches s t q _
@[simp] theorem push_taskQ (s : State) (t q : Nat) (e : SqKind) : (s.push t q e).taskQ = s.taskQ := updGroup_taskQ s t q _
@[simp] theorem push_gathers (s : State) (t q : Nat) (e : SqKind) : (s.push t q e).gathers = s.gathers := updGroup_gathers s t q _
@[simp] theorem push_running (s : State) (t q : Nat) (e : SqKind) : (s.push t q e).running = s.running := updGroup_running s t q _
@[simp] theorem push_retiring (s : State) (t q : Nat) (e : SqKind) : (s.push t q e).retiring = s.retiring := updGroup_retiring s t q _
@[simp] theorem push_resumed (s : State) (t q : Nat) (e : SqKind) : (s.push t q e).resumed = s.resumed := updGroup_resumed s t q _
@[simp] theorem push_away (s : State) (t q : Nat) (e : SqKind) : (s.push t q e).away = s.away := updGroup_away s t q _
@[simp] theorem push_rr (s : State) (t q : Nat) (e : SqKind) : (s.push t q e).rr = s.rr := updGroup_rr s t q _
@[simp] theorem push_waitSince (s : State) (t q : Nat) (e : SqKind) : (s.push t q e).waitSince = s.waitSince := updGroup_waitSince s t q _
@[simp] theorem push_objects (s : State) (t q : Nat) (e : SqKind) : (s.push t q e).objects = s.objects := updGroup_objects s t q _
@[simp] theorem push_sharedBars (s : State) (t q : Nat) (e : SqKind) : (s.push t q e).sharedBars = s.sharedBars := updGroup_sharedBars s t q _
@[simp] theorem push_leaves (s : State) (t q : Nat) (e : SqKind) : (s.push t q e).leaves = s.leaves := updGroup_leaves s t q _
@[simp] theorem push_sending (s : State) (t q : Nat) (e : SqKind) : (s.push t q e).sending = s.sending := updGroup_sending s t q _
@[simp] theorem push_mergeBuf (s : State) (t q : Nat) (e : SqKind) : (s.push t q e).mergeBuf = s.mergeBuf := updGroup_mergeBuf s t q _
@[simp] theorem push_errSent (s : State) (t q : Nat) (e : SqKind) : (s.push t q e).errSent = s.errSent := updGroup_errSent s t q _
@[simp] theorem push_errBuf (s : State) (t q : Nat) (e : SqKind) : (s.push t q e).errBuf = s.errBuf := updGroup_errBuf s t q _
@[simp] theorem push_corr (s : State) (t q : Nat) (e : SqKind) : (s.push t q e).corr = s.corr := updGroup_corr s t q _
@[simp] theorem push_sluices (s : State) (t q : Nat) (e : SqKind) : (s.push t q e).sluices = s.sluices := updGroup_sluices s t q _
@[simp] theorem push_msixTable (s : State) (t q : Nat) (e : SqKind) : (s.push t q e).msixTable = s.msixTable := updGroup_msixTable s t q _
@[simp] theorem push_msixPend (s : State) (t q : Nat) (e : SqKind) : (s.push t q e).msixPend = s.msixPend := updGroup_msixPend s t q _
@[simp] theorem push_msixLast (s : State) (t q : Nat) (e : SqKind) : (s.push t q e).msixLast = s.msixLast := updGroup_msixLast s t q _
@[simp] theorem push_msixSent (s : State) (t q : Nat) (e : SqKind) : (s.push t q e).msixSent = s.msixSent := updGroup_msixSent s t q _
@[simp] theorem push_hdm (s : State) (t q : Nat) (e : SqKind) : (s.push t q e).hdm = s.hdm := updGroup_hdm s t q _
@[simp] theorem push_ports (s : State) (t q : Nat) (e : SqKind) : (s.push t q e).ports = s.ports := updGroup_ports s t q _
@[simp] theorem push_noRoute (s : State) (t q : Nat) (e : SqKind) : (s.push t q e).noRoute = s.noRoute := updGroup_noRoute s t q _
@[simp] theorem push_downAt (s : State) (t q : Nat) (e : SqKind) : (s.push t q e).downAt = s.downAt := updGroup_downAt s t q _
@[simp] theorem push_fenOut (s : State) (t q : Nat) (e : SqKind) : (s.push t q e).fenOut = s.fenOut := updGroup_fenOut s t q _
@[simp] theorem push_timeSync (s : State) (t q : Nat) (e : SqKind) : (s.push t q e).timeSync = s.timeSync := updGroup_timeSync s t q _
@[simp] theorem push_measLog (s : State) (t q : Nat) (e : SqKind) : (s.push t q e).measLog = s.measLog := updGroup_measLog s t q _
@[simp] theorem push_powered (s : State) (t q : Nat) (e : SqKind) : (s.push t q e).powered = s.powered := updGroup_powered s t q _
@[simp] theorem push_booted (s : State) (t q : Nat) (e : SqKind) : (s.push t q e).booted = s.booted := updGroup_booted s t q _
@[simp] theorem push_testStart (s : State) (t q : Nat) (e : SqKind) : (s.push t q e).testStart = s.testStart := updGroup_testStart s t q _
@[simp] theorem push_hostOut (s : State) (t q : Nat) (e : SqKind) : (s.push t q e).hostOut = s.hostOut := updGroup_hostOut s t q _
@[simp] theorem push_quoteOut (s : State) (t q : Nat) (e : SqKind) : (s.push t q e).quoteOut = s.quoteOut := updGroup_quoteOut s t q _
@[simp] theorem push_agenda (s : State) (t q : Nat) (e : SqKind) : (s.push t q e).agenda = s.agenda := updGroup_agenda s t q _
@[simp] theorem push_focus (s : State) (t q : Nat) (e : SqKind) : (s.push t q e).focus = s.focus := updGroup_focus s t q _
@[simp] theorem push_nextTile (s : State) (t q : Nat) (e : SqKind) : (s.push t q e).nextTile = s.nextTile := updGroup_nextTile s t q _
@[simp] theorem push_free (s : State) (t q : Nat) (e : SqKind) : (s.push t q e).free = s.free := updGroup_free s t q _
@[simp] theorem push_nextId (s : State) (t q : Nat) (e : SqKind) : (s.push t q e).nextId = s.nextId := updGroup_nextId s t q _

/-! ## A step's choices -/

@[simp] theorem fresh_time (s : State) : s.fresh.time = s.time := rfl
@[simp] theorem fresh_mem (s : State) : s.fresh.mem = s.mem := rfl
@[simp] theorem fresh_tags (s : State) : s.fresh.tags = s.tags := rfl
@[simp] theorem fresh_poison (s : State) : s.fresh.poison = s.poison := rfl
@[simp] theorem fresh_badTags (s : State) : s.fresh.badTags = s.badTags := rfl
@[simp] theorem fresh_emptyGran (s : State) : s.fresh.emptyGran = s.emptyGran := rfl
@[simp] theorem fresh_behind (s : State) : s.fresh.behind = s.behind := rfl
@[simp] theorem fresh_invMarks (s : State) : s.fresh.invMarks = s.invMarks := rfl
@[simp] theorem fresh_past (s : State) : s.fresh.past = s.past := rfl
@[simp] theorem fresh_deferral (s : State) : s.fresh.deferral = s.deferral := rfl
@[simp] theorem fresh_tents (s : State) : s.fresh.tents = s.tents := rfl
@[simp] theorem fresh_l2 (s : State) : s.fresh.l2 = s.l2 := rfl
@[simp] theorem fresh_counters (s : State) : s.fresh.counters = s.counters := rfl
@[simp] theorem fresh_csr (s : State) : s.fresh.csr = s.csr := rfl
@[simp] theorem fresh_almQuiet (s : State) : s.fresh.almQuiet = s.almQuiet := rfl
@[simp] theorem fresh_almTie (s : State) : s.fresh.almTie = s.almTie := rfl
@[simp] theorem fresh_forcedAt (s : State) : s.fresh.forcedAt = s.forcedAt := rfl
@[simp] theorem fresh_tiles (s : State) : s.fresh.tiles = s.tiles := rfl
@[simp] theorem fresh_rings (s : State) : s.fresh.rings = s.rings := rfl
@[simp] theorem fresh_queues (s : State) : s.fresh.queues = s.queues := rfl
@[simp] theorem fresh_launches (s : State) : s.fresh.launches = s.launches := rfl
@[simp] theorem fresh_taskQ (s : State) : s.fresh.taskQ = s.taskQ := rfl
@[simp] theorem fresh_gathers (s : State) : s.fresh.gathers = s.gathers := rfl
@[simp] theorem fresh_running (s : State) : s.fresh.running = s.running := rfl
@[simp] theorem fresh_retiring (s : State) : s.fresh.retiring = s.retiring := rfl
@[simp] theorem fresh_resumed (s : State) : s.fresh.resumed = s.resumed := rfl
@[simp] theorem fresh_away (s : State) : s.fresh.away = s.away := rfl
@[simp] theorem fresh_rr (s : State) : s.fresh.rr = s.rr := rfl
@[simp] theorem fresh_waitSince (s : State) : s.fresh.waitSince = s.waitSince := rfl
@[simp] theorem fresh_objects (s : State) : s.fresh.objects = s.objects := rfl
@[simp] theorem fresh_sharedBars (s : State) : s.fresh.sharedBars = s.sharedBars := rfl
@[simp] theorem fresh_leaves (s : State) : s.fresh.leaves = s.leaves := rfl
@[simp] theorem fresh_sending (s : State) : s.fresh.sending = s.sending := rfl
@[simp] theorem fresh_mergeBuf (s : State) : s.fresh.mergeBuf = s.mergeBuf := rfl
@[simp] theorem fresh_errSent (s : State) : s.fresh.errSent = s.errSent := rfl
@[simp] theorem fresh_errBuf (s : State) : s.fresh.errBuf = s.errBuf := rfl
@[simp] theorem fresh_corr (s : State) : s.fresh.corr = s.corr := rfl
@[simp] theorem fresh_sluices (s : State) : s.fresh.sluices = s.sluices := rfl
@[simp] theorem fresh_msixTable (s : State) : s.fresh.msixTable = s.msixTable := rfl
@[simp] theorem fresh_msixPend (s : State) : s.fresh.msixPend = s.msixPend := rfl
@[simp] theorem fresh_msixLast (s : State) : s.fresh.msixLast = s.msixLast := rfl
@[simp] theorem fresh_msixSent (s : State) : s.fresh.msixSent = s.msixSent := rfl
@[simp] theorem fresh_hdm (s : State) : s.fresh.hdm = s.hdm := rfl
@[simp] theorem fresh_ports (s : State) : s.fresh.ports = s.ports := rfl
@[simp] theorem fresh_noRoute (s : State) : s.fresh.noRoute = s.noRoute := rfl
@[simp] theorem fresh_downAt (s : State) : s.fresh.downAt = s.downAt := rfl
@[simp] theorem fresh_fenOut (s : State) : s.fresh.fenOut = s.fenOut := rfl
@[simp] theorem fresh_timeSync (s : State) : s.fresh.timeSync = s.timeSync := rfl
@[simp] theorem fresh_measLog (s : State) : s.fresh.measLog = s.measLog := rfl
@[simp] theorem fresh_powered (s : State) : s.fresh.powered = s.powered := rfl
@[simp] theorem fresh_booted (s : State) : s.fresh.booted = s.booted := rfl
@[simp] theorem fresh_testStart (s : State) : s.fresh.testStart = s.testStart := rfl
@[simp] theorem fresh_hostOut (s : State) : s.fresh.hostOut = s.hostOut := rfl
@[simp] theorem fresh_quoteOut (s : State) : s.fresh.quoteOut = s.quoteOut := rfl
@[simp] theorem fresh_agenda (s : State) : s.fresh.agenda = s.agenda := rfl
@[simp] theorem fresh_focus (s : State) : s.fresh.focus = s.focus := rfl
@[simp] theorem fresh_nextTile (s : State) : s.fresh.nextTile = s.nextTile := rfl
@[simp] theorem fresh_nextId (s : State) : s.fresh.nextId = s.nextId := rfl
@[simp] theorem fresh_free (s : State) : s.fresh.free = s.free + 1 := rfl

/-! ## Inside a tile, a group and a slice -/

@[simp] theorem tileSetGroup_teams (x : Tile) (q : Nat) (g : Group) : (x.setGroup q g).teams = x.teams := rfl
@[simp] theorem tileSetGroup_scratch (x : Tile) (q : Nat) (g : Group) : (x.setGroup q g).scratch = x.scratch := rfl
@[simp] theorem tileSetGroup_scratchTags (x : Tile) (q : Nat) (g : Group) : (x.setGroup q g).scratchTags = x.scratchTags := rfl
@[simp] theorem tileSetGroup_acc (x : Tile) (q : Nat) (g : Group) : (x.setGroup q g).acc = x.acc := rfl
@[simp] theorem tileSetGroup_rowBound (x : Tile) (q : Nat) (g : Group) : (x.setGroup q g).rowBound = x.rowBound := rfl
@[simp] theorem tileSetGroup_accBad (x : Tile) (q : Nat) (g : Group) : (x.setGroup q g).accBad = x.accBad := rfl
@[simp] theorem tileSetGroup_handles (x : Tile) (q : Nat) (g : Group) : (x.setGroup q g).handles = x.handles := rfl
@[simp] theorem tileSetGroup_eng0 (x : Tile) (q : Nat) (g : Group) : (x.setGroup q g).eng0 = x.eng0 := rfl
@[simp] theorem tileSetGroup_eng1 (x : Tile) (q : Nat) (g : Group) : (x.setGroup q g).eng1 = x.eng1 := rfl
@[simp] theorem tileSetGroup_mx (x : Tile) (q : Nat) (g : Group) : (x.setGroup q g).mx = x.mx := rfl
@[simp] theorem tileSetGroup_mxLast (x : Tile) (q : Nat) (g : Group) : (x.setGroup q g).mxLast = x.mxLast := rfl
@[simp] theorem tileSetGroup_alatch (x : Tile) (q : Nat) (g : Group) : (x.setGroup q g).alatch = x.alatch := rfl
@[simp] theorem tileSetGroup_inBurst (x : Tile) (q : Nat) (g : Group) : (x.setGroup q g).inBurst = x.inBurst := rfl
@[simp] theorem tileSetGroup_burstIdle (x : Tile) (q : Nat) (g : Group) : (x.setGroup q g).burstIdle = x.burstIdle := rfl
@[simp] theorem tileSetGroup_sr (x : Tile) (q : Nat) (g : Group) : (x.setGroup q g).sr = x.sr := rfl
@[simp] theorem tileSetGroup_fast (x : Tile) (q : Nat) (g : Group) : (x.setGroup q g).fast = x.fast := rfl
@[simp] theorem tileSetGroup_phase (x : Tile) (q : Nat) (g : Group) : (x.setGroup q g).phase = x.phase := rfl
@[simp] theorem tileSetGroup_doze (x : Tile) (q : Nat) (g : Group) : (x.setGroup q g).doze = x.doze := rfl
@[simp] theorem tileSetGroup_allow (x : Tile) (q : Nat) (g : Group) : (x.setGroup q g).allow = x.allow := rfl
@[simp] theorem tileSetGroup_incoming (x : Tile) (q : Nat) (g : Group) : (x.setGroup q g).incoming = x.incoming := rfl
@[simp] theorem tileSetGroup_reserve (x : Tile) (q : Nat) (g : Group) : (x.setGroup q g).reserve = x.reserve := rfl
@[simp] theorem tileSetGroup_cycle (x : Tile) (q : Nat) (g : Group) : (x.setGroup q g).cycle = x.cycle := rfl
@[simp] theorem tileSetGroup_qturn (x : Tile) (q : Nat) (g : Group) : (x.setGroup q g).qturn = x.qturn := rfl
@[simp] theorem tileSetGroup_slotHeld (x : Tile) (q : Nat) (g : Group) : (x.setGroup q g).slotHeld = x.slotHeld := rfl
@[simp] theorem tileSetGroup_token (x : Tile) (q : Nat) (g : Group) : (x.setGroup q g).token = x.token := rfl
@[simp] theorem tileSetGroup_icache (x : Tile) (q : Nat) (g : Group) : (x.setGroup q g).icache = x.icache := rfl
@[simp] theorem tileSetGroup_icPend (x : Tile) (q : Nat) (g : Group) : (x.setGroup q g).icPend = x.icPend := rfl
@[simp] theorem tileSetGroup_l1 (x : Tile) (q : Nat) (g : Group) : (x.setGroup q g).l1 = x.l1 := rfl
@[simp] theorem tileSetGroup_tlb (x : Tile) (q : Nat) (g : Group) : (x.setGroup q g).tlb = x.tlb := rfl

@[simp] theorem debit_groups (x : Tile) (q g c : Nat) : (x.debit q g c).groups = x.groups := rfl
@[simp] theorem debit_teams (x : Tile) (q g c : Nat) : (x.debit q g c).teams = x.teams := rfl
@[simp] theorem debit_scratch (x : Tile) (q g c : Nat) : (x.debit q g c).scratch = x.scratch := rfl
@[simp] theorem debit_scratchTags (x : Tile) (q g c : Nat) : (x.debit q g c).scratchTags = x.scratchTags := rfl
@[simp] theorem debit_acc (x : Tile) (q g c : Nat) : (x.debit q g c).acc = x.acc := rfl
@[simp] theorem debit_rowBound (x : Tile) (q g c : Nat) : (x.debit q g c).rowBound = x.rowBound := rfl
@[simp] theorem debit_accBad (x : Tile) (q g c : Nat) : (x.debit q g c).accBad = x.accBad := rfl
@[simp] theorem debit_handles (x : Tile) (q g c : Nat) : (x.debit q g c).handles = x.handles := rfl
@[simp] theorem debit_eng0 (x : Tile) (q g c : Nat) : (x.debit q g c).eng0 = x.eng0 := rfl
@[simp] theorem debit_eng1 (x : Tile) (q g c : Nat) : (x.debit q g c).eng1 = x.eng1 := rfl
@[simp] theorem debit_mx (x : Tile) (q g c : Nat) : (x.debit q g c).mx = x.mx := rfl
@[simp] theorem debit_mxLast (x : Tile) (q g c : Nat) : (x.debit q g c).mxLast = x.mxLast := rfl
@[simp] theorem debit_alatch (x : Tile) (q g c : Nat) : (x.debit q g c).alatch = x.alatch := rfl
@[simp] theorem debit_inBurst (x : Tile) (q g c : Nat) : (x.debit q g c).inBurst = x.inBurst := rfl
@[simp] theorem debit_burstIdle (x : Tile) (q g c : Nat) : (x.debit q g c).burstIdle = x.burstIdle := rfl
@[simp] theorem debit_sr (x : Tile) (q g c : Nat) : (x.debit q g c).sr = x.sr := rfl
@[simp] theorem debit_fast (x : Tile) (q g c : Nat) : (x.debit q g c).fast = x.fast := rfl
@[simp] theorem debit_phase (x : Tile) (q g c : Nat) : (x.debit q g c).phase = x.phase := rfl
@[simp] theorem debit_doze (x : Tile) (q g c : Nat) : (x.debit q g c).doze = x.doze := rfl
@[simp] theorem debit_incoming (x : Tile) (q g c : Nat) : (x.debit q g c).incoming = x.incoming := rfl
@[simp] theorem debit_cycle (x : Tile) (q g c : Nat) : (x.debit q g c).cycle = x.cycle := rfl
@[simp] theorem debit_qturn (x : Tile) (q g c : Nat) : (x.debit q g c).qturn = x.qturn := rfl
@[simp] theorem debit_slotHeld (x : Tile) (q g c : Nat) : (x.debit q g c).slotHeld = x.slotHeld := rfl
@[simp] theorem debit_token (x : Tile) (q g c : Nat) : (x.debit q g c).token = x.token := rfl
@[simp] theorem debit_icache (x : Tile) (q g c : Nat) : (x.debit q g c).icache = x.icache := rfl
@[simp] theorem debit_icPend (x : Tile) (q g c : Nat) : (x.debit q g c).icPend = x.icPend := rfl
@[simp] theorem debit_l1 (x : Tile) (q g c : Nat) : (x.debit q g c).l1 = x.l1 := rfl
@[simp] theorem debit_tlb (x : Tile) (q g c : Nat) : (x.debit q g c).tlb = x.tlb := rfl
@[simp] theorem debit_allow (x : Tile) (q g c : Nat) : (x.debit q g c).allow = x.allow - c := rfl

@[simp] theorem groupSetSlice_gid (g : Group) (k : Nat) (x : Slice) : (g.setSlice k x).gid = g.gid := rfl
@[simp] theorem groupSetSlice_team (g : Group) (k : Nat) (x : Slice) : (g.setSlice k x).team = g.team := rfl
@[simp] theorem groupSetSlice_idx (g : Group) (k : Nat) (x : Slice) : (g.setSlice k x).idx = g.idx := rfl
@[simp] theorem groupSetSlice_grant (g : Group) (k : Nat) (x : Slice) : (g.setSlice k x).grant = g.grant := rfl
@[simp] theorem groupSetSlice_role (g : Group) (k : Nat) (x : Slice) : (g.setSlice k x).role = g.role := rfl
@[simp] theorem groupSetSlice_attached (g : Group) (k : Nat) (x : Slice) : (g.setSlice k x).attached = g.attached := rfl
@[simp] theorem groupSetSlice_allot (g : Group) (k : Nat) (x : Slice) : (g.setSlice k x).allot = g.allot := rfl
@[simp] theorem groupSetSlice_gearReq (g : Group) (k : Nat) (x : Slice) : (g.setSlice k x).gearReq = g.gearReq := rfl
@[simp] theorem groupSetSlice_hazchk (g : Group) (k : Nat) (x : Slice) : (g.setSlice k x).hazchk = g.hazchk := rfl
@[simp] theorem groupSetSlice_dual (g : Group) (k : Nat) (x : Slice) : (g.setSlice k x).dual = g.dual := rfl
@[simp] theorem groupSetSlice_asid (g : Group) (k : Nat) (x : Slice) : (g.setSlice k x).asid = g.asid := rfl
@[simp] theorem groupSetSlice_elastic (g : Group) (k : Nat) (x : Slice) : (g.setSlice k x).elastic = g.elastic := rfl
@[simp] theorem groupSetSlice_born (g : Group) (k : Nat) (x : Slice) : (g.setSlice k x).born = g.born := rfl
@[simp] theorem groupSetSlice_rgh (g : Group) (k : Nat) (x : Slice) : (g.setSlice k x).rgh = g.rgh := rfl
@[simp] theorem groupSetSlice_sect (g : Group) (k : Nat) (x : Slice) : (g.setSlice k x).sect = g.sect := rfl
@[simp] theorem groupSetSlice_sectStart (g : Group) (k : Nat) (x : Slice) : (g.setSlice k x).sectStart = g.sectStart := rfl
@[simp] theorem groupSetSlice_preReq (g : Group) (k : Nat) (x : Slice) : (g.setSlice k x).preReq = g.preReq := rfl
@[simp] theorem groupSetSlice_image (g : Group) (k : Nat) (x : Slice) : (g.setSlice k x).image = g.image := rfl
@[simp] theorem groupSetSlice_regrant (g : Group) (k : Nat) (x : Slice) : (g.setSlice k x).regrant = g.regrant := rfl
@[simp] theorem groupSetSlice_bm (g : Group) (k : Nat) (x : Slice) : (g.setSlice k x).bm = g.bm := rfl
@[simp] theorem groupSetSlice_arrTok (g : Group) (k : Nat) (x : Slice) : (g.setSlice k x).arrTok = g.arrTok := rfl
@[simp] theorem groupSetSlice_arrSent (g : Group) (k : Nat) (x : Slice) : (g.setSlice k x).arrSent = g.arrSent := rfl
@[simp] theorem groupSetSlice_left (g : Group) (k : Nat) (x : Slice) : (g.setSlice k x).left = g.left := rfl
@[simp] theorem groupSetSlice_sq (g : Group) (k : Nat) (x : Slice) : (g.setSlice k x).sq = g.sq := rfl

@[simp] theorem adv_live (x : Slice) (i : Instr) : (x.adv i).live = x.live := rfl
@[simp] theorem adv_lmask (x : Slice) (i : Instr) : (x.adv i).lmask = x.lmask := rfl
@[simp] theorem adv_s (x : Slice) (i : Instr) : (x.adv i).s = x.s := rfl
@[simp] theorem adv_v (x : Slice) (i : Instr) : (x.adv i).v = x.v := rfl
@[simp] theorem adv_p (x : Slice) (i : Instr) : (x.adv i).p = x.p := rfl
@[simp] theorem adv_fmt (x : Slice) (i : Instr) : (x.adv i).fmt = x.fmt := rfl
@[simp] theorem adv_ebud (x : Slice) (i : Instr) : (x.adv i).ebud = x.ebud := rfl
@[simp] theorem adv_hx (x : Slice) (i : Instr) : (x.adv i).hx = x.hx := rfl
@[simp] theorem adv_div (x : Slice) (i : Instr) : (x.adv i).div = x.div := rfl
@[simp] theorem adv_ret (x : Slice) (i : Instr) : (x.adv i).ret = x.ret := rfl
@[simp] theorem adv_spill (x : Slice) (i : Instr) : (x.adv i).spill = x.spill := rfl
@[simp] theorem adv_cont (x : Slice) (i : Instr) : (x.adv i).cont = x.cont := rfl
@[simp] theorem adv_pm (x : Slice) (i : Instr) : (x.adv i).pm = x.pm := rfl
@[simp] theorem adv_td (x : Slice) (i : Instr) : (x.adv i).td = x.td := rfl
@[simp] theorem adv_levels (x : Slice) (i : Instr) : (x.adv i).levels = x.levels := rfl
@[simp] theorem adv_wait (x : Slice) (i : Instr) : (x.adv i).wait = x.wait := rfl
@[simp] theorem adv_parkPc (x : Slice) (i : Instr) : (x.adv i).parkPc = x.parkPc := rfl
@[simp] theorem adv_stamp (x : Slice) (i : Instr) : (x.adv i).stamp = x.stamp := rfl
@[simp] theorem adv_gang (x : Slice) (i : Instr) : (x.adv i).gang = x.gang := rfl
@[simp] theorem adv_lead (x : Slice) (i : Instr) : (x.adv i).lead = x.lead := rfl
@[simp] theorem adv_glead (x : Slice) (i : Instr) : (x.adv i).glead = x.glead := rfl
@[simp] theorem adv_promo (x : Slice) (i : Instr) : (x.adv i).promo = x.promo := rfl
@[simp] theorem adv_out (x : Slice) (i : Instr) : (x.adv i).out = x.out := rfl
@[simp] theorem adv_newRun (x : Slice) (i : Instr) : (x.adv i).newRun = x.newRun := rfl
@[simp] theorem adv_wset (x : Slice) (i : Instr) : (x.adv i).wset = x.wset := rfl
@[simp] theorem adv_async (x : Slice) (i : Instr) : (x.adv i).async = x.async := rfl
@[simp] theorem adv_skipBp (x : Slice) (i : Instr) : (x.adv i).skipBp = x.skipBp := rfl
@[simp] theorem adv_wins (x : Slice) (i : Instr) : (x.adv i).wins = x.wins := rfl
@[simp] theorem adv_arrv (x : Slice) (i : Instr) : (x.adv i).arrv = x.arrv := rfl
@[simp] theorem adv_bad (x : Slice) (i : Instr) : (x.adv i).bad = x.bad := rfl
@[simp] theorem adv_glitch (x : Slice) (i : Instr) : (x.adv i).glitch = x.glitch := rfl
@[simp] theorem adv_pc (x : Slice) (i : Instr) : (x.adv i).pc = x.pc + BitVec.ofNat 64 (Instr.len i) := rfl

/-- A result waits among those outstanding; nothing else of the slice changes. -/
theorem post_rest (x : Slice) (ws : List RegWrite) : x.post ws = { x with out := (x.post ws).out } := by
  unfold Slice.post
  split <;> rfl

@[simp] theorem post_live (x : Slice) (ws : List RegWrite) : (x.post ws).live = x.live := (congrArg Slice.live (post_rest x ws) :)
@[simp] theorem post_pc (x : Slice) (ws : List RegWrite) : (x.post ws).pc = x.pc := (congrArg Slice.pc (post_rest x ws) :)
@[simp] theorem post_lmask (x : Slice) (ws : List RegWrite) : (x.post ws).lmask = x.lmask := (congrArg Slice.lmask (post_rest x ws) :)
@[simp] theorem post_s (x : Slice) (ws : List RegWrite) : (x.post ws).s = x.s := (congrArg Slice.s (post_rest x ws) :)
@[simp] theorem post_v (x : Slice) (ws : List RegWrite) : (x.post ws).v = x.v := (congrArg Slice.v (post_rest x ws) :)
@[simp] theorem post_p (x : Slice) (ws : List RegWrite) : (x.post ws).p = x.p := (congrArg Slice.p (post_rest x ws) :)
@[simp] theorem post_fmt (x : Slice) (ws : List RegWrite) : (x.post ws).fmt = x.fmt := (congrArg Slice.fmt (post_rest x ws) :)
@[simp] theorem post_ebud (x : Slice) (ws : List RegWrite) : (x.post ws).ebud = x.ebud := (congrArg Slice.ebud (post_rest x ws) :)
@[simp] theorem post_hx (x : Slice) (ws : List RegWrite) : (x.post ws).hx = x.hx := (congrArg Slice.hx (post_rest x ws) :)
@[simp] theorem post_div (x : Slice) (ws : List RegWrite) : (x.post ws).div = x.div := (congrArg Slice.div (post_rest x ws) :)
@[simp] theorem post_ret (x : Slice) (ws : List RegWrite) : (x.post ws).ret = x.ret := (congrArg Slice.ret (post_rest x ws) :)
@[simp] theorem post_spill (x : Slice) (ws : List RegWrite) : (x.post ws).spill = x.spill := (congrArg Slice.spill (post_rest x ws) :)
@[simp] theorem post_cont (x : Slice) (ws : List RegWrite) : (x.post ws).cont = x.cont := (congrArg Slice.cont (post_rest x ws) :)
@[simp] theorem post_pm (x : Slice) (ws : List RegWrite) : (x.post ws).pm = x.pm := (congrArg Slice.pm (post_rest x ws) :)
@[simp] theorem post_td (x : Slice) (ws : List RegWrite) : (x.post ws).td = x.td := (congrArg Slice.td (post_rest x ws) :)
@[simp] theorem post_levels (x : Slice) (ws : List RegWrite) : (x.post ws).levels = x.levels := (congrArg Slice.levels (post_rest x ws) :)
@[simp] theorem post_wait (x : Slice) (ws : List RegWrite) : (x.post ws).wait = x.wait := (congrArg Slice.wait (post_rest x ws) :)
@[simp] theorem post_parkPc (x : Slice) (ws : List RegWrite) : (x.post ws).parkPc = x.parkPc := (congrArg Slice.parkPc (post_rest x ws) :)
@[simp] theorem post_stamp (x : Slice) (ws : List RegWrite) : (x.post ws).stamp = x.stamp := (congrArg Slice.stamp (post_rest x ws) :)
@[simp] theorem post_gang (x : Slice) (ws : List RegWrite) : (x.post ws).gang = x.gang := (congrArg Slice.gang (post_rest x ws) :)
@[simp] theorem post_lead (x : Slice) (ws : List RegWrite) : (x.post ws).lead = x.lead := (congrArg Slice.lead (post_rest x ws) :)
@[simp] theorem post_glead (x : Slice) (ws : List RegWrite) : (x.post ws).glead = x.glead := (congrArg Slice.glead (post_rest x ws) :)
@[simp] theorem post_promo (x : Slice) (ws : List RegWrite) : (x.post ws).promo = x.promo := (congrArg Slice.promo (post_rest x ws) :)
@[simp] theorem post_newRun (x : Slice) (ws : List RegWrite) : (x.post ws).newRun = x.newRun := (congrArg Slice.newRun (post_rest x ws) :)
@[simp] theorem post_wset (x : Slice) (ws : List RegWrite) : (x.post ws).wset = x.wset := (congrArg Slice.wset (post_rest x ws) :)
@[simp] theorem post_async (x : Slice) (ws : List RegWrite) : (x.post ws).async = x.async := (congrArg Slice.async (post_rest x ws) :)
@[simp] theorem post_skipBp (x : Slice) (ws : List RegWrite) : (x.post ws).skipBp = x.skipBp := (congrArg Slice.skipBp (post_rest x ws) :)
@[simp] theorem post_wins (x : Slice) (ws : List RegWrite) : (x.post ws).wins = x.wins := (congrArg Slice.wins (post_rest x ws) :)
@[simp] theorem post_arrv (x : Slice) (ws : List RegWrite) : (x.post ws).arrv = x.arrv := (congrArg Slice.arrv (post_rest x ws) :)
@[simp] theorem post_bad (x : Slice) (ws : List RegWrite) : (x.post ws).bad = x.bad := (congrArg Slice.bad (post_rest x ws) :)
@[simp] theorem post_glitch (x : Slice) (ws : List RegWrite) : (x.post ws).glitch = x.glitch := (congrArg Slice.glitch (post_rest x ws) :)

/-- A write changes a register and nothing else. -/
theorem write_rest (x : Slice) (w : RegWrite) : x.write w = { x with v := (x.write w).v, p := (x.write w).p, s := (x.write w).s, bad := (x.write w).bad } := by
  unfold Slice.write
  split <;> (try split) <;> rfl

@[simp] theorem write_live (x : Slice) (w : RegWrite) : (x.write w).live = x.live := (congrArg Slice.live (write_rest x w) :)
@[simp] theorem write_pc (x : Slice) (w : RegWrite) : (x.write w).pc = x.pc := (congrArg Slice.pc (write_rest x w) :)
@[simp] theorem write_lmask (x : Slice) (w : RegWrite) : (x.write w).lmask = x.lmask := (congrArg Slice.lmask (write_rest x w) :)
@[simp] theorem write_fmt (x : Slice) (w : RegWrite) : (x.write w).fmt = x.fmt := (congrArg Slice.fmt (write_rest x w) :)
@[simp] theorem write_ebud (x : Slice) (w : RegWrite) : (x.write w).ebud = x.ebud := (congrArg Slice.ebud (write_rest x w) :)
@[simp] theorem write_hx (x : Slice) (w : RegWrite) : (x.write w).hx = x.hx := (congrArg Slice.hx (write_rest x w) :)
@[simp] theorem write_div (x : Slice) (w : RegWrite) : (x.write w).div = x.div := (congrArg Slice.div (write_rest x w) :)
@[simp] theorem write_ret (x : Slice) (w : RegWrite) : (x.write w).ret = x.ret := (congrArg Slice.ret (write_rest x w) :)
@[simp] theorem write_spill (x : Slice) (w : RegWrite) : (x.write w).spill = x.spill := (congrArg Slice.spill (write_rest x w) :)
@[simp] theorem write_cont (x : Slice) (w : RegWrite) : (x.write w).cont = x.cont := (congrArg Slice.cont (write_rest x w) :)
@[simp] theorem write_pm (x : Slice) (w : RegWrite) : (x.write w).pm = x.pm := (congrArg Slice.pm (write_rest x w) :)
@[simp] theorem write_td (x : Slice) (w : RegWrite) : (x.write w).td = x.td := (congrArg Slice.td (write_rest x w) :)
@[simp] theorem write_levels (x : Slice) (w : RegWrite) : (x.write w).levels = x.levels := (congrArg Slice.levels (write_rest x w) :)
@[simp] theorem write_wait (x : Slice) (w : RegWrite) : (x.write w).wait = x.wait := (congrArg Slice.wait (write_rest x w) :)
@[simp] theorem write_parkPc (x : Slice) (w : RegWrite) : (x.write w).parkPc = x.parkPc := (congrArg Slice.parkPc (write_rest x w) :)
@[simp] theorem write_stamp (x : Slice) (w : RegWrite) : (x.write w).stamp = x.stamp := (congrArg Slice.stamp (write_rest x w) :)
@[simp] theorem write_gang (x : Slice) (w : RegWrite) : (x.write w).gang = x.gang := (congrArg Slice.gang (write_rest x w) :)
@[simp] theorem write_lead (x : Slice) (w : RegWrite) : (x.write w).lead = x.lead := (congrArg Slice.lead (write_rest x w) :)
@[simp] theorem write_glead (x : Slice) (w : RegWrite) : (x.write w).glead = x.glead := (congrArg Slice.glead (write_rest x w) :)
@[simp] theorem write_promo (x : Slice) (w : RegWrite) : (x.write w).promo = x.promo := (congrArg Slice.promo (write_rest x w) :)
@[simp] theorem write_out (x : Slice) (w : RegWrite) : (x.write w).out = x.out := (congrArg Slice.out (write_rest x w) :)
@[simp] theorem write_newRun (x : Slice) (w : RegWrite) : (x.write w).newRun = x.newRun := (congrArg Slice.newRun (write_rest x w) :)
@[simp] theorem write_wset (x : Slice) (w : RegWrite) : (x.write w).wset = x.wset := (congrArg Slice.wset (write_rest x w) :)
@[simp] theorem write_async (x : Slice) (w : RegWrite) : (x.write w).async = x.async := (congrArg Slice.async (write_rest x w) :)
@[simp] theorem write_skipBp (x : Slice) (w : RegWrite) : (x.write w).skipBp = x.skipBp := (congrArg Slice.skipBp (write_rest x w) :)
@[simp] theorem write_wins (x : Slice) (w : RegWrite) : (x.write w).wins = x.wins := (congrArg Slice.wins (write_rest x w) :)
@[simp] theorem write_arrv (x : Slice) (w : RegWrite) : (x.write w).arrv = x.arrv := (congrArg Slice.arrv (write_rest x w) :)
@[simp] theorem write_glitch (x : Slice) (w : RegWrite) : (x.write w).glitch = x.glitch := (congrArg Slice.glitch (write_rest x w) :)

end Sys2Proof.Machine
end

