-- ==== Sys2Proof/Laws/Beat.lean ====
section
/-! SUPPORT. What a beat does, once for all the instructions that are beats of a gang. -/

namespace Sys2Proof.Machine

/-! ## Slices that a beat does not issue for -/

theorem Untouched.refl (x : Slice) : Untouched x x := ⟨rfl, fun _ => rfl⟩

theorem Untouched.of_eq {x y : Slice} (h : y = x) : Untouched x y := h ▸ Untouched.refl x

theorem Untouched.trans {x y z : Slice} (h : Untouched x y) (k : Untouched y z) : Untouched x z := by
  refine ⟨by rw [k.1, h.1], fun e => ?_⟩
  have hy := h.2 e
  rw [k.2 (hy ▸ e), hy]

theorem Untouched.gang {x : Slice} (h : x.glead ≠ none) (n : Nat) : Untouched x { x with gang := n } := ⟨rfl, fun e => absurd e h⟩

/-! ## States that differ in one group's slices -/

/-- `r` differs from `m` at most in slices `l` of the group in slot `q` of tile `t`, and in that tile's allowance, reservation and
latches. -/
structure Near (m r : State) (t q : Nat) (l : List Nat) : Prop where
  rest : r = { m with tiles := r.tiles }
  tiles : ∀ t', t' ≠ t → r.tile t' = m.tile t'
  tile : r.tile t =
    { m.tile t with
        groups := (r.tile t).groups, allow := (r.tile t).allow, reserve := (r.tile t).reserve, alatch := (r.tile t).alatch }
  groups : ∀ q', q' ≠ q → r.group? t q' = m.group? t q'
  group : ∃ a b, m.group? t q = some a ∧ r.group? t q = some b ∧ b = { a with slices := b.slices } ∧
    ∀ k, k ∉ l → Untouched (a.slice k) (b.slice k)

theorem Near.refl {m : State} {t q : Nat} {l : List Nat} {g : Group} (h : m.group? t q = some g) : Near m m t q l :=
  ⟨rfl, fun _ _ => rfl, rfl, fun _ _ => rfl, ⟨g, g, h, h, rfl, fun _ _ => Untouched.refl _⟩⟩

theorem Near.trans {a b c : State} {t q : Nat} {l : List Nat} (h : Near a b t q l) (k : Near b c t q l) : Near a c t q l := by
  refine ⟨?_, fun t' ht => (k.tiles t' ht).trans (h.tiles t' ht), ?_, fun q' hq => (k.groups q' hq).trans (h.groups q' hq), ?_⟩
  · rw [k.rest, h.rest]
  · rw [k.tile, h.tile]
  · obtain ⟨g0, g1, h0, h1, h2, h3⟩ := h.group
    obtain ⟨g1', g2, k0, k1, k2, k3⟩ := k.group
    obtain rfl : g1 = g1' := by rw [h1] at k0; exact Option.some.inj k0
    refine ⟨g0, g2, h0, k1, ?_, fun j hj => (h3 j hj).trans (k3 j hj)⟩
    rw [k2, h2]

/-- Writing slices of the group, and nothing else of it. -/
theorem Near.setGroup {m : State} {t q : Nat} {l : List Nat} {g g' : Group} (h : m.group? t q = some g)
    (hg : g' = { g with slices := g'.slices }) (hs : ∀ k, k ∉ l → Untouched (g.slice k) (g'.slice k)) : Near m (m.setGroup t q g') t q l :=
  ⟨rfl, fun _ ht => tile_setGroup_ne _ _ _ ht, by rw [tile_setGroup_self]; rfl, fun _ hq => group?_setGroup_ne _ _ _ hq,
    ⟨g, g', h, group?_setGroup_self _ _ _ _, hg, hs⟩⟩

/-- Changing the tile's allowance, reservation and latches. -/
theorem Near.updTile {m : State} {t q : Nat} {l : List Nat} {g : Group} (h : m.group? t q = some g) (f : Tile → Tile)
    (hf : ∀ x, f x = { x with allow := (f x).allow, reserve := (f x).reserve, alatch := (f x).alatch }) :
    Near m (m.updTile t f) t q l ∧ (m.updTile t f).group? t q = some g ∧ (m.updTile t f).tile t = f (m.tile t) := by
  have hgr : (f (m.tile t)).groups = (m.tile t).groups := by rw [hf]
  have ht : (m.updTile t f).tile t = f (m.tile t) := tile_setTile_self _ _ _
  have hq : ∀ q', (m.updTile t f).group? t q' = m.group? t q' := by
    intro q'; simp [State.group?, ht, Tile.group?, hgr]
  refine ⟨⟨rfl, fun _ h' => tile_setTile_ne _ _ h', ?_, fun q' _ => hq q', ⟨g, g, h, (hq q).trans h, rfl, fun _ _ => Untouched.refl _⟩⟩,
    (hq q).trans h, ht⟩
  rw [ht, hf]

/-! ## Loops over the slices of a gang -/

theorem near_updSlice {m : State} {t q k : Nat} {l : List Nat} {g : Group} (h : m.group? t q = some g) (hk : k ∈ l)
    (f : Slice → Slice) : Near m (m.updSlice t q k f) t q l := by
  rw [updSlice_eq h]
  exact Near.setGroup h rfl fun j hj => .of_eq (slice_setSlice_ne _ _ fun e => hj (e ▸ hk))

theorem tile_allow_setGroup (s : State) (t q : Nat) (g : Group) : ((s.setGroup t q g).tile t).allow = (s.tile t).allow := by
  rw [tile_setGroup_self]; rfl

/-- A loop that writes each of some distinct slices once. -/
theorem foldl_updSlice {t q : Nat} (f : Nat → Slice → Slice) :
    ∀ (l L : List Nat) (m : State) (g : Group), m.group? t q = some g → l.Nodup → (∀ k ∈ l, k ∈ L) →
      let r := l.foldl (fun s k => s.updSlice t q k (f k)) m
      Near m r t q L ∧ (∀ k ∈ l, r.slice t q k = f k (g.slice k)) ∧ (∀ k, k ∉ l → r.slice t q k = g.slice k) ∧
        (r.tile t).allow = (m.tile t).allow
  | [], L, m, g, h, _, _ => ⟨Near.refl h, by simp, fun k _ => by simp [slice_of_group h], rfl⟩
  | k :: l, L, m, g, h, hn, hL => by
    have hg := updSlice_eq h k (f k)
    have h1 : (m.updSlice t q k (f k)).group? t q = some (g.setSlice k (f k (g.slice k))) := by
      rw [hg]; exact group?_setGroup_self _ _ _ _
    have hn' := List.nodup_cons.mp hn
    obtain ⟨i1, i2, i3, i4⟩ := foldl_updSlice f l L _ _ h1 hn'.2 fun j hj => hL j (List.mem_cons_of_mem _ hj)
    refine ⟨(near_updSlice h (hL k List.mem_cons_self) _).trans i1, ?_, ?_, ?_⟩
    · intro j hj
      rcases List.mem_cons.mp hj with rfl | hj
      · rw [List.foldl_cons, i3 _ hn'.1, slice_setSlice_self]
      · rw [List.foldl_cons, i2 j hj, slice_setSlice_ne _ _ (fun e => hn'.1 (by rw [← e]; exact hj))]
    · intro j hj
      rw [List.mem_cons, not_or] at hj
      rw [List.foldl_cons, i3 j hj.2, slice_setSlice_ne _ _ hj.1]
    · rw [List.foldl_cons, i4, hg, tile_allow_setGroup]

/-! ## Gangs -/

/-- A group whose slices differ at most in the gang they are in, and only those of `l` and those being resumed. -/
def Regangs (g g' : Group) (l : List Nat) : Prop :=
  g' = { g with slices := g'.slices } ∧ (∀ k, k ∉ l → Untouched (g.slice k) (g'.slice k)) ∧
    ∀ k, g'.slice k = { g.slice k with gang := (g'.slice k).gang }

theorem Regangs.refl (g : Group) (l : List Nat) : Regangs g g l := ⟨rfl, fun _ _ => Untouched.refl _, fun _ => rfl⟩

theorem Regangs.trans {a b c : Group} {l : List Nat} (h : Regangs a b l) (k : Regangs b c l) : Regangs a c l :=
  ⟨by rw [k.1, h.1], fun j hj => (h.2.1 j hj).trans (k.2.1 j hj), fun j => by rw [k.2.2 j, h.2.2 j]⟩

/-- A slice in another gang: one of `L`, or one being resumed. -/
theorem regangs_setSlice (g : Group) (k n : Nat) {L : List Nat} (h : k ∈ L ∨ (g.slice k).glead ≠ none) :
    Regangs g (g.setSlice k { g.slice k with gang := n }) L := by
  refine ⟨rfl, fun j hj => ?_, fun j => ?_⟩
  · by_cases e : j = k
    · subst e; rw [slice_setSlice_self]; exact Untouched.gang (h.resolve_left hj) n
    · exact .of_eq (slice_setSlice_ne _ _ e)
  · by_cases e : j = k
    · subst e; rw [slice_setSlice_self]
    · rw [slice_setSlice_ne _ _ e]

theorem glead_setSlice_gang (g : Group) (k n j : Nat) : ((g.setSlice k { g.slice k with gang := n }).slice j).glead = (g.slice j).glead := by
  rw [(regangs_setSlice g k n (L := [k]) (.inl List.mem_cons_self)).2.2 j]

theorem regangs_setGang_aux (L : List Nat) (n : Nat) : ∀ (l : List Nat) (g : Group), (∀ k ∈ l, k ∈ L ∨ (g.slice k).glead ≠ none) →
    Regangs g (l.foldl (fun g k => g.setSlice k { g.slice k with gang := n }) g) L
  | [], g, _ => Regangs.refl g L
  | k :: l, g, h =>
    (regangs_setSlice g k n (h k List.mem_cons_self)).trans
      (regangs_setGang_aux L n l _ fun j hj => by rw [glead_setSlice_gang]; exact h j (List.mem_cons_of_mem _ hj))

theorem regangs_setGang (g : Group) {l L : List Nat} (h : ∀ k ∈ l, k ∈ L ∨ (g.slice k).glead ≠ none) : Regangs g (g.setGang l) L :=
  regangs_setGang_aux L _ l g h

/-- After a beat only the gangs of its slices, and of those being resumed, change (09 R172, R173). -/
theorem regangs_splitGang (g : Group) (l : List Nat) : Regangs g (g.splitGang l) l := by
  have loop : ∀ {β : Type} (f : Group → β → Group) (g0 : Group), (∀ h b, Regangs g0 h l → Regangs h (f h b) l) → ∀ (bs : List β) (h : Group),
      Regangs g0 h l → Regangs g0 (bs.foldl f h) l := by
    intro β f g0 hf bs
    induction bs with
    | nil => exact fun _ h => h
    | cons b bs ih => exact fun h hh => ih _ (hh.trans (hf h b hh))
  unfold Group.splitGang
  refine loop _ g (fun h key hh => regangs_setGang h fun j hj => ?_) _ _ ?_
  · obtain ⟨hj, hk⟩ := List.mem_filter.mp hj
    split at hj
    · rename_i hs
      right
      have e : (h.gangKey j).2 = key.2 := congrArg Prod.snd (of_decide_eq_true hk)
      intro hn
      rw [← e] at hs
      simp [Group.gangKey, hn] at hs
    · exact .inl (List.mem_filter.mp (List.mem_filter.mp hj).1).1
  · generalize hp : ((l.filter fun k => (g.slice k).live).filter _) = ps
    have hps : ∀ k ∈ ps, k ∈ l := by
      subst hp
      exact fun k hk => (List.mem_filter.mp (List.mem_filter.mp hk).1).1
    clear hp
    have : ∀ (ps : List Nat) (h : Group), (∀ k ∈ ps, k ∈ l) → Regangs h (ps.foldl (fun g k => g.setGang [k]) h) l := by
      intro ps
      induction ps with
      | nil => exact fun h _ => Regangs.refl h l
      | cons k ps ih =>
        exact fun h hk => (regangs_setGang h fun j hj => .inl (List.mem_singleton.mp hj ▸ hk k List.mem_cons_self)).trans
          (ih _ fun j hj => hk j (List.mem_cons_of_mem _ hj))
    exact this ps g hps

/-! ## The beat -/

theorem filterMap_none {α β : Type} {f : α → Option β} {l : List α} (h : ∀ a ∈ l, f a = none) : l.filterMap f = [] := by
  induction l with
  | nil => rfl
  | cons a l ih => simp [h a List.mem_cons_self, ih fun b hb => h b (List.mem_cons_of_mem _ hb)]

theorem touchLatch_near (x : Tile) (n : Nat) (g : Group) (rs : List Nat) :
    x.touchLatch n g rs =
      { x with allow := (x.touchLatch n g rs).allow, reserve := (x.touchLatch n g rs).reserve, alatch := (x.touchLatch n g rs).alatch } := by
  unfold Tile.touchLatch
  split
  · split <;> rfl
  · rfl

theorem touchLatch_allow (x : Tile) (n : Nat) (g : Group) (rs : List Nat) : (x.touchLatch n g rs).allow = x.allow := by
  unfold Tile.touchLatch
  split
  · split <;> rfl
  · rfl

/-- A beat none of whose slices traps: the plan's machine `m`, with the slices of the gang settled and the cost paid. -/
theorem beat_spec {s m : State} {i : Instr} {t q : Nat} {g g1 : Group} {l : List Nat} {c : UClass} {cost : Nat} {plan : Plan}
    (hl : l ≠ []) (hn : l.Nodup) (hc : ∀ k ∈ l, (g.slice k).asyncNow = none) (hp : ∀ k ∈ l, s.preTrap g (g.slice k) i = none)
    (hm : plan c s l = (m, [])) (hg : m.group? t q = some g1) :
    BeatFrame m (s.beat t q g l i c cost plan) t q l ∧
      (∀ k ∈ l, Settles g i (g.slice k) (g1.slice k) ((s.beat t q g l i c cost plan).slice t q k)) ∧
      ((s.beat t q g l i c cost plan).tile t).allow =
        (m.tile t).allow - if l.any (fun k => !(g1.slice k).wait.retries) then cost else 0 := by
  have e1 : (l.filter fun k => !((g.slice k).asyncNow).isSome) = l :=
    List.filter_eq_self.mpr fun k hk => by simp [hc k hk]
  have e2 : (l.filter fun k => ((g.slice k).asyncNow).isSome) = [] :=
    List.filter_eq_nil_iff.mpr fun k hk => by simp [hc k hk]
  have e3 : (((l.map fun k => (k, s.preTrap g (g.slice k) i)).filter fun p => p.2.isNone).map Prod.fst) = l := by
    rw [List.filter_map, List.map_map]
    have : (l.filter ((fun p : Nat × Option Trap => p.2.isNone) ∘ fun k => (k, s.preTrap g (g.slice k) i))) = l :=
      List.filter_eq_self.mpr fun k hk => by simp [hp k hk]
    rw [this]
    simp [Function.comp_def]
  have e4 : ((l.map fun k => (k, s.preTrap g (g.slice k) i)).filterMap fun p => p.2.map fun tr => (p.1, tr, 0)) =
      ([] : List (Nat × Trap × Nat)) := by
    apply filterMap_none
    intro p hp'
    obtain ⟨k, hk, rfl⟩ := List.mem_map.mp hp'
    simp [hp k hk]
  have e5 : (l.filter fun k => !(([] : List (Nat × Trap × Nat)).any fun x => x.1 = k)) = l :=
    List.filter_eq_self.mpr fun k _ => by simp
  unfold State.beat
  have e6 : (if l.isEmpty then (s, []) else plan c s l) = (m, []) := by
    rw [if_neg (by simpa using hl), hm]
  simp only [e1, e2, e3, e4, e6, e5, List.append_nil, List.foldl_nil]
  have hany : (l.any fun k => !(m.slice t q k).wait.retries) = l.any (fun k => !(g1.slice k).wait.retries) := by
    simp [slice_of_group hg]
  rw [hany]
  -- the debit
  obtain ⟨s1, hs1, n1, g1', a1⟩ : ∃ s1, s1 = (if l.any (fun k => !(g1.slice k).wait.retries) then
      m.updTile t fun x => x.debit q (g.slice (l.headD 0)).gang cost else m) ∧ Near m s1 t q l ∧ s1.group? t q = some g1 ∧
      (s1.tile t).allow = (m.tile t).allow - if l.any (fun k => !(g1.slice k).wait.retries) then cost else 0 := by
    refine ⟨_, rfl, ?_⟩
    split
    · obtain ⟨u1, u2, u3⟩ := Near.updTile (l := l) hg (fun x => x.debit q (g.slice (l.headD 0)).gang cost) (fun x => rfl)
      exact ⟨u1, u2, by rw [u3]; rfl⟩
    · exact ⟨Near.refl hg, hg, rfl⟩
  rw [← hs1]
  -- each slice after its instruction
  obtain ⟨n2, f2, f2', a2⟩ := foldl_updSlice (t := t) (q := q) (fun k x => x.finish (g.slice k) g i) l l s1 g1 g1' hn fun _ h => h
  generalize hs2 : l.foldl (fun s k => s.updSlice t q k fun x => x.finish (g.slice k) g i) s1 = s2 at n2 f2 f2' a2
  obtain ⟨_, g2, _, h2, _, _⟩ := n2.group
  -- the latches
  obtain ⟨n3, h3, t3⟩ := Near.updTile (l := l) h2
    (fun x => x.touchLatch (q / 16) g (l.flatMap fun k => rangeRegs (Instr.vUse i ((g.slice k).tyOf i)).2))
    (fun x => touchLatch_near x _ g _)
  generalize hs3 : s2.updTile t _ = s3 at n3 h3 t3
  -- the gangs
  have h4 : s3.updGroup t q (fun g => g.splitGang l) = s3.setGroup t q (g2.splitGang l) := by
    simp [State.updGroup, h3]
  rw [h4]
  obtain ⟨r1, r2, r3⟩ := regangs_splitGang g2 l
  have n4 := Near.setGroup (l := l) h3 r1 r2
  have N := ((n1.trans n2).trans n3).trans n4
  have hr : ∀ k, (s3.setGroup t q (g2.splitGang l)).slice t q k = (g2.splitGang l).slice k := fun k =>
    slice_of_group (group?_setGroup_self _ _ _ _) k
  refine ⟨⟨?_, N.tiles, N.tile, N.groups, N.group⟩, ?_, ?_⟩
  · obtain ⟨ts, hX⟩ : ∃ ts, s3.setGroup t q (g2.splitGang l) = { m with tiles := ts } := ⟨_, N.rest⟩
    rw [hX]
    rfl
  · intro k hk
    have e : (s3.setGroup t q (g2.splitGang l)).fresh.slice t q k = (g2.splitGang l).slice k := hr k
    have h5 := f2 k hk
    rw [slice_of_group h2] at h5
    unfold Settles
    rw [e, r3 k, h5]
  · show ((s3.setGroup t q (g2.splitGang l)).tile t).allow = _
    rw [tile_allow_setGroup, t3, touchLatch_allow, a2, a1]

/-- Slices without an error carry out their instruction's own plan. -/
theorem upsetPlan_sound {g : Group} {l : List Nat} (h : ∀ k ∈ l, (g.slice k).sound) (t q : Nat) (i : Instr) (plan : Plan) (c : UClass)
    (s : State) : upsetPlan t q g i plan c s l = plan c s l := if_pos (List.all_eq_true.mpr h)

/-- A beat that may issue, and whose plan ends without a trap, completes. -/
theorem made_of_plan {s m : State} {i : Instr} {g g1 : Group} {l : List Nat} {c : UClass} {cost : Nat}
    {plan : Nat → Nat → Plan} (h : Issues s i g l c cost) (he : exec i s = runBeat s i plan)
    (hm : plan s.focus.tile s.focus.slot c s l = (m, [])) (hg : m.group? s.focus.tile s.focus.slot = some g1) :
    ∃ r, exec i s = .next r ∧ BeatFrame m r s.focus.tile s.focus.slot l ∧
      (∀ k ∈ l, Settles g i (g.slice k) (g1.slice k) (r.slice s.focus.tile s.focus.slot k)) ∧
      (r.tile s.focus.tile).allow =
        (m.tile s.focus.tile).allow - if l.any (fun k => !(g1.slice k).wait.retries) then cost else 0 := by
  replace hm := (upsetPlan_sound h.sound s.focus.tile s.focus.slot i (plan s.focus.tile s.focus.slot) c s).trans hm
  obtain ⟨k, rest, rfl⟩ := List.exists_cons_of_ne_nil h.some_
  have e : runBeat s i plan = .next (s.beat s.focus.tile s.focus.slot g (k :: rest) i c cost
      (upsetPlan s.focus.tile s.focus.slot g i (plan s.focus.tile s.focus.slot))) := by
    unfold runBeat
    simp only [h.power, h.boot, h.here, h.gang, h.covered, Bool.and_self, Bool.not_true, Bool.false_eq_true, if_false]
  exact ⟨_, he.trans e, beat_spec h.some_ h.distinct h.calm h.clear hm hg⟩

/-- The slices of a beat each carry out what `f` gives. -/
theorem perSlice_ok {s : State} {t q : Nat} {g : Group} {c : UClass} {f : UClass → Ctx → Slice → Except Trap Slice} {y : Nat → Slice}
    (h : s.group? t q = some g) {l : List Nat} (hf : ∀ k ∈ l, f c (ctxOf s t q g k) (g.slice k) = .ok (y k)) :
    perSlice t q f c s l = (l.foldl (fun r k => r.updSlice t q k fun _ => y k) s, []) := by
  unfold perSlice
  generalize hs : s = s0
  have : ∀ (l : List Nat) (r : State), (∀ k ∈ l, f c (ctxOf s t q g k) (g.slice k) = .ok (y k)) →
      l.foldl (fun (r : State × List (Nat × Trap × Nat)) k =>
        match s.group? t q with
        | none => r
        | some g =>
          match f c { st := s, t := t, slot := q, i := k, g := g } (g.slice k) with
          | .ok x => (r.1.setSlice t q k x, r.2)
          | .error tr => (r.1, r.2 ++ [(k, tr, 0)])) (r, []) =
      (l.foldl (fun r k => r.updSlice t q k fun _ => y k) r, []) := by
    intro l
    induction l with
    | nil => intros; rfl
    | cons k l ih =>
      intro r hk
      rw [List.foldl_cons, List.foldl_cons]
      have e := hk k List.mem_cons_self
      unfold ctxOf at e
      simp only [h, e]
      have := ih (r.setSlice t q k (y k)) fun j hj => hk j (List.mem_cons_of_mem _ hj)
      simp only [h] at this
      exact this
  rw [← hs]
  exact this l s hf

/-! ## Slices that act in turn -/

/-- The slices of a beat carry out `F` in turn, `f` saying what each leaves. -/
theorem eachSlice_ok {s m : State} {t q : Nat} {g : Group} {c : UClass} {F : State → Ctx → Slice → State × Option (Trap × Nat)}
    {f : State → Nat → Option State} (h : s.group? t q = some g) {l : List Nat}
    (hF : ∀ k ∈ l, ∀ r r', f r k = some r' → F r (ctxOf s t q g k) (g.slice k) = (r', none)) (hm : inTurn f s l = some m) :
    eachSlice t q F c s l = (m, []) := by
  unfold eachSlice
  have : ∀ (l : List Nat) (r : State), (∀ k ∈ l, ∀ r r', f r k = some r' → F r (ctxOf s t q g k) (g.slice k) = (r', none)) →
      inTurn f r l = some m →
      l.foldl (fun (r : State × List (Nat × Trap × Nat)) k =>
        match s.group? t q with
        | none => r
        | some g =>
          let q := F r.1 { st := s, t := t, slot := q, i := k, g := g } (g.slice k)
          (q.1, match q.2 with
            | some tr => r.2 ++ [(k, tr.1, tr.2)]
            | none => r.2)) (r, []) = (m, []) := by
    intro l
    induction l with
    | nil =>
      intro r _ hm
      simp only [inTurn, Option.some.injEq] at hm
      rw [hm]; rfl
    | cons k l ih =>
      intro r hk hm
      rw [List.foldl_cons]
      unfold inTurn at hm
      cases hf : f r k with
      | none => simp [hf] at hm
      | some r' =>
        simp only [hf] at hm
        have e := hk k List.mem_cons_self r r' hf
        unfold ctxOf at e
        simp only [h, e]
        have := ih r' (fun j hj => hk j (List.mem_cons_of_mem _ hj)) hm
        simp only [h] at this
        exact this
  exact this l s hF hm

theorem inTurn_setSlice {t q : Nat} (y : Nat → Slice) : ∀ (l : List Nat) (s : State),
    inTurn (fun r k => some (r.setSlice t q k (y k))) s l = some (l.foldl (fun r k => r.setSlice t q k (y k)) s)
  | [], _ => rfl
  | k :: l, s => by
    show inTurn _ (s.setSlice t q k (y k)) l = _
    rw [inTurn_setSlice y l]
    rfl

/-- A machine some of whose slices are replaced. -/
theorem replaced_spec {s : State} {g : Group} {l : List Nat} (h : s.group? s.focus.tile s.focus.slot = some g) (hn : l.Nodup)
    (y : Nat → Slice) :
    Near s (s.replaced l y) s.focus.tile s.focus.slot l ∧
      (∀ k ∈ l, (s.replaced l y).slice s.focus.tile s.focus.slot k = y k) ∧
      ((s.replaced l y).tile s.focus.tile).allow = (s.tile s.focus.tile).allow := by
  obtain ⟨n, f1, _, a⟩ := foldl_updSlice (t := s.focus.tile) (q := s.focus.slot) (fun k _ => y k) l l s g h hn fun _ h => h
  exact ⟨n, f1, a⟩

/-- A beat whose plan leaves the machine with slices replaced completes. -/
theorem ran_of_replaced {s : State} {i : Instr} {g : Group} {l : List Nat} {c : UClass} {cost : Nat}
    {plan : Nat → Nat → Plan} {y : Nat → Slice} (h : Issues s i g l c cost) (he : exec i s = runBeat s i plan)
    (hm : plan s.focus.tile s.focus.slot c s l = (s.replaced l y, [])) (hw : ∃ k ∈ l, (y k).wait.retries = false) :
    Ran s i g l cost y := by
  obtain ⟨n, f1, a⟩ := replaced_spec h.here h.distinct y
  obtain ⟨_, g1, _, hg, _, _⟩ := n.group
  obtain ⟨r, e, fr, st, al⟩ := made_of_plan h he hm hg
  have hy : ∀ k ∈ l, g1.slice k = y k := fun k hk => by rw [← slice_of_group hg]; exact f1 k hk
  refine ⟨r, e, ?_, fun k hk => ?_, ?_⟩
  · obtain ⟨ts, hX⟩ : ∃ ts, s.replaced l y = { s with tiles := ts } := ⟨_, n.rest⟩
    refine ⟨?_, fun t' ht => (fr.tiles t' ht).trans (n.tiles t' ht), ?_, fun q' hq => (fr.groups q' hq).trans (n.groups q' hq), ?_⟩
    · rw [fr.rest, hX]
    · rw [fr.tile, n.tile]
    · obtain ⟨a0, a1, h0, h1, h2, h3⟩ := n.group
      obtain ⟨b0, b1, k0, k1, k2, k3⟩ := fr.group
      obtain rfl : a1 = b0 := by rw [h1] at k0; exact Option.some.inj k0
      exact ⟨a0, b1, h0, k1, by rw [k2, h2], fun j hj => (h3 j hj).trans (k3 j hj)⟩
  · rw [← hy k hk]
    exact st k hk
  · rw [al, a]
    obtain ⟨k, hk, hr⟩ := hw
    rw [if_pos]
    exact List.any_eq_true.mpr ⟨k, hk, by rw [hy k hk, hr]; rfl⟩

/-- A beat that completes with what its plan leaves, some slice of the gang going on. -/
theorem made_of_going {s m : State} {i : Instr} {g g1 : Group} {l : List Nat} {c : UClass} {cost : Nat}
    {plan : Nat → Nat → Plan} (h : Issues s i g l c cost) (he : exec i s = runBeat s i plan)
    (hm : plan s.focus.tile s.focus.slot c s l = (m, [])) (hg : m.group? s.focus.tile s.focus.slot = some g1)
    (hw : ∃ k ∈ l, (g1.slice k).wait.retries = false) : Made s i g l cost m := by
  obtain ⟨r, e, fr, st, al⟩ := made_of_plan h he hm hg
  refine ⟨r, e, fr, fun k hk => ?_, ?_⟩
  · rw [slice_of_group hg]; exact st k hk
  · rw [al, if_pos]
    obtain ⟨k, hk, hr⟩ := hw
    exact List.any_eq_true.mpr ⟨k, hk, by rw [hr]; rfl⟩

/-! ## Slices that act each for themselves -/

/-- An instruction that each slice carries out by itself, without a trap, completes. -/
theorem ran_of_slices {s : State} {i : Instr} {g : Group} {l : List Nat} {c : UClass} {cost : Nat}
    {f : UClass → Ctx → Slice → Except Trap Slice} {y : Nat → Slice} (h : Issues s i g l c cost) (he : exec i s = runSlices s i f)
    (hf : ∀ k ∈ l, f c (ctxOf s s.focus.tile s.focus.slot g k) (g.slice k) = .ok (y k))
    (hw : ∃ k ∈ l, (y k).wait.retries = false) : Ran s i g l cost y :=
  ran_of_replaced h (he.trans rfl) (perSlice_ok h.here hf) hw

/-- The same where every slice is left free to go on. -/
theorem ran_of_running {s : State} {i : Instr} {g : Group} {l : List Nat} {c : UClass} {cost : Nat}
    {f : UClass → Ctx → Slice → Except Trap Slice} {y : Nat → Slice} (h : Issues s i g l c cost) (he : exec i s = runSlices s i f)
    (hf : ∀ k ∈ l, f c (ctxOf s s.focus.tile s.focus.slot g k) (g.slice k) = .ok (y k))
    (hw : ∀ k ∈ l, (y k).wait = .run) : Ran s i g l cost y := by
  refine ran_of_slices h he hf ?_
  obtain ⟨k, rest, rfl⟩ := List.exists_cons_of_ne_nil h.some_
  exact ⟨k, List.mem_cons_self, by rw [hw k List.mem_cons_self]; rfl⟩

theorem wait_post (x : Slice) (ws : List RegWrite) (i : Instr) : ((x.post ws).adv i).wait = x.wait := by
  unfold Slice.post Slice.adv; split <;> rfl

theorem wait_postHx (x : Slice) (ws : List RegWrite) (hx : Option (List HxItem)) (i : Instr) :
    ((x.postHx ws hx).adv i).wait = x.wait := by
  unfold Slice.postHx Slice.adv; split <;> rfl

/-! ## Beats that only trap -/

theorem alike_of_group {s m : State} {t q : Nat} {g : Group} (h : s.group? t q = some g) (f : Tile → Tile) (hf : ∀ x, f x = x)
    (hm : m = (s.updTile t f).setGroup t q g) : Alike s m := by
  have h1 : (s.updTile t f).group? t q = some g := by
    rw [group?_updTile _ _ (by rw [hf])]; exact h
  have ht : (s.updTile t f).tile t = s.tile t := by rw [tile_updTile_self, hf]
  subst hm
  refine ⟨rfl, fun t' => ?_, fun t' q' => ?_⟩
  · by_cases e : t' = t
    · subst e; rw [tile_setGroup_self, ht]; rfl
    · rw [tile_setGroup_ne _ _ _ e]
      have : (s.updTile t f).tile t' = s.tile t' := tile_setTile_ne _ _ e
      rw [this]
  · by_cases e : t' = t
    · subst e
      by_cases e2 : q' = q
      · subst e2; rw [group?_setGroup_self, h]
      · rw [group?_setGroup_ne _ _ _ e2, group?_updTile _ _ (by rw [hf])]
    · have : (s.updTile t f).tile t' = s.tile t' := tile_setTile_ne _ _ e
      unfold State.group?
      rw [tile_setGroup_ne _ _ _ e, this]

/-- A beat all of whose slices trap, and whose plan changes nothing else. -/
theorem trapped_of_plan {s : State} {i : Instr} {g : Group} {l : List Nat} {c : UClass} {cost : Nat} {plan : Nat → Nat → Plan}
    {tr : Nat → Trap} (h : Issues s i g l c cost) (he : exec i s = runBeat s i plan)
    (hm : plan s.focus.tile s.focus.slot c s l = (s, l.map fun k => (k, tr k, 0))) : Trapped s i l tr := by
  replace hm := (upsetPlan_sound h.sound s.focus.tile s.focus.slot i (plan s.focus.tile s.focus.slot) c s).trans hm
  obtain ⟨k0, rest, hl⟩ := List.exists_cons_of_ne_nil h.some_
  have e1 : (l.filter fun k => !((g.slice k).asyncNow).isSome) = l :=
    List.filter_eq_self.mpr fun k hk => by simp [h.calm k hk]
  have e2 : (l.filter fun k => ((g.slice k).asyncNow).isSome) = [] :=
    List.filter_eq_nil_iff.mpr fun k hk => by simp [h.calm k hk]
  have e3 : (((l.map fun k => (k, s.preTrap g (g.slice k) i)).filter fun p => p.2.isNone).map Prod.fst) = l := by
    rw [List.filter_map, List.map_map]
    have : (l.filter ((fun p : Nat × Option Trap => p.2.isNone) ∘ fun k => (k, s.preTrap g (g.slice k) i))) = l :=
      List.filter_eq_self.mpr fun k hk => by simp [h.clear k hk]
    rw [this]
    simp [Function.comp_def]
  have e4 : ((l.map fun k => (k, s.preTrap g (g.slice k) i)).filterMap fun p => p.2.map fun tr => (p.1, tr, 0)) =
      ([] : List (Nat × Trap × Nat)) := by
    apply filterMap_none
    intro p hp'
    obtain ⟨k, hk, rfl⟩ := List.mem_map.mp hp'
    simp [h.clear k hk]
  have e5 : (l.filter fun k => !((l.map fun k => (k, tr k, 0)).any fun x => x.1 = k)) = [] :=
    List.filter_eq_nil_iff.mpr fun k hk => by simpa using hk
  have e6 : (if l.isEmpty then (s, []) else upsetPlan s.focus.tile s.focus.slot g i (plan s.focus.tile s.focus.slot) c s l) =
      (s, l.map fun k => (k, tr k, 0)) := by
    rw [if_neg (by simpa using h.some_), hm]
  have e : exec i s = .next (s.beat s.focus.tile s.focus.slot g l i c cost
      (upsetPlan s.focus.tile s.focus.slot g i (plan s.focus.tile s.focus.slot))) := by
    rw [he]
    unfold runBeat
    subst hl
    simp only [h.power, h.boot, h.here, h.gang, h.covered, Bool.and_self, Bool.not_true, Bool.false_eq_true, if_false]
  have hsp : g.splitGang [] = g := rfl
  have htl : ∀ x : Tile, x.touchLatch (s.focus.slot / 16) g [] = x := by
    intro x; unfold Tile.touchLatch; split <;> simp
  have hg : (s.updTile s.focus.tile fun x => x.touchLatch (s.focus.slot / 16) g []).group? s.focus.tile s.focus.slot = some g := by
    rw [group?_updTile _ _ (by rw [htl])]; exact h.here
  refine ⟨_, alike_of_group h.here _ htl rfl, ?_⟩
  rw [e]
  unfold State.beat
  simp only [e1, e2, e3, e4, e6, e5, List.any_nil, Bool.false_eq_true, if_false, List.foldl_nil, List.flatMap_nil, List.nil_append,
    State.updGroup, hg, hsp, List.foldl_map]

theorem perSlice_error {s : State} {t q : Nat} {g : Group} {c : UClass} {f : UClass → Ctx → Slice → Except Trap Slice} {tr : Nat → Trap}
    (h : s.group? t q = some g) {l : List Nat} (hf : ∀ k ∈ l, f c (ctxOf s t q g k) (g.slice k) = .error (tr k)) :
    perSlice t q f c s l = (s, l.map fun k => (k, tr k, 0)) := by
  unfold perSlice
  have : ∀ (l : List Nat) (a : List (Nat × Trap × Nat)), (∀ k ∈ l, f c (ctxOf s t q g k) (g.slice k) = .error (tr k)) →
      l.foldl (fun (r : State × List (Nat × Trap × Nat)) k =>
        match s.group? t q with
        | none => r
        | some g =>
          match f c { st := s, t := t, slot := q, i := k, g := g } (g.slice k) with
          | .ok x => (r.1.setSlice t q k x, r.2)
          | .error tr => (r.1, r.2 ++ [(k, tr, 0)])) (s, a) = (s, a ++ l.map fun k => (k, tr k, 0)) := by
    intro l
    induction l with
    | nil => intro a _; simp
    | cons k l ih =>
      intro a hk
      have e := hk k List.mem_cons_self
      unfold ctxOf at e
      rw [List.foldl_cons]
      simp only [h, e]
      have := ih (a ++ [(k, tr k, 0)]) fun j hj => hk j (List.mem_cons_of_mem _ hj)
      simp only [h] at this
      rw [this]; simp
  have := this l [] hf
  rw [List.nil_append] at this
  exact this

theorem eachSlice_error {s : State} {t q : Nat} {g : Group} {c : UClass} {F : State → Ctx → Slice → State × Option (Trap × Nat)}
    {tr : Nat → Trap} (h : s.group? t q = some g) {l : List Nat}
    (hF : ∀ k ∈ l, F s (ctxOf s t q g k) (g.slice k) = (s, some (tr k, 0))) :
    eachSlice t q F c s l = (s, l.map fun k => (k, tr k, 0)) := by
  unfold eachSlice
  have : ∀ (l : List Nat) (a : List (Nat × Trap × Nat)), (∀ k ∈ l, F s (ctxOf s t q g k) (g.slice k) = (s, some (tr k, 0))) →
      l.foldl (fun (r : State × List (Nat × Trap × Nat)) k =>
        match s.group? t q with
        | none => r
        | some g =>
          let q := F r.1 { st := s, t := t, slot := q, i := k, g := g } (g.slice k)
          (q.1, match q.2 with
            | some tr => r.2 ++ [(k, tr.1, tr.2)]
            | none => r.2)) (s, a) = (s, a ++ l.map fun k => (k, tr k, 0)) := by
    intro l
    induction l with
    | nil => intro a _; simp
    | cons k l ih =>
      intro a hk
      have e := hk k List.mem_cons_self
      unfold ctxOf at e
      rw [List.foldl_cons]
      simp only [h, e]
      have := ih (a ++ [(k, tr k, 0)]) fun j hj => hk j (List.mem_cons_of_mem _ hj)
      simp only [h] at this
      rw [this]; simp
  have := this l [] hF
  rw [List.nil_append] at this
  exact this

/-! ## Beats some of whose slices trap -/

/-- A beat some of whose slices may trap: the others are settled from the plan's machine `m`, and the traps are taken after. -/
theorem beat_parts {s m : State} {i : Instr} {t q : Nat} {g g1 : Group} {l : List Nat} {c : UClass} {cost : Nat} {plan : Plan}
    {trs : List (Nat × Trap)} (hn : l.Nodup) (hc : ∀ k ∈ l, (g.slice k).asyncNow = none)
    (hm : (if (l.filter fun k => (s.preTrap g (g.slice k) i).isNone).isEmpty then (s, [])
        else plan c s (l.filter fun k => (s.preTrap g (g.slice k) i).isNone)) = (m, trs.map fun p => (p.1, p.2, 0)))
    (hg : m.group? t q = some g1) :
    let ok := l.filter fun k => (s.preTrap g (g.slice k) i).isNone
    let early := l.filterMap fun k => (s.preTrap g (g.slice k) i).map fun tr => (k, tr)
    let go := ok.filter fun k => !trs.any fun p => p.1 = k
    ∃ r, s.beat t q g l i c cost plan = ((early ++ trs).foldl (fun r p => r.raise t q p.1 p.2 0) r).fresh ∧
      (go = [] → Alike m r) ∧
      (go ≠ [] → BeatFrame m r.fresh t q go ∧ (∀ k ∈ go, Settles g i (g.slice k) (g1.slice k) (r.slice t q k)) ∧
        (r.tile t).allow = (m.tile t).allow - if go.any (fun k => !(g1.slice k).wait.retries) then cost else 0) := by
  intro ok early go
  have hgn : go.Nodup := (hn.filter _).filter _
  have e1 : (l.filter fun k => !((g.slice k).asyncNow).isSome) = l :=
    List.filter_eq_self.mpr fun k hk => by simp [hc k hk]
  have e2 : (l.filter fun k => ((g.slice k).asyncNow).isSome) = [] :=
    List.filter_eq_nil_iff.mpr fun k hk => by simp [hc k hk]
  have e3 : (((l.map fun k => (k, s.preTrap g (g.slice k) i)).filter fun p => p.2.isNone).map Prod.fst) = ok := by
    rw [List.filter_map, List.map_map]
    simp [Function.comp_def, ok]
  have e4 : ((l.map fun k => (k, s.preTrap g (g.slice k) i)).filterMap fun p => p.2.map fun tr => (p.1, tr, 0)) =
      early.map fun p => (p.1, p.2, 0) := by
    simp only [early, List.filterMap_map, List.map_filterMap]
    congr 1
    funext k
    show Option.map _ (s.preTrap g (g.slice k) i) = _
    cases s.preTrap g (g.slice k) i <;> rfl
  have hm' : (if ok.isEmpty then (s, []) else plan c s ok) = (m, trs.map fun p => (p.1, p.2, 0)) := hm
  have e5 : (ok.filter fun k => !((trs.map fun p => (p.1, p.2, 0)).any fun x => x.1 = k)) = go := by
    simp only [go, List.any_map]
    rfl
  unfold State.beat
  simp only [e1, e2, e3, e4, hm', e5, List.foldl_nil, ← List.map_append, List.foldl_map]
  have hany : (go.any fun k => !(m.slice t q k).wait.retries) = go.any (fun k => !(g1.slice k).wait.retries) := by
    simp [slice_of_group hg]
  rw [hany]
  refine ⟨_, rfl, fun hgo => ?_, fun hgo => ?_⟩
  · have hsp : g1.splitGang [] = g1 := rfl
    have htl : ∀ x : Tile, x.touchLatch (q / 16) g [] = x := by
      intro x; unfold Tile.touchLatch; split <;> simp
    have hg' : (m.updTile t fun x => x.touchLatch (q / 16) g []).group? t q = some g1 := by
      rw [group?_updTile _ _ (by rw [htl])]; exact hg
    refine alike_of_group hg _ htl ?_
    rw [hgo]
    simp only [List.any_nil, Bool.false_eq_true, if_false, List.foldl_nil, List.flatMap_nil, State.updGroup, hg', hsp]
  · -- the debit
    obtain ⟨s1, hs1, n1, g1', a1⟩ : ∃ s1, s1 = (if go.any (fun k => !(g1.slice k).wait.retries) then
        m.updTile t fun x => x.debit q (g.slice (l.headD 0)).gang cost else m) ∧ Near m s1 t q go ∧ s1.group? t q = some g1 ∧
        (s1.tile t).allow = (m.tile t).allow - if go.any (fun k => !(g1.slice k).wait.retries) then cost else 0 := by
      refine ⟨_, rfl, ?_⟩
      split
      · obtain ⟨u1, u2, u3⟩ := Near.updTile (l := go) hg (fun x => x.debit q (g.slice (l.headD 0)).gang cost) (fun x => rfl)
        exact ⟨u1, u2, by rw [u3]; rfl⟩
      · exact ⟨Near.refl hg, hg, rfl⟩
    rw [← hs1]
    -- each slice after its instruction
    obtain ⟨n2, f2, f2', a2⟩ := foldl_updSlice (t := t) (q := q) (fun k x => x.finish (g.slice k) g i) go go s1 g1 g1' hgn fun _ h => h
    generalize hs2 : go.foldl (fun s k => s.updSlice t q k fun x => x.finish (g.slice k) g i) s1 = s2 at n2 f2 f2' a2
    obtain ⟨_, g2, _, h2, _, _⟩ := n2.group
    -- the latches
    obtain ⟨n3, h3, t3⟩ := Near.updTile (l := go) h2
      (fun x => x.touchLatch (q / 16) g (go.flatMap fun k => rangeRegs (Instr.vUse i ((g.slice k).tyOf i)).2))
      (fun x => touchLatch_near x _ g _)
    generalize hs3 : s2.updTile t _ = s3 at n3 h3 t3
    -- the gangs
    have h4 : s3.updGroup t q (fun g => g.splitGang go) = s3.setGroup t q (g2.splitGang go) := by
      simp [State.updGroup, h3]
    rw [h4]
    obtain ⟨r1, r2, r3⟩ := regangs_splitGang g2 go
    have n4 := Near.setGroup (l := go) h3 r1 r2
    have N := ((n1.trans n2).trans n3).trans n4
    have hr : ∀ k, (s3.setGroup t q (g2.splitGang go)).slice t q k = (g2.splitGang go).slice k := fun k =>
      slice_of_group (group?_setGroup_self _ _ _ _) k
    refine ⟨⟨?_, N.tiles, N.tile, N.groups, N.group⟩, ?_, ?_⟩
    · obtain ⟨ts, hX⟩ : ∃ ts, s3.setGroup t q (g2.splitGang go) = { m with tiles := ts } := ⟨_, N.rest⟩
      rw [hX]
      rfl
    · intro k hk
      have h5 := f2 k hk
      rw [slice_of_group h2] at h5
      unfold Settles
      rw [hr k, r3 k, h5]
    · show ((s3.setGroup t q (g2.splitGang go)).tile t).allow = _
      rw [tile_allow_setGroup, t3, touchLatch_allow, a2, a1]

/-- A beat some of whose slices trap before the instruction's own checks, and others in its plan; those that go on are not held. -/
theorem parted_of_plan {s m : State} {i : Instr} {g g1 : Group} {l : List Nat} {c : UClass} {cost : Nat} {plan : Nat → Nat → Plan}
    {trs : List (Nat × Trap)} (h : ToIssue s i g l c cost) (he : exec i s = runBeat s i plan)
    (hm : (if (l.filter fun k => (s.preTrap g (g.slice k) i).isNone).isEmpty then (s, [])
        else upsetPlan s.focus.tile s.focus.slot g i (plan s.focus.tile s.focus.slot) c s
          (l.filter fun k => (s.preTrap g (g.slice k) i).isNone)) = (m, trs.map fun p => (p.1, p.2, 0)))
    (hg : m.group? s.focus.tile s.focus.slot = some g1) (hw : ∀ k ∈ l, (g1.slice k).wait.retries = false) :
    Parted s i g l cost m ((l.filterMap fun k => (s.preTrap g (g.slice k) i).map fun tr => (k, tr)) ++ trs) := by
  obtain ⟨k, rest, hl⟩ := List.exists_cons_of_ne_nil h.some_
  have e : exec i s = .next (s.beat s.focus.tile s.focus.slot g l i c cost
      (upsetPlan s.focus.tile s.focus.slot g i (plan s.focus.tile s.focus.slot))) := by
    rw [he]
    unfold runBeat
    simp only [h.power, h.boot, h.here, h.gang, Bool.and_self, Bool.not_true, Bool.false_eq_true, if_false]
    rw [hl] at h ⊢
    simp only [h.covered]
  obtain ⟨r, er, h0, h1⟩ := beat_parts (cost := cost) h.distinct h.calm hm hg
  have hgo : (l.filter fun k => !(((l.filterMap fun k => (s.preTrap g (g.slice k) i).map fun tr => (k, tr)) ++ trs).any fun p => p.1 = k)) =
      (l.filter fun k => (s.preTrap g (g.slice k) i).isNone).filter fun k => !trs.any fun p => p.1 = k := by
    rw [List.filter_filter]
    refine List.filter_congr fun k hk => ?_
    have : ((l.filterMap fun k => (s.preTrap g (g.slice k) i).map fun tr => (k, tr)).any fun p => p.1 = k) =
        !(s.preTrap g (g.slice k) i).isNone := by
      rw [Bool.eq_iff_iff]
      simp only [List.any_eq_true, List.mem_filterMap, decide_eq_true_eq, Bool.not_eq_true', Option.isNone_eq_false_iff]
      constructor
      · rintro ⟨p, ⟨j, _, hj⟩, hp⟩
        cases hx : s.preTrap g (g.slice j) i with
        | none => simp [hx] at hj
        | some tr =>
          simp only [hx, Option.map_some, Option.some.injEq] at hj
          subst hj
          subst hp
          simp [hx]
      · intro hx
        obtain ⟨tr, htr⟩ := Option.isSome_iff_exists.mp hx
        exact ⟨(k, tr), ⟨k, hk, by simp [htr]⟩, rfl⟩
    rw [List.any_append, this]
    simp [Bool.and_comm]
  refine ⟨r, e.trans (congrArg _ er), ?_⟩
  rw [hgo]
  split
  · rename_i hz; exact h0 hz
  · rename_i hz
    obtain ⟨f, st, al⟩ := h1 hz
    refine ⟨f, fun k hk => ?_, ?_⟩
    · rw [slice_of_group hg]; exact st k hk
    · rw [al, if_pos]
      obtain ⟨k, rest, hk⟩ := List.exists_cons_of_ne_nil hz
      have hk' : k ∈ (l.filter fun k => (s.preTrap g (g.slice k) i).isNone).filter fun k => !trs.any fun p => p.1 = k := by
        rw [hk]; exact List.mem_cons_self
      refine List.any_eq_true.mpr ⟨k, hk', ?_⟩
      rw [hw k (List.mem_filter.mp (List.mem_filter.mp hk').1).1]
      rfl

/-- The slices of a beat carry out `F` in turn, `f` saying what each leaves and which trap it takes. -/
theorem eachSlice_parts {s m : State} {t q : Nat} {g : Group} {c : UClass} {F : State → Ctx → Slice → State × Option (Trap × Nat)}
    {f : State → Nat → Option (State × Option Trap)} {trs : List (Nat × Trap)} (h : s.group? t q = some g) {l : List Nat}
    (hF : ∀ k ∈ l, ∀ r p, f r k = some p → F r (ctxOf s t q g k) (g.slice k) = (p.1, p.2.map fun tr => (tr, 0)))
    (hm : inTurns f s l = some (m, trs)) : eachSlice t q F c s l = (m, trs.map fun p => (p.1, p.2, 0)) := by
  unfold eachSlice
  have : ∀ (l : List Nat) (r m : State) (a : List (Nat × Trap × Nat)) (trs : List (Nat × Trap)),
      (∀ k ∈ l, ∀ r p, f r k = some p → F r (ctxOf s t q g k) (g.slice k) = (p.1, p.2.map fun tr => (tr, 0))) →
      inTurns f r l = some (m, trs) →
      l.foldl (fun (r : State × List (Nat × Trap × Nat)) k =>
        match s.group? t q with
        | none => r
        | some g =>
          let q := F r.1 { st := s, t := t, slot := q, i := k, g := g } (g.slice k)
          (q.1, match q.2 with
            | some tr => r.2 ++ [(k, tr.1, tr.2)]
            | none => r.2)) (r, a) = (m, a ++ trs.map fun p => (p.1, p.2, 0)) := by
    intro l
    induction l with
    | nil =>
      intro r m a trs _ hm
      simp only [inTurns, Option.some.injEq, Prod.mk.injEq] at hm
      obtain ⟨rfl, rfl⟩ := hm
      simp
    | cons k l ih =>
      intro r m a trs hk hm
      rw [List.foldl_cons]
      unfold inTurns at hm
      cases hf : f r k with
      | none => simp [hf] at hm
      | some p =>
        obtain ⟨r', o⟩ := p
        have e := hk k List.mem_cons_self r _ hf
        unfold ctxOf at e
        cases o with
        | none =>
          simp only [hf] at hm
          simp only [h, e, Option.map_none]
          have := ih r' m a trs (fun j hj => hk j (List.mem_cons_of_mem _ hj)) hm
          simp only [h] at this
          exact this
        | some tr =>
          simp only [hf, Option.map_eq_some_iff, Prod.mk.injEq] at hm
          obtain ⟨⟨m', tl⟩, hq, rfl, rfl⟩ := hm
          simp only [h, e, Option.map_some]
          have := ih r' m' (a ++ [(k, tr, 0)]) tl (fun j hj => hk j (List.mem_cons_of_mem _ hj)) hq
          simp only [h] at this
          rw [this]
          simp
  have := this l s m [] trs hF hm
  rw [List.nil_append] at this
  exact this

/-- The slices of a beat each carry out what `f` gives, some of them a trap. -/
theorem perSlice_parts {s : State} {g : Group} {c : UClass} {f : UClass → Ctx → Slice → Except Trap Slice} {y : Nat → Except Trap Slice}
    (h : s.group? s.focus.tile s.focus.slot = some g) {l : List Nat}
    (hf : ∀ k ∈ l, f c (ctxOf s s.focus.tile s.focus.slot g k) (g.slice k) = y k) :
    perSlice s.focus.tile s.focus.slot f c s l = (s.enacted l y, (trapsOf l y).map fun p => (p.1, p.2, 0)) := by
  unfold perSlice State.enacted
  generalize s.focus.tile = t at *
  generalize s.focus.slot = q at *
  have : ∀ (l : List Nat) (r : State) (a : List (Nat × Trap × Nat)), (∀ k ∈ l, f c (ctxOf s t q g k) (g.slice k) = y k) →
      l.foldl (fun (r : State × List (Nat × Trap × Nat)) k =>
        match s.group? t q with
        | none => r
        | some g =>
          match f c { st := s, t := t, slot := q, i := k, g := g } (g.slice k) with
          | .ok x => (r.1.setSlice t q k x, r.2)
          | .error tr => (r.1, r.2 ++ [(k, tr, 0)])) (r, a) =
      (l.foldl (fun r k =>
        match y k with
        | .ok x => r.setSlice t q k x
        | .error _ => r) r, a ++ (trapsOf l y).map fun p => (p.1, p.2, 0)) := by
    intro l
    induction l with
    | nil => intro r a _; simp [trapsOf]
    | cons k l ih =>
      intro r a hk
      have e := hk k List.mem_cons_self
      unfold ctxOf at e
      have ih' := ih
      simp only [List.foldl_cons, h, e]
      have hl : ∀ j ∈ l, f c (ctxOf s t q g j) (g.slice j) = y j := fun j hj => hk j (List.mem_cons_of_mem _ hj)
      cases hy : y k with
      | ok x =>
        have := ih (r.setSlice t q k x) a hl
        simp only [h] at this
        simp only [this, trapsOf, List.filterMap_cons, hy]
      | error tr =>
        have := ih r (a ++ [(k, tr, 0)]) hl
        simp only [h] at this
        simp only [this, trapsOf, List.filterMap_cons, hy]
        simp
  have := this l s [] hf
  rw [List.nil_append] at this
  exact this

end Sys2Proof.Machine
end

