-- ==== Sys2Proof/Laws/Memory.lean ====
section
/-! SUPPORT. Bytes and tags read after they are written, the canonical form of memory, and the operations that leave memory as it
was. -/

namespace Sys2Proof.Machine

/-! ## One byte -/

/-- The tile and the byte of a scratchpad key tell keys apart. -/
theorem pad_inj {j k : Nat} (hj : isPad j = true) (hk : isPad k = true) :
    j = k ↔ (j - padBase) / 2 ^ 19 = (k - padBase) / 2 ^ 19 ∧ (j - padBase) % 2 ^ 19 = (k - padBase) % 2 ^ 19 := by
  simp only [isPad, decide_eq_true_eq] at hj hk
  generalize padBase = p at *
  omega

/-- A key of a scratchpad's byte is written and read in its tile. -/
theorem byte_of_pad (s : State) {j : Nat} (hj : isPad j = true) :
    s.byte j = Sparse.get 0 (s.tile ((j - padBase) / 2 ^ 19)).scratch ((j - padBase) % 2 ^ 19) := by
  unfold State.byte
  exact if_pos hj

theorem byte_of_mem (s : State) {j : Nat} (hj : isPad j = false) (hp : isPeat j = false) : s.byte j = Sparse.get memDefault s.mem j := by
  unfold State.byte
  rw [if_neg (ne_true_of_eq_false hj), if_neg (ne_true_of_eq_false hp)]

theorem setByte_of_pad (s : State) {k : Nat} (b : Byte) (hk : isPad k = true) :
    s.setByte k b = s.updTile ((k - padBase) / 2 ^ 19) fun x =>
      { x with scratch := Sparse.set 0 x.scratch ((k - padBase) % 2 ^ 19) b } := by
  unfold State.setByte
  exact if_pos hk

theorem setByte_of_mem (s : State) {k : Nat} (b : Byte) (hk : isPad k = false) (hp : isPeat k = false) :
    s.setByte k b = { s with mem := Sparse.set memDefault s.mem k b } := by
  unfold State.setByte
  rw [if_neg (ne_true_of_eq_false hk), if_neg (ne_true_of_eq_false hp)]

/-- A byte written through the tags' window is part of a tag, or of memory beyond it. -/
theorem setByte_of_peat (s : State) {k : Nat} (b : Byte) (hk : isPad k = false) (hp : isPeat k = true) :
    (∃ t, s.setByte k b = { s with tags := t }) ∨ s.setByte k b = { s with mem := Sparse.set memDefault s.mem k b } := by
  unfold State.setByte
  rw [if_neg (ne_true_of_eq_false hk), if_pos hp]
  split
  · exact .inl ⟨_, rfl⟩
  · exact .inr rfl

theorem byte_setByte (s : State) {k j : Nat} (b : Byte) (hj : isPeat j = false) :
    (s.setByte k b).byte j = if j = k then b else s.byte j := by
  cases hk : isPad k <;> cases hq : isPad j
  · rw [byte_of_mem _ hq hj, byte_of_mem _ hq hj]
    by_cases e : j = k
    · subst e
      rw [setByte_of_mem _ _ hk hj, if_pos rfl]
      exact Sparse.get_set_self _ _ _ _
    · rw [if_neg e]
      cases hp : isPeat k
      · rw [setByte_of_mem _ _ hk hp]
        exact Sparse.get_set_ne _ _ _ e
      · obtain ⟨t, h⟩ | h := setByte_of_peat s b hk hp <;> rw [h]
        exact Sparse.get_set_ne _ _ _ e
  · have e : j ≠ k := fun h => by rw [h, hk] at hq; exact Bool.noConfusion hq
    rw [byte_of_pad _ hq, byte_of_pad _ hq, if_neg e]
    cases hp : isPeat k
    · rw [setByte_of_mem _ _ hk hp]; rfl
    · obtain ⟨t, h⟩ | h := setByte_of_peat s b hk hp <;> rw [h] <;> rfl
  · have e : j ≠ k := fun h => by rw [h, hk] at hq; exact Bool.noConfusion hq
    rw [byte_of_mem _ hq hj, byte_of_mem _ hq hj, setByte_of_pad _ _ hk, if_neg e, updTile_mem]
  · rw [byte_of_pad _ hq, byte_of_pad _ hq, setByte_of_pad _ _ hk]
    have hi := pad_inj hq hk
    generalize (j - padBase) / 2 ^ 19 = a at *
    generalize (k - padBase) / 2 ^ 19 = c at *
    generalize (j - padBase) % 2 ^ 19 = d at *
    generalize (k - padBase) % 2 ^ 19 = f at *
    by_cases e : a = c
    · subst e
      rw [tile_updTile_self]
      by_cases e2 : d = f
      · rw [if_pos (hi.2 ⟨rfl, e2⟩), e2]
        exact Sparse.get_set_self _ _ _ _
      · rw [if_neg fun h => e2 (hi.1 h).2]
        exact Sparse.get_set_ne _ _ _ e2
    · rw [tile_updTile_ne _ _ e, if_neg fun h => e (hi.1 h).1]

theorem setTag_of_pad (s : State) {k : Nat} (b : Eb16) (hk : isPad k = true) :
    s.setTag k b = s.updTile ((k - padBase) / 2 ^ 19) fun x =>
      { x with scratchTags := Sparse.set 0 x.scratchTags ((k - padBase) % 2 ^ 19 / 64) b } := by
  unfold State.setTag
  exact if_pos hk

theorem setTag_of_mem (s : State) {k : Nat} (b : Eb16) (hk : isPad k = false) :
    s.setTag k b = { s with tags := Sparse.set 0 s.tags (k / 64) b } := by
  unfold State.setTag
  exact if_neg (ne_true_of_eq_false hk)

theorem byte_setTag (s : State) {k j : Nat} (b : Eb16) (hj : isPeat j = false) : (s.setTag k b).byte j = s.byte j := by
  cases hk : isPad k <;> cases hq : isPad j
  · rw [byte_of_mem _ hq hj, byte_of_mem _ hq hj, setTag_of_mem _ _ hk]
  · rw [byte_of_pad _ hq, byte_of_pad _ hq, setTag_of_mem _ _ hk]; rfl
  · rw [byte_of_mem _ hq hj, byte_of_mem _ hq hj, setTag_of_pad _ _ hk, updTile_mem]
  · rw [byte_of_pad _ hq, byte_of_pad _ hq, setTag_of_pad _ _ hk]
    generalize (j - padBase) / 2 ^ 19 = a
    generalize (k - padBase) / 2 ^ 19 = c
    by_cases e : a = c
    · rw [e, tile_updTile_self]
    · rw [tile_updTile_ne _ _ e]

/-- Bytes written from a key on. -/
theorem byte_writeBytes (s : State) (k : Nat) (bs : List Byte) {j : Nat} (hj : isPeat j = false) :
    (s.writeBytes k bs).byte j = if k ≤ j ∧ j < k + bs.length then bs.getD (j - k) 0 else s.byte j := by
  induction bs generalizing s k with
  | nil =>
    have h : ¬ (k ≤ j ∧ j < k + ([] : List Byte).length) := by simp only [List.length_nil]; omega
    rw [if_neg h]; rfl
  | cons b rest ih =>
    simp only [State.writeBytes, ih, byte_setByte _ _ hj, List.length_cons]
    by_cases e : j = k
    · subst e
      have h1 : ¬ (j + 1 ≤ j ∧ j < j + 1 + rest.length) := by omega
      have h2 : j ≤ j ∧ j < j + (rest.length + 1) := by omega
      rw [if_neg h1, if_pos rfl, if_pos h2, Nat.sub_self, List.getD_cons_zero]
    · by_cases h1 : k + 1 ≤ j ∧ j < k + 1 + rest.length
      · have h2 : k ≤ j ∧ j < k + (rest.length + 1) := by omega
        have h3 : j - k = (j - (k + 1)) + 1 := by omega
        rw [if_pos h1, if_pos h2, h3, List.getD_cons_succ]
      · have h2 : ¬ (k ≤ j ∧ j < k + (rest.length + 1)) := by omega
        rw [if_neg h1, if_neg h2, if_neg e]

theorem tagAt_of_pad (s : State) {k : Nat} (h : isPad k = true) :
    s.tagAt k = Sparse.get 0 (s.tile ((k - padBase) / 2 ^ 19)).scratchTags ((k - padBase) % 2 ^ 19 / 64) := by
  unfold State.tagAt
  exact if_pos h

theorem tagAt_of_mem (s : State) {k : Nat} (h : isPad k = false) : s.tagAt k = Sparse.get 0 s.tags (k / 64) := by
  unfold State.tagAt
  exact if_neg (ne_true_of_eq_false h)

theorem pad_sector_inj {m n : Nat} (hm : isPad (64 * m) = true) (hn : isPad (64 * n) = true) :
    m = n ↔ (64 * m - padBase) / 2 ^ 19 = (64 * n - padBase) / 2 ^ 19 ∧
      (64 * m - padBase) % 2 ^ 19 / 64 = (64 * n - padBase) % 2 ^ 19 / 64 := by
  have h1 : padBase ≤ 64 * m := of_decide_eq_true hm
  have h2 : padBase ≤ 64 * n := of_decide_eq_true hn
  have h3 : padBase = 64 * 2 ^ 64 := rfl
  omega

theorem tagAt_setTag (s : State) (n m : Nat) (b : Eb16) :
    (s.setTag (64 * n) b).tagAt (64 * m) = if m = n then b else s.tagAt (64 * m) := by
  cases hn : isPad (64 * n) <;> cases hm : isPad (64 * m)
  · rw [setTag_of_mem _ _ hn, tagAt_of_mem _ hm, tagAt_of_mem _ hm, Nat.mul_div_cancel_left _ (by omega), Nat.mul_div_cancel_left _ (by omega)]
    by_cases e : m = n
    · rw [if_pos e, e]; exact Sparse.get_set_self _ _ _ _
    · rw [if_neg e]; exact Sparse.get_set_ne _ _ _ e
  · have e : m ≠ n := fun h => by rw [h, hn] at hm; exact Bool.noConfusion hm
    rw [setTag_of_mem _ _ hn, tagAt_of_pad _ hm, tagAt_of_pad _ hm, if_neg e]; rfl
  · have e : m ≠ n := fun h => by rw [h, hn] at hm; exact Bool.noConfusion hm
    rw [setTag_of_pad _ _ hn, tagAt_of_mem _ hm, tagAt_of_mem _ hm, if_neg e, updTile_tags]
  · rw [setTag_of_pad _ _ hn, tagAt_of_pad _ hm, tagAt_of_pad _ hm]
    have hi := pad_sector_inj hm hn
    generalize (64 * m - padBase) / 2 ^ 19 = a at *
    generalize (64 * n - padBase) / 2 ^ 19 = c at *
    generalize (64 * m - padBase) % 2 ^ 19 / 64 = d at *
    generalize (64 * n - padBase) % 2 ^ 19 / 64 = f at *
    by_cases e : a = c
    · subst e
      rw [tile_updTile_self]
      by_cases e2 : d = f
      · rw [if_pos (hi.2 ⟨rfl, e2⟩), e2]
        exact Sparse.get_set_self _ _ _ _
      · rw [if_neg fun h => e2 (hi.1 h).2]
        exact Sparse.get_set_ne _ _ _ e2
    · rw [tile_updTile_ne _ _ e, if_neg fun h => e (hi.1 h).1]

theorem tagAt_setByte (s : State) {k : Nat} (n : Nat) (b : Byte) (hk : isPeat k = false) : (s.setByte k b).tagAt n = s.tagAt n := by
  cases hp : isPad k
  · rw [setByte_of_mem _ _ hp hk]
    cases hn : isPad n
    · rw [tagAt_of_mem _ hn, tagAt_of_mem _ hn]
    · rw [tagAt_of_pad _ hn, tagAt_of_pad _ hn]; rfl
  · rw [setByte_of_pad _ _ hp]
    cases hn : isPad n
    · rw [tagAt_of_mem _ hn, tagAt_of_mem _ hn, updTile_tags]
    · rw [tagAt_of_pad _ hn, tagAt_of_pad _ hn]
      generalize (n - padBase) / 2 ^ 19 = a
      generalize (k - padBase) / 2 ^ 19 = c
      by_cases e : a = c
      · rw [e, tile_updTile_self]
      · rw [tile_updTile_ne _ _ e]

theorem tagAt_writeBytes (s : State) (k n : Nat) (bs : List Byte) (h : ∀ j, j < bs.length → isPeat (k + j) = false) :
    (s.writeBytes k bs).tagAt n = s.tagAt n := by
  induction bs generalizing s k with
  | nil => rfl
  | cons b rest ih =>
    simp only [State.writeBytes]
    rw [ih _ _ fun j hj => by have := h (j + 1) (by simpa using hj); rwa [show k + 1 + j = k + (j + 1) by omega],
      tagAt_setByte _ _ _ (by simpa using h 0 (by simp))]

/-! ## The canonical form -/

theorem updTile_wf {s : State} (h : s.MemoryWf) (t : Nat) {f : Tile → Tile}
    (h1 : Sparse.wf 0 (s.tile t).scratch = true → Sparse.wf 0 (f (s.tile t)).scratch = true)
    (h2 : Sparse.wf 0 (s.tile t).scratchTags = true → Sparse.wf 0 (f (s.tile t)).scratchTags = true) : (s.updTile t f).MemoryWf := by
  refine ⟨h.1, h.2.1, fun u => ?_⟩
  by_cases e : u = t
  · subst e
    rw [tile_updTile_self]
    exact ⟨h1 (h.2.2 u).1, h2 (h.2.2 u).2⟩
  · rw [tile_updTile_ne _ _ e]
    exact h.2.2 u

theorem setByte_wf {s : State} (h : s.MemoryWf) (k : Nat) (b : Byte) : (s.setByte k b).MemoryWf := by
  unfold State.setByte
  split
  · exact updTile_wf h _ (Sparse.wf_set _ _) id
  · split
    · split
      · exact ⟨h.1, Sparse.wf_set _ _ h.2.1, h.2.2⟩
      · exact ⟨Sparse.wf_set _ _ h.1, h.2.1, h.2.2⟩
    · exact ⟨Sparse.wf_set _ _ h.1, h.2.1, h.2.2⟩

theorem setTag_wf {s : State} (h : s.MemoryWf) (k : Nat) (b : Eb16) : (s.setTag k b).MemoryWf := by
  unfold State.setTag
  split
  · exact updTile_wf h _ id (Sparse.wf_set _ _)
  · exact ⟨h.1, Sparse.wf_set _ _ h.2.1, h.2.2⟩

theorem writeBytes_wf {s : State} (h : s.MemoryWf) (k : Nat) (bs : List Byte) : (s.writeBytes k bs).MemoryWf := by
  induction bs generalizing s k with
  | nil => exact h
  | cons b rest ih => exact ih (setByte_wf h _ _) _

theorem foldl_wf {α : Type} {f : State → α → State} (hf : ∀ s a, s.MemoryWf → (f s a).MemoryWf) (l : List α) {s : State}
    (h : s.MemoryWf) : (l.foldl f s).MemoryWf := by
  induction l generalizing s with
  | nil => exact h
  | cons a rest ih => exact ih (hf _ _ h)

theorem storeAccs_wf {s : State} (h : s.MemoryWf) (accs : List Acc) : (s.storeAccs accs).MemoryWf := by
  unfold State.storeAccs
  exact foldl_wf (fun _ _ h => setTag_wf h _ _) _ (foldl_wf (fun _ _ h => writeBytes_wf h _ _) _ h)

end Sys2Proof.Machine
end

