-- ==== Sys2Proof/Laws/Keeps.lean ====
section
/-! SUPPORT. The operations of a beat that leave memory, tags, scratchpads and the system registers as they were. -/

namespace Sys2Proof.Machine

/-- `r` has the memory, the tags, the scratchpads and, but for the counts of requests, the system registers of `s`. -/
structure Keeps (s r : State) : Prop where
  mem : r.mem = s.mem
  tags : r.tags = s.tags
  pads : ∀ t, (r.tile t).scratch = (s.tile t).scratch ∧ (r.tile t).scratchTags = (s.tile t).scratchTags
  csr : r.csr = { s.csr with nearReq := r.csr.nearReq, farReq := r.csr.farReq }
  rest : r.queues = s.queues ∧ r.powered = s.powered ∧ r.booted = s.booted ∧ r.time = s.time

theorem Keeps.refl (s : State) : Keeps s s := ⟨rfl, rfl, fun _ => ⟨rfl, rfl⟩, rfl, rfl, rfl, rfl, rfl⟩

theorem Keeps.trans {a b c : State} (h : Keeps a b) (k : Keeps b c) : Keeps a c :=
  ⟨k.mem.trans h.mem, k.tags.trans h.tags, fun t => ⟨(k.pads t).1.trans (h.pads t).1, (k.pads t).2.trans (h.pads t).2⟩,
    by rw [k.csr, h.csr], k.rest.1.trans h.rest.1, k.rest.2.1.trans h.rest.2.1, k.rest.2.2.1.trans h.rest.2.2.1,
    k.rest.2.2.2.trans h.rest.2.2.2⟩

/-- Every byte and every tag reads as before. -/
theorem Keeps.byte {s r : State} (h : Keeps s r) (k : Nat) : r.byte k = s.byte k := by
  unfold State.byte
  rw [h.mem, h.tags]
  split
  · exact congrArg (fun x => Sparse.get 0 x _) (h.pads _).1
  · rfl

theorem Keeps.tagAt {s r : State} (h : Keeps s r) (k : Nat) : r.tagAt k = s.tagAt k := by
  unfold State.tagAt
  rw [h.tags]
  split
  · exact congrArg (fun x => Sparse.get 0 x _) (h.pads _).2
  · rfl

theorem Keeps.wf {s r : State} (h : Keeps s r) (k : s.MemoryWf) : r.MemoryWf :=
  ⟨h.mem ▸ k.1, h.tags ▸ k.2.1, fun t => ⟨(h.pads t).1 ▸ (k.2.2 t).1, (h.pads t).2 ▸ (k.2.2 t).2⟩⟩

/-- A loop whose every turn keeps memory keeps it; `p` is the state within what the loop carries. -/
theorem keeps_loop {α β : Type} (p : β → State) {f : β → α → β} (hf : ∀ z a, Keeps (p z) (p (f z a))) (l : List α) (z : β) :
    Keeps (p z) (p (l.foldl f z)) := by
  induction l generalizing z with
  | nil => exact Keeps.refl _
  | cons a rest ih => exact (hf z a).trans (ih _)

theorem keeps_foldl {α : Type} {f : State → α → State} (hf : ∀ s a, Keeps s (f s a)) (l : List α) (s : State) : Keeps s (l.foldl f s) :=
  keeps_loop id hf l s

/-! ## Tiles, groups, slices -/

theorem keeps_updTile (s : State) (t : Nat) {f : Tile → Tile}
    (hf : ∀ x, (f x).scratch = x.scratch ∧ (f x).scratchTags = x.scratchTags) : Keeps s (s.updTile t f) := by
  refine ⟨rfl, rfl, fun u => ?_, rfl, rfl, rfl, rfl, rfl⟩
  by_cases e : u = t
  · subst e; rw [tile_updTile_self]; exact hf _
  · rw [tile_updTile_ne _ _ e]; exact ⟨rfl, rfl⟩

theorem keeps_setGroup (s : State) (t q : Nat) (g : Group) : Keeps s (s.setGroup t q g) := keeps_updTile s t fun _ => ⟨rfl, rfl⟩

theorem keeps_updGroup (s : State) (t q : Nat) (f : Group → Group) : Keeps s (s.updGroup t q f) := by
  unfold State.updGroup
  split
  · exact keeps_setGroup ..
  · exact Keeps.refl s

theorem keeps_updSlice (s : State) (t q k : Nat) (f : Slice → Slice) : Keeps s (s.updSlice t q k f) := keeps_updGroup ..

theorem keeps_setSlice (s : State) (t q k : Nat) (x : Slice) : Keeps s (s.setSlice t q k x) := keeps_updGroup ..

theorem keeps_push (s : State) (t q : Nat) (e : SqKind) : Keeps s (s.push t q e) := keeps_updGroup ..

theorem keeps_updTeam (s : State) (t k : Nat) (f : Team → Team) : Keeps s (s.updTeam t k f) := by
  unfold State.updTeam
  split
  · exact keeps_updTile s t fun _ => ⟨rfl, rfl⟩
  · exact Keeps.refl s

theorem keeps_doom (s : State) (t k : Nat) : Keeps s (s.doom t k) := keeps_updTeam ..

theorem keeps_fresh (s : State) : Keeps s s.fresh := ⟨rfl, rfl, fun _ => ⟨rfl, rfl⟩, rfl, rfl, rfl, rfl, rfl⟩

/-! ## Accounting, translation and records -/

theorem keeps_bump (s : State) (n : Nat) (c : Ctr) (k : Nat) : Keeps s (s.bump n c k) := ⟨rfl, rfl, fun _ => ⟨rfl, rfl⟩, rfl, rfl, rfl, rfl, rfl⟩

theorem keeps_charge (s : State) (a : Nat) (c : Ctr) (n : Nat) : Keeps s (s.charge a c n) := by
  unfold State.charge
  simp only
  split
  · exact keeps_bump ..
  · exact Keeps.refl s

theorem keeps_chargeBy (s : State) (w : Option Nat) (c : Ctr) (n : Nat) : Keeps s (s.chargeBy w c n) := by
  unfold State.chargeBy
  split
  · exact keeps_charge ..
  · exact keeps_bump ..

theorem keeps_countReq (s : State) (d : Nat) (l : Loc) : Keeps s (s.countReq d l) := by
  unfold State.countReq
  split <;> exact ⟨rfl, rfl, fun _ => ⟨rfl, rfl⟩, rfl, rfl, rfl, rfl, rfl⟩

/-! ## Caches: what only lines, and memory behind them, tell apart -/

theorem keeps_l2 (s : State) (l : List Line) : Keeps s { s with l2 := l } := ⟨rfl, rfl, fun _ => ⟨rfl, rfl⟩, rfl, rfl, rfl, rfl, rfl⟩

theorem keeps_setBehind (s : State) (b : Behind) : Keeps s (s.setBehind b) := ⟨rfl, rfl, fun _ => ⟨rfl, rfl⟩, rfl, rfl, rfl, rfl, rfl⟩

theorem keeps_tagFalls (s : State) (n : Nat) : Keeps s (s.tagFalls n) := keeps_setBehind ..

theorem keeps_dataFalls (s : State) (n : Nat) : Keeps s (s.dataFalls n) := keeps_setBehind ..

theorem keeps_fallBehind (s : State) (l : Loc) (m : BitVec 4) : Keeps s (s.fallBehind l m) := by
  refine keeps_foldl (fun r n => ?_) _ _
  split
  · exact keeps_dataFalls ..
  · exact keeps_foldl (fun _ _ => keeps_tagFalls ..) _ _

theorem keeps_caughtUp (s : State) (l : Loc) (m : BitVec 4) : Keeps s (s.caughtUp l m) := by
  refine keeps_foldl (fun r n => ?_) _ _
  split
  · exact keeps_setBehind ..
  · exact keeps_foldl (fun _ _ => keeps_setBehind ..) _ _

theorem keeps_ite {s a b : State} {c : Prop} [Decidable c] (ha : Keeps s a) (hb : Keeps s b) : Keeps s (if c then a else b) := by
  split
  · exact ha
  · exact hb

theorem keeps_l2Insert (w : Option Nat) (k : Nat) (x : Line) (s : State) : Keeps s (State.l2Insert w k x s) := by
  induction k generalizing x s with
  | zero => exact keeps_l2 ..
  | succ k ih =>
    unfold State.l2Insert
    simp only
    refine keeps_ite (keeps_l2 ..) (keeps_ite (keeps_l2 ..) ?_)
    have h : ∀ (v : Line) (l : List Line) (n : Nat), Keeps s (({ s with l2 := l }.chargeBy w .wb n).caughtUp v.loc v.dirty) := fun v l n =>
      ((keeps_l2 s l).trans (keeps_chargeBy ..)).trans (keeps_caughtUp ..)
    refine keeps_ite ?_ (h ..)
    exact Keeps.trans (keeps_ite ((h ..).trans (keeps_chargeBy ..)) (h ..)) (ih ..)

theorem keeps_l2Put (s : State) (w : Option Nat) (x : Line) : Keeps s (s.l2Put w x) := keeps_l2Insert ..

theorem keeps_peatTouch (s : State) (w : Option Nat) (l : Loc) (d : Bool) : Keeps s (s.peatTouch w l d) := by
  unfold State.peatTouch
  simp only
  exact keeps_ite (Keeps.trans (keeps_ite (keeps_chargeBy ..) (Keeps.refl s)) (keeps_l2Put ..)) (Keeps.refl s)

theorem keeps_l2Move (s : State) (w : Option Nat) (l : Loc) : Keeps s (s.l2Move w l) := by
  unfold State.l2Move
  refine keeps_ite (Keeps.refl s) ?_
  split
  · exact Keeps.refl s
  · exact keeps_ite (keeps_l2 ..) ((((keeps_l2 s _).trans (keeps_chargeBy ..)).trans (keeps_caughtUp ..)).trans (keeps_peatTouch ..))

theorem keeps_l2Serve (s : State) (w : Option Nat) (l : Loc) (m : BitVec 4) : Keeps s (s.l2Serve w l m) := by
  unfold State.l2Serve
  simp only
  have h := keeps_l2Move s w l
  exact keeps_ite (keeps_chargeBy ..) (keeps_ite (h.trans (keeps_chargeBy ..))
    ((keeps_ite (h.trans (keeps_chargeBy ..)) ((h.trans (keeps_chargeBy ..)).trans (keeps_l2Put ..))).trans (keeps_peatTouch ..)))

theorem keeps_l2Request (s : State) (a : Nat) (l : Loc) (m : BitVec 4) : Keeps s (s.l2Request a l m) := keeps_l2Serve ..

theorem keeps_l2Dirty (s : State) (w : Option Nat) (l : Loc) (m : BitVec 4) : Keeps s (s.l2Dirty w l m) := by
  unfold State.l2Dirty
  split
  · exact (keeps_fallBehind s l m).trans (keeps_l2 ..)
  · exact keeps_ite (Keeps.refl s)
      (Keeps.trans (keeps_ite (keeps_foldl (fun _ _ => keeps_tagFalls ..) _ _) (Keeps.refl s)) (keeps_peatTouch ..))

theorem keeps_l2Accept (s : State) (w : Option Nat) (d : Nat) (y : Line) : Keeps s (s.l2Accept w d y) := by
  unfold State.l2Accept
  simp only
  have h := keeps_countReq s d y.loc
  refine keeps_ite ((h.trans (keeps_chargeBy ..)).trans (keeps_caughtUp ..)) ?_
  have k := (h.trans (keeps_l2Move _ w y.loc)).trans (keeps_chargeBy _ w .hit 1)
  split
  · exact k.trans (keeps_l2 ..)
  · exact keeps_ite ((k.trans (keeps_caughtUp ..)).trans (keeps_peatTouch ..)) (k.trans (keeps_l2Put ..))

theorem keeps_l1Put (s : State) (w : Option Nat) (t : Nat) (x : Line) : Keeps s (s.l1Put w t x) := by
  unfold State.l1Put
  simp only
  have h : ∀ f : Tile → List Line, Keeps s (s.updTile t fun y => { y with l1 := f y }) := fun _ => keeps_updTile s t fun _ => ⟨rfl, rfl⟩
  exact keeps_ite (h _) (keeps_ite (h _) ((h _).trans (keeps_l2Accept ..)))

theorem keeps_l1Clean (s : State) (w : Option Nat) (t : Nat) (d : Bool) (n : Nat) : Keeps s (s.l1Clean w t d n) := by
  unfold State.l1Clean
  split
  · exact Keeps.refl s
  · simp only
    have h : ∀ f : Tile → List Line, Keeps s (s.updTile t fun y => { y with l1 := f y }) := fun _ => keeps_updTile s t fun _ => ⟨rfl, rfl⟩
    exact keeps_ite (h _) ((h _).trans (keeps_l2Accept ..))

theorem keeps_recall (s : State) (w : Option Nat) (t : Nat) (l : Loc) (d : Bool) : Keeps s (s.recall w t l d) :=
  keeps_foldl (fun r _ => keeps_ite (Keeps.refl r) (keeps_l1Clean ..)) _ _

theorem keeps_touchLine (s : State) (t a : Nat) (w : Bool) (l : Loc) (m : BitVec 4) : Keeps s (s.touchLine t a w l m) := by
  unfold State.touchLine
  refine keeps_ite (Keeps.refl s) ?_
  simp only
  have h1 : ∀ b : Bool, Keeps s (if b then s else ((s.recall (some a) t l w).countReq (t / 32) l).l2Request a l m) := fun b =>
    keeps_ite (Keeps.refl s) (((keeps_recall ..).trans (keeps_countReq ..)).trans (keeps_l2Request ..))
  exact keeps_ite (keeps_ite ((h1 _).trans (keeps_l2Dirty ..)) (h1 _))
    (Keeps.trans (keeps_ite ((h1 _).trans (keeps_fallBehind ..)) (h1 _)) (keeps_l1Put ..))

theorem keeps_touch (s : State) (t a : Nat) (w : Bool) (ls : List (Loc × Nat)) : Keeps s (s.touch t a w ls) :=
  keeps_foldl (fun _ _ => keeps_touchLine ..) _ _

theorem keeps_sliceLine (s : State) (w : Option Nat) (d : Bool) (l : Loc) (m : BitVec 4) : Keeps s (s.sliceLine w d l m) := by
  unfold State.sliceLine
  have h := (keeps_recall s w noTile l d).trans (keeps_l2Serve _ w l m)
  exact keeps_ite (h.trans (keeps_l2Dirty ..)) h

theorem keeps_atSlice (s : State) (d a : Nat) (w : Bool) (ls : List (Loc × Nat)) : Keeps s (s.atSlice d a w ls) :=
  keeps_foldl (fun _ _ => (keeps_countReq ..).trans (keeps_sliceLine ..)) _ _

theorem keeps_hubTouch (s : State) (w : Bool) (ls : List (Loc × Nat)) : Keeps s (s.hubTouch w ls) :=
  keeps_foldl (fun _ _ => keeps_sliceLine ..) _ _

theorem keeps_walkTouch (s : State) (a : Nat) (ls : List (Loc × Nat)) : Keeps s (s.walkTouch a ls) :=
  keeps_foldl (fun _ _ => keeps_sliceLine ..) _ _

theorem keeps_cacheEntries (s : State) (es : List TEnt) : Keeps s (s.cacheEntries es) := by
  refine keeps_foldl (fun r _ => ?_) _ _
  exact keeps_ite (Keeps.refl r) ⟨rfl, rfl, fun _ => ⟨rfl, rfl⟩, rfl, rfl, rfl, rfl, rfl⟩

theorem keeps_noteLookup (s : State) (t a va : Nat) (w : Walk) : Keeps s (s.noteLookup t a va w) := by
  unfold State.noteLookup
  simp only
  have h := ((keeps_walkTouch s a (s.walkReads t a va w)).trans (keeps_cacheEntries _ w.read)).trans (keeps_charge _ a .tlbmiss 1)
  have k := keeps_ite (c := s.l2TlbHit a va = true) h (h.trans (keeps_charge _ a .walk 1))
  exact keeps_ite (Keeps.refl s) (keeps_ite (k.trans (keeps_updTile _ _ fun _ => ⟨rfl, rfl⟩)) k)

theorem keeps_translate (s : State) (t a : Nat) (k : AccKind) (pm : Nat → Bool) (vas : List (Nat × Nat)) :
    Keeps s (s.translate t a k pm vas).2 := by
  refine keeps_loop Prod.snd (fun z q => ?_) vas ([], s)
  split
  · exact Keeps.refl _
  · exact keeps_noteLookup ..

theorem keeps_sendRecords (s : State) (b : Nat) (rs : List RecInfo) : Keeps s (s.sendRecords b rs) := ⟨rfl, rfl, fun _ => ⟨rfl, rfl⟩, rfl, rfl, rfl, rfl, rfl⟩

theorem keeps_logError (s : State) (kind : Nat) (addr : DWord) (asid src lane group team slice : Nat) (pc tag detail : DWord) :
    Keeps s (s.logError kind addr asid src lane group team slice pc tag detail) :=
  ⟨rfl, rfl, fun _ => ⟨rfl, rfl⟩, rfl, rfl, rfl, rfl, rfl⟩

theorem keeps_noteDiffer (s : State) (t q : Nat) (g : Group) (k : Nat) : Keeps s (s.noteDiffer t q g k) := by
  unfold State.noteDiffer State.logSlice
  simp only
  split
  · split
    · exact ((keeps_logError ..).trans (keeps_logError ..)).trans (keeps_updSlice ..)
    · exact (keeps_logError ..).trans (keeps_updSlice ..)
  · exact Keeps.refl s

theorem keeps_noteBad (s : State) (t : Nat) (g : Group) (a b : List Nat) : Keeps s (s.noteBad t g a b) := by
  unfold State.noteBad State.logSlice
  simp only
  have h : Keeps s (match a with
      | l :: _ => s.logError 3 (BitVec.allOnes 64) g.asid t l g.idx g.team (l / 4) (g.slice (l / 4)).pc (s.groupTag t g) 0
      | [] => s) := by
    split
    · exact keeps_logError ..
    · exact Keeps.refl s
  split
  · exact h.trans (keeps_logError ..)
  · exact h

theorem keeps_upsetPlan {t q : Nat} {g : Group} {i : Instr} {plan : Plan} (hp : ∀ c s l, Keeps s (plan c s l).1) (c : UClass)
    (s : State) (l : List Nat) : Keeps s (upsetPlan t q g i plan c s l).1 := by
  unfold upsetPlan
  split
  · exact hp ..
  · have h : Keeps s (l.foldl (fun r k => r.noteUpset t q g i k) s) :=
      keeps_foldl (fun _ _ => (keeps_noteDiffer ..).trans (keeps_noteBad ..)) _ _
    simp only
    split
    · exact h
    · exact h.trans (hp ..)

/-! ## Traps -/

theorem keeps_deliver (s : State) (t q k : Nat) (tr : Trap) : Keeps s (s.deliver t q k tr) := by
  unfold State.deliver
  split
  · exact Keeps.refl s
  · simp only
    split
    · exact (keeps_setGroup ..).trans (keeps_doom ..)
    · exact ((keeps_translate ..).trans (keeps_setGroup ..)).trans (keeps_push ..)

theorem keeps_tryDeliver (s : State) (t q k : Nat) : Keeps s (s.tryDeliver t q k) := by
  unfold State.tryDeliver
  simp only
  split
  · split
    · exact keeps_deliver ..
    · exact Keeps.refl s
  · exact Keeps.refl s

theorem keeps_raise (s : State) (t q k : Nat) (tr : Trap) (b : Nat) : Keeps s (s.raise t q k tr b) :=
  (keeps_updGroup ..).trans (keeps_tryDeliver ..)

theorem keeps_takeAsync (s : State) (t q k : Nat) : Keeps s (s.takeAsync t q k) := by
  unfold State.takeAsync
  simp only
  split
  · exact Keeps.refl s
  · split
    · refine Keeps.trans ?_ ((keeps_updGroup ..).trans (keeps_tryDeliver ..))
      refine Keeps.trans ?_ (keeps_setSlice ..)
      split
      · exact ⟨rfl, rfl, fun _ => ⟨rfl, rfl⟩, rfl, rfl, rfl, rfl, rfl⟩
      · exact Keeps.refl s
    · exact Keeps.refl s

theorem keeps_raiseAll (s : State) (t q : Nat) (tr : Trap) (b : Nat) : Keeps s (s.raiseAll t q tr b) := by
  unfold State.raiseAll
  split
  · exact Keeps.refl s
  · exact keeps_foldl (fun _ _ => keeps_raise ..) _ _

/-! ## Beats -/

theorem touchLatch_pads (x : Tile) (q : Nat) (g : Group) (l : List Nat) :
    (x.touchLatch q g l).scratch = x.scratch ∧ (x.touchLatch q g l).scratchTags = x.scratchTags := by
  unfold Tile.touchLatch
  split
  · split <;> exact ⟨rfl, rfl⟩
  · exact ⟨rfl, rfl⟩

theorem keeps_beat (s : State) (t q : Nat) (g : Group) (l : List Nat) (i : Instr) (c : UClass) (cost : Nat) {plan : Plan}
    (hp : ∀ c s l, Keeps s (plan c s l).1) : Keeps s (s.beat t q g l i c cost plan) := by
  unfold State.beat
  simp only
  refine Keeps.trans ?_ (keeps_fresh _)
  refine Keeps.trans ?_ (keeps_foldl (fun _ _ => keeps_takeAsync ..) _ _)
  refine Keeps.trans ?_ (keeps_foldl (fun _ _ => keeps_raise ..) _ _)
  refine Keeps.trans ?_ (keeps_updGroup ..)
  refine Keeps.trans ?_ (keeps_updTile _ _ fun _ => touchLatch_pads ..)
  refine Keeps.trans ?_ (keeps_foldl (fun _ _ => keeps_updSlice ..) _ _)
  have h1 : ∀ (b : Bool) (x : State), Keeps x (if b then x.updTile t fun y => y.debit q (g.slice (l.headD 0)).gang cost else x) := by
    intro b x
    split
    · exact keeps_updTile _ _ fun _ => ⟨rfl, rfl⟩
    · exact Keeps.refl x
  refine Keeps.trans ?_ (h1 _ _)
  split
  · exact Keeps.refl s
  · exact hp ..

theorem keeps_runBeat {s r : State} {i : Instr} {plan : Nat → Nat → Plan} (hp : ∀ t q c s l, Keeps s (plan t q c s l).1)
    (h : runBeat s i plan = .next r) : Keeps s r := by
  unfold runBeat at h
  repeat' split at h
  all_goals cases h <;> first | exact Keeps.refl _ | exact keeps_beat _ _ _ _ _ _ _ _ (keeps_upsetPlan (hp _ _))

theorem keeps_perSlice (t q : Nat) (f : UClass → Ctx → Slice → Except Trap Slice) (c : UClass) (s : State) (l : List Nat) :
    Keeps s (perSlice t q f c s l).1 := by
  refine keeps_loop Prod.fst (fun z k => ?_) l (s, [])
  split
  · exact Keeps.refl _
  · split
    · exact keeps_setSlice ..
    · exact Keeps.refl _

theorem keeps_runSlices {s r : State} {i : Instr} {f : UClass → Ctx → Slice → Except Trap Slice} (h : runSlices s i f = .next r) :
    Keeps s r := keeps_runBeat (fun _ _ _ _ _ => keeps_perSlice ..) h

theorem keeps_eachSlice {t q : Nat} {f : State → Ctx → Slice → State × Option (Trap × Nat)} (hf : ∀ r c x, Keeps r (f r c x).1)
    (c : UClass) (s : State) (l : List Nat) : Keeps s (eachSlice t q f c s l).1 := by
  refine keeps_loop Prod.fst (fun z k => ?_) l (s, [])
  split
  · exact Keeps.refl _
  · exact hf ..

/-! ## Collectives -/

theorem keeps_collUpset (s : State) (t q : Nat) (g : Group) (i : Instr) : Keeps s (s.collUpset t q g i).1 := by
  have h : Keeps s (g.liveIdx.foldl (fun r k => r.noteDiffer t q g k) s) := keeps_foldl (fun _ _ => keeps_noteDiffer ..) _ _
  unfold State.collUpset
  simp only
  split
  · exact h
  · exact h.trans (keeps_noteBad ..)

theorem keeps_rendezvous {s : State} {t q : Nat} {body : Instr → Coll} (hb : ∀ i s t q r, body i s t q = .ok r → Keeps s r) :
    Keeps s (s.rendezvous t q body) := by
  unfold State.rendezvous
  split
  · exact Keeps.refl s
  · rename_i g0 _
    refine keeps_ite ?_ (Keeps.refl s)
    simp only
    generalize g0.drainLive s = g
    have hg : Keeps s (s.setGroup t q g) := keeps_setGroup ..
    refine keeps_ite ?_ (hg.trans (keeps_raiseAll ..))
    split
    · rename_i i _
      refine keeps_ite (hg.trans (keeps_raiseAll ..)) ?_
      have h : Keeps s (if (g.sound || Instr.presents i) = true then (s.setGroup t q g, none)
          else (s.setGroup t q g).collUpset t q g i : State × Option Trap).1 := by
        split
        · exact hg
        · exact hg.trans (keeps_collUpset ..)
      split
      · exact h.trans (keeps_raiseAll ..)
      · split
        · exact h.trans (hb _ _ _ _ _ ‹_›)
        · exact h.trans (keeps_raiseAll ..)
    · exact hg

theorem keeps_runColl {s r : State} {i : Instr} {body : Coll} (hb : ∀ s t q r, body s t q = .ok r → Keeps s r)
    {issue : State → Nat → Nat → State} (hi : ∀ s t q, Keeps s (issue s t q)) (h : runColl s i body issue = .next r) : Keeps s r := by
  unfold runColl at h
  repeat' split at h
  all_goals cases h
  · exact (hi ..).trans (keeps_fresh _)
  · exact (keeps_beat _ _ _ _ _ _ _ _ fun _ _ _ => keeps_foldl (fun _ _ => keeps_updSlice ..) _ _).trans (keeps_rendezvous fun _ => hb)

end Sys2Proof.Machine
end

