-- ==== Sys2Proof/Laws/PerInstr.lean ====
section
/-! SUPPORT. A law of every instruction as syntax, one lemma per constructor: the words of its encoding are as many as its length
says (05 R81, R90), and an event has no words. -/

namespace Sys2Proof.Laws.Fields

open Sys2Proof.Machine

/-- Each word of the instruction's encoding is 8 bytes of its length; where no program encodes it, it has none. -/
def Statement (i : Instr) : Prop := 8 * (encode i).length = if i.kind = .event then 0 else Instr.len i

theorem sadd (h : Hdr) (d a : SReg) (y : SOpnd) : Statement (.sadd h d a y) := rfl
theorem ssub (h : Hdr) (d a : SReg) (y : SOpnd) : Statement (.ssub h d a y) := rfl
theorem saddi (h : Hdr) (d a : SReg) (imm : Imm24) : Statement (.saddi h d a imm) := rfl
theorem smul (h : Hdr) (d a : SReg) (y : SOpnd) : Statement (.smul h d a y) := rfl
theorem smulh (h : Hdr) (d a : SReg) (y : SOpnd) : Statement (.smulh h d a y) := rfl
theorem smulhn (h : Hdr) (d a : SReg) (y : SOpnd) : Statement (.smulhn h d a y) := rfl
theorem sdiv (h : Hdr) (d a : SReg) (y : SOpnd) : Statement (.sdiv h d a y) := rfl
theorem sdivn (h : Hdr) (d a : SReg) (y : SOpnd) : Statement (.sdivn h d a y) := rfl
theorem srem (h : Hdr) (d a : SReg) (y : SOpnd) : Statement (.srem h d a y) := rfl
theorem sremn (h : Hdr) (d a : SReg) (y : SOpnd) : Statement (.sremn h d a y) := rfl
theorem sand (h : Hdr) (d a : SReg) (y : SOpnd) : Statement (.sand h d a y) := rfl
theorem sandn (h : Hdr) (d a : SReg) (y : SOpnd) : Statement (.sandn h d a y) := rfl
theorem sor (h : Hdr) (d a : SReg) (y : SOpnd) : Statement (.sor h d a y) := rfl
theorem sxor (h : Hdr) (d a : SReg) (y : SOpnd) : Statement (.sxor h d a y) := rfl
theorem sshl (h : Hdr) (d a : SReg) (y : SOpnd) : Statement (.sshl h d a y) := rfl
theorem sshr (h : Hdr) (d a : SReg) (y : SOpnd) : Statement (.sshr h d a y) := rfl
theorem ssra (h : Hdr) (d a : SReg) (y : SOpnd) : Statement (.ssra h d a y) := rfl
theorem srot (h : Hdr) (d a : SReg) (y : SOpnd) : Statement (.srot h d a y) := rfl
theorem smin (h : Hdr) (d a : SReg) (y : SOpnd) : Statement (.smin h d a y) := rfl
theorem smax (h : Hdr) (d a : SReg) (y : SOpnd) : Statement (.smax h d a y) := rfl
theorem sminn (h : Hdr) (d a : SReg) (y : SOpnd) : Statement (.sminn h d a y) := rfl
theorem smaxn (h : Hdr) (d a : SReg) (y : SOpnd) : Statement (.smaxn h d a y) := rfl
theorem sclz (h : Hdr) (d a : SReg) : Statement (.sclz h d a) := rfl
theorem sctz (h : Hdr) (d a : SReg) : Statement (.sctz h d a) := rfl
theorem spop (h : Hdr) (d a : SReg) : Statement (.spop h d a) := rfl
theorem sbfe (h : Hdr) (d a : SReg) (pos : BitVec 6) (len : BitVec 8) : Statement (.sbfe h d a pos len) := rfl
theorem sbfi (h : Hdr) (d a : SReg) (pos : BitVec 6) (len : BitVec 8) : Statement (.sbfi h d a pos len) := rfl
theorem ssetc (h : Hdr) (d a b : SReg) (cc : Cond) : Statement (.ssetc h d a b cc) := rfl
theorem ssel (h : Hdr) (d a b c : SReg) : Statement (.ssel h d a b c) := rfl
theorem smov (h : Hdr) (d a : SReg) : Statement (.smov h d a) := rfl
theorem sli (h : Hdr) (d : SReg) (imm : Imm24) : Statement (.sli h d imm) := rfl
theorem sliw (h : Hdr) (d : SReg) (imm : DWord) : Statement (.sliw h d imm) := rfl
theorem movsr (h : Hdr) (d : SReg) (sel : BitVec 8) : Statement (.movsr h d sel) := rfl
theorem movrs (h : Hdr) (sel : BitVec 8) (a : SReg) : Statement (.movrs h sel a) := rfl
theorem bra (h : Hdr) (t : BitVec 20) : Statement (.bra h t) := rfl
theorem brs (h : Hdr) (t : BitVec 20) (cc : Cond) (a : SReg) : Statement (.brs h t cc a) := rfl
theorem brv (h : Hdr) (t j : BitVec 20) : Statement (.brv h t j) := rfl
theorem join (h : Hdr) : Statement (.join h) := rfl
theorem call (h : Hdr) (t : BitVec 20) : Statement (.call h t) := rfl
theorem calli (h : Hdr) (a : VReg) : Statement (.calli h a) := rfl
theorem ret (h : Hdr) : Statement (.ret h) := rfl
theorem regang (h : Hdr) : Statement (.regang h) := rfl
theorem setw (h : Hdr) (lo hi : BitVec 8) (e : Option SReg) : Statement (.setw h lo hi e) := rfl
theorem exit (h : Hdr) : Statement (.exit h) := rfl
theorem yield (h : Hdr) : Statement (.yield h) := rfl
theorem waitt (h : Hdr) (a : SReg) : Statement (.waitt h a) := rfl
theorem nop (h : Hdr) : Statement (.nop h) := rfl
theorem trap (h : Hdr) (imm : Imm24) : Statement (.trap h imm) := rfl
theorem undefinedOpcode (w0 w1 : DWord) : Statement (.undefinedOpcode w0 w1) := by
  show 8 * (if bitOf w0.toNat 62 then [w0, w1] else [w0]).length = if bitOf w0.toNat 62 then 16 else 8
  cases bitOf w0.toNat 62 <;> rfl
theorem vadd (h : Hdr) (ty : TyF) (d a : VReg) (b : VOpnd) : Statement (.vadd h ty d a b) := rfl
theorem vsub (h : Hdr) (ty : TyF) (d a : VReg) (b : VOpnd) : Statement (.vsub h ty d a b) := rfl
theorem vmul (h : Hdr) (ty : TyF) (d a : VReg) (b : VOpnd) : Statement (.vmul h ty d a b) := rfl
theorem vmulh (h : Hdr) (ty : TyF) (d a : VReg) (b : VOpnd) : Statement (.vmulh h ty d a b) := rfl
theorem vmulhn (h : Hdr) (ty : TyF) (d a : VReg) (b : VOpnd) : Statement (.vmulhn h ty d a b) := rfl
theorem vmad (h : Hdr) (ty : TyF) (d a : VReg) (b c : VOpnd) : Statement (.vmad h ty d a b c) := rfl
theorem vdiv (h : Hdr) (ty : TyF) (d a : VReg) (b : VOpnd) : Statement (.vdiv h ty d a b) := rfl
theorem vdivn (h : Hdr) (ty : TyF) (d a : VReg) (b : VOpnd) : Statement (.vdivn h ty d a b) := rfl
theorem vand (h : Hdr) (ty : TyF) (d a : VReg) (b : VOpnd) : Statement (.vand h ty d a b) := rfl
theorem vor (h : Hdr) (ty : TyF) (d a : VReg) (b : VOpnd) : Statement (.vor h ty d a b) := rfl
theorem vxor (h : Hdr) (ty : TyF) (d a : VReg) (b : VOpnd) : Statement (.vxor h ty d a b) := rfl
theorem vnot (h : Hdr) (ty : TyF) (d a : VReg) : Statement (.vnot h ty d a) := rfl
theorem vshl (h : Hdr) (ty : TyF) (d a : VReg) (y : ShOpnd) : Statement (.vshl h ty d a y) := rfl
theorem vshr (h : Hdr) (ty : TyF) (d a : VReg) (y : ShOpnd) : Statement (.vshr h ty d a y) := rfl
theorem vsra (h : Hdr) (ty : TyF) (d a : VReg) (y : ShOpnd) : Statement (.vsra h ty d a y) := rfl
theorem vrot (h : Hdr) (ty : TyF) (d a : VReg) (y : ShOpnd) : Statement (.vrot h ty d a y) := rfl
theorem vmin (h : Hdr) (ty : TyF) (d a : VReg) (b : VOpnd) : Statement (.vmin h ty d a b) := rfl
theorem vmax (h : Hdr) (ty : TyF) (d a : VReg) (b : VOpnd) : Statement (.vmax h ty d a b) := rfl
theorem vminn (h : Hdr) (ty : TyF) (d a : VReg) (b : VOpnd) : Statement (.vminn h ty d a b) := rfl
theorem vmaxn (h : Hdr) (ty : TyF) (d a : VReg) (b : VOpnd) : Statement (.vmaxn h ty d a b) := rfl
theorem vabs (h : Hdr) (ty : TyF) (d a : VReg) : Statement (.vabs h ty d a) := rfl
theorem vneg (h : Hdr) (ty : TyF) (d a : VReg) : Statement (.vneg h ty d a) := rfl
theorem vclz (h : Hdr) (ty : TyF) (d a : VReg) : Statement (.vclz h ty d a) := rfl
theorem vpop (h : Hdr) (ty : TyF) (d a : VReg) : Statement (.vpop h ty d a) := rfl
theorem vbfe (h : Hdr) (ty : TyF) (d a : VReg) (pos : BitVec 5) (len : BitVec 6) : Statement (.vbfe h ty d a pos len) := rfl
theorem vbfi (h : Hdr) (ty : TyF) (d a : VReg) (pos : BitVec 5) (len : BitVec 6) : Statement (.vbfi h ty d a pos len) := rfl
theorem vbrev (h : Hdr) (ty : TyF) (d a : VReg) : Statement (.vbrev h ty d a) := rfl
theorem vprmb (h : Hdr) (ty : TyF) (d a : VReg) (b c : VOpnd) : Statement (.vprmb h ty d a b c) := rfl
theorem vsetp (h : Hdr) (ty : TyF) (p : PReg) (a : VReg) (b : VOpnd) (cc : Cond) : Statement (.vsetp h ty p a b cc) := rfl
theorem vsel (h : Hdr) (ty : TyF) (d a : VReg) (b : VOpnd) (p : PReg) : Statement (.vsel h ty d a b p) := rfl
theorem vmov (h : Hdr) (ty : TyF) (d : VReg) (src : VOpnd) : Statement (.vmov h ty d src) := by cases src <;> rfl
theorem vli (h : Hdr) (d : VReg) (imm : Imm24) : Statement (.vli h d imm) := rfl
theorem vlid (h : Hdr) (ty : TyF) (d : VReg) (imm : DWord) : Statement (.vlid h ty d imm) := rfl
theorem plop (h : Hdr) (d a b : PReg) (t : BitVec 4) : Statement (.plop h d a b t) := rfl
theorem vtos (h : Hdr) (ty : TyF) (d : SReg) (a : VReg) (sel : Option (BitVec 2)) : Statement (.vtos h ty d a sel) := rfl
theorem fadd (h : Hdr) (ty : TyF) (uc : UC) (rnd : Rnd) (d a : VReg) (b : VOpnd) : Statement (.fadd h ty uc rnd d a b) := rfl
theorem fsub (h : Hdr) (ty : TyF) (uc : UC) (rnd : Rnd) (d a : VReg) (b : VOpnd) : Statement (.fsub h ty uc rnd d a b) := rfl
theorem fmul (h : Hdr) (ty : TyF) (uc : UC) (rnd : Rnd) (d a : VReg) (b : VOpnd) : Statement (.fmul h ty uc rnd d a b) := rfl
theorem ffma (h : Hdr) (ty : TyF) (uc : UC) (d a : VReg) (b c : VOpnd) : Statement (.ffma h ty uc d a b c) := rfl
theorem fmin (h : Hdr) (ty : TyF) (uc : UC) (d a : VReg) (b : VOpnd) : Statement (.fmin h ty uc d a b) := rfl
theorem fmax (h : Hdr) (ty : TyF) (uc : UC) (d a : VReg) (b : VOpnd) : Statement (.fmax h ty uc d a b) := rfl
theorem fsetp (h : Hdr) (ty : TyF) (uc : UC) (p : PReg) (a : VReg) (b : VOpnd) (cc : FCond) : Statement (.fsetp h ty uc p a b cc) := rfl
theorem frcp (h : Hdr) (ty : TyF) (d a : VReg) : Statement (.frcp h ty d a) := rfl
theorem frsq (h : Hdr) (ty : TyF) (d a : VReg) : Statement (.frsq h ty d a) := rfl
theorem fsqrt (h : Hdr) (ty : TyF) (uc : UC) (rnd : Rnd) (d a : VReg) : Statement (.fsqrt h ty uc rnd d a) := rfl
theorem fdiv (h : Hdr) (ty : TyF) (uc : UC) (rnd : Rnd) (d a : VReg) (b : VOpnd) : Statement (.fdiv h ty uc rnd d a b) := rfl
theorem fexp2 (h : Hdr) (ty : TyF) (d a : VReg) : Statement (.fexp2 h ty d a) := rfl
theorem flog2 (h : Hdr) (ty : TyF) (d a : VReg) : Statement (.flog2 h ty d a) := rfl
theorem fsin (h : Hdr) (ty : TyF) (d a : VReg) : Statement (.fsin h ty d a) := rfl
theorem fcos (h : Hdr) (ty : TyF) (d a : VReg) : Statement (.fcos h ty d a) := rfl
theorem ftanh (h : Hdr) (ty : TyF) (d a : VReg) : Statement (.ftanh h ty d a) := rfl
theorem ffrc (h : Hdr) (ty : TyF) (d a : VReg) : Statement (.ffrc h ty d a) := rfl
theorem frnd (h : Hdr) (ty : TyF) (rnd : Rnd) (d a : VReg) : Statement (.frnd h ty rnd d a) := rfl
theorem hadd2 (h : Hdr) (ty : TyF) (uc : UC) (rnd : Rnd) (d a : VReg) (b : VOpnd) : Statement (.hadd2 h ty uc rnd d a b) := rfl
theorem hmul2 (h : Hdr) (ty : TyF) (uc : UC) (rnd : Rnd) (d a : VReg) (b : VOpnd) : Statement (.hmul2 h ty uc rnd d a b) := rfl
theorem hfma2 (h : Hdr) (ty : TyF) (uc : UC) (d a : VReg) (b c : VOpnd) : Statement (.hfma2 h ty uc d a b c) := rfl
theorem dadd (h : Hdr) (ty : TyF) (uc : UC) (rnd : Rnd) (d a : VReg) (b : VOpnd) : Statement (.dadd h ty uc rnd d a b) := rfl
theorem dmul (h : Hdr) (ty : TyF) (uc : UC) (rnd : Rnd) (d a : VReg) (b : VOpnd) : Statement (.dmul h ty uc rnd d a b) := rfl
theorem dfma (h : Hdr) (ty : TyF) (uc : UC) (d a : VReg) (b c : VOpnd) : Statement (.dfma h ty uc d a b c) := rfl
theorem ddiv (h : Hdr) (ty : TyF) (uc : UC) (rnd : Rnd) (d a : VReg) (b : VOpnd) : Statement (.ddiv h ty uc rnd d a b) := rfl
theorem cvt (h : Hdr) (ty : TyF) (src : Ty) (rnd : Rnd) (d a : VReg) (b : VOpnd) : Statement (.cvt h ty src rnd d a b) := rfl
theorem cvti (h : Hdr) (ty : TyF) (src : Ty) (rnd : Rnd) (d a : VReg) (b : VOpnd) : Statement (.cvti h ty src rnd d a b) := rfl
theorem pack (h : Hdr) (ty : TyF) (src : Ty) (rnd : Rnd) (d a : VReg) : Statement (.pack h ty src rnd d a) := rfl
theorem unpk (h : Hdr) (ty : TyF) (src : Ty) (d a : VReg) : Statement (.unpk h ty src d a) := rfl
theorem qnt (h : Hdr) (ty : TyF) (src : Ty) (rc : Rnd) (d a vs : VReg) : Statement (.qnt h ty src rc d a vs) := rfl
theorem dqnt (h : Hdr) (ty : TyF) (src : Ty) (rnd : Rnd) (d a vs : VReg) : Statement (.dqnt h ty src rnd d a vs) := rfl
theorem srseed (h : Hdr) (a : SReg) : Statement (.srseed h a) := rfl
theorem setfmt (h : Hdr) (ty : Ty) (rm : BitVec 2) : Statement (.setfmt h ty rm) := rfl
theorem bget (h : Hdr) (ty : TyF) (d a : VReg) : Statement (.bget h ty d a) := rfl
theorem bset (h : Hdr) (ty : TyF) (d a : VReg) (b : VOpnd) : Statement (.bset h ty d a b) := rfl
theorem bzero (h : Hdr) (ty : TyF) (d a : VReg) : Statement (.bzero h ty d a) := rfl
theorem bmax (h : Hdr) (ty : TyF) (d a b : VReg) : Statement (.bmax h ty d a b) := rfl
theorem chkb (h : Hdr) (ty : TyF) (a : VReg) (n : Option (BitVec 6)) : Statement (.chkb h ty a n) := rfl
theorem btest (h : Hdr) (ty : TyF) (p : PReg) (a : VReg) (b : Option SReg) : Statement (.btest h ty p a b) := rfl
theorem setbud (h : Hdr) (src : BudSrc) : Statement (.setbud h src) := by cases src <;> rfl
theorem shfl (h : Hdr) (ty : TyF) (d a : VReg) (k : LaneIdx) (pv : PReg) : Statement (.shfl h ty d a k pv) := rfl
theorem shflu (h : Hdr) (ty : TyF) (d a : VReg) (k : LaneIdx) (pv : PReg) : Statement (.shflu h ty d a k pv) := rfl
theorem shfld (h : Hdr) (ty : TyF) (d a : VReg) (k : LaneIdx) (pv : PReg) : Statement (.shfld h ty d a k pv) := rfl
theorem shflx (h : Hdr) (ty : TyF) (d a : VReg) (k : LaneIdx) (pv : PReg) : Statement (.shflx h ty d a k pv) := rfl
theorem bcast (h : Hdr) (ty : TyF) (d a : VReg) (k : LaneIdx) (pv : PReg) : Statement (.bcast h ty d a k pv) := rfl
theorem red (h : Hdr) (ty : TyF) (uc : UC) (op : RedOp) (d a : VReg) (pc pd : PReg) : Statement (.red h ty uc op d a pc pd) := rfl
theorem scan (h : Hdr) (ty : TyF) (uc : UC) (op : RedOp) (ex : Bool) (d a : VReg) (pc pd : PReg) : Statement (.scan h ty uc op ex d a pc pd) := rfl
theorem vote (h : Hdr) (mode : VoteMode) (d : BitVec 8) (pa pc : PReg) : Statement (.vote h mode d pa pc) := rfl
theorem matchv (h : Hdr) (ty : TyF) (d a : VReg) (pc pd : PReg) : Statement (.matchv h ty d a pc pd) := rfl
theorem first (h : Hdr) (d : VReg) (pc pd : PReg) : Statement (.first h d pc pd) := rfl
theorem ld (h : Hdr) (sz : MSize) (base : Base) (d : VReg) (off : BitVec 10) (sc : Scope) (od : Order) (inv : Bool) (nr : Option PReg) : Statement (.ld h sz base d off sc od inv nr) := rfl
theorem st (h : Hdr) (sz : MSize) (base : Base) (b : VReg) (off : BitVec 10) (sc : Scope) (od : Order) (nochk : Bool) : Statement (.st h sz base b off sc od nochk) := rfl
theorem lds (h : Hdr) (sz : MSize) (base : Base) (d : VReg) (off : BitVec 10) (sc : Scope) (od : Order) : Statement (.lds h sz base d off sc od) := rfl
theorem sts (h : Hdr) (sz : MSize) (base : Base) (b : VReg) (off : BitVec 10) (sc : Scope) (od : Order) (nochk : Bool) : Statement (.sts h sz base b off sc od nochk) := rfl
theorem sld (h : Hdr) (sz : MSize) (a d : SReg) (off : BitVec 10) (sc : Scope) (od : Order) : Statement (.sld h sz a d off sc od) := rfl
theorem sst (h : Hdr) (sz : MSize) (a b : SReg) (off : BitVec 10) (sc : Scope) (od : Order) : Statement (.sst h sz a b off sc od) := rfl
theorem atom (h : Hdr) (sz : MSize) (base : Base) (d b : VReg) (op : AtomOp) (ty : AtomTy) (sc : Scope) (od : Order) (nochk : Bool) : Statement (.atom h sz base d b op ty sc od nochk) := rfl
theorem atoms (h : Hdr) (sz : MSize) (base : Base) (d b : VReg) (op : AtomOp) (ty : AtomTy) (sc : Scope) (od : Order) (nochk : Bool) : Statement (.atoms h sz base d b op ty sc od nochk) := rfl
theorem cas (h : Hdr) (sz : MSize) (base : Base) (d b : VReg) (off : BitVec 10) (sc : Scope) (od : Order) (nochk : Bool) : Statement (.cas h sz base d b off sc od nochk) := rfl
theorem cass (h : Hdr) (sz : MSize) (base : Base) (d b : VReg) (off : BitVec 10) (sc : Scope) (od : Order) (nochk : Bool) : Statement (.cass h sz base d b off sc od nochk) := rfl
theorem ldf (h : Hdr) (sz : MSize) (base : Base) (d : VReg) (off : BitVec 10) (sc : Scope) (od : Order) (pa : PReg) : Statement (.ldf h sz base d off sc od pa) := rfl
theorem stf (h : Hdr) (sz : MSize) (base : Base) (b : VReg) (off : BitVec 10) (sc : Scope) (od : Order) : Statement (.stf h sz base b off sc od) := rfl
theorem clrf (h : Hdr) (base : Base) (off : BitVec 10) (sc : Scope) (od : Order) : Statement (.clrf h base off sc od) := rfl
theorem fence (h : Hdr) (kinds : BitVec 4) (sc : Scope) (od : Order) : Statement (.fence h kinds sc od) := rfl
theorem pref (h : Hdr) (base : Base) (l2 : Bool) (off : BitVec 10) (sc : Scope) : Statement (.pref h base l2 off sc) := rfl
theorem pgreq (h : Hdr) (base : Base) (w : Bool) (off : BitVec 10) (sc : Scope) : Statement (.pgreq h base w off sc) := rfl
theorem cctlCln1 (h : Hdr) (base : Base) (off : BitVec 10) (sc : Scope) : Statement (.cctlCln1 h base off sc) := rfl
theorem cctlInv1 (h : Hdr) (base : Base) (off : BitVec 10) (sc : Scope) : Statement (.cctlInv1 h base off sc) := rfl
theorem cctlClnm (h : Hdr) (base : Base) (off : BitVec 10) (sc : Scope) : Statement (.cctlClnm h base off sc) := rfl
theorem cctlFlsm (h : Hdr) (base : Base) (off : BitVec 10) (sc : Scope) : Statement (.cctlFlsm h base off sc) := rfl
theorem cctlInvi (h : Hdr) (base : Base) (off : BitVec 10) (sc : Scope) : Statement (.cctlInvi h base off sc) := rfl
theorem bufdef (h : Hdr) (k : BitVec 5) (base sz : BitVec 19) (nm1 : BitVec 6) : Statement (.bufdef h k base sz nm1) := rfl
theorem cpyin (h : Hdr) (c : CpyArgs) : Statement (.cpyin h c) := rfl
theorem cpyout (h : Hdr) (c : CpyArgs) : Statement (.cpyout h c) := rfl
theorem cpynb (h : Hdr) (c : CpyArgs) : Statement (.cpynb h c) := rfl
theorem cpyg (h : Hdr) (c : CpyArgs) : Statement (.cpyg h c) := rfl
theorem waitb (h : Hdr) (d : SReg) (k : BitVec 5) : Statement (.waitb h d k) := rfl
theorem acqb (h : Hdr) (f : Bool) (d : SReg) (k : BitVec 5) : Statement (.acqb h f d k) := rfl
theorem relb (h : Hdr) (k : BitVec 5) : Statement (.relb h k) := rfl
theorem mma (h : Hdr) (ta : TyF) (tb : Ty) (uc : UC) (k : BitVec 6) (a : VReg) (src : MmaSrc) (vs : VReg) (za ru rl : Bool) : Statement (.mma h ta tb uc k a src vs za ru rl) := rfl
theorem mzero (h : Hdr) (k : BitVec 6) : Statement (.mzero h k) := rfl
theorem mld (h : Hdr) (ty : TyF) (d : VReg) (k : BitVec 6) (c0 nm1 : BitVec 5) : Statement (.mld h ty d k c0 nm1) := rfl
theorem mst (h : Hdr) (td : TyF) (ts : Ty) (rnd : Rnd) (k : BitVec 6) (a b scr : SReg) (sp nc : Bool) : Statement (.mst h td ts rnd k a b scr sp nc) := rfl
theorem mscl (h : Hdr) (ty : TyF) (k : BitVec 6) (a : VReg) (cm : Word) : Statement (.mscl h ty k a cm) := rfl
theorem attach (h : Hdr) (role : RoleF) (a b : SReg) : Statement (.attach h role a b) := rfl
theorem detach (h : Hdr) (cond : Bool) : Statement (.detach h cond) := rfl
theorem bara (h : Hdr) (d : SReg) (k : BitVec 7) : Statement (.bara h d k) := rfl
theorem barw (h : Hdr) (k : BitVec 7) (a : SReg) : Statement (.barw h k a) := rfl
theorem bars (h : Hdr) (k : BitVec 7) : Statement (.bars h k) := rfl
theorem barq (h : Hdr) (d : SReg) (k : BitVec 7) : Statement (.barq h d k) := rfl
theorem gear (h : Hdr) (fast : Bool) : Statement (.gear h fast) := rfl
theorem gearw (h : Hdr) (d : SReg) : Statement (.gearw h d) := rfl
theorem nopre (h : Hdr) : Statement (.nopre h) := rfl
theorem pre (h : Hdr) : Statement (.pre h) := rfl
theorem spawn (h : Hdr) (pd : PReg) (a : VReg) : Statement (.spawn h pd a) := rfl
theorem slput (h : Hdr) (d a b : SReg) : Statement (.slput h d a b) := rfl
theorem slrel (h : Hdr) (a b : SReg) : Statement (.slrel h a b) := rfl
theorem slveto (h : Hdr) (a b : SReg) : Statement (.slveto h a b) := rfl
theorem sysc (h : Hdr) (imm : Imm24) : Statement (.sysc h imm) := rfl
theorem rft (h : Hdr) : Statement (.rft h) := rfl
theorem stctx (h : Hdr) (item : BitVec 8) (a : SReg) (off : BitVec 10) : Statement (.stctx h item a off) := rfl
theorem ldctx (h : Hdr) (item : BitVec 8) (a : SReg) (off : BitVec 10) : Statement (.ldctx h item a off) := rfl
theorem csrr (h : Hdr) (d : SReg) (num : BitVec 12) : Statement (.csrr h d num) := rfl
theorem csrw (h : Hdr) (num : BitVec 12) (a : SReg) : Statement (.csrw h num a) := rfl
theorem tlbinvAll (h : Hdr) : Statement (.tlbinvAll h) := rfl
theorem tlbinvAsid (h : Hdr) (b : SReg) : Statement (.tlbinvAsid h b) := rfl
theorem tlbinvPg (h : Hdr) (a b : SReg) : Statement (.tlbinvPg h a b) := rfl
theorem haltKill (h : Hdr) : Statement (.haltKill h) := rfl
theorem haltSave (h : Hdr) (a : SReg) : Statement (.haltSave h a) := rfl
theorem haltSaveRls (h : Hdr) (a : SReg) : Statement (.haltSaveRls h a) := rfl
theorem emret (h : Hdr) : Statement (.emret h) := rfl
theorem emretDcl (h : Hdr) : Statement (.emretDcl h) := rfl
theorem resultWriteback (t slot slice i : Nat) : Statement (.resultWriteback t slot slice i) := rfl
theorem parkRelease (t slot slice : Nat) : Statement (.parkRelease t slot slice) := rfl
theorem rendezvousComplete (t slot : Nat) : Statement (.rendezvousComplete t slot) := rfl
theorem setwGrant (t slot : Nat) : Statement (.setwGrant t slot) := rfl
theorem reedRingInjection (die : Nat) : Statement (.reedRingInjection die) := rfl
theorem shareArrival (t : Nat) : Statement (.shareArrival t) := rfl
theorem yieldPauseEnd (t slot slice : Nat) : Statement (.yieldPauseEnd t slot slice) := rfl
theorem waittWake (t slot slice : Nat) : Statement (.waittWake t slot slice) := rfl
theorem barrierArrive (t slot k : Nat) : Statement (.barrierArrive t slot k) := rfl
theorem barrierLeave (i : Nat) : Statement (.barrierLeave i) := rfl
theorem barrierRelease (t : Nat) : Statement (.barrierRelease t) := rfl
theorem gearResolveChange (t : Nat) : Statement (.gearResolveChange t) := rfl
theorem gearSwitchStart (t : Nat) : Statement (.gearSwitchStart t) := rfl
theorem gearSwitchEnd (t : Nat) : Statement (.gearSwitchEnd t) := rfl
theorem dozeStart (t : Nat) : Statement (.dozeStart t) := rfl
theorem dozeWake (t : Nat) : Statement (.dozeWake t) := rfl
theorem watchdog (t slot : Nat) : Statement (.watchdog t slot) := rfl
theorem instructionFetchMiss (t slot slice : Nat) : Statement (.instructionFetchMiss t slot slice) := rfl
theorem icacheFill (t i : Nat) : Statement (.icacheFill t i) := rfl
theorem storeQueuePerform (t slot : Nat) : Statement (.storeQueuePerform t slot) := rfl
theorem engineIssue (t slot : Nat) : Statement (.engineIssue t slot) := rfl
theorem sluicePut (t slot : Nat) : Statement (.sluicePut t slot) := rfl
theorem copyCompletion (t e : Nat) : Statement (.copyCompletion t e) := rfl
theorem copyFailure (t e : Nat) : Statement (.copyFailure t e) := rfl
theorem engineTranslationRetry (t e : Nat) : Statement (.engineTranslationRetry t e) := rfl
theorem matrixAccept (t slot : Nat) : Statement (.matrixAccept t slot) := rfl
theorem matrixComplete (t : Nat) : Statement (.matrixComplete t) := rfl
theorem mstConvertDone (t : Nat) : Statement (.mstConvertDone t) := rfl
theorem burstEnd (t : Nat) : Statement (.burstEnd t) := rfl
theorem trapDelivery (t slot slice : Nat) : Statement (.trapDelivery t slot slice) := rfl
theorem groupSaveLeave (t slot : Nat) : Statement (.groupSaveLeave t slot) := rfl
theorem groupEnd (t slot : Nat) : Statement (.groupEnd t slot) := rfl
theorem faultRecordAccept (i : Nat) : Statement (.faultRecordAccept i) := rfl
theorem faultRecordResend (i : Nat) : Statement (.faultRecordResend i) := rfl
theorem launchRecordRead (q : Nat) : Statement (.launchRecordRead q) := rfl
theorem launchRecordAccept (q : Nat) : Statement (.launchRecordAccept q) := rfl
theorem dependenceRecheck (q : Nat) : Statement (.dependenceRecheck q) := rfl
theorem growthGroupStart (t team : Nat) : Statement (.growthGroupStart t team) := rfl
theorem shrinkRequest (t team : Nat) : Statement (.shrinkRequest t team) := rfl
theorem gatherClose (i : Nat) : Statement (.gatherClose i) := rfl
theorem taskRetire (i : Nat) : Statement (.taskRetire i) := rfl
theorem launchCompletion (id : Nat) : Statement (.launchCompletion id) := rfl
theorem teamKilled (t team : Nat) : Statement (.teamKilled t team) := rfl
theorem msixMessage (v : Nat) : Statement (.msixMessage v) := rfl
theorem noRouteTimeout (peer : Nat) : Statement (.noRouteTimeout peer) := rfl
theorem tlbinvComplete (t slot slice : Nat) : Statement (.tlbinvComplete t slot slice) := rfl
theorem qdb (q : Nat) (tail : Word) : Statement (.qdb q tail) := rfl
theorem qcfgWrite (q : Nat) (val : DWord) : Statement (.qcfgWrite q val) := rfl
theorem qstatStopClear (q : Nat) : Statement (.qstatStopClear q) := rfl
theorem testFail (tiles : BitVec 8) : Statement (.testFail tiles) := rfl
theorem fenlinkRequest (peer : Nat) (req : FenReq) : Statement (.fenlinkRequest peer req) := rfl
theorem laneShed (p : Nat) : Statement (.laneShed p) := rfl
theorem portDown (p : Nat) : Statement (.portDown p) := rfl
theorem timeSource (e : TimeEvent) (src : Nat) : Statement (.timeSource e src) := rfl
theorem hostWrite (m : HostSpace) (off : Nat) (data : List Byte) : Statement (.hostWrite m off data) := rfl
theorem hostRead (peat : Bool) (off n : Nat) : Statement (.hostRead peat off n) := rfl
theorem slhostWrite (n : Nat) (val : DWord) : Statement (.slhostWrite n val) := rfl
theorem slcfgWrite (n : Nat) (val : DWord) : Statement (.slcfgWrite n val) := rfl
theorem almcauseClear (val : DWord) : Statement (.almcauseClear val) := rfl
theorem pwrlimWrite (val : DWord) : Statement (.pwrlimWrite val) := rfl
theorem registerWrite (r : HostReg) (val : DWord) : Statement (.registerWrite r val) := rfl
theorem alarm (bit die : Nat) : Statement (.alarm bit die) := rfl
theorem alarmQuietExpiry : Statement .alarmQuietExpiry := rfl
theorem powerOn : Statement .powerOn := rfl
theorem warmReset : Statement .warmReset := rfl
theorem rstctlWrite (val : DWord) : Statement (.rstctlWrite val) := rfl
theorem port1Reset : Statement .port1Reset := rfl
theorem quoteRequest (nonce : BitVec 512) : Statement (.quoteRequest nonce) := rfl
theorem measurementAppend (kind : Nat) (digest : BitVec 512) : Statement (.measurementAppend kind digest) := rfl
theorem fenlinkRouteReturn (peer : Nat) : Statement (.fenlinkRouteReturn peer) := rfl
theorem powerOff : Statement .powerOff := rfl
theorem flridxWrite (el : Bool) (val : DWord) : Statement (.flridxWrite el val) := rfl
theorem residencyNotify (asid va : Nat) : Statement (.residencyNotify asid va) := rfl
theorem preemptionRequest (t slot : Nat) : Statement (.preemptionRequest t slot) := rfl
theorem gangPromotion (t slot gang : Nat) : Statement (.gangPromotion t slot gang) := rfl
theorem faultLogWrite : Statement .faultLogWrite := rfl
theorem schedulerPlacement : Statement .schedulerPlacement := rfl
theorem preemptEscalation : Statement .preemptEscalation := rfl
theorem testInterval : Statement .testInterval := rfl
theorem scanStart : Statement .scanStart := rfl
theorem testPass : Statement .testPass := rfl
theorem errorLogWrite : Statement .errorLogWrite := rfl
theorem burstTokenRotate : Statement .burstTokenRotate := rfl

end Sys2Proof.Laws.Fields
end

