-- ==== Sys2Proof/Laws/Upset.lean ====
section
/-! SUPPORT. Sound slices stay sound as results return, and an error that strikes leaves memory, tags and system registers alone. -/

namespace Sys2Proof.Machine

/-! ## Soundness -/

theorem sparse_all_get {α : Type} {p : α → Bool} {d : α} (hd : p d = true) :
    ∀ (t : Sparse α) (n : Nat), (t.all fun q => p q.2) = true → p (Sparse.get d t n) = true
  | [], _, _ => hd
  | (m, x) :: t, n, h => by
    rw [List.all_cons, Bool.and_eq_true] at h
    unfold Sparse.get
    split
    · exact h.1
    · exact sparse_all_get hd t n h.2

theorem sparse_all_insert {α : Type} {p : α → Bool} {x : α} (hx : p x = true) :
    ∀ (t : Sparse α) (n : Nat), (t.all fun q => p q.2) = true → ((Sparse.insert t n x).all fun q => p q.2) = true
  | [], n, _ => by simp [Sparse.insert, hx]
  | (m, y) :: t, n, h => by
    have h' := h
    rw [List.all_cons, Bool.and_eq_true] at h
    unfold Sparse.insert
    split
    · rw [List.all_cons, hx, Bool.true_and]; exact h.2
    · split
      · rw [List.all_cons, hx, Bool.true_and]; exact h'
      · rw [List.all_cons, h.1, Bool.true_and]; exact sparse_all_insert hx t n h.2

/-- A slice of a sound group is sound. -/
theorem sound_slice {g : Group} (h : g.sound = true) (k : Nat) : (g.slice k).sound = true := sparse_all_get rfl _ k h

theorem sound_setSlice {g : Group} (h : g.sound = true) (k : Nat) {x : Slice} (hx : x.sound = true) : (g.setSlice k x).sound = true :=
  sparse_all_insert hx _ k h

theorem sound_write {x : Slice} (h : x.sound = true) (w : RegWrite) : (x.write w).sound = true := by
  unfold Slice.sound at *
  simp only [Bool.and_eq_true, List.isEmpty_iff, decide_eq_true_eq] at *
  refine ⟨?_, by rw [write_glitch]; exact h.2⟩
  unfold Slice.write
  split
  · simp [h.1, Sparse.erase]
  · split <;> exact h.1
  · split <;> exact h.1

theorem sound_writeback {x : Slice} (h : x.sound = true) (p : Pend) : (x.writeback p).sound = true := by
  have : ∀ (ws : List RegWrite) (y : Slice), y.sound = true → (ws.foldl Slice.write y).sound = true := by
    intro ws
    induction ws with
    | nil => exact fun _ h => h
    | cons w ws ih => exact fun y hy => ih _ (sound_write hy w)
  unfold Slice.writeback
  simp only
  split
  · exact this _ _ h
  · exact this _ _ h

/-- Results that return leave a sound slice sound. -/
theorem sound_drained (s : State) (k : Nat) {x : Slice} (h : x.sound = true) : (s.drained k x).sound = true := by
  have : ∀ (ps : List Pend) (y : Slice), y.sound = true → (ps.foldl Slice.writeback y).sound = true := by
    intro ps
    induction ps with
    | nil => exact fun _ h => h
    | cons p ps ih => exact fun y hy => ih _ (sound_writeback hy p)
  exact this _ _ h

/-- So does the group's gathering at a rendezvous. -/
theorem sound_drainLive {g : Group} (h : g.sound = true) (s : State) : (g.drainLive s).sound = true := by
  have : ∀ (l : List Nat) (r : Group), r.sound = true → (l.foldl (fun r k => r.setSlice k (s.drained k (r.slice k))) r).sound = true := by
    intro l
    induction l with
    | nil => exact fun _ h => h
    | cons k l ih => exact fun r hr => ih _ (sound_setSlice hr k (sound_drained s k (sound_slice hr k)))
  exact this _ _ h

/-! ## Errors that strike -/

theorem keeps_logCorrected (s : State) (src : Nat) (addr : DWord) (array : Nat) : Keeps s (s.logCorrected src addr array) := by
  unfold State.logCorrected
  simp only
  split <;> exact ⟨rfl, rfl, fun _ => ⟨rfl, rfl⟩, rfl, rfl, rfl, rfl, rfl⟩

theorem keeps_spoil (s : State) (key : Nat) (tag : Bool) : Keeps s (s.spoil key tag) := by
  unfold State.spoil
  split <;> exact ⟨rfl, rfl, fun _ => ⟨rfl, rfl⟩, rfl, rfl, rfl, rfl, rfl⟩

theorem keeps_spoilAt (s : State) (k : Nat) (tag : Bool) : Keeps s (s.spoilAt k tag) := by
  unfold State.spoilAt
  split
  · exact keeps_spoil ..
  · exact keeps_foldl (fun _ _ => keeps_spoil ..) _ _

theorem keeps_corrected (s : State) (c : ErrorSite) : Keeps s (s.corrected c) := keeps_logCorrected ..

theorem keeps_uncorrectable (s : State) (c : ErrorSite) : Keeps s (s.uncorrectable c) := by
  have h : ∀ {r : State}, Keeps (s.corrected c) r → Keeps s r := (keeps_corrected s c).trans
  unfold State.uncorrectable
  split
  · exact keeps_updSlice ..
  · exact keeps_updTile _ _ fun _ => ⟨rfl, rfl⟩
  · exact keeps_updTile _ _ fun _ => ⟨rfl, rfl⟩
  · exact keeps_spoil ..
  · refine keeps_ite (keeps_spoilAt ..) (h ?_)
    exact keeps_updTile _ _ fun _ => ⟨rfl, rfl⟩
  · exact keeps_ite (keeps_spoilAt ..) (h (keeps_l2 ..))
  · exact keeps_foldl (fun _ _ => keeps_spoil ..) _ _
  · refine h ?_
    exact keeps_updTile _ _ fun _ => ⟨rfl, rfl⟩
  · refine h ?_
    exact keeps_updTile _ _ fun _ => ⟨rfl, rfl⟩
  · refine h ?_
    exact ⟨rfl, rfl, fun _ => ⟨rfl, rfl⟩, rfl, rfl, rfl, rfl, rfl⟩

/-- An error changes no byte, no tag and no system register. -/
theorem keeps_upset (s : State) (u : Upset) : Keeps s (s.upset u) := by
  unfold State.upset
  split
  · exact Keeps.refl s
  · split
    · split
      · exact keeps_logCorrected ..
      · exact Keeps.refl s
    · split
      · exact keeps_uncorrectable ..
      · exact Keeps.refl s
    · split
      · exact keeps_updSlice ..
      · exact Keeps.refl s

end Sys2Proof.Machine
end

