-- ==== Sys2Proof/Tests/Slice0.lean ====
section
/-! SUPPORT. Tests: ill-formed terms that well-formedness refuses, words written out in the spec, the spec's worked examples, and a state
that meets the hypotheses of each statement. -/

namespace Sys2Proof.Tests

set_option Elab.async false

open Sys2Proof Sys2Proof.Machine Sys2Proof.Spec

/-- Unguarded, no park marker, hint 0. -/
def h0 : Hdr := ⟨false, false, 7, 0⟩

/-- The park marker set. -/
def hp : Hdr := ⟨true, false, 7, 0⟩

/-- Guarded by Pn. -/
def hg (n : PReg) : Hdr := ⟨false, false, n, 0⟩

/-! ## Well-formedness: each check refuses a term, and passes its neighbour -/

/-- Every term is refused. -/
def refused (l : List Instr) : Bool := l.all fun i => !i.wellFormed

/-- Every term passes. -/
def passes (l : List Instr) : Bool := l.all fun i => i.wellFormed

theorem test_guard_refused : refused [.join (hg 1), .regang ⟨false, true, 7, 0⟩, .fence (hg 0) 1 .grp .ar, .bars (hg 2) 3] = true := by
  decide +kernel

theorem test_guard_passes : passes [.join h0, .regang hp, .fence h0 1 .grp .ar, .exit (hg 2), .bra ⟨false, true, 7, 0⟩ 1] = true := by
  decide +kernel

theorem test_scalar_refused : refused [.sshl h0 1 2 (.imm 64), .sshr h0 1 2 (.imm 200), .ssra h0 1 2 (.imm 64), .srot h0 1 2 (.imm 255),
    .sbfe h0 1 2 0 0, .sbfe h0 1 2 57 8, .sbfi h0 1 2 1 64, .sbfi h0 1 2 0 65, .movsr h0 4 0x12, .movrs h0 0x00 4, .movrs h0 0x0D 4] =
    true := by decide +kernel

theorem test_scalar_passes : passes [.sshl h0 1 2 (.imm 63), .sbfe h0 1 2 56 8, .sbfi h0 1 2 0 64, .movsr h0 4 0x11, .movrs h0 0x0C 4,
    .sadd h0 1 2 (.imm 255)] = true := by decide +kernel

theorem test_control_refused : refused [.setw h0 0 4 none, .setw h0 8 4 none, .setw h0 4 100 none, .setw h0 6 8 none, .setw h0 4 10 none,
    .calli h0 3] = true := by decide +kernel

theorem test_control_passes : passes [.setw h0 4 96 (some 4), .setw h0 96 96 none, .calli h0 4] = true := by decide +kernel

theorem test_vector_refused : refused [.vbfe h0 (.ty .n32) 1 2 31 2, .vbfi h0 (.ty .n32) 1 2 0 0, .vsetp h0 (.ty .n32) 1 2 (.v 3) .ltn,
    .vsetp h0 (.ty .n32) 1 2 (.v 3) .gen, .vadd h0 (.ty .f32) 1 2 (.v 3), .vadd h0 (.ty .i64) 1 2 (.v 4), .vadd h0 (.ty .i64) 2 4 (.v 5),
    .vmulh h0 (.ty .n32) 1 2 (.v 3), .vmad h0 (.ty .b32) 1 2 (.v 3) (.v 4), .vdiv h0 (.ty .i64) 2 4 (.v 6), .vand h0 (.ty .f32) 1 2 (.v 3),
    .vnot h0 (.ty .f64) 2 4, .vshl h0 (.ty .i32) 1 2 (.imm 32), .vabs h0 (.ty .n32) 1 2, .vclz h0 (.ty .i64) 2 4, .vprmb h0 (.ty .i32) 1 2 (.v 3)
    (.v 4), .vsel h0 (.ty .f16) 1 2 (.v 3) 1, .vlid h0 (.ty .n32) 1 0x100000000, .vtos h0 (.ty .e4m3) 1 2 none] = true := by decide +kernel

theorem test_vector_passes : passes [.vbfe h0 (.ty .n32) 1 2 30 2, .vadd h0 (.ty .i64) 2 4 (.v 6), .vdiv h0 (.ty .i64) 4 2 (.v 6),
    .vshl h0 (.ty .i64) 2 4 (.imm 63), .vlid h0 (.ty .n64) 2 0x100000000, .vmad h0 .fmt 1 2 (.v 3) (.v 4)] = true := by decide +kernel

theorem test_float_refused : refused [.fadd h0 (.ty .f32) .auto .sr 1 2 (.v 3), .fsub h0 (.ty .f16) .auto .rne 1 2 (.v 3),
    .hadd2 h0 (.ty .f32) .auto .rne 1 2 (.v 3), .dadd h0 (.ty .f64) .s .rne 2 4 (.v 6), .dmul h0 (.ty .f64) .auto .rne 3 4 (.v 6),
    .dfma h0 (.ty .f64) .t 2 4 (.v 6) (.v 8), .frnd h0 (.ty .f32) .sr 1 2, .frcp h0 (.ty .f64) 2 4] = true := by decide +kernel

theorem test_conversion_refused : refused [.cvt h0 (.ty .f32) .f32 .rne 1 2 (.v 0), .cvt h0 (.ty .f32) .f16 .rne 1 2 (.v 1),
    .cvt h0 (.ty .i32) .e2m1 .rne 1 2 (.v 3), .cvti h0 (.ty .f32) .f16 .rne 1 2 (.v 3), .pack h0 (.ty .f16) .f32 .rne 1 3,
    .unpk h0 (.ty .f32) .e4m3 2 1, .qnt h0 (.ty .i4x) .f32 .rne 40 0 43, .qnt h0 (.ty .i4x) .f32 .rne 42 0 48,
    .dqnt h0 (.ty .f32) .i4x .rne 8 0 39, .dqnt h0 (.ty .f32) .i4x .sr 8 0 40] = true := by decide +kernel

theorem test_conversion_passes : passes [.cvt h0 (.ty .f32) .e2m1 .rne 1 2 (.v 3), .cvti h0 (.ty .i32) .f32 .sr 1 2 (.s 3),
    .pack h0 (.ty .f16) .f32 .sr 1 2, .unpk h0 (.ty .f32) .e4m3 4 1, .qnt h0 (.ty .i4x) .f32 .sr 40 0 44, .dqnt h0 (.ty .bf16) .i4x .rne 8 0 24] =
    true := by decide +kernel

theorem test_bound_refused : refused [.bget h0 (.ty .f64) 2 4, .bset h0 (.ty .i32) 1 2 (.v 3), .bzero h0 (.ty .f32) 1 2, .bmax h0 (.ty .n32) 1 2 3,
    .chkb h0 (.ty .f32) 8 (some 0), .chkb h0 (.ty .f32) 8 (some 33), .chkb h0 (.ty .e4m3) 8 none, .btest h0 (.ty .f64) 1 3 none] = true := by
  decide +kernel

theorem test_bound_passes : passes [.bget h0 (.ty .f32) 2 4, .chkb h0 (.ty .f32) 8 (some 32), .chkb h0 (.ty .bf16) 8 none] = true := by
  decide +kernel

theorem test_crosslane_refused : refused [.bcast h0 (.ty .b32) 1 2 (.v 3) 1, .shfl h0 (.ty .f64) 1 2 (.v 3) 1,
    .red h0 (.ty .f16) .auto .add 1 2 7 1, .red h0 (.ty .f32) .auto .xor 1 2 7 1, .red h0 (.ty .i32) .f .add 1 2 7 1,
    .scan h0 (.ty .f64) .t .add false 2 4 7 1, .vote h0 .all 8 1 7, .matchv h0 (.ty .i64) 1 3 7 1] = true := by decide +kernel

theorem test_crosslane_passes : passes [.bcast h0 (.ty .b32) 1 2 (.imm 95) 1, .red h0 (.ty .f32) .t .min 1 2 7 1, .vote h0 .ballot 12 1 7,
    .vote h0 .all 7 1 7] = true := by decide +kernel

theorem test_memory_refused : refused [.ld h0 .w (.v 3) 1 0 .grp .rlx false none, .ld h0 .d (.s 4) 1 0 .grp .rlx false none,
    .ld h0 .q (.s 4) 2 0 .grp .rlx false none, .ld h0 .w (.s 4) 1 0 .grp .rel false none, .ld h0 .w (.s 4) 1 0 .team .rlx false none,
    .st h0 .w (.v 3) 1 0 .grp .rlx false, .st h0 .w (.s 4) 1 0 .grp .acq false, .lds h0 .d (.s 4) 1 0 .grp .rlx, .lds h0 .w (.s 4) 1 0 .clu .rlx,
    .sts h0 .w (.v 3) 1 0 .grp .ar false, .sld h0 .q 4 5 0 .grp .rlx, .sst h0 .q 4 5 0 .grp .rlx, .sst h0 .w 4 5 0 .grp .acq,
    .atom h0 .h (.s 4) 5 6 .add .nat .grp .rlx false, .atom h0 .w (.v 3) 5 6 .add .nat .grp .rlx false,
    .atom h0 .w (.s 4) 32 6 .add .nat .grp .rlx false, .atom h0 .w (.s 4) 5 6 .xor .flt .grp .rlx false,
    .atoms h0 .d (.v 3) 5 6 .add .nat .grp .rlx false, .cas h0 .b (.s 4) 5 6 0 .grp .rlx false, .cass h0 .w (.s 4) 5 40 0 .grp .rlx false,
    .ldf h0 .q (.s 4) 4 0 .grp .rlx 1, .ldf h0 .w (.s 4) 4 0 .grp .rel 1, .stf h0 .b (.s 4) 4 0 .grp .rlx, .clrf h0 (.s 4) 0 .grp .acq,
    .clrf h0 (.v 5) 0 .grp .rlx, .fence h0 0 .grp .ar, .fence h0 1 .grp .rlx, .pref h0 (.v 3) false 0 .grp, .pgreq h0 (.v 5) false 0 .grp,
    .cctlCln1 h0 (.v 5) 0 .grp] = true := by decide +kernel

theorem test_memory_passes : passes [.ld h0 .q (.v 2) 4 0x200 .sys .acq true (some 3), .st h0 .d (.s 4) 2 0 .sys .rel true,
    .lds h0 .w (.v 3) 1 0 .grp .rlx, .atom h0 .d (.v 2) 4 6 .add .flt .sys .ar true, .atom h0 .d (.s 4) 5 31 .exch .nat .grp .rlx false,
    .fence h0 15 .sys .acq] = true := by decide +kernel

/-- A copy of one row of eight bytes. -/
def cp : CpyArgs := { nd := 0, hd := true, d := 2, a := 4, b := 0, c := 0, x0 := 0, x1 := 0, x2 := 0, yl := false, cont := 0 }

theorem test_copy_refused : refused [.bufdef h0 2 32 64 1, .bufdef h0 2 0 100 1, .bufdef h0 2 0 0 1, .cpyin h0 { cp with nd := 3 },
    .cpyin h0 { cp with x1 := 1 }, .cpyout h0 { cp with b := 5 }, .cpynb h0 { cp with nd := 1, c := 5 }, .cpyin h0 { cp with nd := 1, x2 := 1 },
    .cpyin h0 { cp with cont := 1 }, .cpyg h0 cp] = true := by decide +kernel

theorem test_copy_passes : passes [.bufdef h0 2 64 128 63, .cpyin h0 { cp with nd := 2, b := 5, c := 6, x1 := 4095, x2 := 4095 },
    .cpyg h0 { cp with hd := false }, .cpyin h0 { cp with yl := true, cont := 5 }] = true := by decide +kernel

theorem test_matrix_refused : refused [.mma h0 (.ty .f16) .f16 .auto 0 4 (.h 2) 0 false false false,
    .mma h0 (.ty .f16) .f16 .auto 0 8 (.s 2) 0 false false true, .mma h0 (.ty .f16) .e4m3 .auto 0 8 (.h 2) 0 false false false,
    .mma h0 (.ty .i8) .i8 .f 0 8 (.h 2) 0 false false false, .mma h0 (.ty .f16) .f16 .auto 0 8 (.h 2) 5 false false false,
    .mld h0 (.ty .f32) 4 0 31 1, .mld h0 (.ty .f16) 4 0 0 1, .mst h0 (.ty .i32) .f32 .rne 0 4 5 0 false false,
    .mst h0 (.ty .f32) .f32 .rne 0 4 5 6 false false, .mscl h0 (.ty .f32) 0 2 0, .mscl h0 (.ty .i32) 0 2 1] = true := by decide +kernel

theorem test_matrix_passes : passes [.mma h0 (.ty .e2m1) .e4m3 .s 63 8 (.h 2) 5 true true true, .mld h0 (.ty .i32) 4 0 31 0,
    .mst h0 (.ty .i4x) .f32 .rne 0 4 5 6 false false] = true := by decide +kernel

theorem test_system_refused : refused [.spawn h0 1 8, .slput h0 1 2 0, .slput h0 1 2 27, .stctx h0 6 4 0, .stctx h0 0x30 4 0, .ldctx h0 4 4 0,
    .csrr h0 4 5, .csrw h0 0xC00 4] = true := by decide +kernel

theorem test_system_passes : passes [.spawn h0 1 240, .slput h0 1 2 26, .stctx h0 4 4 0, .ldctx h0 0x2F 4 0, .csrr h0 4 0xBFF, .csrw h0 0x05B 4] =
    true := by decide +kernel

/-! ## Words that the spec writes out -/

/-- The word decodes to the instruction, whose encoding it is. -/
def words (l : List (DWord × DWord × Instr)) : Bool :=
  l.all fun p => decide ((decodeWords p.1 p.2.1).toOption = some p.2.2) && decide (encode p.2.2 = if needsSecond p.1 then [p.1, p.2.1] else [p.1])

/-- 05 Table 5.10. -/
theorem test_words_05 : words [
    (0x1007010000000300, 0, .fadd h0 (.ty .f32) .auto .dflt 1 0 (.v 0)),
    (0x9EE7001C01000000, 0, .st hp .w (.s 28) 1 0 .grp .rlx false),
    (0x0497000000000000, 0, .exit h0),
    (0x0407FFFFD0000000, 0, .bra h0 (-3)),
    (0x41F7050000000000, 0x0123456789ABCDEF, .sliw h0 5 0x0123456789ABCDEF)] = true := by decide +kernel

/-- 06, the encodings and the worked divergence. -/
theorem test_words_06 : words [
    (0x0007050607000000, 0, .sadd h0 5 6 (.s 7)),
    (0x00F7040400031000, 0, .sshr h0 4 4 (.imm 3)),
    (0x00270505FFFFFF00, 0, .saddi h0 5 5 (-1)),
    (0x0417FFFFE0002400, 0, .brs h0 (-2) .ne 4),
    (0x0421000030000900, 0, .brv (hg 1) 3 9),
    (0x04C7000000000000, 0, .nop h0),
    (0x0437000000000000, 0, .join h0),
    (0x0477000000000000, 0, .regang h0),
    (0x0487000000404000, 0, .setw h0 64 64 none)] = true := by decide +kernel

/-- 07. -/
theorem test_words_07 : words [
    (0x100702000100C300, 0, .fadd h0 (.ty .f32) .t .dflt 2 0 (.v 1)),
    (0x0867040001000100, 0, .vdiv h0 (.ty .i32) 4 0 (.v 1)),
    (0x09C2010609022200, 0, .vsetp (hg 2) (.ty .n32) 1 6 (.s 9) .lt),
    (0x1807030200350500, 0, .cvt h0 (.ty .bf16) .f32 .sr 3 2 (.v 0)),
    (0x0A17030102081000, 0, .plop h0 3 1 2 8),
    (0x5847280000300C00, 44, .qnt h0 (.ty .i4x) .f32 .dflt 40 0 44),
    (0x1877000000004400, 0, .setfmt h0 .f16 1)] = true := by decide +kernel

/-- 08. -/
theorem test_words_08 : words [
    (0x1A07050200000300, 0, .bget h0 (.ty .f32) 5 2),
    (0x1A47000800041300, 0, .chkb h0 (.ty .f32) 8 (some 4)),
    (0x1A52010600000300, 0, .btest (hg 2) (.ty .f32) 1 6 none),
    (0x1A670000013A8000, 0, .setbud h0 (.imm true 0x3A80)),
    (0x1C27060604090000, 0, .shfld h0 (.ty .b32) 6 6 (.imm 4) 1),
    (0x1C670C0307030000, 0, .vote h0 .ballot 12 3 7)] = true := by decide +kernel

/-- 10. -/
theorem test_words_10 : words [
    (0x2807000405022000, 0, .attach h0 .consumer 4 5), (0x2817000000010000, 0, .detach h0 true), (0x2827050300000000, 0, .bara h0 5 3),
    (0x2837000305002000, 0, .barw h0 3 5), (0x2847007000000000, 0, .bars h0 112), (0x2857060300000000, 0, .barq h0 6 3),
    (0x2867000000000100, 0, .gear h0 true), (0x2877070000000000, 0, .gearw h0 7), (0x2887000000000000, 0, .nopre h0),
    (0x2897000000000000, 0, .pre h0)] = true := by decide +kernel

/-- 11, 12. -/
theorem test_words_11 : words [
    (0x1E47041C00010000, 0, .ld h0 .w (.s 28) 4 4 .grp .rlx false none),
    (0x1E71060283004000, 0, .ld (hg 1) .d (.v 2) 6 1 .grp .rlx false (some 3)),
    (0x207700090C008000, 0, .sts h0 .q (.v 9) 12 2 .grp .rlx false),
    (0x2117050207082400, 0, .atom h0 .w (.v 2) 5 7 .add .flt .pkg .rel false),
    (0x22270A0402000000, 0, .ldf h0 .d (.s 4) 10 0 .grp .rlx 2),
    (0x22A7020000001C00, 0, .fence h0 2 .die .rel),
    (0x22A7030000000E00, 0, .fence h0 3 .team .ar)] = true := by decide +kernel

/-- 13, 14. -/
theorem test_words_13 : words [
    (0x6407020000000000, 0x0000004040000000, .bufdef h0 2 0 2048 1),
    (0x6417020405002000, 0x500181F800000000,
      .cpyin h0 { nd := 1, hd := true, d := 2, a := 4, b := 5, c := 0, x0 := 3, x1 := 63, x2 := 0, yl := false, cont := 0 }),
    (0x2467060200000000, 0, .acqb h0 false 6 2), (0x2477000200000000, 0, .relb h0 2),
    (0x6607001002900900, 3, .mma h0 (.ty .e4m3) .e4m3 .auto 0 16 (.h 2) 0 false true true),
    (0x6607001002C00900, 3, .mma h0 (.ty .e4m3) .i4x .auto 0 16 (.h 2) 0 false true true),
    (0x6607032006B0EB00, 0x30004, .mma h0 (.ty .e2m1) .e2m1 .t 3 32 (.s 6) 48 true false false),
    (0x2617050000000000, 0, .mzero h0 5), (0x6627280000000300, 0xE0, .mld h0 (.ty .f32) 40 0 0 7),
    (0x6637000405302500, 0, .mst h0 (.ty .bf16) .f32 .dflt 0 4 5 0 false false),
    (0x6647000200000300, 0xFFFFFFFF, .mscl h0 (.ty .f32) 0 2 0xFFFFFFFF)] = true := by decide +kernel

/-- 15. -/
theorem test_words_15 : words [
    (0x20B7041C00000000, 0, .sld h0 .d 28 4 0 .grp .rlx),
    (0xCA07040000000300, 0x3F800000, .vlid hp (.ty .f32) 4 0x3F800000),
    (0x9037050100020300, 0, .ffma hp (.ty .f32) .auto 5 1 (.v 0) (.v 2)),
    (0x1C57020107080100, 0, .scan h0 (.ty .i32) .auto .add true 2 1 7 0),
    (0x882703020A002100, 0, .vmul hp (.ty .i32) 3 2 (.s 10)),
    (0x9FD7040300000000, 0, .lds hp .q (.v 3) 4 0 .grp .rlx),
    (0xA151030100018000, 0, .atoms ⟨true, false, 1, 0⟩ .w (.v 1) 3 0 .exch .nat .grp .rlx false),
    (0x9C67060507010000, 0, .vote hp .any 6 5 7)] = true := by decide +kernel

/-- 16, 18, 19. -/
theorem test_words_18 : words [
    (0x28A7011000000000, 0, .spawn h0 1 16), (0x2A07000000000500, 0, .sysc h0 5), (0x2A17000000000000, 0, .rft h0),
    (0x2A27130400008000, 0, .stctx h0 0x13 4 2), (0x2A37000400008000, 0, .ldctx h0 0 4 2), (0x2A47060000002000, 0, .csrr h0 6 0x020),
    (0x2A57000500000000, 0, .csrw h0 0 5), (0x2A67000405022000, 0, .tlbinvPg h0 4 5), (0x2A77000400010000, 0, .haltSave h0 4),
    (0x2A87000000010000, 0, .emretDcl h0), (0x28B70C0406002000, 0, .slput h0 12 4 6), (0x28C7000405002000, 0, .slrel h0 4 5),
    (0x28D7000405002000, 0, .slveto h0 4 5), (0x6C07030201000300, 7, .undefinedOpcode 0x6C07030201000300 7)].dropLast = true ∧
    (decodeWords 0x6C07030201000300 7).toOption = some (.undefinedOpcode 0x6C07030201000300 7) := by decide +kernel

/-- 20: HN is ignored, and MZ is a breach (05 R93). -/
theorem test_words_20 :
    words [(0x1E47000400000020, 0, .ld ⟨false, false, 7, 2⟩ .w (.s 4) 0 0 .grp .rlx false none),
      (0x9007020001000350, 0, .fadd ⟨true, false, 7, 5⟩ (.ty .f32) .auto .dflt 2 0 (.v 1)),
      (0x9E87040500000100, 0, .ld hp .q (.s 5) 4 0 .grp .rlx true none),
      (0x1C47080007014300, 0, .red h0 (.ty .f32) .f .add 8 0 7 1),
      (0xA1120C0E0D002600, 0, .atom ⟨true, false, 2, 0⟩ .w (.v 14) 12 13 .add .nat .pkg .ar false)] = true ∧
    (decodeWords 0x9007020001000351 0).toOption = none := by decide +kernel

/-! ## States that meet the hypotheses of the statements -/

/-- What `ToIssue` says of the gang in focus, with a property of what it speaks of. -/
def toIssueB (s : State) (i : Instr) (p : Group → List Nat → UClass → Nat → Bool) : Bool :=
  match s.group? s.focus.tile s.focus.slot with
  | none => false
  | some g =>
    let l := s.focus.slices.filter fun k => (g.slice k).live
    match s.classCost s.focus.tile s.focus.slot g l i 1 with
    | none => false
    | some c =>
      s.powered && s.booted && !l.isEmpty && decide l.Nodup &&
        l.all (fun k => decide ((g.slice k).wait = .run) && (g.slice k).asyncNow.isNone) && p g l c.1 c.2

theorem to_issue_of (s : State) (i : Instr) (p : Group → List Nat → UClass → Nat → Bool) (h : toIssueB s i p = true) :
    ∃ g l c cost, ToIssue s i g l c cost ∧ p g l c cost = true := by
  unfold toIssueB at h
  split at h
  · exact absurd h Bool.false_ne_true
  · rename_i g hg
    dsimp only at h
    split at h
    · exact absurd h Bool.false_ne_true
    · rename_i c hc
      simp only [Bool.and_eq_true, List.all_eq_true, decide_eq_true_eq, Option.isNone_iff_eq_none, Bool.not_eq_true'] at h
      obtain ⟨⟨⟨⟨⟨h1, h2⟩, h3⟩, h4⟩, h6⟩, h7⟩ := h
      refine ⟨g, _, c.1, c.2, ⟨h1, h2, hg, rfl, ?_, h4, hc, fun k hk => (h6 k hk).1, fun k hk => (h6 k hk).2⟩, h7⟩
      intro e
      rw [e] at h3
      exact Bool.noConfusion h3

/-- What `MayIssue` says, and what `Issues` says. -/
def mayB (s : State) (i : Instr) (p : Group → List Nat → UClass → Nat → Bool) : Bool :=
  toIssueB s i fun g l c n => l.all (fun k => (s.preTrap g (g.slice k) i).isNone) && p g l c n
def issuesB (s : State) (i : Instr) (p : Group → List Nat → UClass → Nat → Bool) : Bool :=
  mayB s i fun g l c n => l.all (fun k => (g.slice k).sound) && p g l c n

theorem may_of (s : State) (i : Instr) (p : Group → List Nat → UClass → Nat → Bool) (h : mayB s i p = true) :
    ∃ g l c cost, MayIssue s i g l c cost ∧ p g l c cost = true := by
  obtain ⟨g, l, c, n, h1, h2⟩ := to_issue_of s i _ h
  simp only [Bool.and_eq_true, List.all_eq_true, Option.isNone_iff_eq_none] at h2
  exact ⟨g, l, c, n, ⟨h1, h2.1⟩, h2.2⟩

/-- The statements' hypothesis of an instruction that issues, met with a property. -/
def Met (s : State) (i : Instr) (p : Group → List Nat → UClass → Nat → Bool) : Prop :=
  ∃ g l c cost, Issues s i g l c cost ∧ p g l c cost = true

theorem met_of (s : State) (i : Instr) (p : Group → List Nat → UClass → Nat → Bool) (h : issuesB s i p = true) : Met s i p := by
  obtain ⟨g, l, c, n, h1, h2⟩ := may_of s i _ h
  simp only [Bool.and_eq_true, List.all_eq_true] at h2
  exact ⟨g, l, c, n, ⟨h1, h2.1⟩, h2.2⟩

/-- What `Arrives` says. -/
def arrivesB (s : State) (i : Instr) (p : Group → List Nat → Bool) : Bool :=
  match s.group? s.focus.tile s.focus.slot with
  | none => false
  | some g =>
    let l := s.focus.slices.filter fun k => (g.slice k).live
    s.powered && s.booted && !l.isEmpty && decide l.Nodup &&
      l.all (fun k => decide ((g.slice k).wait = .run) && (g.slice k).asyncNow.isNone && (s.preTrap g (g.slice k) i).isNone) && p g l

theorem arrives_of (s : State) (i : Instr) (p : Group → List Nat → Bool) (h : arrivesB s i p = true) :
    ∃ g l, Arrives s i g l ∧ p g l = true := by
  unfold arrivesB at h
  split at h
  · exact absurd h Bool.false_ne_true
  · rename_i g hg
    simp only [Bool.and_eq_true, List.all_eq_true, decide_eq_true_eq, Option.isNone_iff_eq_none, Bool.not_eq_true'] at h
    obtain ⟨⟨⟨⟨⟨h1, h2⟩, h3⟩, h4⟩, h6⟩, h7⟩ := h
    refine ⟨g, _, ⟨⟨h1, h2, hg, rfl, ?_, h4, fun k hk => (h6 k hk).1.1, fun k hk => (h6 k hk).1.2⟩, fun k hk => (h6 k hk).2⟩, h7⟩
    intro e
    rw [e] at h3
    exact Bool.noConfusion h3

/-- A property of a form: a state with the instruction that its gang in focus is to issue. -/
abbrev FormProp := State → Instr → Group → List Nat → UClass → Nat → Bool

/-- Every form is met. -/
def allMet (l : List (State × Instr)) (p : FormProp) : Bool := l.all fun q => issuesB q.1 q.2 (p q.1 q.2)

theorem met_all (l : List (State × Instr)) (p : FormProp) (h : allMet l p = true) : ∀ q ∈ l, Met q.1 q.2 (p q.1 q.2) :=
  fun q hq => met_of q.1 q.2 _ (List.all_eq_true.mp h q hq)

/-- The context of a slice of the gang in focus. -/
def ctx (s : State) (g : Group) (k : Nat) : Ctx := ctxOf s s.focus.tile s.focus.slot g k

/-- The slices' turns are made, and n of them trap. -/
def turned (f : Instr → State → Ctx → Slice → SliceTurn) (n : Nat) : FormProp := fun s i g l _ _ =>
  (inTurns (fun r k => f i r (ctx s g k) (g.slice k)) s l).any fun p => p.2.length = n

/-- The slices' turns are made, their pages being there, and n of them trap. -/
def paged (f : Instr → List BeatPage → State → Ctx → Slice → SliceTurn) (n : Nat) : FormProp := fun s i g l _ _ =>
  (turns i s g l (f i)).any fun p => p.2.length = n

/-- A group of one slice on tile 0 at 0x100000, in a mapped gibibyte, in focus. -/
def ready : State := { State.reset.placeWords 0 0 with agenda := [], focus := { tile := 0, slot := 0, slices := [0] } }

/-- With its slice changed. -/
def readyWith (f : Slice → Slice) : State := ready.updSlice 0 0 0 f

/-- With its group changed. -/
def readyGroup (f : Group → Group) : State := ready.updGroup 0 0 f

/-- Two slices of one gang, the first changed as given. -/
def pair (s : State) (f : Slice → Slice) : State :=
  { s.updGroup 0 0 fun g => { g with grant := 8, slices := [(0, f (g.slice 0)), (1, g.slice 0)] } with
    focus := { tile := 0, slot := 0, slices := [0, 1] } }

/-- S registers given. -/
def regs (l : Sparse DWord) : State := readyWith fun x => { x with s := l }

/-- The instruction in a state. -/
def each (s : State) (l : List Instr) : List (State × Instr) := l.map fun i => (s, i)

/-- The scalar instructions that write Sd. -/
def scalarForms : List Instr :=
  [.sadd h0 1 2 (.s 3), .ssub h0 1 2 (.imm 255), .saddi h0 1 2 0x800000, .smul h0 31 2 (.s 3), .smulh h0 1 2 (.s 0), .smulhn h0 1 0 (.s 3),
   .sdiv h0 0 2 (.s 3), .sdivn h0 1 2 (.imm 0), .srem h0 1 2 (.s 3), .sremn h0 1 2 (.s 3), .sand h0 1 2 (.s 3), .sandn h0 1 2 (.s 3),
   .sor h0 1 2 (.s 3), .sxor h0 1 2 (.s 3), .sshl h0 1 2 (.imm 63), .sshr h0 1 2 (.s 3), .ssra h0 1 2 (.s 3), .srot h0 1 2 (.imm 0),
   .smin h0 1 2 (.s 3), .smax h0 1 2 (.s 3), .sminn h0 1 2 (.s 3), .smaxn h0 1 2 (.s 3), .sclz h0 1 2, .sctz h0 1 2, .spop h0 1 2,
   .sbfe h0 1 2 0 64, .sbfi h0 1 2 63 1, .ssetc h0 1 2 3 .gen, .ssel h0 1 2 3 4, .smov h0 1 2, .sli h0 1 0xFFFFFF, .sliw h0 1 (-1),
   .movsr h0 1 0, .movsr h0 1 0x11, .sadd ⟨true, true, 7, 9⟩ 1 2 (.s 3)]

theorem witness_ScalarCompletes : ∀ q ∈ each ready scalarForms, Met q.1 q.2 fun _ _ _ _ => (scalarValue q.2).isSome :=
  met_all _ (fun _ i _ _ _ _ => (scalarValue i).isSome) (by decide +kernel)

/-- The vector integer class. -/
def vectorForms : List Instr :=
  [.vadd h0 (.ty .i32) 1 2 (.v 3), .vsub h0 (.ty .n64) 2 4 (.s 3), .vmul h0 (.ty .i64) 2 4 (.v 254), .vmulh h0 (.ty .i32) 1 2 (.v 3),
   .vmulhn h0 (.ty .i64) 2 4 (.v 6), .vmad h0 (.ty .i32) 1 2 (.v 3) (.s 4), .vdiv h0 (.ty .i64) 4 2 (.v 6), .vdivn h0 (.ty .i32) 1 2 (.v 3),
   .vand h0 (.ty .b32) 1 2 (.v 3), .vor h0 (.ty .b32) 255 2 (.v 3), .vxor h0 (.ty .n64) 2 2 (.v 4), .vnot h0 (.ty .b32) 1 2,
   .vshl h0 (.ty .i32) 1 2 (.imm 31), .vshr h0 (.ty .i64) 2 4 (.imm 63), .vsra h0 (.ty .i32) 1 2 (.v 3), .vrot h0 (.ty .b32) 1 2 (.s 3),
   .vmin h0 (.ty .i32) 1 2 (.v 3), .vmax h0 (.ty .i32) 1 2 (.v 3), .vminn h0 (.ty .i64) 2 4 (.v 6), .vmaxn h0 (.ty .i32) 1 2 (.v 3),
   .vabs h0 (.ty .i32) 1 2, .vneg h0 (.ty .i64) 2 4, .vclz h0 (.ty .n32) 1 2, .vpop h0 (.ty .b32) 1 2, .vbfe h0 (.ty .i32) 1 2 31 1,
   .vbfi h0 (.ty .n32) 1 2 0 32, .vbrev h0 (.ty .b32) 1 2, .vprmb h0 (.ty .b32) 1 2 (.v 3) (.v 4), .vsetp h0 (.ty .n64) 1 2 (.v 4) .le,
   .vsel h0 (.ty .f64) 2 4 (.v 6) 1, .vmov h0 (.ty .f32) 1 (.s 4), .vli h0 1 0x800000, .vlid h0 (.ty .f64) 2 (-1), .plop h0 1 2 7 6]

theorem witness_VectorIntegerCompletes : ∀ q ∈ each ready vectorForms, Met q.1 q.2 fun _ _ _ _ => (intWrites q.2).isSome :=
  met_all _ (fun _ i _ _ _ _ => (intWrites i).isSome) (by decide +kernel)

/-- Special functions, FFRC, FRND, UNPK and the bound class. -/
def laneForms : List Instr :=
  [.frcp h0 (.ty .f32) 1 2, .frsq h0 (.ty .f32) 1 2, .fexp2 h0 (.ty .f32) 1 2, .flog2 h0 (.ty .f32) 1 2, .fsin h0 (.ty .f32) 1 2,
   .fcos h0 (.ty .f32) 1 2, .ftanh h0 (.ty .f32) 1 2, .ffrc h0 (.ty .f32) 1 2, .frnd h0 .fmt .rd 1 2, .unpk h0 (.ty .f32) .e4m3 252 2,
   .bget h0 (.ty .b32) 1 2, .bset h0 (.ty .f32) 1 2 (.s 3), .bzero h0 (.ty .b32) 1 2, .bmax h0 (.ty .b32) 1 2 3, .btest h0 (.ty .f64) 1 2 none,
   .btest h0 (.ty .i32) 1 3 (some 4)]

theorem witness_SpecialAndBoundComplete : ∀ q ∈ each ready laneForms, Met q.1 q.2 fun _ _ _ _ => (laneWrites q.2).isSome :=
  met_all _ (fun _ i _ _ _ _ => (laneWrites i).isSome) (by decide +kernel)

/-- The floating-point class. -/
def floatForms : List Instr :=
  [.fadd h0 (.ty .f32) .auto .rne 1 2 (.v 3), .fsub h0 (.ty .f32) .t .dflt 1 2 (.v 3), .fmul h0 .fmt .s .rz 1 2 (.s 3),
   .fdiv h0 (.ty .f32) .f .ru 1 2 (.v 3), .fmin h0 (.ty .f32) .auto 1 2 (.v 3), .fmax h0 (.ty .f32) .t 1 2 (.v 3),
   .ffma h0 (.ty .f32) .auto 1 2 (.v 3) (.v 4), .fsqrt h0 (.ty .f32) .auto .rd 1 2, .hadd2 h0 (.ty .bf16) .auto .dflt 1 2 (.v 3),
   .hmul2 h0 (.ty .f16) .f .rz 1 2 (.v 3), .hfma2 h0 (.ty .f16) .auto 1 2 (.v 3) (.v 4), .dadd h0 (.ty .f64) .auto .rne 2 4 (.v 6),
   .dmul h0 (.ty .f64) .f .ru 2 4 (.v 6), .dfma h0 (.ty .f64) .auto 2 4 (.v 6) (.s 8), .ddiv h0 (.ty .f64) .auto .dflt 254 4 (.v 6)]

theorem witness_FloatCompletes : ∀ q ∈ each ready floatForms, Met q.1 q.2 fun _ _ _ _ => (floatElems q.2).isSome :=
  met_all _ (fun _ i _ _ _ _ => (floatElems i).isSome) (by decide +kernel)

/-- The conversions. -/
def convForms : List Instr :=
  [.cvt h0 (.ty .bf16) .f32 .sr 1 2 (.v 0), .cvt h0 (.ty .f32) .i4x .dflt 1 2 (.v 3), .cvti h0 (.ty .i32) .f32 .rz 1 2 (.s 3),
   .pack h0 (.ty .e4m3) .f32 .sr 1 4, .qnt h0 (.ty .i4x) .f32 .sr 40 0 44, .dqnt h0 (.ty .f32) .e2m1 .rne 8 0 40]

theorem witness_ConversionCompletes : ∀ q ∈ each ready convForms, Met q.1 q.2 fun _ _ _ _ => (convWrites q.2).isSome :=
  met_all _ (fun _ i _ _ _ _ => (convWrites i).isSome) (by decide +kernel)

/-- A divergence entry. -/
def div1 (calli : Bool) (pend : BitVec 4) : DivEntry :=
  { calli := calli, join := 0x100040, saved := 15, pend := pend, resume := 0x100020, fmt := 0x30 }

/-- The group is a member of B3, one slice expected. -/
def barState (gen : Word) : State :=
  (ready.updGroup 0 0 fun g => { g with bm := [(3, 1)] }).updTeam 0 0 fun m =>
    { m with nbars := 4, bars := [(3, { Bar.zero with gen := gen, e := 1 })] }

/-- Instructions that change nothing but their slice, each branch of their rules. -/
def sliceForms : List (State × Instr) :=
  each (regs [(4, 3)]) [.movrs h0 1 4, .movrs h0 0x0A 4, .movrs h0 0x0B 4, .movrs h0 0x0C 4, .movrs ⟨false, true, 7, 0⟩ 1 4] ++
  each ready [.bra h0 0x80000, .bra ⟨false, true, 7, 0⟩ 5, .brs h0 1 .eq 4, .brs h0 1 .ne 4, .brv h0 3 9, .brv (hg 1) 3 9, .yield h0, .nop hp,
    .waitt h0 4, .trap (hg 1) 5, .sysc (hg 1) 5, .setfmt h0 .f16 1, .setbud h0 (.imm true 0x3A80), .setbud h0 (.s 4), .fsetp h0 (.ty .f32) .auto 1 2 (.v 3) .nan,
    .chkb h0 (.ty .f32) 8 (some 32), .vtos h0 (.ty .i64) 4 2 none, .vtos h0 (.ty .f32) 4 2 (some 3), .vtos (hg 1) (.ty .i32) 4 2 none,
    .call h0 3, .call (hg 1) 3, .ret (hg 1), .calli h0 4, .calli (hg 1) 4, .gearw h0 7, .gearw (hg 1) 7, .barq (hg 1) 6 3] ++
  [(regs [(4, -1)], .waitt h0 4), (readyWith fun x => { x with p := 0b10 }, .brv (hg 1) 3 9),
   (readyWith fun x => { x with div := [div1 false 4] }, .join h0), (readyWith fun x => { x with div := [div1 false 0] }, .join h0),
   (readyWith fun x => { x with ret := [{ addr := 0x100800, flag := false }] }, .ret h0),
   (readyWith fun x => { x with ret := [{ addr := 0x100800, flag := true }], div := [div1 true 4] }, .ret h0),
   (readyWith fun x => { x with v := [(17, ⟨8, 0⟩)] }, .calli h0 4),
   (readyWith fun x => { x with cont := true, div := [div1 true 4] }, .calli h0 4),
   (readyWith fun x => { x with cont := true, div := [div1 true 4] }, .calli (hg 1) 4),
   (barState 0, .barw h0 3 5), (barState 1, .barw h0 3 5), (barState (-1), .barw h0 3 5), (barState 0, .barq h0 6 3)]

theorem witness_SliceInstructionsComplete : ∀ q ∈ sliceForms, Met q.1 q.2 fun g l c _ =>
    l.all fun k => (sliceAfter q.2 c (ctx q.1 g k) (g.slice k)).isSome :=
  met_all _ (fun s i g l c _ => l.all fun k => (sliceAfter i c (ctx s g k) (g.slice k)).isSome) (by decide +kernel)

theorem witness_SrseedCompletes : ∀ q ∈ each ready [.srseed h0 4, .srseed (hg 1) 4], Met q.1 q.2 fun _ _ _ _ => true :=
  met_all _ (fun _ _ _ _ _ _ => true) (by decide +kernel)

/-- The slices that leave, and those that may not: none, all, and the first of two. -/
theorem witness_ExitCompletes : ∀ q ∈ each (readyWith fun x => { x with p := 0b10 }) [.exit h0, .exit (hg 1)] ++
    [(readyWith fun x => { x with div := [div1 false 4] }, .exit h0), (pair ready fun x => { x with div := [div1 false 4] }, .exit h0)],
    Met q.1 q.2 fun _ _ _ _ => true :=
  met_all _ (fun _ _ _ _ _ _ => true) (by decide +kernel)

theorem witness_TrapInstructionsTrap :
    ∀ q ∈ each ready [.trap h0 0xFFFFFF, .sysc h0 5, .undefinedOpcode 0x6C07030201000300 7, .undefinedOpcode 0x2C07030201000300 0] ++
        each (pair ready fun x => { x with p := 0b10 }) [.trap (hg 1) 5, .sysc (hg 1) 5],
      isTrap q.2 = true ∧ Met q.1 q.2 fun g l _ _ => l.any fun k => (raises q.2 (ctx q.1 g k) (g.slice k)).isSome := by
  intro q hq
  exact ⟨List.all_eq_true.mp (show (_ : List (State × Instr)).all (fun q => isTrap q.2) = true by decide +kernel) q hq,
    met_all _ (fun s i g l _ _ => l.any fun k => (raises i (ctx s g k) (g.slice k)).isSome) (by decide +kernel) q hq⟩

/-- Instructions of one slice that trap on their operands, in user mode. -/
def trapForms : List (State × Instr) :=
  let full (v : DWord) (td : Nat) : State :=
    readyWith fun x => { x with s := [(29, v)], td := td, ret := List.replicate 8 { addr := 0x100800, flag := false },
                                levels := List.replicate td { vec := 2, gang := 0, dsn := 0, div := [], rsn := 0, ret := [], spill := 0 } }
  each (readyWith fun x => { x with s := [(4, 0xF0)] }) [.movrs h0 1 4, .movrs h0 0x0A 4] ++
  each ready [.join h0, .ret h0, .bara h0 5 3, .bars h0 127, .barw h0 3 5, .barq h0 6 3] ++
  [(readyWith fun x => { x with div := [div1 true 4] }, .join h0), (full 0x400004 0, .call h0 3), (full 0x400000 1, .call h0 3), (full 0x400004 0, .calli h0 4),
   (readyWith fun x => { x with s := [(29, 0x400004)], spill := 1 }, .ret h0),
   (readyWith fun x => { x with ret := [{ addr := 8, flag := true }] }, .ret h0), (readyWith fun x => { x with v := [(17, ⟨4, 0⟩)] }, .calli h0 4),
   (readyWith fun x => { x with cont := true }, .calli h0 4), (barState (-9), .barw h0 3 5),
   (readyWith fun x => { x with v := [(32, ⟨0x3F800000, 0x7F80⟩)] }, .chkb h0 (.ty .f32) 8 (some 1)),
   (readyWith fun x => { x with v := [(32, ⟨0x3F800000, 0x7F80⟩)] }, .vtos h0 (.ty .f32) 4 8 none)]

/-- Of which slices trap: all, and the first of two. -/
theorem witness_SliceInstructionsTrap : ∀ q ∈ trapForms ++
    [(pair (regs [(4, 3)]) fun x => { x with s := [(4, 0xF0)] }, .movrs h0 0x0A 4), (pair (readyWith fun x => { x with div := [div1 false 4] }) fun x => { x with div := [] }, .join h0),
     (pair ready fun x => { x with v := [(32, ⟨0x3F800000, 0x7F80⟩)] }, .chkb h0 (.ty .f32) 8 (some 1))],
    Met q.1 q.2 fun g l c _ => (l.all fun k => (plainOutcome q.2 c (ctx q.1 g k) (g.slice k)).isSome) &&
      l.any fun k => (sliceTrap q.2 (ctx q.1 g k) (g.slice k)).isSome :=
  met_all _ (fun s i g l c _ => (l.all fun k => (plainOutcome i c (ctx s g k) (g.slice k)).isSome) &&
    l.any fun k => (sliceTrap i (ctx s g k) (g.slice k)).isSome) (by decide +kernel)

/-- The privileged instructions. -/
def privForms : List Instr :=
  [.rft h0, .emret h0, .emretDcl h0, .stctx h0 0 4 0, .ldctx h0 0x13 4 0, .csrr h0 4 0, .csrw h0 0x05B 4, .tlbinvAll h0, .tlbinvAsid h0 4,
   .tlbinvPg h0 4 5, .haltKill h0, .haltSave h0 4, .haltSaveRls h0 4]

/-- In user mode, alone and beside a slice in which the guard selects no lane. -/
theorem witness_PrivilegedTrapsInUserMode : ∀ q ∈ each ready privForms ++ [(pair ready fun x => { x with p := 0b10 }, .haltKill (hg 1))],
    Met q.1 q.2 fun g l _ _ => match privHdr q.2 with
      | some h => (l.any fun k => (ctx q.1 g k).performs (g.slice k) h) && l.all fun k => !(g.slice k).pm
      | none => false :=
  met_all _ (fun s i g l _ _ => match privHdr i with
    | some h => (l.any fun k => (ctx s g k).performs (g.slice k) h) && l.all fun k => !(g.slice k).pm
    | none => false) (by decide +kernel)

/-- H2, of two slots of 128 bytes, its first slot in a state. -/
def ring (st : SlotSt) (fail : Bool) : State :=
  (regs [(4, 0x300000), (5, 0x300040), (6, 256), (7, 0x300100)]).setHandle 0 2
    { team := 0, base := 0, sz := 128, slots := [{ st := st, fail := fail }, { st := .free, fail := false }], p := 0, q := 0, f := 0 }

/-- The buffer instructions. -/
def bufferForms : List (State × Instr) :=
  [(ready, .bufdef h0 2 0 128 1), (ready, .bufdef h0 31 0 303104 0), (ready, .bufdef (hg 1) 2 0 128 1), (ring .full false, .waitb h0 5 2),
   (ring .full false, .acqb h0 false 5 2), (ring .full true, .acqb h0 true 5 2), (ring .drainProg false, .relb h0 2), (ready, .relb (hg 1) 2)]

theorem witness_BufferInstructionsComplete : ∀ q ∈ bufferForms, Met q.1 q.2 (turned bufferTurn 0 q.1 q.2) :=
  met_all _ (turned bufferTurn 0) (by decide +kernel)

/-- Turns that trap: a failed slot, a slot that is not drained, no handle, a group that is not attached, a range past the scratchpad, and a
handle in use; and the first of two slices. -/
def bufferTraps : List (State × Instr) :=
  [(ring .full true, .waitb h0 5 2), (ring .full true, .acqb h0 false 5 2), (ring .free false, .relb h0 2), (ready, .waitb h0 5 2),
   (readyGroup fun g => { g with attached := false }, .relb h0 2), (readyGroup fun g => { g with attached := false }, .bufdef h0 2 0 128 1),
   (ready, .bufdef h0 31 0 303104 1), (ring .full false, .bufdef h0 2 0 128 1), (pair ready fun x => { x with p := 0b10 }, .waitb (hg 1) 5 2)]

theorem witness_BufferInstructionsComplete_trap : ∀ q ∈ bufferTraps, Met q.1 q.2 (turned bufferTurn 1 q.1 q.2) :=
  met_all _ (turned bufferTurn 1) (by decide +kernel)

/-- The copies: with a handle, without one, and `.yield`. -/
def copyForms : List (State × Instr) :=
  [(ring .free false, .cpyin h0 { cp with x0 := 15 }), (ring .free false, .cpyin h0 { cp with hd := false, d := 6, yl := true, cont := 3 }),
   (ring .full false, .cpyout h0 cp), (ring .free false, .cpynb h0 { cp with a := 6 }), (ring .free false, .cpyin (hg 1) cp),
   (ring .free false, .cpyg h0 { cp with hd := false, d := 7, nd := 2, b := 6, c := 6, x1 := 1, x2 := 1 })]

theorem witness_CopiesEnterTheQueue : ∀ q ∈ copyForms, Met q.1 q.2 (turned copyTurn 0 q.1 q.2) :=
  met_all _ (turned copyTurn 0) (by decide +kernel)

/-- Copies that trap: on an address that is no multiple of 8, past the scratchpad, past a slot, with a failed slot, with no handle; and the first
of two slices. -/
def copyTraps : List (State × Instr) :=
  [((ring .free false).updSlice 0 0 0 fun x => { x with s := [(4, 0x300004)] }, .cpyin h0 cp),
   (regs [(4, 0x300000), (6, 303104)], .cpyin h0 { cp with hd := false, d := 6 }), (ring .free false, .cpyin h0 { cp with x0 := 16 }),
   (ring .full true, .cpyout h0 cp), (ready, .cpyin h0 cp), (readyGroup fun g => { g with attached := false }, .cpyin h0 cp),
   (pair ready fun x => { x with p := 0b10 }, .cpyin (hg 1) cp)]

theorem witness_CopiesEnterTheQueue_trap : ∀ q ∈ copyTraps, Met q.1 q.2 (turned copyTurn 1 q.1 q.2) :=
  met_all _ (turned copyTurn 1) (by decide +kernel)

/-- Arrivals that are made, and at a barrier that the team does not have. -/
theorem witness_ArrivalsComplete : (∀ q ∈ each (barState 0) [.bara h0 5 3, .bars h0 3], Met q.1 q.2 fun g l c n =>
      (arrival q.2).isSome && turned arriveTurn 0 q.1 q.2 g l c n) ∧
    ∀ q ∈ each (barState 0) [.bara h0 5 4, .bars h0 2], Met q.1 q.2 fun g l c n =>
      (arrival q.2).isSome && turned arriveTurn 1 q.1 q.2 g l c n :=
  ⟨met_all _ (fun s i g l c n => (arrival i).isSome && turned arriveTurn 0 s i g l c n) (by decide +kernel),
    met_all _ (fun s i g l c n => (arrival i).isSome && turned arriveTurn 1 s i g l c n) (by decide +kernel)⟩

/-- Sluice 5, enabled, with three records put and one released. -/
def sluiced : State :=
  (regs [(4, 5), (5, 1)]).setSluice 5 { base := 0x500000, cfg := 5, put := 3, rel := 1, host := 1, vlost := false }

/-- Requests that enter, and those of a sluice that is not enabled, of a number not put, and of one released; and one of two slices'. -/
theorem witness_SluiceInstructionsEnterTheQueue :
    (∀ q ∈ each sluiced [.slput h0 12 4 6, .slrel h0 4 5, .slveto h0 4 5, .slput (hg 1) 12 4 6], Met q.1 q.2 (turned sluiceTurn 0 q.1 q.2)) ∧
    ∀ q ∈ each sluiced [.slput h0 12 5 6, .slrel h0 4 4, .slveto h0 4 6] ++ [(pair sluiced fun x => { x with s := [(4, 6)] }, .slput h0 12 4 6)],
      Met q.1 q.2 (turned sluiceTurn 1 q.1 q.2) :=
  ⟨met_all _ (turned sluiceTurn 0) (by decide +kernel), met_all _ (turned sluiceTurn 1) (by decide +kernel)⟩

/-- At the handler of a vector in privileged mode, at trap depth 1, with an untouched frame in memory. -/
def kernel (v : Nat) : State :=
  let s := readyWith fun x =>
    { x with pm := true, td := 1, s := [(4, 0x300000), (5, 0x300040)],
             levels := [{ vec := v, gang := 0, dsn := 0, div := [], rsn := 0, ret := [], spill := 0 }] }
  let x := ready.slice 0 0 0
  ({ s with csr := { s.csr with tfbase := 0x200000 } } : State).writeBytes 0x200000
    (wordBytes (frameWords x 0 (illegal 0) v x.pc x.pc))

/-- Privileged instructions in privileged mode. -/
def kernelForms : List (State × Instr) :=
  each (kernel 0x02) [.emret h0, .rft h0, .csrr h0 4 0, .csrr h0 4 0x042, .csrr h0 4 0xBFF, .csrw h0 0 4, .csrw h0 0x02F 4, .tlbinvAll h0,
    .tlbinvAsid h0 4, .tlbinvPg h0 4 5, .haltKill h0, .stctx h0 0 4 0, .stctx h0 5 4 0x1F0, .ldctx h0 0x10 4 0, .ldctx h0 2 4 0, .rft (hg 1)] ++
  each (kernel 0x0D) [.haltSave h0 4, .haltSaveRls h0 4]

/-- Privileged instructions that trap on their operands: a register that is not there, an item that is not, an address within a line, and
HALT.save in no pre-emption. -/
theorem witness_SliceInstructionsTrap_kernel :
    ∀ q ∈ each ((kernel 0x02).updSlice 0 0 0 fun x => { x with s := [(4, 0x300008)] }) [.csrr h0 4 0x030, .csrw h0 0x030 4, .stctx h0 0 4 0, .ldctx h0 0x2F 4 0, .haltSave h0 4] ++
        each ((kernel 0x0D).updSlice 0 0 0 fun x => { x with s := [(4, 0x300008)] }) [.haltSave h0 4, .haltSaveRls h0 4], Met q.1 q.2 fun g l _ _ =>
    l.all fun k => (sliceTrap q.2 (ctx q.1 g k) (g.slice k)).isSome :=
  met_all _ (fun s i g l _ _ => l.all fun k => (sliceTrap i (ctx s g k) (g.slice k)).isSome) (by decide +kernel)

theorem witness_PrivilegedInstructionsComplete : ∀ q ∈ kernelForms, Met q.1 q.2 (paged privTurn 0 q.1 q.2) :=
  met_all _ (paged privTurn 0) (by decide +kernel)

/-- Those that trap: a return at trap depth 0, one through a frame out of its limits, EMRET of another vector, a register and an item that are not
there, an address within a line, HALT.save in no pre-emption, a poisoned item; and in user mode the first of two slices. -/
def kernelTraps : List (State × Instr) :=
  [(readyWith fun x => { x with pm := true }, .rft h0), ((kernel 2).writeBytes 0x200000 (List.replicate 128 0), .rft h0), (kernel 3, .emret h0),
   (kernel 2, .csrr h0 4 0x030), (kernel 2, .csrw h0 0x030 4), ((kernel 2).updGroup 0 0 fun g => { g with allot := 8 }, .ldctx h0 0x2F 4 0), (kernel 2, .haltSave h0 4),
   ((kernel 0x0D).updSlice 0 0 0 fun x => { x with s := [(4, 0x300008)] }, .haltSave h0 4),
   ((kernel 2).updSlice 0 0 0 fun x => { x with s := [(4, 0x300008)] }, .stctx h0 0 4 0), ({ kernel 2 with poison := [0x60001] }, .ldctx h0 0 4 0),
   (pair (readyWith fun x => { x with pm := true }) fun x => { x with pm := false }, .csrr h0 4 0)]

theorem witness_PrivilegedInstructionsComplete_trap : ∀ q ∈ kernelTraps, Met q.1 q.2 (paged privTurn 1 q.1 q.2) :=
  met_all _ (paged privTurn 1) (by decide +kernel)

/-! ## Memory, hints and tasks -/

/-- S4 at a mapped page, S5 at a page that is not resident, S6 at an unmapped one, S7 at the last word of the scratchpad; lane l's octet
V2 at 0x300000 + 64 l. -/
def mem0 : State :=
  (readyWith fun x =>
    { x with s := [(4, 0x300000), (5, 0x40000000), (6, 0x80000000), (7, 303088), (8, 303092)],
             v := [(8, ⟨0x300000, 0⟩), (9, ⟨0x300040, 0⟩), (10, ⟨0x300080, 0⟩), (11, ⟨0x3000C0, 0⟩)] }).writeBytes 0x82008 (leBytes 8 0x4000003B)

/-- The memory instructions, each path of their rules. -/
def memoryForms : List (State × Instr) :=
  each mem0 [.ld h0 .w (.s 4) 8 0x200 .grp .rlx false none, .ld h0 .d (.v 2) 8 0x1FF .sys .acq true none, .ld h0 .q (.v 2) 8 0 .grp .rlx false (some 1),
    .ld h0 .b (.s 5) 8 0 .grp .rlx false (some 1), .ld (hg 1) .b (.s 4) 8 0 .pkg .acq false none, .lds h0 .w (.s 7) 8 0 .grp .rlx,
    .lds h0 .h (.v 60) 8 1 .grp .acq, .sld h0 .d 4 8 0 .die .acq, .st h0 .w (.s 4) 8 0 .grp .rlx false, .st h0 .q (.v 2) 8 1 .dom .rel true,
    .st (hg 1) .q (.v 2) 8 1 .dom .rel false, .sts h0 .d (.s 0) 8 0x1FF .grp .rlx false, .sst h0 .w 4 5 0x1FF .clu .rel,
    .atom h0 .w (.v 2) 8 9 .add .flt .pkg .ar false, .atom h0 .d (.s 4) 8 9 .exch .nat .grp .rlx true, .atoms h0 .w (.v 60) 8 9 .min .int .grp .acq false,
    .cas h0 .d (.v 2) 8 10 1 .sys .ar false, .cass h0 .w (.s 0) 8 9 1 .grp .rlx false, .ldf h0 .d (.v 2) 8 0 .grp .acq 1, .stf h0 .w (.v 2) 8 0 .grp .rel,
    .clrf h0 (.v 2) 0 .grp .rel, .cctlCln1 h0 (.s 4) 0 .grp, .cctlInv1 h0 (.v 2) 0 .grp, .cctlClnm h0 (.s 4) 0 .pkg, .cctlFlsm h0 (.s 4) 0 .sys,
    .cctlInvi h0 (.s 4) 0 .grp] ++
  each { mem0 with emptyGran := [(0x300000 / 8, 0)] } [.ldf h0 .d (.v 2) 8 0 .grp .acq 1]

theorem witness_MemoryInstructionsComplete :
    ∀ q ∈ memoryForms,
      Met q.1 q.2 fun g l _ _ => (memAfter q.2 q.1 0 0 g l).isSome :=
  met_all _ (fun s i g l _ _ => (memAfter i s 0 0 g l).isSome) (by decide +kernel)

/-- An address that is no multiple of the size, a bound above the budget, and a place beyond the scratchpad. -/
def memTraps : List (State × Instr) :=
  each mem0 [.ld h0 .q (.s 8) 8 0 .grp .rlx false none, .sts h0 .d (.s 4) 8 0 .grp .rlx false, .lds h0 .d (.s 4) 8 0 .grp .rlx,
    .cass h0 .w (.s 8) 8 9 3 .grp .rlx false, .sld h0 .d 8 5 0 .grp .rlx] ++
  each (readyWith fun x => { x with s := [(4, 0x300000)], v := [(32, ⟨5, 0x3F80⟩)] })
    [.st h0 .w (.s 4) 8 0 .grp .rlx false, .sts h0 .w (.s 0) 8 0 .grp .rlx false]

theorem witness_MemoryChecksTrapTheBeat :
    ∀ q ∈ memTraps, Met q.1 q.2 fun g l _ _ => match memForm q.2 with
      | some F => (memTrap F q.1 0 0 g l).isSome
      | none => false :=
  met_all _ (fun s i g l _ _ => match memForm i with
    | some F => (memTrap F s 0 0 g l).isSome
    | none => false) (by decide +kernel)

/-- Some lookup of the beat, which none holds, reads a poisoned entry. -/
def poisonedWalk : FormProp := fun s i g l _ _ =>
  (lookedUp i s 0 0 g l).any fun rs => !s.walkHeld 0 g.asid (rs.map LaneReq.va) && rs.any fun r => (s.walkPoison 0 g.asid r.va).isSome

/-- No check fails, the pages are there, nothing waits, and an access consumes poison. -/
def poisonedData : FormProp := fun s i g l _ _ =>
  (memForm i).any fun F => (memTrap F s 0 0 g l).isNone && (memPages F s 0 0 g l).any fun p =>
    !memWaits i F p.1 0 g (memHere F p.1 p.2 0 0 g l s) && !(memPoison i F s p.1 p.2 0 0 g l).1.isEmpty

/-- Accesses whose table entry is poisoned: of memory, of lines, and of a stack entry. -/
theorem witness_MemoryChecksTrapTheBeat_table :
    ∀ q ∈ each { mem0 with poison := [0x82000 / 8] } [.ld h0 .w (.s 4) 8 0 .grp .rlx false none, .st h0 .w (.s 4) 8 0 .grp .rlx false,
          .pgreq h0 (.s 4) false 0 .grp] ++
        [({ readyWith (fun x => { x with s := [(29, 0x400000)], ret := List.replicate 8 { addr := 8, flag := false } }) with poison := [0x82000 / 8] },
          .call h0 3)],
      Met q.1 q.2 (poisonedWalk q.1 q.2) :=
  met_all _ poisonedWalk (by decide +kernel)

/-- A load, an atomic, an LDF of a FULL granule, of poisoned data; a store that builds on a poisoned tag, and a load through one. -/
theorem witness_MemoryChecksTrapTheBeat_data :
    ∀ q ∈ each { mem0 with poison := [0x300000 / 8] } [.ld h0 .w (.s 4) 8 0 .grp .rlx false none, .sld h0 .d 4 8 0 .grp .rlx,
          .atom h0 .w (.s 4) 8 9 .add .nat .grp .rlx false, .ldf h0 .w (.s 4) 8 0 .grp .rlx 1] ++
        each { mem0 with badTags := [0x300000 / 64] } [.st h0 .w (.s 4) 8 0 .grp .rlx false, .ld h0 .w (.s 4) 8 0 .grp .rlx false none,
          .stf h0 .w (.s 4) 8 0 .grp .rlx],
      Met q.1 q.2 (poisonedData q.1 q.2) :=
  met_all _ poisonedData (by decide +kernel)

/-- Accesses of pages that are unmapped or not resident: of memory instructions, of stack entries, of context items, of frames. -/
def pageForms : List (State × Instr) :=
  let full (v : DWord) : State :=
    readyWith fun x => { x with s := [(29, v)], ret := List.replicate 8 { addr := 0x100800, flag := false } }
  each mem0 [.ld h0 .w (.s 6) 8 0 .grp .rlx false none, .ld h0 .w (.s 5) 8 0 .grp .rlx false none, .ld h0 .w (.s 6) 8 0 .grp .rlx false (some 1),
    .st h0 .w (.s 6) 8 0 .grp .rlx false, .sst h0 .w 5 4 0 .grp .rlx, .atom h0 .w (.s 6) 8 9 .add .nat .grp .rlx false, .ldf h0 .w (.s 5) 8 0 .grp .rlx 1,
    .clrf h0 (.s 6) 0 .grp .rlx, .cctlCln1 h0 (.s 6) 0 .grp] ++
  each (full 0x80000000) [.call h0 3, .calli h0 4] ++
  [(readyWith fun x => { x with s := [(29, 0x80000000)], spill := 2 }, .ret h0)] ++
  each ((kernel 2).updSlice 0 0 0 fun x => { x with s := [(4, 0x80000000)] }) [.stctx h0 0 4 0, .ldctx h0 2 4 0] ++
  each { kernel 2 with csr := { (kernel 2).csr with tfbase := 0x80000000 } } [.rft h0, .emret h0, .emretDcl h0]

/-- Some page of the beat's accesses has a cause. -/
def pageBad : FormProp := fun s i g l _ _ =>
  match pagedReqs i s 0 0 g l with
  | some (kind, nr, rs) => !lookStops s 0 g rs &&
      !((s.translate 0 g.asid kind (fun lane => (g.slice (lane / 4)).pm) (rs.map fun r => (r.lane, r.va))).1.filter fun b =>
        decide (b.page.cause ≠ 0) && !(nr && decide (b.page.cause = 2))).isEmpty
  | none => false

theorem witness_PagesFaultTheBeat : ∀ q ∈ pageForms, Met q.1 q.2 (pageBad q.1 q.2) := met_all _ pageBad (by decide +kernel)

theorem witness_FencesAndHintsComplete :
    ∀ q ∈ each mem0 [.fence h0 15 .sys .ar, .fence h0 1 .grp .acq, .fence h0 8 .pkg .rel, .pref h0 (.v 2) false 0 .grp, .pref h0 (.s 6) true 1 .grp,
        .pgreq h0 (.s 5) false 0 .grp, .pgreq h0 (.s 6) true 0 .grp, .gear h0 true, .gear h0 false, .nopre h0, .pre h0],
      Met q.1 q.2 fun g l _ _ => (hintAfter q.2 q.1 0 0 g l).isSome :=
  met_all _ (fun s i g l _ _ => (hintAfter i s 0 0 g l).isSome) (by decide +kernel)

/-- The launch 0 of code object 9, loaded at 0x100000, and a task record for it in lane 0 of V16 to V31: entry 0x100008, widths 4. -/
def tasked : State :=
  let s := readyWith fun x => { x with p := 2, v := [(64, ⟨0x100008, 0⟩), (92, ⟨0, 0⟩)].filter (fun q => q.1 = 64) ++ [(4 * 23, ⟨0x00040400, 0⟩)] }
  { s with
    launches := [{ id := 0, queue := 0, level := 0, asid := 0, words := [0, 0, 0, 0, 0, 0, 0, 0, 0, 9], placed := 1, complete := 0, kills := [],
                   lost := false, asked := false }],
    objects := [{ handle := 9, asid := 0, base := 0x100000, size := 4096 }] }

theorem witness_SpawnCompletes : ∀ q ∈ each tasked [.spawn (hg 1) 2 16, .spawn (hg 3) 2 16], Met q.1 q.2 fun g l _ _ =>
    match q.2 with
    | .spawn h pd a => (spawnAfter q.2 h pd a q.1 0 0 g l).isSome
    | _ => false :=
  met_all _ (fun s i g l _ _ => match i with
    | .spawn h pd a => (spawnAfter i h pd a s 0 0 g l).isSome
    | _ => false) (by decide +kernel)

/-- Records whose entry is no multiple of 8, or lies outside the code object. -/
theorem witness_SpawnCompletes_trap : ∀ q ∈ [(tasked.updSlice 0 0 0 fun x => { x with v := [(64, ⟨0x100004, 0⟩)] }, Instr.spawn h0 2 16),
    (tasked.updSlice 0 0 0 fun x => { x with v := [(64, ⟨0x200000, 0⟩)] }, .spawn h0 2 16)], Met q.1 q.2 fun g l _ _ => match q.2 with
      | .spawn h _ a => (spawnCheck q.1 0 g (spawnRecs q.1 0 0 g l h a)).isSome
      | _ => false :=
  met_all _ (fun s i g l _ _ => match i with
    | .spawn h _ a => (spawnCheck s 0 g (spawnRecs s 0 0 g l h a)).isSome
    | _ => false) (by decide +kernel)

/-! ## Collectives -/

/-- A group of eight slices, of which slice k stands at 0x100000 + 8 d k and all but slice 0 wait as given; slices 0 and on are in focus. -/
def octet (d : Nat) (w : Wait) (fs : List Nat) : State :=
  let x (k : Nat) : Slice :=
    { Slice.starting (BitVec.ofNat 64 (0x100000 + 8 * d * k)) [(4, 6), (10, 0x1000000000000)] with gang := k, v := [(8, ⟨k, 0⟩)] }
  { (readyGroup fun g => { g with grant := 32, slices := (List.range 8).map fun k => (k, if k = 0 then x 0 else { x k with wait := w }) }) with
    focus := { tile := 0, slot := 0, slices := fs } }

/-- Every collective instruction, with operands that pass its checks. -/
def collectives : List Instr :=
  [.regang h0, .setw h0 4 96 none, .setw h0 4 4 (some 5), .attach h0 .none 8 10, .detach h0 true, .detach h0 false, .shfl h0 (.ty .b32) 1 2 (.v 2) 1,
   .shflu h0 (.ty .f64) 4 2 (.imm 1) 1, .shfld h0 (.ty .b32) 1 2 (.s 4) 1, .shflx h0 (.ty .b32) 1 2 (.imm 127) 7, .bcast h0 (.ty .b32) 1 2 (.s 4) 1,
   .red h0 (.ty .i32) .auto .add 1 2 7 1, .scan h0 (.ty .f32) .auto .max true 1 2 7 1, .vote h0 .ballot 12 1 7, .vote h0 .uni 1 1 7,
   .matchv h0 (.ty .b32) 8 2 7 1, .first h0 4 7 1, .mzero h0 5, .mld h0 (.ty .f32) 40 0 31 0, .mscl h0 (.ty .f32) 0 2 1,
   .mma h0 (.ty .f16) .f16 .auto 0 16 (.s 5) 0 true false false, .mst h0 (.ty .f32) .f32 .rne 0 5 5 0 false false]

theorem witness_CollectivesWaitForTheGroup : ∀ i ∈ collectives, ∃ g l, Arrives (octet 0 .run [0]) i g l ∧
    (isCollective i && g.liveIdx.any fun k => !l.elem k && (g.slice k).wait.coll?.isNone) = true :=
  fun i hi => arrives_of _ i (fun g l => isCollective i && g.liveIdx.any fun k => !l.elem k && (g.slice k).wait.coll?.isNone)
    (List.all_eq_true.mp (show (collectives.all fun i => arrivesB (octet 0 .run [0]) i fun g l =>
      isCollective i && g.liveIdx.any fun k => !l.elem k && (g.slice k).wait.coll?.isNone) = true by decide +kernel) i hi)

/-- What `Gathered` says. -/
def gatheredB (g : Group) (i : Instr) (l : List Nat) : Bool :=
  (g.liveIdx.all fun k => (l.elem k || (g.slice k).wait.coll?.isSome) && (g.slice k).drainable && (g.slice k).asyncNow.isNone &&
    (l.elem k || decide ((g.slice k).wait.coll? = some (withHint 0 i)))) && g.sound

theorem gathered_of (g : Group) (i : Instr) (l : List Nat) (h : gatheredB g i l = true) : Gathered g i l := by
  unfold gatheredB at h
  simp only [List.all_eq_true, Bool.and_eq_true, Bool.or_eq_true, List.elem_eq_mem, decide_eq_true_eq, Option.isNone_iff_eq_none] at h
  exact ⟨fun k hk => (h.1 k hk).1.1.1, fun _ k hk => (h.1 k hk).2, fun k hk => (h.1 k hk).1.1.2, fun k hk => (h.1 k hk).1.2, h.2⟩

/-- The group once both slices have come, and their results have returned. -/
def met (d : Nat) (i : Instr) : Option (State × Group) :=
  gathered ((octet d (.rdv i) [0]).updSlice 0 0 0 fun x => { x with wait := .rdv i, parkPc := x.pc, wset := 0 }) 0 0

/-- The premises that `CollectivesComplete` and `CollectivesTrapTogether` share, and whether the group stands at one address. -/
theorem witness_Collectives : ∀ i ∈ collectives, ∀ d ∈ [0, 1], ∃ g l, Arrives (octet d (.rdv i) [0]) i g l ∧ Gathered g i l ∧
    (isCollective i && decide (d = 0 ↔ ∀ k ∈ g.liveIdx, (g.slice k).pc = g.leader.pc)) = true := by
  intro i hi d hd
  have key : (collectives.all fun i => [0, 1].all fun d => arrivesB (octet d (.rdv i) [0]) i fun g l =>
      gatheredB g i l && (isCollective i && decide (d = 0 ↔ ∀ k ∈ g.liveIdx, (g.slice k).pc = g.leader.pc))) = true := by decide +kernel
  obtain ⟨g, l, h1, h2⟩ := arrives_of _ i _ (List.all_eq_true.mp (List.all_eq_true.mp key i hi) d hd)
  rw [Bool.and_eq_true] at h2
  exact ⟨g, l, h1, gathered_of g i l h2.1, h2.2⟩

/-- With both slices gathered, no check of any of them fails: the last premise of `CollectivesComplete`, on the machine that has both
slices parked. -/
theorem witness_CollectivesComplete : (collectives.all fun i =>
    match met 0 i with
    | some p => (collective i p.1 0 0 p.2).isSome
    | none => false) = true := by decide +kernel

/-- Collectives whose own check fails: a width that cannot be granted, a handler at no multiple of 8, a barrier that the team does not have,
and an operand of the matrix unit past the allotment. -/
def badCollectives : List Instr :=
  [.setw h0 4 4 (some 4), .attach h0 .none 10 8, .attach h0 .producer 8 8, .mma h0 (.ty .f16) .f16 .auto 63 248 (.s 5) 0 true false false]

theorem witness_CollectivesTrapTogether : (badCollectives.all fun i => (arrivesB (octet 0 (.rdv i) [0]) i fun g l => gatheredB g i l && isCollective i) &&
    match met 0 i with
    | some p => (collectiveTrap i p.1 0 p.2).isSome
    | none => false) = true := by decide +kernel

/-- The machine in which the group presents a collective. -/
def presenting (i : Instr) : State :=
  match met 0 i with
  | some p => match collective i p.1 0 0 p.2 with
    | some s => s
    | none => p.1
  | none => State.reset

theorem witness_PresentedCollectivesComplete : ((collectives.filter fun i => (crossWrites i).isSome || Instr.isMatrix i).all fun i =>
    let s := presenting i
    match s.group? s.focus.tile s.focus.slot with
    | some g => s.powered && s.booted && (s.focus.slices.any fun k => (g.slice k).live) && decide (g.presented? = some (withHint 0 i)) &&
        (presented (withHint 0 i) s s.focus.tile s.focus.slot g).isSome
    | none => false) = true := by decide +kernel

/-! ## Calls, traps and returns -/

/-- Calls and returns: on a full stack, from a spilled one, and of CALLI. -/
def callForms : List (State × Instr) :=
  let e (n : Nat) (fl : Bool) : RetEntry := { addr := BitVec.ofNat 64 (0x100800 + 8 * n), flag := fl }
  let full (f : Slice → Slice) : State :=
    readyWith fun x => f { x with s := [(29, 0x400000)], ret := (List.range 8).map fun n => e n false }
  each ready [.call h0 3, .call (hg 1) 3, .ret (hg 1), .calli (hg 1) 4, .calli h0 4] ++ each (full id) [.call h0 0x80000, .calli h0 4, .ret h0] ++
  [(full fun x => { x with ret := [], spill := 2 }, .ret h0),
   (readyWith fun x => { x with ret := [e 0 true], div := [div1 true 4] }, .ret h0),
   (readyWith fun x => { x with v := [(17, ⟨8, 0⟩)] }, .calli h0 4),
   (readyWith fun x => { x with cont := true, div := [div1 true 4] }, .calli h0 4),
   (readyWith fun x => { x with cont := true, div := [div1 true 4] }, .calli (hg 1) 4)]

theorem witness_CallsComplete : ∀ q ∈ callForms, Met q.1 q.2 (paged callTurn 0 q.1 q.2) := met_all _ (paged callTurn 0) (by decide +kernel)

/-- Calls and returns that trap: an entry that may not be spilled, a flagged entry under no CALLI, in the stack and filled from memory, an empty
stack, a target that is no multiple of 8; and the first of two slices. -/
def callTraps : List (State × Instr) :=
  let e (fl : Bool) : RetEntry := { addr := 0x100800, flag := fl }
  [(readyWith fun x => { x with s := [(29, 0x400004)], ret := List.replicate 8 (e false) }, .call h0 3),
   (readyWith fun x => { x with ret := [e true], div := [div1 false 4] }, .ret h0), (readyWith fun x => { x with ret := [e true] }, .ret h0),
   ((readyWith fun x => { x with s := [(29, 0x400008)], spill := 1 }).writeBytes 0x400000 (leBytes 8 0x100801), .ret h0),
   (ready, .ret h0), (readyWith fun x => { x with v := [(17, ⟨4, 0⟩)] }, .calli h0 4),
   (pair (readyWith fun x => { x with ret := [e false] }) fun x => { x with ret := [] }, .ret h0)]

theorem witness_CallsComplete_trap : ∀ q ∈ callTraps, Met q.1 q.2 (paged callTurn 1 q.1 q.2) := met_all _ (paged callTurn 1) (by decide +kernel)

/-- Those of `CallPushesAndJumps` and of `ReturnFromCall` are met where these turns are made. -/
theorem witness_CallPushesAndJumps : (∀ q ∈ callForms.filter (fun q => match q.2 with
      | .call .. | .ret _ => true
      | _ => false), Met q.1 q.2 (paged callTurn 0 q.1 q.2)) ∧
    ∀ q ∈ callTraps.filter (fun q => match q.2 with
      | .call .. | .ret _ => true
      | _ => false), Met q.1 q.2 (paged callTurn 1 q.1 q.2) :=
  ⟨met_all _ (paged callTurn 0) (by decide +kernel), met_all _ (paged callTurn 1) (by decide +kernel)⟩

/-- The turn at EMRET.dcl. -/
def declined : Instr → List BeatPage → State → Ctx → Slice → SliceTurn
  | .emretDcl h => declineTurn h
  | _ => fun _ _ _ _ => none

theorem witness_EmretDclDeclines : ∀ q ∈ each (kernel 2) [.emretDcl h0] ++ each (kernel 3) [.emretDcl h0] ++
    [(pair (kernel 2) fun x => { x with p := 0b10 }, .emretDcl (hg 1))], Met q.1 q.2 (paged declined 1 q.1 q.2) :=
  met_all _ (paged declined 1) (by decide +kernel)

theorem witness_RstctlResets : ∀ q ∈ each (readyWith fun x => { x with pm := true, s := [(4, 0x57520001), (5, 0x57520000)] })
    [.csrw h0 0x05B 4, .csrw h0 0x05B 5, .csrw (hg 1) 0x05B 4], Met q.1 q.2 fun g l _ _ => (inTurn (fun r k => match q.2 with
      | .csrw h _ a => resetTurn h a r (ctx q.1 g k) (g.slice k)
      | _ => none) q.1 l).isSome :=
  met_all _ (fun s i g l _ _ => (inTurn (fun r k => match i with
    | .csrw h _ a => resetTurn h a r (ctx s g k) (g.slice k)
    | _ => none) s l).isSome) (by decide +kernel)

/-- The machine with trap frames at an address, its slice at a trap depth. -/
def framed (tfbase : DWord) (td : Nat) : State :=
  let s := readyWith fun x =>
    { x with td := td, levels := List.replicate td { vec := 2, gang := 0, dsn := 0, div := [], rsn := 0, ret := [], spill := 0 } }
  { s with csr := { s.csr with tfbase := tfbase } }

theorem witness_TrapEntry : ∀ td ∈ [0, 1], ∃ g, (framed 0x200000 td).group? 0 0 = some g ∧ (g.slice 0).live = true ∧
    (g.slice 0).drainable = true ∧ (g.slice 0).td ≠ 2 ∧ killsTeam (illegal 0) = false ∧
    (delivering (framed 0x200000 td) 0 0 0 (illegal 0)).frameHeld 0 0 0 = false ∧
    frameMapped (delivering (framed 0x200000 td) 0 0 0 (illegal 0)) 0 0 g (frameAddr 0x200000 0 0 0 td) = true := by
  intro td h
  have key : ([0, 1].all fun td => match (framed 0x200000 td).group? 0 0 with
    | some g => (g.slice 0).live && (g.slice 0).drainable && decide ((g.slice 0).td ≠ 2) &&
        !(delivering (framed 0x200000 td) 0 0 0 (illegal 0)).frameHeld 0 0 0 &&
        frameMapped (delivering (framed 0x200000 td) 0 0 0 (illegal 0)) 0 0 g (frameAddr 0x200000 0 0 0 td)
    | none => false) = true := by decide +kernel
  have k := List.all_eq_true.mp key td h
  split at k
  · rename_i g hg
    simp only [Bool.and_eq_true, decide_eq_true_eq, Bool.not_eq_true'] at k
    exact ⟨g, hg, k.1.1.1.1, k.1.1.1.2, k.1.1.2, rfl, k.1.2, k.2⟩
  · exact absurd k Bool.false_ne_true

/-- At trap depth 2, with a frame address that is not mapped, with one whose table entry is poisoned, and with copies that differ a second
time. -/
theorem witness_TrapKillsTheTeam : differTrap.vec = 0x0E ∧ differTrap.code = 2 ∧ ∀ s ∈ [framed 0x200000 2, framed 0x80000000 0,
      { framed 0x200000 0 with poison := [0x82000 / 8] }], ∃ g m, s.group? 0 0 = some g ∧
    s.team? 0 g.team = some m ∧ (g.slice 0).live = true ∧ (g.slice 0).drainable = true ∧ (delivering s 0 0 0 (illegal 0)).frameHeld 0 0 0 = false ∧
    ((g.slice 0).td = 2 ∨ frameMapped (delivering s 0 0 0 (illegal 0)) 0 0 g (frameAddr s.csr.tfbase 0 0 0 (g.slice 0).td) = false) := by
  refine ⟨rfl, rfl, fun s h => ?_⟩
  have key : ([framed 0x200000 2, framed 0x80000000 0, { framed 0x200000 0 with poison := [0x82000 / 8] }].all fun s => match s.group? 0 0 with
    | some g => (s.team? 0 g.team).isSome && (g.slice 0).live && (g.slice 0).drainable &&
        !(delivering s 0 0 0 (illegal 0)).frameHeld 0 0 0 &&
        (decide ((g.slice 0).td = 2) || !frameMapped (delivering s 0 0 0 (illegal 0)) 0 0 g (frameAddr s.csr.tfbase 0 0 0 (g.slice 0).td))
    | none => false) = true := by decide +kernel
  have k := List.all_eq_true.mp key s h
  split at k
  · rename_i g hg
    simp only [Bool.and_eq_true, Bool.or_eq_true, decide_eq_true_eq, Option.isSome_iff_exists, Bool.not_eq_true'] at k
    obtain ⟨m, hm⟩ := k.1.1.1.1
    exact ⟨g, m, hg, hm, k.1.1.1.2, k.1.1.2, k.1.2, k.2⟩
  · exact absurd k Bool.false_ne_true

/-- The state after an instruction or event. -/
def after (i : Instr) (s : State) : State :=
  match exec i s with
  | .next r => r
  | _ => s

/-- The high half of V2 in lane 1 holds an error. -/
def halfBad : State := readyWith fun x => { x with bad := [(9, 2)] }

/-- The same in a group of copies in lockstep, whose results have differed n times. -/
def copies (n : Nat) : State := (readyWith fun x => { x with glitch := n }).updGroup 0 0 fun g => { g with dual := true }

/-- Of an instruction that uses both halves: every slice consumes the error, or its copies differ a second time; of one that uses one half,
and where copies differ for the first time, the instruction completes; and where the first of two slices consumes it, the other completes. -/
theorem witness_RegisterErrorsTrap :
    (∀ q ∈ each halfBad [.vadd h0 (.ty .i32) 1 2 (.v 3)] ++ each (copies 2) [.vadd h0 (.ty .i32) 1 2 (.v 3), .exit h0],
      (q.2.kind ≠ .event ∧ isCollective q.2 = false) ∧ ∃ g l c cost, MayIssue q.1 q.2 g l c cost ∧
        (l.all fun k => (upsetTrap q.1 0 0 g q.2 k).isSome) = true) ∧
    ∀ q ∈ each halfBad [.cvt h0 (.ty .f32) .bf16 .dflt 1 2 (.v 0)] ++ each (copies 1) [.vadd h0 (.ty .i32) 1 2 (.v 3)] ++
        [(pair ready fun x => { x with bad := [(9, 2)] }, .vadd h0 (.ty .i32) 1 2 (.v 3))],
      (q.2.kind ≠ .event ∧ isCollective q.2 = false) ∧ ∃ g l c cost, MayIssue q.1 q.2 g l c cost ∧
        (let s1 := l.foldl (upsetNotes q.1 0 0 g q.2) q.1
         let go := l.filter fun k => (upsetTrap q.1 0 0 g q.2 k).isNone
         !go.isEmpty && (s1.group? 0 0).any fun g1 => go.all fun k => (plainOutcome q.2 c (ctx s1 g1 k) (g1.slice k)).isSome) = true := by
  constructor
  · intro q hq
    refine ⟨?_, may_of _ _ _ (List.all_eq_true.mp (show (_ : List (State × Instr)).all (fun q => mayB q.1 q.2 fun g l _ _ =>
      l.all fun k => (upsetTrap q.1 0 0 g q.2 k).isSome) = true by decide +kernel) q hq)⟩
    exact of_decide_eq_true (List.all_eq_true.mp (show (_ : List (State × Instr)).all (fun q => decide (q.2.kind ≠ .event ∧ isCollective q.2 = false)) =
      true by decide +kernel) q hq)
  · intro q hq
    refine ⟨?_, may_of _ _ _ (List.all_eq_true.mp (show (_ : List (State × Instr)).all (fun q => mayB q.1 q.2 fun g l c _ =>
      let s1 := l.foldl (upsetNotes q.1 0 0 g q.2) q.1
      let go := l.filter fun k => (upsetTrap q.1 0 0 g q.2 k).isNone
      !go.isEmpty && (s1.group? 0 0).any fun g1 => go.all fun k => (plainOutcome q.2 c (ctx s1 g1 k) (g1.slice k)).isSome) =
        true by decide +kernel) q hq)⟩
    exact of_decide_eq_true (List.all_eq_true.mp (show (_ : List (State × Instr)).all (fun q => decide (q.2.kind ≠ .event ∧ isCollective q.2 = false)) =
      true by decide +kernel) q hq)

/-- Of presented instructions: a cross-lane one and one of the matrix unit that consume an error in a register, the latter one in an
accumulator, and copies that differ a second time. -/
theorem witness_RegisterErrorsTrap_presented :
    (let i : Instr := .shfl h0 (.ty .b32) 1 2 (.v 2) 1
     let s := (presenting i).updSlice 0 0 0 fun x => { x with bad := [(8, 2)] }
     match s.group? 0 0 with
     | some g => s.powered && s.booted && decide (g.presented? = some i) && (crossWrites i).isSome && (s.classCost 0 0 g g.liveIdx i ((g.grant + 31) / 32)).isSome &&
         !g.sound && !(collBad s 0 0 g i).1.isEmpty
     | none => false) = true ∧
    (let i : Instr := .mld h0 (.ty .f32) 40 0 31 0
     let s (dual : Bool) (n : Nat) (acc : Nat) : State := (((presenting i).updSlice 0 0 0 fun x => { x with glitch := n }).updGroup 0 0 fun g =>
       { g with dual := dual }).updTile 0 fun x => { x with accBad := [acc] }
     [(false, 0, 15), (true, 2, 15), (true, 1, 15)].all fun p => match (s p.1 p.2.1 p.2.2).group? 0 0 with
     | some g => decide (g.presented? = some i) && ((s p.1 p.2.1 p.2.2).mxAccepts 0 0 g).isSome && !((s p.1 p.2.1 p.2.2).mxBad 0 0 g i).2.isEmpty
     | none => false) = true ∧
    (let i : Instr := .mst h0 (.ty .f32) .f32 .rne 0 5 5 0 false false
     let s := presenting i
     match s.group? 0 0 with
     | some g => (s.mxAccepts 0 0 g).isSome
     | none => false) = true := by decide +kernel

/-- 21 R379, R380: VADD traps and writes nothing; a conversion from bf16 leaves the high half out, completes, and logs DEFERRED. -/
theorem test_half_error :
    (let r := after (.vadd h0 (.ty .i32) 1 2 (.v 3)) halfBad
     let x := r.slice 0 0 0
     decide (x.pc = 0xE00 ∧ x.td = 1 ∧ x.out = []) && r.errSent.map (fun q => bits (q.words.getD 2 0) 31 24) = [3]) = true ∧
    (let r := after (.cvt h0 (.ty .f32) .bf16 .dflt 1 2 (.v 0)) halfBad
     let x := r.slice 0 0 0
     decide (x.pc = 0x100008 ∧ x.out ≠ []) && r.errSent.map (fun q => bits (q.words.getD 2 0) 31 24) = [2]) = true := by decide +kernel

/-- Each memory of 21 Table 21.1: a sector clean or dirty in an L1 and in the L2, another in HBM alone, a line or an entry of the others. -/
def strikes (dirty : BitVec 4) : State :=
  let y : Line := { loc := { key := 0x300000, tagged := true, l2s := 0, cp := 0 }, present := 3, dirty := dirty, by_ := none, inv := [] }
  { ready.updTile 0 fun x => { x with l1 := [y], tlb := [(0, 0)], icache := [{ line := 0x1000, data := [], bad := [] }] } with
    l2 := [{ y with loc := { y.loc with key := 0x400000 } }], tents := [{ asid := 0, level := 2, prefix_ := 3, w0 := 3, w1 := 0 }] }

/-- The sites. -/
def sites : List ErrorSite :=
  [.reg 0 0 0 63 3 2, .acc 0 32767, .row 0 2047, .pad 0 303103 true, .l1 0 0x300048 false, .l1 0 0x300048 true, .l2 0 0x400048 false, .hbm 0x500000 false,
   .hbm 0x500000 true, .icache 0 0 0, .tlb 0 0, .l2tlb 0]

theorem witness_ErrorsStrike : [0, 2].all (fun d => sites.all fun c => (strikes d).powered && (strikes d).struck c) = true := by decide +kernel

/-- Of an interrupted slice with full stacks. -/
theorem witness_TrapReturnRestores : ∃ (x z : Slice) (rpc : DWord), z.td = x.td + 1 ∧ x.td < 2 ∧ x.lmask ≠ 0 ∧
    bits (x.fmt.setWidth 64) 7 4 ≠ 15 ∧ x.fmt &&& 0xFC = x.fmt ∧ rpc.toNat % 8 = 0 ∧ x.div.length ≤ 3 ∧ x.ret.length ≤ 8 ∧
    ∀ e ∈ x.div, e.saved ≠ 0 :=
  ⟨{ ready.slice 0 0 0 with td := 1, div := List.replicate 3 (div1 false 4), ret := List.replicate 8 { addr := 8, flag := false } },
    { ready.slice 0 0 0 with td := 2 }, 0x100008, by decide +kernel⟩

/-! ## Memory and registers -/

/-- A store of eight bytes over two sectors at the head of the queue. -/
def queued (e : SqKind) : State := readyGroup fun g => { g with sq := [e] }

/-- Eight bytes at 0x30003C, two tagged sectors. -/
def acc8 : Acc := { loc := { key := 0x30003C, tagged := true, l2s := 0, cp := 0 }, data := List.replicate 8 7, bnd := 0x3F80 }

/-- Two bytes in the tags' window, in an untagged page. -/
def accPeat : Acc := { loc := { key := peatOf 0x300000, tagged := false, l2s := 0, cp := 0 }, data := [0x80, 0x3F], bnd := 0 }

/-- The premises of a store that is next in its queue. -/
def nextStore (accs : List Acc) : Bool :=
  match (queued (.store false accs)).group? 0 0 with
  | some g => (match (queued (.store false accs)).sqIdle g.sq 0, (queued (.store false accs)).sqHead g with
    | none, some (.store false l, g1) => decide (l = accs) && !((queued (.store false accs)).setGroup 0 0 g1).writeHeld (accLens accs)
    | _, _ => false)
  | none => false

theorem witness_StoresLandInMemory : nextStore [acc8] = true ∧ nextStore [acc8, accPeat] = true ∧ isPeat accPeat.loc.key = true ∧
    accPeat.loc.tagged = false := by decide +kernel

/-- The further premise of `StoresSetTags`, and a place in each entry that `StoreQueueFrame` speaks of. -/
theorem witness_StoresSetTags : ∀ a ∈ [acc8], ∀ j, j < a.data.length → isPeat (a.loc.key + j) = false := by decide +kernel

/-- A lane of an atomic there. -/
def lane8 : AtomLane := { loc := acc8.loc, val := 1, bnd := 0, exp := 0, slice := 0, lane := 0, pc := 0x100000, dst := .v 8 0 }

theorem witness_StoreQueueFrame : ([.store true [acc8], .stf [acc8], .clrf [acc8.loc], .atomic true .cas 8 5 [lane8], .cctl 4 [acc8.loc], .spawn 5 1 [], .slrel 5 1, .slveto 5 1, .fence 15 true false [] [] false].all fun e =>
    match (queued e).group? 0 0 with
    | some g => decide (g.sq = [e]) && (match exec (.storeQueuePerform 0 0) (queued e) with
        | .next r => decide (r.byte 0x30007C = (queued e).byte 0x30007C)
        | _ => false)
    | none => false) = true := by decide +kernel

/-- exec answers a next state. -/
def nexts (i : Instr) (s : State) : Bool :=
  match exec i s with
  | .next _ => true
  | _ => false

theorem next_of (i : Instr) (s : State) (h : nexts i s = true) : ∃ r, exec i s = .next r := by
  unfold nexts at h
  split at h
  · rename_i r hr
    exact ⟨r, hr⟩
  · exact absurd h Bool.false_ne_true

/-- An instruction of a program that is no CSRW, and one that is, in user mode. -/
theorem witness_ProgramInstructions : ∀ i ∈ [Instr.sadd h0 1 2 (.s 3), .csrw h0 0 4], i.kind ≠ .event ∧ (∀ h a, i ≠ .csrw h 0x05B a) ∧
    ((∀ h n a, i ≠ .csrw h n a) ∨ ∀ k ∈ ready.focus.slices, (ready.slice ready.focus.tile ready.focus.slot k).pm = false) ∧
    ∃ r, exec i ready = .next r := by
  intro i hi
  have pm : ∀ k ∈ ready.focus.slices, (ready.slice ready.focus.tile ready.focus.slot k).pm = false := by decide +kernel
  rcases List.mem_cons.mp hi with rfl | hi
  · exact ⟨by decide, (fun _ _ h => nomatch h), .inr pm, next_of _ _ (by decide +kernel)⟩
  · rcases List.mem_singleton.mp hi with rfl
    exact ⟨by decide, (fun _ _ h => by injection h with _ h _; exact absurd h (by decide)), .inr pm, next_of _ _ (by decide +kernel)⟩

/-- A machine with bytes, a tag and a byte of a tile's scratchpad listed, whose next step is a tile's turn. -/
def listed : State :=
  let x : Tile := { Tile.reset with scratch := [(5, 1)] }
  { State.reset with mem := [(5, 1), (9, 2)], tags := [(3, 7)], tiles := [(0, x)], agenda := [.issue 0] }

theorem witness_StepKeepsMemoryWf : listed.MemoryWf ∧ ∃ r, step listed = .next r := by
  refine ⟨⟨by decide +kernel, by decide +kernel, fun t => ?_⟩, ?_⟩
  · by_cases h : t = 0
    · subst h; decide +kernel
    · have e : listed.tile t = Tile.reset := by
        show Sparse.get Tile.reset [(0, _)] t = Tile.reset
        simp [Sparse.get, Ne.symm h]
      rw [e]; decide +kernel
  · have h : (match step listed with
      | .next _ => true
      | _ => false) = true := by decide +kernel
    split at h
    · rename_i r hr
      exact ⟨r, hr⟩
    · exact absurd h Bool.false_ne_true

/-- Division by zero, signed overflow and −7 over 2, with S4 the dividend. -/
def divisions : List (State × Instr) :=
  let t (p q : DWord) (i : Hdr → SReg → SReg → SOpnd → Instr) : State × Instr := (regs [(4, p), (5, q)], i h0 6 4 (.s 5))
  [t 9 0 .sdiv, t 0x8000000000000000 (-1) .sdiv, t (-7) 2 .sdiv, t 9 0 .sdivn, t 9 0 .srem, t 0x8000000000000000 (-1) .srem, t (-7) 2 .srem,
   t 9 0 .sremn]

theorem witness_DivisionSpecialCases : ∀ q ∈ divisions, Met q.1 q.2 fun g l _ _ => l.all fun k =>
    (ctx q.1 g k).performs (g.slice k) h0 && decide ((ctx q.1 g k).rdS (g.slice k) 0 4 ≠ 0) :=
  met_all _ (fun s _ g l _ _ => l.all fun k => (ctx s g k).performs (g.slice k) h0 && decide ((ctx s g k).rdS (g.slice k) 0 4 ≠ 0))
    (by decide +kernel)

/-! ## Words and steps -/

theorem witness_DecodeEncodeAgree : (Instr.sadd h0 5 6 (.s 7)).wellFormed = true ∧ (Instr.sadd h0 5 6 (.s 7)).hdr?.isSome = true := by
  decide +kernel

theorem witness_DecodedIsWellFormed : (decodeWords 0x0007050607000000 0).toOption = some (.sadd h0 5 6 (.s 7)) ∧
    (decodeWords 0x2C07050607000000 0).toOption = some (.undefinedOpcode 0x2C07050607000000 0) := by decide +kernel

theorem witness_NonzeroMzIsABreach : (readFields 0x9007020001000351 0).isSome = true ∧ bits 0x9007020001000351 3 0 ≠ 0 := by decide +kernel

theorem witness_HintIsIgnored : (decodeWords 0x1E47000400000020 0).toOption = some (.ld ⟨false, false, 7, 2⟩ .w (.s 4) 0 0 .grp .rlx false none) := by
  decide +kernel

/-- A tile's turn issues an instruction, an unassigned opcode, a breach, and what a group presents. -/
theorem witness_StepRunsDecoded : ([(0x0007050607000000, 0), (0x6C07030201000300, 7), (0x9007020001000351, 0)].all fun w =>
    let s := State.reset.placeWords w.1 w.2
    s.agenda.head? = some (.issue 0) && (match ({ s with agenda := s.agenda.tail } : State).turns 0 4 with
      | .issue r _ => decide (r.w0 = w.1)
      | .none _ => false)) = true ∧
    (match (presenting (.vote h0 .all 1 1 7)).turns 0 4 with
      | .issue r _ => r.pres && decide (r.instr = some (.vote h0 .all 1 1 7))
      | .none _ => false) = true := by decide +kernel

/-- A word of the scalar class with a bit of MZ set, and one of MMA. -/
theorem witness_BreachTraps : isMatrixOpcode 0x9007020001000351 = false ∧ isMatrixOpcode 0x6607001002900901 = true ∧
    (∀ q ∈ each ready [.undefinedOpcode 0x9007020001000351 0], Met q.1 q.2 fun _ _ _ _ => true) ∧
    ∃ g l, Arrives (octet 0 (.rdv (.undefinedOpcode 0x6607001002900901 3)) [0]) (.undefinedOpcode 0x6607001002900901 3) g l ∧
      Gathered g (.undefinedOpcode 0x6607001002900901 3) l ∧ ∀ k ∈ g.liveIdx, (g.slice k).pc = g.leader.pc := by
  refine ⟨by decide +kernel, by decide +kernel, met_all _ (fun _ _ _ _ _ _ => true) (by decide +kernel), ?_⟩
  obtain ⟨g, l, h1, h2⟩ := arrives_of (octet 0 (.rdv (.undefinedOpcode 0x6607001002900901 3)) [0]) (.undefinedOpcode 0x6607001002900901 3)
    (fun g l => gatheredB g (.undefinedOpcode 0x6607001002900901 3) l && g.liveIdx.all fun k => decide ((g.slice k).pc = g.leader.pc)) (by decide +kernel)
  simp only [Bool.and_eq_true, List.all_eq_true, decide_eq_true_eq] at h2
  exact ⟨g, l, h1, gathered_of _ _ _ h2.1, h2.2⟩

/-- A breakpoint, a register past the allotment, one of the write set; of a collective too, and in one slice of two. -/
def earlyForms : List (State × Instr) :=
  let haz : State := (readyWith fun x => { x with wset := 0b100 }).updGroup 0 0 fun g => { g with hazchk := true }
  [({ ready with csr := { ready.csr with bpa := [(0, 0x100001)] } }, .sadd h0 1 2 (.s 3)), (readyGroup fun g => { g with allot := 8 }, .vadd h0 (.ty .i32) 1 9 (.v 3)),
   (haz, .vadd h0 (.ty .i32) 1 2 (.v 3))]

/-- V2 is in the first slice's write set, and not in the second's. -/
def halfRun : State := pair (readyGroup fun g => { g with hazchk := true }) fun x => { x with wset := 0b100 }

theorem witness_BreachTraps_early : (∀ q ∈ earlyForms,
      ∃ g l c cost, ToIssue q.1 q.2 g l c cost ∧ (l.all fun k => (earlyTrap q.1 g (g.slice k) q.2).isSome) = true) ∧
    (let i : Instr := .vote h0 .ballot 255 1 7
     let s := (octet 0 (.rdv i) [0]).updGroup 0 0 fun g => { g with allot := 64 }
     match s.group? 0 0 with
     | some g => isCollective i && s.powered && s.booted && (g.slice 0).live && decide ((g.slice 0).wait = .run) && (g.slice 0).asyncNow.isNone &&
         (earlyTrap s g (g.slice 0) i).isSome
     | none => false) = true ∧
    ∃ g l c cost, ToIssue halfRun (.vadd h0 (.ty .i32) 1 2 (.v 3)) g l c cost ∧ ((l.all fun k => (g.slice k).sound) &&
      !(l.filter fun k => (earlyTrap halfRun g (g.slice k) (.vadd h0 (.ty .i32) 1 2 (.v 3))).isNone).isEmpty &&
      l.all fun k => (earlyTrap halfRun g (g.slice k) (.vadd h0 (.ty .i32) 1 2 (.v 3))).isSome ||
        (plainOutcome (.vadd h0 (.ty .i32) 1 2 (.v 3)) c (ctx halfRun g k) (g.slice k)).isSome) = true := by
  refine ⟨fun q hq => to_issue_of _ _ _ (List.all_eq_true.mp (show (_ : List (State × Instr)).all (fun q => toIssueB q.1 q.2 fun g l _ _ =>
    l.all fun k => (earlyTrap q.1 g (g.slice k) q.2).isSome) = true by decide +kernel) q hq), by decide +kernel, to_issue_of _ _ _ (by decide +kernel)⟩

theorem witness_StepTakesEvents : ({ ready with agenda := [.event (.exit h0), .event .powerOff] } : State).agenda ≠ [] ∧
    (Instr.exit h0).kind ≠ .event ∧ Instr.powerOff.kind = .event := by decide +kernel

/-! ## Events that are due -/

/-- With the slice waiting. -/
def waiting (w : Wait) : State := readyWith fun x => { x with wait := w }

/-- With tile 0 changed. -/
def readyTile (f : Tile → Tile) : State := ready.updTile 0 f

/-- An outstanding result of two writes. -/
def result1 : Pend := { writes := [wS 4 9, wV 8 1 7 0x3F80], n := 2, hx := some [{ bnd := 0x3F80, ex := some 3 }], tok := 0 }

/-- Every slice of the octet at a collective. -/
def atRdv (i : Instr) : State := (octet 0 (.rdv i) [0]).updSlice 0 0 0 fun x => { x with wait := .rdv i }

/-- The tile has no allowance, and its one gang has waited for 256 cycles. -/
def promoted : State :=
  ((State.reset.placeWords 0x1007010000000300 0).updTile 0 fun x => { x with allow := 0 }).updSlice 0 0 0 fun x => { x with promo := 256 }

/-- Events within slices and groups. -/
noncomputable def kernelDue : List (State × Instr) :=
  [(readyWith fun x => { x with out := [result1, result1] }, .resultWriteback 0 0 0 0), (readyWith fun x => { x with out := [result1] }, .resultWriteback 0 0 0 0),
   (waiting .results, .parkRelease 0 0 0), (waiting .refused, .parkRelease 0 0 0), (waiting .slot, .parkRelease 0 0 0),
   (waiting .gear, .parkRelease 0 0 0), (waiting (.context 3 (List.replicate 64 0)), .parkRelease 0 0 0),
   (waiting (.context 0x10 (List.replicate 512 1)), .parkRelease 0 0 0), ((waiting .regrant).updGroup 0 0 fun g => { g with regrant := 8 }, .parkRelease 0 0 0),
   (atRdv (.regang h0), .rendezvousComplete 0 0), (atRdv (.vote h0 .all 1 1 7), .rendezvousComplete 0 0),
   (waiting (.setw (.setw h0 4 8 (some 4))), .setwGrant 0 0), (promoted, .gangPromotion 0 0 0), (waiting (.pause 0), .yieldPauseEnd 0 0 0),
   (waiting (.waitt 0), .waittWake 0 0 0), ({ readyGroup (fun g => { g with sect := true }) with time := 100000 }, .watchdog 0 0),
   (waiting (.records (mkTrap 0x09 0) 5), .trapDelivery 0 0 0), (readyWith fun x => { x with async := [mkTrap 0x0F 0] }, .trapDelivery 0 0 0),
   (ready, .preemptionRequest 0 0), (waiting (.tlbinv 0 0 0), .tlbinvComplete 0 0 0), (waiting (.tlbinv 2 0 0), .tlbinvComplete 0 0 0)]

theorem witness_KernelEventsHappen : (kernelDue.all fun q => (kernelEvent q.2 q.1).isSome) = true := by decide +kernel

/-- The tile's first turn issues what the group presents. -/
def mxState (i : Instr) : State := after (.matrixAccept 0 0) (presenting i)

/-- Events of tiles. -/
def tileDue : List (State × Instr) :=
  [(ready, .reedRingInjection 7), ({ ready with rings := [(0, { us := 1, share := 96000, carry := 64, todo := [0, 5] })] }, .shareArrival 0),
   ((barState 4).updGroup 0 0 fun g => { g with arrSent := [{ k := 3, before := 0 }] }, .barrierArrive 0 0 3),
   ({ barState 4 with leaves := [{ tile := 0, team := 0, gid := 1, arrs := 0, k := 3, bits := 5 }] }, .barrierLeave 0),
   ({ barState 4 with leaves := [{ tile := 0, team := 0, gid := 1, arrs := 0, k := 3, bits := 10 }] }, .barrierLeave 0), (waiting (.barrier 3 (-1)), .barrierRelease 0),
   ({ readyGroup (fun g => { g with gearReq := true }) with time := 5000 }, .gearResolveChange 0), (readyTile fun x => { x with phase := .stopping }, .gearSwitchStart 0),
   (readyTile fun x => { x with phase := .switching true }, .gearSwitchEnd 0), (waiting (.waitt 9), .dozeStart 0), (readyTile fun x => { x with doze := true }, .dozeWake 0),
   (readyTile fun x => { x with icache := [] }, .instructionFetchMiss 0 0 0), (readyWith fun x => { x with pc := 0x40000000 }, .instructionFetchMiss 0 0 0),
   (readyTile fun x => { x with icPend := [4096] }, .icacheFill 0 0)]

/-- Events of matrix units, bursts and the package's tiles together. -/
def unitDue : List (State × Instr) :=
  [(presenting (.mzero h0 5), .matrixAccept 0 0), (mxState (.mzero h0 5), .matrixComplete 0),
   (mxState (.mld h0 (.ty .f32) 40 0 31 0), .matrixComplete 0), (mxState (.mma h0 (.ty .f16) .f16 .auto 0 16 (.s 5) 0 true false false), .matrixComplete 0),
   (after (.matrixAccept 0 0) (waiting (.present (.mst h0 (.ty .f32) .f32 .rne 0 5 5 0 false false))), .mstConvertDone 0), (readyTile fun x => { x with inBurst := true, burstIdle := 65 }, .burstEnd 0),
   (ready, .burstTokenRotate), ({ ready with time := 2000 }, .alarmQuietExpiry)]

theorem witness_TileEventsHappen : (tileDue.all fun q => (tileEvent q.2 q.1).isSome) = true := by decide +kernel

theorem witness_TileEventsHappen_units : ∀ q ∈ unitDue, (tileEvent q.2 q.1).isSome = true := by
  simp only [unitDue, List.forall_mem_cons]
  exact ⟨by decide +kernel, by decide +kernel, by decide +kernel, by decide +kernel, by decide +kernel, by decide +kernel, by decide +kernel,
    by decide +kernel, fun _ h => nomatch h⟩

/-- A copy in the queue, and in an engine. -/
def copied (a : CpyArgs) (s : State) : State := after (.cpyin h0 a) s
def inEngine (a : CpyArgs) (s : State) : State := after (.engineIssue 0 0) (copied a s)

/-- Events of store queues, engines and sluices. -/
noncomputable def queueDue : List (State × Instr) :=
  ([.store true [acc8], .stf [acc8], .clrf [acc8.loc], .atomic true .cas 8 5 [lane8], .atomic false (.op .add .flt) 4 5 [lane8], .cctl 4 [acc8.loc],
      .spawn 5 1 [], .slrel 5 1, .slveto 5 1, .fence 15 true false [] [] false] : List SqKind).map (fun e => (queued e, Instr.storeQueuePerform 0 0)) ++
  [({ sluiced with tiles := (queued (.slput 5 7 0 12 [1, 2, 3, 4, 5, 6])).tiles }, .sluicePut 0 0), (copied { cp with x0 := 15 } (ring .free false), .engineIssue 0 0),
   (inEngine { cp with x0 := 15 } (ring .free false), .copyCompletion 0 0),
   (inEngine cp ((ring .free false).updSlice 0 0 0 fun x => { x with s := [(4, 0x80000000)] }), .copyFailure 0 0),
   (inEngine { cp with x0 := 15 } (ring .free false), .engineTranslationRetry 0 0), (inEngine cp (ring .free false), .residencyNotify 0 0x300000)]

theorem witness_QueueAndEngineEventsHappen : (queueDue.all fun q => (queueEvent q.2 q.1).isSome) = true := by decide +kernel

/-- A launch record of one team of one group at 0x100000, as words. -/
def launchWords : List DWord := [0x100000, 0, 0, 0, 0, 0, 0, 0, 0x100000000, 9, 0, 0x0404010100002000, 0, 0, 0, 0]

/-- The launch of that record. -/
def launch1 (placed complete : Nat) : Launch :=
  { id := 0, queue := 0, level := 2, asid := 0, words := launchWords, placed := placed, complete := complete, kills := [], lost := false, asked := false }

/-- Queue 0 enabled with a record, and the launch's code object. -/
def queue1 (cur : Option QRec) : State :=
  let q : Queue := { Queue.reset with base := 0x600000, cfg := 0x1000003, tail := 1, cur := cur }
  ({ ready with queues := [(0, q)], objects := [{ handle := 9, asid := 0, base := 0x100000, size := 4096 }] } : State).writeBytes 0x600000 (wordBytes launchWords)

/-- The launch is retained, and its team or a placement waits. -/
def launched (placed complete : Nat) : State := { queue1 none with launches := [launch1 placed complete], time := 50000 }

/-- A closed gather of one task. -/
def gather1 (o : Bool) : Gather := { id := 7, level := 2, start := 0, isOpen := o, tasks := [{ launch := 0, words := launchWords }], kills := 0 }

/-- A placement of level 2 has waited, for which no room is found. -/
def starving : State :=
  let s := launched 1 0
  { s with resumed := [.team 0 0], waitSince := (({ s with resumed := [.team 0 0], time := 0 } : State).allOffers.map fun o => (o.key, (0 : DWord))) }

/-- Events of groups' ends and of the scheduler. -/
noncomputable def schedDue : List (State × Instr) :=
  [(waiting (.halted (.haltSave h0 4) 0x300000), .groupSaveLeave 0 0), (readyWith fun x => { x with live := false }, .groupEnd 0 0),
   (ready.updTeam 0 0 fun m => { m with doomed := true }, .teamKilled 0 0), (queue1 none, .launchRecordRead 0),
   ((queue1 none).updTile 0 id |> fun s => { s with objects := [] }, .launchRecordRead 0),
   (queue1 (some { words := launchWords, depMet := true, asked := false }), .launchRecordAccept 0),
   (queue1 (some { words := launchWords, depMet := false, asked := false }), .dependenceRecheck 0), (launched 0 0, .schedulerPlacement), (ready, .schedulerPlacement),
   ((launched 1 0).updTeam 0 0 fun m => { m with maxGroups := 2 }, .growthGroupStart 0 0), (starving.updTeam 0 0 fun m => { m with live := 2 }, .shrinkRequest 0 0),
   (starving, .preemptEscalation), ({ launched 1 0 with gathers := [gather1 true] }, .gatherClose 0),
   ({ launched 1 0 with retiring := [{ launch := 0, grp := 0, words := launchWords, dep := none, asked := false }] }, .taskRetire 0), (launched 1 1, .launchCompletion 0),
   ({ ready with time := 4000000000000 }, .testInterval), ({ State.reset with csr := { Csr.reset with testStat := 0x208 } }, .scanStart),
   ({ ready with csr := { ready.csr with testStat := 0x103 } }, .testPass), ({ ready with csr := { ready.csr with testStat := 0x103 } }, .testFail 5)]

theorem witness_SchedulerEventsHappen : (schedDue.all fun q => (schedEvent q.2 q.1).isSome) = true := by decide +kernel

/-- A record on its way, and one in each log's buffer. -/
def rec1 (refused : Option DWord) : SentRec := { beat := 1, home := 0, refused := refused, words := [0, 0x300000, 0, 0, 0, 0, 0, 0] }

/-- The logs enabled, at 2 µs. -/
def logging : State :=
  { ready with time := 2000, mergeBuf := [rec1 none], errBuf := [rec1 none],
               csr := { ready.csr with flBase := 0x700000, flCfg := 0x26, elBase := 0x710000, elCfg := 0x26 } }

/-- Both HDM decoders committed. -/
def readyHdm : State := { ready with hdm := 3 }

/-- Events of records, logs, interrupts and the host. -/
noncomputable def hostDue : List (State × Instr) :=
  [({ ready with sending := [rec1 none] }, .faultRecordAccept 0), ({ ready with sending := [rec1 (some 0)], time := 1000 }, .faultRecordResend 0),
   (logging, .faultLogWrite), (logging, .errorLogWrite), ({ ready with msixPend := 1, msixTable := [(1, 0)] }, .msixMessage 0),
   ({ ready with msixPend := 1#64 <<< 63, msixTable := [(127, 0)] }, .msixMessage 63), (ready, .qdb 16383 7), (ready, .qcfgWrite 0 0x1000003),
   (queue1 none, .qcfgWrite 0 0), (after (.launchRecordRead 0) { queue1 none with objects := [] }, .qstatStopClear 0),
   (readyHdm, .hostWrite .data 0x300000 [1, 2, 3]), (readyHdm, .hostWrite .peat 0 [1, 2, 3]), (ready, .hostWrite .host 0x300000 [1, 2, 3]), (readyHdm, .hostRead true 0 8), (readyHdm, .hostRead false 0x300000 64),
   (sluiced, .slhostWrite 5 1), (sluiced, .slcfgWrite 5 0), (ready, .slcfgWrite 4095 5), (ready, .almcauseClear 0x7F), (ready, .pwrlimWrite 0),
   (ready, .pwrlimWrite 0xFFF), (ready, .flridxWrite true 3), (ready, .flridxWrite false 3), (ready, .registerWrite (.bar 0x7FFF8) 0), (ready, .registerWrite (.bar 0) 5),
   (ready, .registerWrite (.bar 0x80000) 5), (ready, .registerWrite (.bar 0x83FF0) 5), (ready, .registerWrite (.bar 0xA0000) 5), (ready, .registerWrite (.bar 0x13FFF8) 5),
   (ready, .registerWrite (.bar 0x1803F8) 5), (ready, .registerWrite (.hdm true) 1), (ready, .rstctlWrite 0x57520001)]

theorem witness_HostEventsHappen : (hostDue.all fun q => (hostEvent q.2 q.1).isSome) = true := by decide +kernel

/-- In a domain of two packages. -/
def domained : State := { ready with csr := { ready.csr with fldomCount := 2, fldomId := 1 } }

/-- Every port down, for a millisecond. -/
def severed : State := { domained with ports := (List.range 16).map fun p => (p, 2), time := 1000000 }

/-- Events of the package. -/
noncomputable def packageDue : List (State × Instr) :=
  [(domained, .fenlinkRequest 0 (.load ⟨true, none⟩ 0x300000 8)), (domained, .fenlinkRequest 0 (.store ⟨true, none⟩ 0x300000 [1, 2] 0)),
   (domained, .fenlinkRequest 0 (.atomic ⟨true, none⟩ 0x300000 4 (some (.add, .nat)) 5 0 0)),
   (domained, .fenlinkRequest 0 (.atomic ⟨true, none⟩ 0x300000 8 none 5 0 0)), (domained, .fenlinkRequest 0 (.ldf ⟨true, none⟩ 0x300000 8)), (domained, .fenlinkRequest 0 (.stf ⟨true, none⟩ 0x300000 [1, 2, 3, 4] 0)),
   (domained, .fenlinkRequest 0 (.clrf ⟨true, none⟩ 0x300000)), (domained, .fenlinkRequest 0 (.withdraw 0x300000 8)), (domained, .fenlinkRequest 0 (.record [0, 0, 0, 0, 0, 0, 0, 0])), (domained, .fenlinkRequest 0 (.load ⟨false, some 1⟩ (2 ^ 51) 8)), (domained, .laneShed 15), (domained, .portDown 0),
   (severed, .noRouteTimeout 0), (severed, .fenlinkRouteReturn 0), (domained, .timeSource .cut 0), ({ domained with timeSync := .cut }, .timeSource .rejoin 0), ({ domained with timeSync := .converging }, .timeSource .converged 0),
   (ready, .alarm 0 3), (ready, .alarm 6 8), ({ ready with powered := false, booted := false }, .powerOn), (ready, .powerOff), (ready, .warmReset),
   (ready, .port1Reset), (ready, .quoteRequest 5), (ready, .measurementAppend 4 5), (ready, .measurementAppend 255 5)]

theorem witness_PackageEventsHappen : (packageDue.all fun q => (packageEvent q.2 q.1).isSome) = true := by decide +kernel
end Sys2Proof.Tests
end

section
/-! PROOF. What the package's events do where they are due (O31): peers' requests, links, the time source, alarms, power, resets and
attestation. For each event, the state that its rule gives is the one that the model's function gives, apart from the counter of free
choices. -/

namespace Sys2Proof.Proofs

open Sys2Proof.Machine Sys2Proof.Spec

/-! ## The counter of free choices -/

/-- A state with another counter of free choices (log 4). -/
def withFree (n : Nat) (s : State) : State := { s with free := n }

theorem becomes_of_exec_withFree {i : Instr} {s r : State} {n : Nat} (h : exec i s = .next (withFree n r)) : Becomes i s r := ⟨n, h⟩

theorem becomes_of_exec {i : Instr} {s m r : State} (hm : exec i s = .next m) (h : m = r) : Becomes i s r := ⟨r.free, by rw [hm, h]⟩

theorem becomes_of_exec_fresh {i : Instr} {s m r : State} (hm : exec i s = .next m.fresh) (h : m = r) : Becomes i s r :=
  ⟨r.free + 1, by rw [hm, h]; rfl⟩

theorem foldl_withFree {α : Type} {n : Nat} {f : State → α → State} (hf : ∀ s a, f (withFree n s) a = withFree n (f s a))
    (l : List α) (s : State) : l.foldl f (withFree n s) = withFree n (l.foldl f s) :=
  List.foldl_hom _ hf

theorem setByte_withFree (n : Nat) (s : State) (k : Nat) (b : Byte) : (withFree n s).setByte k b = withFree n (s.setByte k b) := by
  unfold State.setByte
  split
  · rfl
  · split
    · cases peatSector k <;> rfl
    · rfl

theorem setTag_withFree (n : Nat) (s : State) (k : Nat) (b : Eb16) : (withFree n s).setTag k b = withFree n (s.setTag k b) := by
  unfold State.setTag
  split <;> rfl

theorem tagAt_withFree (n : Nat) (s : State) (k : Nat) : (withFree n s).tagAt k = s.tagAt k := rfl

theorem writeBytes_withFree (n : Nat) (s : State) (k : Nat) (bs : List Byte) :
    (withFree n s).writeBytes k bs = withFree n (s.writeBytes k bs) := by
  induction bs generalizing s k with
  | nil => rfl
  | cons b rest ih => simp only [State.writeBytes, setByte_withFree, ih]

theorem storeAccs_withFree (n : Nat) (s : State) (accs : List Acc) : (withFree n s).storeAccs accs = withFree n (s.storeAccs accs) := by
  unfold State.storeAccs
  simp only [foldl_withFree, writeBytes_withFree, setTag_withFree, tagAt_withFree, implies_true]
  rfl

/-- The boot ROM makes no free choice. -/
theorem boot_withFree (n : Nat) (s : State) : (withFree n s).boot = withFree n s.boot := by
  unfold State.boot State.loadHandler
  by_cases hb : bootCode = 0
  · simp only [if_pos hb]
    cases fwHandler with
    | none => rfl
    | some m => simp only [storeAccs_withFree]; rfl
  · simp only [if_neg hb]
    rfl

/-! ## What a rule gives where it is due -/

section
variable {s r a y : State} {o : Option State} {p : Prop} [Decidable p]

theorem eq_of_some_else (hy : o = some r → y = r) (h : (if p then some a else o) = some r) : (if p then a else y) = r := by
  split at h
  · rw [if_pos ‹_›]
    exact Option.some.inj h
  · rw [if_neg ‹_›]
    exact hy h

theorem eq_of_none_else (x : State) (hy : o = some r → y = r) (h : (if p then none else o) = some r) : (if p then x else y) = r := by
  obtain ⟨hp, h⟩ := Option.ite_none_left_eq_some.1 h
  rw [if_neg hp]
  exact hy h

theorem eq_of_some_else_none (x : State) (h : (if p then some a else none) = some r) : (if p then a else x) = r := by
  obtain ⟨hp, h⟩ := Option.ite_none_right_eq_some.1 h
  rw [if_pos hp]
  exact Option.some.inj h

end

/-! ## Requests of peers (19 R364) -/

section
variable {s r : State} {peer : Nat}

/-- A request is due only where the model serves it. -/
theorem fenlinkRequest_due {req : FenReq} (h : packageEvent (.fenlinkRequest peer req) s = some r) :
    (s.up && s.isPeerId peer && !s.unroutable) = true := by
  unfold packageEvent at h
  obtain ⟨hdue, -⟩ := Option.ite_none_left_eq_some.1 h
  simpa [State.up, State.isPeerId, and_assoc] using hdue

/-- A request outside the data space answers one state, one whose place an engine owns waits, and any other has its effect. -/
theorem eq_of_reached {p : Prop} [Decidable p] {owned : Bool} {a y : State} {o : Option State} (x : State) (hy : o = some r → y = r)
    (h : (if p then some a else if owned then none else o) = some r) :
    (if decide p then a else if owned then x else y) = r := by
  simp only [decide_eq_true_eq]
  exact eq_of_some_else (eq_of_none_else x hy) h

/-- A record as accepted carries LATE where the convergence of TIME, or its age, says so (17 R330, 19 R367). -/
theorem accepted_eq (conv : Bool) (q : SentRec) (time : DWord) :
    (if conv then q.late else q.acceptedAt time) =
      { q with words := if (if conv then true else decide (q.time + 2000 < time.toNat)) then
          q.words.set 2 (q.words.getD 2 0 ||| (1#64 <<< 63)) else q.words } := by
  cases conv
  · by_cases hl : q.time + 2000 < time.toNat
    · simp [SentRec.acceptedAt, SentRec.late, hl]
    · simp [SentRec.acceptedAt, hl]
  · rfl

theorem fenServe_of_due {req : FenReq} (h : packageEvent (.fenlinkRequest peer req) s = some r) : s.fenServe peer req = r := by
  unfold packageEvent at h
  have hreq := (Option.ite_none_left_eq_some.1 h).2
  cases req with
  | load m pa n => exact eq_of_reached s Option.some.inj hreq
  | store m pa data b => exact eq_of_reached s Option.some.inj hreq
  | atomic m pa n op val exp b =>
    cases op with
    | none => exact eq_of_reached s (eq_of_some_else Option.some.inj) hreq
    | some o => exact eq_of_reached s (eq_of_some_else Option.some.inj) hreq
  | ldf m pa n => exact eq_of_reached s (eq_of_some_else (eq_of_some_else Option.some.inj)) hreq
  | stf m pa data b => exact eq_of_reached s Option.some.inj hreq
  | clrf m pa => exact eq_of_reached s Option.some.inj hreq
  | withdraw pa n => exact Option.some.inj hreq
  | record ws =>
    simp only [State.fenServe, State.fenRecord, accepted_eq]
    exact eq_of_none_else s Option.some.inj hreq

theorem becomes_fenlinkRequest {req : FenReq} (h : packageEvent (.fenlinkRequest peer req) s = some r) :
    Becomes (.fenlinkRequest peer req) s r := by
  have hm : exec (.fenlinkRequest peer req) s = .next (s.fenServe peer req).fresh :=
    congrArg Host.Outcome.next (if_pos (fenlinkRequest_due h))
  exact becomes_of_exec_fresh hm (fenServe_of_due h)

end

/-! ## Links and the time source (19 R366, R367) -/

section
variable {s r : State}

theorem becomes_laneShed {p : Nat} (h : packageEvent (.laneShed p) s = some r) : Becomes (.laneShed p) s r := by
  unfold packageEvent at h
  refine becomes_of_exec rfl ?_
  unfold State.setPort
  simp only [Nat.lt_one_iff]
  exact eq_of_some_else_none s h

theorem becomes_portDown {p : Nat} (h : packageEvent (.portDown p) s = some r) : Becomes (.portDown p) s r := by
  unfold packageEvent at h
  exact becomes_of_exec rfl (eq_of_some_else_none s h)

theorem becomes_noRouteTimeout {peer : Nat} (h : packageEvent (.noRouteTimeout peer) s = some r) : Becomes (.noRouteTimeout peer) s r := by
  unfold packageEvent at h
  exact becomes_of_exec rfl (eq_of_some_else_none s h)

theorem becomes_fenlinkRouteReturn {peer : Nat} (h : packageEvent (.fenlinkRouteReturn peer) s = some r) :
    Becomes (.fenlinkRouteReturn peer) s r := by
  unfold packageEvent at h
  exact becomes_of_exec rfl (eq_of_some_else_none s h)

theorem timeSource_of_due {e : TimeEvent} {src : Nat} (h : packageEvent (.timeSource e src) s = some r) : s.timeSource e src = r := by
  unfold packageEvent at h
  obtain ⟨hdue, hnext⟩ := Option.ite_none_right_eq_some.1 h
  simp only [Bool.and_eq_true, decide_eq_true_eq] at hdue
  obtain ⟨⟨hup, hpeer⟩, hsrc⟩ := hdue
  have hg : ¬ (!s.up || !s.isPeerId src || decide (s.csr.fldomId.toNat ≤ src)) = true := by
    simp [State.up, hup, hpeer, hsrc]
  unfold State.timeSource
  rw [if_neg hg]
  split at hnext
  case h_5 => cases hnext
  all_goals
    next hs =>
      rw [hs]
      exact Option.some.inj hnext

theorem becomes_timeSource {e : TimeEvent} {src : Nat} (h : packageEvent (.timeSource e src) s = some r) :
    Becomes (.timeSource e src) s r :=
  becomes_of_exec rfl (timeSource_of_due h)

end

/-! ## Alarms (22 R394, R395) -/

section
variable {s r : State}

/-- The gear phase into which an alarm puts a tile, by cases of a condition (22 R395). -/
theorem forceNt_eq (x : Tile) :
    x.forceNt =
      { x with
        fast := false, inBurst := false, reserve := none,
        phase := if x.phase = .switching false then .switching false else if x.phase = .idle && !x.doze then .idle else .forced } := by
  unfold Tile.forceNt
  congr 1
  cases x.phase with
  | idle => cases x.doze <;> rfl
  | stopping => rfl
  | switching fast => cases fast <;> rfl
  | forced => rfl

theorem alarmBits_eq (a : BitVec 16) (bit die : Nat) :
    alarmBits a bit die = a ||| (1#16 <<< bit ||| if die < 8 then 1#16 <<< (8 + die) else 0) := BitVec.or_assoc ..

theorem alarmBits_zero (bit die : Nat) : alarmBits 0 bit die = 1#16 <<< bit ||| if die < 8 then 1#16 <<< (8 + die) else 0 :=
  (alarmBits_eq 0 bit die).trans BitVec.zero_or

theorem alarm_of_due {bit die : Nat} (h : packageEvent (.alarm bit die) s = some r) : s.alarm bit die = r := by
  unfold packageEvent at h
  unfold State.alarm
  rw [alarmBits_zero]
  simp only [alarmBits_eq, State.forceNt, forceNt_eq, State.almStays]
  exact eq_of_none_else s (eq_of_some_else Option.some.inj) h

theorem becomes_alarm {bit die : Nat} (h : packageEvent (.alarm bit die) s = some r) : Becomes (.alarm bit die) s r :=
  becomes_of_exec_fresh rfl (alarm_of_due h)

end

/-! ## Power and reset (22 R396, R399, 00 R2) -/

section
variable {s r : State}

theorem becomes_powerOn (h : packageEvent .powerOn s = some r) : Becomes .powerOn s r := by
  unfold packageEvent at h
  exact becomes_of_exec rfl (eq_of_none_else s Option.some.inj h)

theorem becomes_powerOff (h : packageEvent .powerOff s = some r) : Becomes .powerOff s r := by
  unfold packageEvent at h
  obtain rfl := Option.some.inj h
  exact becomes_of_exec_withFree (n := s.free + 1) rfl

theorem becomes_warmReset (h : packageEvent .warmReset s = some r) : Becomes .warmReset s r := by
  unfold packageEvent at h
  obtain ⟨hp, h⟩ := Option.ite_none_left_eq_some.1 h
  obtain rfl := Option.some.inj h
  refine becomes_of_exec_withFree (n := s.free + 1) ?_
  rw [← boot_withFree]
  exact congrArg Host.Outcome.next (if_pos (by simpa using hp))

theorem becomes_port1Reset (h : packageEvent .port1Reset s = some r) : Becomes .port1Reset s r := by
  unfold packageEvent at h
  exact becomes_of_exec rfl (Option.some.inj h)

end

/-! ## Attestation (22 R401) -/

section
variable {s r : State}

theorem becomes_quoteRequest {nonce : BitVec 512} (h : packageEvent (.quoteRequest nonce) s = some r) :
    Becomes (.quoteRequest nonce) s r := by
  unfold packageEvent at h
  exact becomes_of_exec rfl (eq_of_some_else_none s h)

theorem becomes_measurementAppend {kind : Nat} {d : BitVec 512} (h : packageEvent (.measurementAppend kind d) s = some r) :
    Becomes (.measurementAppend kind d) s r := by
  unfold packageEvent at h
  exact becomes_of_exec rfl (eq_of_some_else_none s h)

end

/-- Settles O31: each event of the package, by its own lemma. -/
theorem packageEventsHappen : Obligations.PackageEventsHappen := by
  intro i s r h
  cases i with
  | fenlinkRequest peer req => exact becomes_fenlinkRequest h
  | laneShed p => exact becomes_laneShed h
  | portDown p => exact becomes_portDown h
  | noRouteTimeout peer => exact becomes_noRouteTimeout h
  | fenlinkRouteReturn peer => exact becomes_fenlinkRouteReturn h
  | timeSource e src => exact becomes_timeSource h
  | alarm bit die => exact becomes_alarm h
  | powerOn => exact becomes_powerOn h
  | powerOff => exact becomes_powerOff h
  | warmReset => exact becomes_warmReset h
  | port1Reset => exact becomes_port1Reset h
  | quoteRequest nonce => exact becomes_quoteRequest h
  | measurementAppend kind d => exact becomes_measurementAppend h
  | _ => cases h

end Sys2Proof.Proofs
end

section
/-! PROOF. Where the statement about errors that strike (O40) fails: a unit of the peat window. The only valid copy of such a unit is four
sectors' tags (11 R218, log 39), and what the model marks is those tags; the statement has the unit itself marked, as of any other address. -/

namespace Sys2Proof.Proofs

open Sys2Proof.Machine Sys2Proof.Spec

/-! ## What becomes of a unit of the peat window -/

theorem spoilTags_poison (secs : List Nat) (s : State) :
    (secs.foldl (fun r sec => r.spoil (64 * sec) true) s).poison = s.poison := by
  induction secs generalizing s with
  | nil => rfl
  | cons sec secs ih => exact ih (s.spoil (64 * sec) true)

/-- A lost unit of the peat window marks tags and no unit, where its first two bytes are a sector's tag. -/
theorem spoilAt_poison_of_isPeat {s : State} {pa sec : Nat} {tag : Bool} (hpeat : isPeat pa = true) (hsec : peatSector (pa / 8 * 8) = some sec) :
    (s.spoilAt pa tag).poison = s.poison := by
  have hcons : (List.range 4).filterMap (fun k => peatSector (pa / 8 * 8 + 2 * k)) =
      sec :: [1, 2, 3].filterMap fun k => peatSector (pa / 8 * 8 + 2 * k) := List.filterMap_cons_some hsec
  unfold State.spoilAt
  rw [if_pos hpeat, hcons]
  exact spoilTags_poison _ s

/-- An uncorrectable error in the only valid copy that an L2 slice holds (21 R378). -/
theorem upset_double_l2_of_dirty {s : State} {j pa : Nat} {tag : Bool} (hp : s.powered = true) (hs : s.struck (.l2 j pa tag) = true)
    (hd : dirtySector s.l2 pa = true) (hl1 : s.tiles.all (fun p => !dirtySector p.2.l1 pa) = true) :
    s.upset (.double (.l2 j pa tag)) = s.spoilAt pa tag := by
  simp [State.upset, State.uncorrectable, hp, hs, hd, hl1]

/-- What the statement asks of such an error: the unit is marked, at whatever address. -/
theorem unit_mem_poison_of_errorLeaves_l2 {s r : State} {j pa : Nat} (h : ErrorLeaves s r (.l2 j pa false)) (hd : dirtySector s.l2 pa = true)
    (hl1 : ∀ p ∈ s.tiles, dirtySector p.2.l1 pa = false) : pa / 8 ∈ r.poison := by
  simp only [ErrorLeaves] at h
  rw [if_pos ⟨hd, hl1⟩] at h
  obtain ⟨hunits, -⟩ := h
  exact (hunits (pa / 8)).mpr (.inr ⟨rfl, pa, List.mem_singleton_self pa, rfl⟩)

/-! ## The counterexample -/

/-- The first unit of the peat window, in the L2 slice that serves it: the tags of data sectors 0 to 3. -/
def peatSite : ErrorSite := .l2 0 (peatOf 0) false

/-- The package after reset, with tags written through the peat window that only the L2 holds, as an error strikes them. -/
def peatDirty : State :=
  { State.reset with
    l2 := [{ loc := { key := peatOf 0, tagged := false, l2s := 0, cp := 0 }, present := 1, dirty := 1, by_ := none, inv := [] }]
    agenda := [.upset (.double peatSite)] }

theorem peatDirty_dirty : dirtySector peatDirty.l2 (peatOf 0) = true := by decide

theorem peatDirty_struck : peatDirty.struck peatSite = true := by decide

theorem step_peatDirty : step peatDirty = .next (({ peatDirty with agenda := [] } : State).spoilAt (peatOf 0) false) :=
  congrArg Host.Outcome.next (upset_double_l2_of_dirty rfl peatDirty_struck peatDirty_dirty rfl)

/-- Refutes O40: of a dirty line of the peat window in the L2, the step marks the four sectors' tags and leaves the units' marks as they
were, where the statement has the unit marked. -/
theorem not_errorsStrike : ¬ Obligations.ErrorsStrike := by
  intro h
  obtain ⟨-, hdouble⟩ := h peatDirty [] peatSite rfl peatDirty_struck
  obtain ⟨r, hstep, -, -, -, hleaves⟩ := hdouble rfl
  obtain rfl := Host.Outcome.next.inj (step_peatDirty.symm.trans hstep)
  have hmarked := unit_mem_poison_of_errorLeaves_l2 hleaves peatDirty_dirty fun _ hp => nomatch hp
  rw [spoilAt_poison_of_isPeat (sec := 0) rfl rfl] at hmarked
  exact List.not_mem_nil hmarked

end Sys2Proof.Proofs
end

section
/-! PROOF. The scalar registers. -/

namespace Sys2Proof.Proofs

open Sys2Proof.Machine Sys2Proof.Spec

/-- Settles O58: by what a read and a write of a scalar register are. -/
theorem scalarRegisters : Obligations.ScalarRegisters := by
  intro c x site lane v b t a n
  refine ⟨rfl, sReg_zero x, write_s_zero x v b, fun hn => ?_, rfl⟩
  exact sReg_write_self x v fun h => hn (BitVec.eq_of_toNat_eq h)

end Sys2Proof.Proofs
end

section
/-! PROOF. Where the statement about decode breaches (O55) fails: convergence at an opcode of the matrix unit. By 14 R282, and in the model
(`Group.converged`), a group whose width is not 32, 64 or 96 takes ILL_CONV whatever its divergence stacks hold; the statement has it take
ILLEGAL where they are empty. The two deliveries differ in the vector that the slice finds in S5 (18 R338). -/

namespace Sys2Proof.Proofs

open Sys2Proof.Machine Sys2Proof.Spec

/-! ## What results that return leave as it was -/

theorem foldl_write_live_div (ws : List RegWrite) (x : Slice) :
    (ws.foldl Slice.write x).live = x.live ∧ (ws.foldl Slice.write x).div = x.div := by
  induction ws generalizing x with
  | nil => exact ⟨rfl, rfl⟩
  | cons w ws ih =>
    obtain ⟨hl, hd⟩ := ih (x.write w)
    exact ⟨hl.trans (write_live x w), hd.trans (write_div x w)⟩

theorem writeback_live_div (x : Slice) (p : Pend) : (x.writeback p).live = x.live ∧ (x.writeback p).div = x.div := by
  unfold Slice.writeback
  simp only
  split
  · exact foldl_write_live_div _ _
  · exact foldl_write_live_div _ _

theorem drained_live_div (s : State) (k : Nat) (x : Slice) : (s.drained k x).live = x.live ∧ (s.drained k x).div = x.div := by
  have fold : ∀ (ps : List Pend) (y : Slice),
      (ps.foldl Slice.writeback y).live = y.live ∧ (ps.foldl Slice.writeback y).div = y.div := by
    intro ps
    induction ps with
    | nil => exact fun _ => ⟨rfl, rfl⟩
    | cons p ps ih =>
      intro y
      obtain ⟨hl, hd⟩ := ih (y.writeback p)
      obtain ⟨hl', hd'⟩ := writeback_live_div y p
      exact ⟨hl.trans hl', hd.trans hd'⟩
  exact fold _ _

/-- A group's slices as they gather: none is divergent that was not, and each lives that did. -/
theorem gathered_live_div {s m : State} {t q : Nat} {g g1 : Group} (hg : s.group? t q = some g) (h : gathered s t q = some (m, g1)) (k : Nat) :
    (g1.slice k).live = (g.slice k).live ∧ (g1.slice k).div = (g.slice k).div := by
  have fold : ∀ (l : List Nat) (r : Group), ((l.foldl (fun r k => r.setSlice k (s.drained k (r.slice k))) r).slice k).live = (r.slice k).live ∧
      ((l.foldl (fun r k => r.setSlice k (s.drained k (r.slice k))) r).slice k).div = (r.slice k).div := by
    intro l
    induction l with
    | nil => exact fun _ => ⟨rfl, rfl⟩
    | cons j l ih =>
      intro r
      obtain ⟨hl, hd⟩ := ih (r.setSlice j (s.drained j (r.slice j)))
      rw [List.foldl_cons, hl, hd]
      by_cases e : k = j
      · rw [e, slice_setSlice_self]
        exact drained_live_div _ _ _
      · rw [slice_setSlice_ne _ _ e]
        exact ⟨rfl, rfl⟩
  unfold gathered at h
  rw [hg] at h
  obtain ⟨-, rfl⟩ := Prod.mk.inj (Option.some.inj h)
  exact fold _ _

theorem group?_of_gathered {s m : State} {t q : Nat} {g g1 : Group} (hg : s.group? t q = some g) (h : gathered s t q = some (m, g1)) :
    m.group? t q = some g1 := by
  unfold gathered at h
  rw [hg] at h
  obtain ⟨rfl, rfl⟩ := Prod.mk.inj (Option.some.inj h)
  exact group?_setGroup_self _ _ _ _

/-! ## Live slices are listed -/

/-- What is read of a table other than by default is listed. -/
theorem mem_of_get_ne {α : Type} {d : α} {n : Nat} : ∀ {t : Sparse α}, Sparse.get d t n ≠ d → (n, Sparse.get d t n) ∈ t
  | [], h => absurd rfl h
  | (m, x) :: t, h => by
    unfold Sparse.get at h ⊢
    by_cases e : m = n
    · rw [if_pos e, e]
      exact List.mem_cons_self
    · rw [if_neg e] at h ⊢
      exact List.mem_cons_of_mem _ (mem_of_get_ne h)

theorem mem_liveIdx_of_live {g : Group} {k : Nat} (h : (g.slice k).live = true) : k ∈ g.liveIdx := by
  have hk : g.slice k ≠ Slice.absent := fun e => by simp [e, Slice.absent] at h
  exact List.mem_map.2 ⟨(k, g.slice k), List.mem_filter.2 ⟨mem_of_get_ne hk, h⟩, rfl⟩

/-! ## The vector of a trap taken -/

/-- The slice has taken the trap of a vector: it waits for its delivery, or it is delivered and finds the vector in S5 (18 R338). -/
def Took (x : Slice) (v : Nat) : Prop :=
  (∃ tr beat, x.wait = .records tr beat ∧ tr.vec = v) ∨ (x.wait = .run ∧ x.sReg 5 = BitVec.ofNat 64 v)

/-- A slice that runs has taken the trap of one vector only. -/
theorem sReg_five_of_took {x : Slice} {v : Nat} (h : Took x v) (hr : x.wait = .run) : x.sReg 5 = BitVec.ofNat 64 v := by
  obtain ⟨tr, beat, hw, -⟩ | ⟨-, hs⟩ := h
  · cases hr.symm.trans hw
  · exact hs

/-- Slice `k` of the group has. -/
def TookAt (s : State) (t q k v : Nat) : Prop := ∃ g, s.group? t q = some g ∧ Took (g.slice k) v

/-- Leaving a gang moves slices between gangs, and does nothing else. -/
theorem slice_leaveGang (g : Group) (i k : Nat) : (g.leaveGang i).slice k = { g.slice k with gang := ((g.leaveGang i).slice k).gang } := by
  have h1 := regangs_setGang g (l := g.liveIdx.filter fun k => k ≠ i ∧ (g.slice k).gang = (g.slice i).gang) (L := i :: g.liveIdx) fun _ h =>
    .inl (List.mem_cons_of_mem _ (List.mem_filter.1 h).1)
  have h2 := h1.trans (regangs_setGang _ (l := [i]) fun _ h => .inl (List.mem_singleton.1 h ▸ List.mem_cons_self))
  exact h2.2.2 k

theorem took_leaveGang {g : Group} {k v : Nat} (h : Took (g.slice k) v) (i : Nat) : Took ((g.leaveGang i).slice k) v := by
  rw [slice_leaveGang]
  exact h

section
variable {s : State} {t q i k v : Nat} {g : Group}

/-- A slice that leaves its gang as it takes a trap: the others have taken what they had. -/
theorem tookAt_of_left {x : Slice} (h : k = i ∨ Took (g.slice k) v) (hx : Took x v) :
    TookAt (s.setGroup t q ((g.leaveGang i).setSlice i x)) t q k v := by
  refine ⟨_, group?_setGroup_self _ _ _ _, ?_⟩
  by_cases e : k = i
  · rw [e, slice_setSlice_self]
    exact hx
  · rw [slice_setSlice_ne _ _ e]
    exact took_leaveGang (h.resolve_left e) i

theorem tookAt_doom (h : TookAt s t q k v) (team : Nat) : TookAt (s.doom t team) t q k v := by
  obtain ⟨g, hg, hk⟩ := h
  refine ⟨g, ?_, hk⟩
  unfold State.doom State.updTeam
  split
  · rw [group?_updTile _ _ rfl, hg]
  · exact hg

theorem tookAt_push (h : TookAt s t q k v) (e : SqKind) : TookAt (s.push t q e) t q k v := by
  obtain ⟨g, hg, hk⟩ := h
  unfold State.push
  rw [updGroup_eq hg]
  exact ⟨_, group?_setGroup_self _ _ _ _, hk⟩

/-- Every vector but that of an unassigned opcode goes where it says (18 R338, R343). -/
theorem vecOf_eq {tr : Trap} (h : tr.vec ≠ 0x02) : s.vecOf tr = tr.vec := by
  simp [State.vecOf, h]

theorem tookAt_deliver {tr : Trap} (hg : s.group? t q = some g) (h : k = i ∨ Took (g.slice k) tr.vec) (hv : tr.vec ≠ 0x02) :
    TookAt (s.deliver t q i tr) t q k tr.vec := by
  unfold State.deliver
  rw [hg]
  simp only [vecOf_eq hv, if_true]
  split
  · refine tookAt_doom ?_ _
    exact tookAt_of_left h (.inl ⟨tr, 0, rfl, rfl⟩)
  · refine tookAt_push ?_ _
    refine tookAt_of_left h (.inr ⟨?_, ?_⟩)
    · rw [write_wait, write_wait]
    · exact sReg_write_self _ _ (by decide)

theorem tookAt_raise {tr : Trap} (hg : s.group? t q = some g) (h : k = i ∨ Took (g.slice k) tr.vec) (hv : tr.vec ≠ 0x02) (beat : Nat) :
    TookAt (s.raise t q i tr beat) t q k tr.vec := by
  have left := tookAt_of_left (s := s) (t := t) (q := q) (i := i) (x := { (g.leaveGang i).slice i with wait := .records tr beat }) h
    (.inl ⟨tr, beat, rfl, rfl⟩)
  obtain ⟨g1, hg1, hk1⟩ := left
  unfold State.raise State.tryDeliver
  rw [updGroup_eq hg]
  simp only
  split
  next tr' beat' hw =>
    have hr : Wait.records tr' beat' = .records tr beat := by
      rw [← hw, slice_of_group (group?_setGroup_self _ _ _ _), slice_setSlice_self]
    obtain ⟨rfl, rfl⟩ := Wait.records.inj hr
    split
    · exact tookAt_deliver hg1 (.inr hk1) hv
    · exact ⟨g1, hg1, hk1⟩
  next => exact ⟨g1, hg1, hk1⟩

/-- Slices that take a trap in turn: each has, and those that had the same have still. -/
theorem tookAt_foldl_raise {tr : Trap} (hv : tr.vec ≠ 0x02) : ∀ (l : List Nat) {s : State} {g : Group}, s.group? t q = some g →
    (k ∈ l ∨ Took (g.slice k) tr.vec) → TookAt (l.foldl (fun r j => r.raise t q j tr 0) s) t q k tr.vec
  | [], _, g, hg, h => ⟨g, hg, h.resolve_left List.not_mem_nil⟩
  | j :: l, s, g, hg, h => by
    by_cases hj : k = j ∨ Took (g.slice k) tr.vec
    · obtain ⟨g1, hg1, hk1⟩ := tookAt_raise hg hj hv 0
      exact tookAt_foldl_raise hv l hg1 (.inr hk1)
    · obtain ⟨hne, hn⟩ := not_or.1 hj
      obtain ⟨g1, hg1, -⟩ := tookAt_raise (k := j) hg (.inl rfl) hv 0
      exact tookAt_foldl_raise hv l hg1 (.inl ((List.mem_cons.1 (h.resolve_right hn)).resolve_left hne))

end

/-! ## What an arrival leaves as it was -/

/-- A slice that may be woken lives, and is as divergent, as before. -/
theorem ite_wake_live_div (c : Prop) [Decidable c] (x : Slice) :
    (if c then x.wake else x).live = x.live ∧ (if c then x.wake else x).div = x.div := by
  unfold Slice.wake
  split
  · split
    · exact ⟨rfl, rfl⟩
    · exact ⟨rfl, rfl⟩
  · exact ⟨rfl, rfl⟩

theorem finish_live_div (x old : Slice) (g : Group) (i : Instr) : (x.finish old g i).live = x.live ∧ (x.finish old g i).div = x.div := by
  unfold Slice.finish
  by_cases hr : x.wait.retries = true
  · rw [if_pos hr]
    exact ⟨rfl, rfl⟩
  · rw [if_neg hr]
    exact ite_wake_live_div _ _

/-- An arrival leaves the slices of the group as live, and as little divergent, as they were. -/
theorem arrived_live_div {s m : State} {i : Instr} {g g1 : Group} {l : List Nat} (h : Arrived s i g l m)
    (hg : s.group? s.focus.tile s.focus.slot = some g) (hg1 : m.group? s.focus.tile s.focus.slot = some g1) (k : Nat) :
    (g1.slice k).live = (g.slice k).live ∧ (g1.slice k).div = (g.slice k).div := by
  obtain ⟨a, b, ha, hb, -, hab⟩ := h.frame.group
  obtain rfl := Option.some.inj (hg.symm.trans ha)
  obtain rfl := Option.some.inj (hg1.symm.trans hb)
  by_cases hk : k ∈ l
  · have hs := h.slices k hk
    unfold Settles at hs
    rw [slice_of_group hg1] at hs
    rw [hs]
    exact finish_live_div _ _ _ _
  · rw [(hab k hk).1]
    exact ⟨rfl, rfl⟩

/-! ## A group of one slice -/

/-- The first word of an MMA that breaches its encoding. -/
def mmaBreach : DWord := 0x6607001002900901

/-- The package about to issue it for a group of four lanes. -/
def narrow : State :=
  { State.reset.placeWords mmaBreach 3 with agenda := [], focus := { tile := 0, slot := 0, slices := [0] } }

/-- That group. -/
def narrowGroup : Group := Group.starting (BitVec.ofNat 64 startPc)

theorem narrow_group : narrow.group? 0 0 = some narrowGroup := rfl

theorem narrow_comes : Comes narrow (.undefinedOpcode mmaBreach 3) narrowGroup [0] where
  power := rfl
  boot := rfl
  here := narrow_group
  gang := rfl
  some_ := List.cons_ne_nil _ _
  distinct := List.nodup_singleton 0
  ready := List.forall_mem_singleton.2 rfl
  calm := List.forall_mem_singleton.2 rfl

theorem narrow_arrives : Arrives narrow (.undefinedOpcode mmaBreach 3) narrowGroup [0] where
  toComes := narrow_comes
  clear := List.forall_mem_singleton.2 rfl

theorem narrow_gathered : Gathered narrowGroup (.undefinedOpcode mmaBreach 3) [0] where
  come := by decide
  same := by decide
  returns := by decide
  calm := by decide
  sound := rfl

theorem narrow_not_divergent (k : Nat) : (narrowGroup.slice k).div = [] := by
  by_cases hk : k = 0
  · rw [hk]
    rfl
  · rw [show narrowGroup.slice k = Slice.absent from if_neg (Ne.symm hk)]
    rfl

/-- The model answers ILL_CONV: the slice is delivered with vector 4. -/
theorem narrow_takes_illConv : ∃ r, execBreach mmaBreach 3 narrow = .next r ∧ (r.slice 0 0 0).wait = .run ∧ (r.slice 0 0 0).sReg 5 = 4 :=
  ⟨_, rfl, by decide +kernel, by decide +kernel⟩

/-- Refutes O55: a group of four lanes whose divergence stacks are empty takes ILL_CONV at an opcode of the matrix unit, not ILLEGAL. -/
theorem not_breachTraps : ¬ Obligations.BreachTraps := by
  intro h
  obtain ⟨m, p, harr, hgath, hexec⟩ := (h.1 narrow mmaBreach 3 narrowGroup [0]).2 (by decide) narrow_arrives
    narrow_gathered (by decide)
  obtain ⟨-, g1, -, hg1, -⟩ := harr.frame.group
  have hslices (k : Nat) : (p.2.slice k).live = (narrowGroup.slice k).live ∧ (p.2.slice k).div = (narrowGroup.slice k).div := by
    obtain ⟨hl, hd⟩ := arrived_live_div harr narrow_group hg1 k
    obtain ⟨hl', hd'⟩ := gathered_live_div hg1 hgath k
    exact ⟨hl'.trans hl, hd'.trans hd⟩
  have hdiv : ¬ (opcodeOf mmaBreach ≠ 0x261 ∧ ∃ k ∈ p.2.liveIdx, (p.2.slice k).div ≠ []) := by
    rintro ⟨-, k, -, hk⟩
    exact hk ((hslices k).2.trans (narrow_not_divergent k))
  simp only [if_neg hdiv] at hexec
  obtain ⟨r, hr, hrun, hs5⟩ := narrow_takes_illConv
  obtain rfl := Host.Outcome.next.inj (hr.symm.trans hexec)
  obtain ⟨g2, hg2, ht⟩ := tookAt_foldl_raise (k := 0)
    (tr := { illegal 0 with coll := true, lanes := some (laneMask (p.2.liveIdx.flatMap fun k => (p.2.slice k).laneSet k)) })
    (show 0x01 ≠ 0x02 by decide) p.2.liveIdx (group?_of_gathered hg1 hgath) (.inl (mem_liveIdx_of_live (hslices 0).1))
  rw [← slice_of_group hg2] at ht
  cases hs5.symm.trans (sReg_five_of_took ht hrun)

end Sys2Proof.Proofs
end

section
/-! PROOF. The generator of stochastic rounding (03 R58), and what reset leaves: the parts of the state that are tables are empty there, so
that each of their entries reads as the entry's own reset value. -/

namespace Sys2Proof.Proofs

open Sys2Proof.Machine Sys2Proof.Spec

/-! ## The generator -/

/-- A quarter's generator reads back what was written, 0 replaced (03 R58). -/
theorem srOf_setSr_self (x : Tile) (q : Nat) (v : DWord) : (x.setSr q v).srOf q = if v = 0 then srReset else v :=
  Sparse.get_set_self _ _ _ _

/-- Settles O60: the step is the model's definition, and the replacement is what a write of a generator does. -/
theorem generatorStep : Obligations.GeneratorStep :=
  ⟨fun _ => rfl, srOf_setSr_self⟩

/-! ## Reset -/

/-- An empty table reads as the default everywhere. -/
theorem sparse_get_nil {α : Type} (d : α) (n : Nat) : Sparse.get d [] n = d := rfl

theorem tile_reset (t : Nat) : State.reset.tile t = Tile.reset := sparse_get_nil _ t

theorem group?_reset (t q : Nat) : State.reset.group? t q = none := by
  rw [State.group?, tile_reset]
  rfl

theorem srOf_tile_reset (t q : Nat) : (State.reset.tile t).srOf q = srReset := by
  rw [tile_reset]
  exact sparse_get_nil _ q

theorem idle_tile_reset (t : Nat) : (State.reset.tile t).allow = 0 ∧ (State.reset.tile t).mx = none := by
  rw [tile_reset]
  exact ⟨rfl, rfl⟩

theorem queue_reset (n : Nat) : State.reset.queue n = Queue.reset := sparse_get_nil _ n

theorem sluice_reset (n : Nat) : State.reset.sluice n = Sluice.reset := sparse_get_nil _ n

/-- Settles O57: tiles, queues and sluices by their own lemmas, an indexed register as an entry of an empty table, and any other field as
`State.reset` and `Csr.reset` write it. That boot has passed is the model's choice (log 2). -/
theorem resetValues : Obligations.ResetValues := by
  have hnil (n : Nat) : Sparse.get (0 : DWord) [] n = 0 := sparse_get_nil 0 n
  refine ⟨fun t q => ⟨group?_reset t q, srOf_tile_reset t q⟩, idle_tile_reset, ?ptvec, ?tfbase, ?asidtb, hnil, ?flCfg, ?elCfg,
    ?flBase, ?flW, ?flR, ?elBase, ?elW, ?elR, fun n => ⟨hnil n, hnil n⟩, fun n => ⟨hnil n, hnil n, hnil n, hnil n⟩,
    ?testCfg, ?testStat, ?pwrLim, ?fldomCount, ?almCause, ?bootStat, queue_reset, sluice_reset,
    ?counters, ?launches, ?taskQ, ?resumed, ?measLog⟩
  all_goals rfl

end Sys2Proof.Proofs
end

section
/-! PROOF. Beats all of whose slices take one trap (O18): the checks of a memory access, poison in the table entries of its lookups, and
poison in what it reads. Each instruction that accesses memory is the beat of one form, whose checks come first and whose act consumes the
poison; each clause is then a fact about forms. -/

namespace Sys2Proof.Proofs

open Sys2Proof.Machine Sys2Proof.Spec

/-! ## A beat all of whose slices trap -/

section
variable {s m : State} {i : Instr} {g : Group} {l : List Nat} {c : UClass} {cost : Nat} {tr : Nat → Trap} {b : Nat}

theorem touchLatch_nil (x : Tile) (n : Nat) (g : Group) : x.touchLatch n g [] = x := by
  unfold Tile.touchLatch
  split
  · simp
  · rfl

/-- A tile and a group that are written back as they were. -/
theorem alike_rewritten (m : State) (t q : Nat) {f : Tile → Tile} {f' : Group → Group} (hf : ∀ x, f x = x) (hf' : ∀ g, f' g = g) :
    Alike m ((m.updTile t f).updGroup t q f') := by
  have hgroup (q' : Nat) : (m.updTile t f).group? t q' = m.group? t q' := group?_updTile m t (by rw [hf]) q'
  cases hg : m.group? t q with
  | some g => exact alike_of_group hg f hf (by rw [updGroup_eq ((hgroup q).trans hg), hf'])
  | none =>
    have hsame : (m.updTile t f).updGroup t q f' = m.updTile t f := by
      unfold State.updGroup
      rw [hgroup q, hg]
    rw [hsame]
    refine ⟨rfl, fun t' => ?_, fun t' q' => ?_⟩
    · by_cases e : t' = t
      · rw [e, tile_updTile_self, hf]
      · rw [tile_updTile_ne _ _ e]
    · by_cases e : t' = t
      · rw [e, hgroup]
      · unfold State.group?
        rw [tile_updTile_ne _ _ e]

/-- Where no slice of a gang is to take a trap before its instruction's own checks, and all take one then, the beat does no more than what
its plan does. -/
theorem beat_of_all_trap {t q : Nat} {plan : Plan} (hl : l ≠ []) (hcalm : ∀ k ∈ l, (g.slice k).asyncNow = none)
    (hclear : ∀ k ∈ l, s.preTrap g (g.slice k) i = none) (hm : plan c s l = (m, l.map fun k => (k, tr k, b))) :
    ∃ r, Alike m r ∧ s.beat t q g l i c cost plan = (l.foldl (fun r k => r.raise t q k (tr k) b) r).fresh := by
  have hnow : (l.filter fun k => (g.slice k).asyncNow.isSome) = [] :=
    List.filter_eq_nil_iff.mpr fun k hk => by simp [hcalm k hk]
  have hlater : (l.filter fun k => !(g.slice k).asyncNow.isSome) = l :=
    List.filter_eq_self.mpr fun k hk => by simp [hcalm k hk]
  have hpre : (l.map fun k => (k, s.preTrap g (g.slice k) i)) = l.map fun k => (k, none) :=
    List.map_congr_left fun k hk => by rw [hclear k hk]
  have hok : ((l.map fun k => (k, (none : Option Trap))).filter fun p => p.2.isNone).map Prod.fst = l := by
    simp [List.filter_map, Function.comp_def]
  have hbad : ((l.map fun k => (k, (none : Option Trap))).filterMap fun p => p.2.map fun tr => (p.1, tr, 0)) = [] :=
    filterMap_none fun p hp => by
      obtain ⟨k, -, rfl⟩ := List.mem_map.mp hp
      rfl
  have hgood : (l.filter fun k => !((l.map fun k => (k, tr k, b)).any fun p => p.1 = k)) = [] :=
    List.filter_eq_nil_iff.mpr fun k hk => by simpa using hk
  have hne : ¬ l.isEmpty = true := by simpa using hl
  refine ⟨_, alike_rewritten m t q (fun x => touchLatch_nil x (q / 16) g) fun g => (rfl : g.splitGang [] = g), ?_⟩
  unfold State.beat
  simp only [hnow, hlater, hpre, hok, hbad, if_neg hne, hm, hgood, List.any_nil, Bool.false_eq_true, if_false, List.foldl_nil,
    List.flatMap_nil, List.nil_append, List.foldl_map]

/-- A gang that may issue beats. -/
theorem runBeat_of_toIssue (h : ToIssue s i g l c cost) (plan : Nat → Nat → Plan) :
    runBeat s i plan = .next (s.beat s.focus.tile s.focus.slot g l i c cost
      (upsetPlan s.focus.tile s.focus.slot g i (plan s.focus.tile s.focus.slot))) := by
  obtain ⟨k, rest, rfl⟩ := List.exists_cons_of_ne_nil h.some_
  unfold runBeat
  simp only [h.power, h.boot, h.here, h.gang, h.covered, Bool.and_self, Bool.not_true, Bool.false_eq_true, if_false]

/-- A beat whose plan leaves the machine `m` and a trap for every slice. -/
theorem trapsIn_of_plan {plan : Nat → Nat → Plan} (h : Issues s i g l c cost) (he : exec i s = runBeat s i plan)
    (hm : plan s.focus.tile s.focus.slot c s l = (m, l.map fun k => (k, tr k, b))) : TrapsIn s m i l tr b := by
  obtain ⟨r, hr, hbeat⟩ := beat_of_all_trap (t := s.focus.tile) (q := s.focus.slot) (cost := cost) h.some_ h.calm h.clear
    ((upsetPlan_sound h.sound _ _ i (plan s.focus.tile s.focus.slot) c s).trans hm)
  exact ⟨r, hr, by rw [he, runBeat_of_toIssue h.toToIssue, hbeat]⟩

end


/-! ## Poison consumed -/

/-- What a beat answers that consumes poison: the machine with the record, and the trap for each of its slices (21 R379). -/
def consumedBeat (l : List Nat) (p : State × Trap) : BeatRes := (p.1, trapAll l p.2 0)

section
variable {s : State} {t v q n : Nat} {g : Group} {l : List Nat} {i : Instr} {od : Order} {sc : Scope} {pl : List (LaneReq × Loc)}

/-- CONSUMED and its trap, as the statement has them. -/
theorem consumeFrom_cons (s : State) (t v : Nat) (g : Group) (n : Nat) (a : LaneReq × Loc) (rest : List (LaneReq × Loc)) :
    s.consumeFrom t v g n (a :: rest) = consumed s t g (s.badUnit v a.2.key n) (s.arrayOf v (s.badUnit v a.2.key n))
      ((a :: rest).map fun r => r.1.lane) := rfl

theorem poisonCheck_of_ne_nil {isBad : LaneReq × Loc → Bool} (h : pl.filter isBad ≠ []) (act : BeatRes) :
    s.poisonCheck t v g l n pl isBad act = consumedBeat l (s.consumeFrom t v g n (pl.filter isBad)) := by
  unfold State.poisonCheck
  split
  next hnil => exact absurd hnil h
  next => rfl

theorem isEmpty_false_of_filter_ne_nil {isBad : LaneReq × Loc → Bool} (h : pl.filter isBad ≠ []) : pl.isEmpty = false := by
  cases pl with
  | nil => exact absurd rfl h
  | cons p rest => rfl

/-- The check of some accesses `full` of a beat. -/
theorem poisonCheck_of_filter_ne_nil {full isBad : LaneReq × Loc → Bool} (h : pl.filter (fun p => full p && isBad p) ≠ []) (act : BeatRes) :
    s.poisonCheck t v g l n (pl.filter full) isBad act =
      consumedBeat l (s.consumeFrom t v g n (pl.filter fun p => full p && isBad p)) := by
  have hfilter : (pl.filter full).filter isBad = pl.filter fun p => full p && isBad p := by
    rw [List.filter_filter]
    exact List.filter_congr fun p _ => Bool.and_comm _ _
  rw [← hfilter] at h ⊢
  exact poisonCheck_of_ne_nil h act

/-- A load whose beat is given the order `od'` of its instruction, `od`. -/
theorem loadBeat_of_poison {od' : Order} {inv : Option Bool} {wr : LaneReq → List Byte → Eb16 → List RegWrite}
    {more : Nat → List RegWrite} (hod : od' = od)
    (hwait : (s.loadHeld g false (pl.map fun p => (p.2, n)) || s.linkHeld (s.l1Misses t (pl.map fun p => (p.2, n)))) = false)
    (h : pl.filter (fun p => ((s.view g).loadBytes t (s.groupLaunch t g) p.1.lane (od = .acq || inv.isNone) p.2 n).bad) ≠ []) :
    s.loadBeat t q g i l od' sc inv n pl wr more = consumedBeat l (s.consumeFrom t t g n
      (pl.filter fun p => ((s.view g).loadBytes t (s.groupLaunch t g) p.1.lane (od = .acq || inv.isNone) p.2 n).bad)) := by
  subst hod
  unfold State.loadBeat
  simp only [isEmpty_false_of_filter_ne_nil h, hwait, Bool.false_eq_true, if_false]
  exact poisonCheck_of_ne_nil h _

theorem storeWith_of_poison {data : LaneReq → List Byte × Eb16} {enter : State → List Acc → State}
    (h : pl.filter (fun p => (s.view g).tagBad (accsOf pl data) (accOf data p)) ≠ []) :
    s.storeWith t q g i l od sc n pl data enter = consumedBeat l (s.consumeFrom t t g n
      (pl.filter fun p => (s.view g).tagBad (accsOf pl data) (accOf data p))) :=
  poisonCheck_of_ne_nil h _

theorem atomBeat_of_poison {f : AtomFn} {base : Base} {d b : VReg} (h : pl.filter (fun p => (s.view g).poisonAt p.2.key n) ≠ []) :
    s.atomBeat t q g i l od sc f base d b n pl = consumedBeat l (s.consumeFrom t noTile g n
      (pl.filter fun p => (s.view g).poisonAt p.2.key n)) := by
  unfold State.atomBeat
  rw [if_neg (by simp [isEmpty_false_of_filter_ne_nil h])]
  exact poisonCheck_of_ne_nil h _

/-! ## Lookups -/

/-- The accesses whose lookups read poisoned entries, none of which waits. -/
theorem lookBeat_of_poison {rs : List LaneReq} {a : LaneReq} {rest : List LaneReq} (hheld : s.walkHeld t g.asid (rs.map LaneReq.va) = false)
    (h : (rs.filter fun r => (s.walkPoison t g.asid r.va).isSome) = a :: rest) (act : BeatRes) :
    let ad := (s.walkPoison t g.asid a.va).getD 0
    s.lookBeat t q g l rs act = consumedBeat l (consumed s t g ad (s.arrayOf noTile ad) ((a :: rest).map LaneReq.lane)) := by
  have hbad : s.walkBad t g.asid rs = some ((s.walkPoison t g.asid a.va).getD 0, a :: rest) := by
    unfold State.walkBad
    rw [h]
  unfold State.lookBeat
  rw [if_neg (by simp [hheld]), hbad]
  rfl

theorem lookBeat_of_not_lookStops {rs : List LaneReq} (h : lookStops s t g rs = false) (act : BeatRes) :
    s.lookBeat t q g l rs act = act := by
  obtain ⟨hheld, hpoison⟩ := Bool.or_eq_false_iff.mp h
  have hbad : s.walkBad t g.asid rs = none := by
    unfold State.walkBad
    rw [List.filter_eq_nil_iff.mpr (List.any_eq_false.mp hpoison)]
  unfold State.lookBeat
  rw [if_neg (by simp [hheld]), hbad]

end

/-! ## The checks of a beat that accesses memory -/

/-- The beat of a form: the checks of its window, and `act` once they have passed. -/
def formBeat (F : MemForm) (s : State) (t q : Nat) (g : Group) (l : List Nat) (act : State → List BeatPage → BeatRes) : BeatRes :=
  let rs := beatReqs s t q g l F.reqs
  if F.glob then globalBeat s t q g l F.kind F.nr F.n rs (F.chk s t q g rs) act
  else padBeat s t g l F.n rs (F.chk s t q g rs) (act s [])

section
variable {F : MemForm} {s : State} {t q : Nat} {g : Group} {l : List Nat} {act : State → List BeatPage → BeatRes}

theorem alignTrap_eq_ite (rs : List LaneReq) (n : Nat) :
    alignTrap rs n =
      let bad := rs.filter fun r => r.va % n ≠ 0
      if !bad.isEmpty then some (misalign (bad.map LaneReq.lane) ((bad.tail.map LaneReq.va).foldl min (bad.headD ⟨0, 0, 0⟩).va))
      else none := by
  unfold alignTrap
  cases rs.filter fun r => r.va % n ≠ 0 with
  | nil => rfl
  | cons r rest => rfl

/-- The three checks, in their order, are the one trap of the statement. -/
theorem memTrap_eq (F : MemForm) (s : State) (t q : Nat) (g : Group) (l : List Nat) :
    memTrap F s t q g l =
      ((alignTrap (beatReqs s t q g l F.reqs) F.n).or (F.chk s t q g (beatReqs s t q g l F.reqs))).or
        (if F.glob then none else s.padTrap t g l (beatReqs s t q g l F.reqs) F.n) := by
  unfold memTrap
  rw [alignTrap_eq_ite]
  simp only
  split
  · rfl
  · cases F.chk s t q g (beatReqs s t q g l F.reqs) with
    | some tr => rfl
    | none => cases F.glob <;> rfl

theorem checks_eq_none_of_memTrap (h : memTrap F s t q g l = none) :
    alignTrap (beatReqs s t q g l F.reqs) F.n = none ∧ F.chk s t q g (beatReqs s t q g l F.reqs) = none ∧
      (if F.glob then none else s.padTrap t g l (beatReqs s t q g l F.reqs) F.n) = none := by
  rwa [memTrap_eq, Option.or_eq_none_iff, Option.or_eq_none_iff, and_assoc] at h

theorem formBeat_of_memTrap {tr : Trap} (h : memTrap F s t q g l = some tr) : formBeat F s t q g l act = (s, trapAll l tr 0) := by
  rw [memTrap_eq] at h
  unfold formBeat globalBeat padBeat
  cases halign : alignTrap (beatReqs s t q g l F.reqs) F.n with
  | some tr' =>
    obtain rfl : tr' = tr := by simpa [halign] using h
    simp only [halign, ite_self]
  | none =>
    cases hchk : F.chk s t q g (beatReqs s t q g l F.reqs) with
    | some tr' =>
      obtain rfl : tr' = tr := by simpa [halign, hchk] using h
      simp only [halign, hchk, ite_self]
    | none =>
      obtain ⟨hpad, htr⟩ : F.glob = false ∧ s.padTrap t g l (beatReqs s t q g l F.reqs) F.n = some tr := by
        simpa [halign, hchk] using h
      simp only [halign, hchk, hpad, htr, Bool.false_eq_true, if_false]

theorem formBeat_of_poisonedWalk {a : LaneReq} {rest : List LaneReq} (hglob : F.glob = true) (htrap : memTrap F s t q g l = none)
    (hheld : s.walkHeld t g.asid ((beatReqs s t q g l F.reqs).map LaneReq.va) = false)
    (h : ((beatReqs s t q g l F.reqs).filter fun r => (s.walkPoison t g.asid r.va).isSome) = a :: rest) :
    let ad := (s.walkPoison t g.asid a.va).getD 0
    formBeat F s t q g l act = consumedBeat l (consumed s t g ad (s.arrayOf noTile ad) ((a :: rest).map LaneReq.lane)) := by
  obtain ⟨halign, hchk, -⟩ := checks_eq_none_of_memTrap htrap
  unfold formBeat globalBeat
  simp only [hglob, if_true, halign, hchk]
  exact lookBeat_of_poison hheld h _

theorem formBeat_of_memPages {s1 : State} {ps : List BeatPage} (htrap : memTrap F s t q g l = none)
    (h : memPages F s t q g l = some (s1, ps)) : formBeat F s t q g l act = act s1 ps := by
  obtain ⟨halign, hchk, hpad⟩ := checks_eq_none_of_memTrap htrap
  unfold formBeat
  unfold memPages at h
  cases hglob : F.glob with
  | false =>
    obtain ⟨rfl, rfl⟩ : s = s1 ∧ [] = ps := by simpa [hglob] using h
    rw [hglob] at hpad
    unfold padBeat
    simp only [Bool.false_eq_true, if_false, halign, hchk] at hpad ⊢
    rw [hpad]
  | true =>
    simp only [hglob, Bool.not_true, Bool.false_eq_true, if_false] at h
    obtain ⟨hstops, h⟩ := Option.ite_none_left_eq_some.1 h
    unfold globalBeat
    simp only [if_true, halign, hchk]
    rw [lookBeat_of_not_lookStops (Bool.eq_false_iff.mpr hstops)]
    cases hpages : s.beatPages t g F.kind F.nr (beatReqs s t q g l F.reqs) with
    | error e => simp [hpages] at h
    | ok p =>
      obtain ⟨rfl, rfl⟩ : p.2 = s1 ∧ p.1 = ps := by simpa [hpages] using h
      rfl

end

/-! ## The instructions that access memory -/

/-- The instruction is a beat of a form, and its act, where an access consumes poison and nothing makes the beat wait, is to trap. -/
structure RunsForm (i : Instr) (F : MemForm) (plan : Nat → Nat → Plan)
    (act : State → Nat → Nat → Group → List Nat → State → List BeatPage → BeatRes) : Prop where
  runs : ∀ s, exec i s = runBeat s i plan
  after : ∀ s m, afterBeat i s m = m
  form : ∀ c s t q g l, s.group? t q = some g → plan t q c s l = formBeat F s t q g l (act s t q g l)
  poison : ∀ s t q g l s1 ps, memPages F s t q g l = some (s1, ps) → memWaits i F s1 t g (memHere F s1 ps t q g l s) = false →
    (memPoison i F s s1 ps t q g l).1 ≠ [] →
    act s t q g l s1 ps = consumedBeat l
      (s1.consumeFrom t (memPoison i F s s1 ps t q g l).2 g F.n (memPoison i F s s1 ps t q g l).1)

section
variable {i : Instr} {F : MemForm} {plan : Nat → Nat → Plan}

/-- An instruction of the global window. -/
theorem runsForm_of_glob {act : State → Nat → Nat → Group → List Nat → State → List BeatPage → BeatRes} (hglob : F.glob = true)
    (hruns : ∀ s, exec i s = runBeat s i plan) (hafter : ∀ s m, afterBeat i s m = m)
    (hplan : ∀ c s t q l, plan t q c s l = withGroup s t q fun g =>
      globalBeat s t q g l F.kind F.nr F.n (beatReqs s t q g l F.reqs) (F.chk s t q g (beatReqs s t q g l F.reqs)) (act s t q g l))
    (hpoison : ∀ s t q g l s1 ps, memWaits i F s1 t g (memHere F s1 ps t q g l s) = false → (memPoison i F s s1 ps t q g l).1 ≠ [] →
      act s t q g l s1 ps = consumedBeat l
        (s1.consumeFrom t (memPoison i F s s1 ps t q g l).2 g F.n (memPoison i F s s1 ps t q g l).1)) :
    ∃ plan act, RunsForm i F plan act := by
  refine ⟨plan, act, hruns, hafter, fun c s t q g l hg => ?_, fun s t q g l s1 ps _ => hpoison s t q g l s1 ps⟩
  rw [hplan, withGroup, hg]
  exact (if_pos hglob).symm

/-- An instruction of the scratchpad, for which no pages are to be found. -/
theorem runsForm_of_pad {act : State → Nat → Nat → Group → List Nat → BeatRes} (hglob : F.glob = false)
    (hruns : ∀ s, exec i s = runBeat s i plan) (hafter : ∀ s m, afterBeat i s m = m)
    (hplan : ∀ c s t q l, plan t q c s l = withGroup s t q fun g =>
      padBeat s t g l F.n (beatReqs s t q g l F.reqs) (F.chk s t q g (beatReqs s t q g l F.reqs)) (act s t q g l))
    (hpoison : ∀ s t q g l ps, memWaits i F s t g (memHere F s ps t q g l s) = false → (memPoison i F s s ps t q g l).1 ≠ [] →
      act s t q g l = consumedBeat l
        (s.consumeFrom t (memPoison i F s s ps t q g l).2 g F.n (memPoison i F s s ps t q g l).1)) :
    ∃ plan act, RunsForm i F plan act := by
  refine ⟨plan, fun s t q g l _ _ => act s t q g l, hruns, hafter, fun c s t q g l hg => ?_, fun s t q g l s1 ps hpages => ?_⟩
  · rw [hplan, withGroup, hg]
    exact (if_neg (by simp [hglob])).symm
  · obtain ⟨rfl, -⟩ : s = s1 ∧ [] = ps := by simpa [memPages, hglob] using hpages
    exact hpoison s t q g l ps

end

/-- The beat of each instruction is its form's, and each of the shared acts traps on poison; CLRF and CCTL consume none. -/
theorem exists_runsForm {i : Instr} {F : MemForm} (hi : memForm i = some F) : ∃ plan act, RunsForm i F plan act := by
  unfold memForm at hi
  split at hi
  case h_1 => -- LD
    obtain rfl := Option.some.inj hi
    refine runsForm_of_glob rfl (fun _ => rfl) (fun _ _ => rfl) (fun _ _ _ _ _ => rfl) fun _ _ _ _ _ _ _ hwait hbad =>
      loadBeat_of_poison (if_pos ?_) hwait hbad
    have hhere := List.isEmpty_map.symm.trans (isEmpty_false_of_filter_ne_nil hbad)
    exact Bool.or_eq_true_iff.mpr (.inr (congrArg not hhere))
  case h_2 => -- LDS
    obtain rfl := Option.some.inj hi
    exact runsForm_of_pad rfl (fun _ => rfl) (fun _ _ => rfl) (fun _ _ _ _ _ => rfl) fun _ _ _ _ _ _ hwait hbad =>
      loadBeat_of_poison rfl hwait hbad
  case h_3 => -- SLD
    obtain rfl := Option.some.inj hi
    exact runsForm_of_glob rfl (fun _ => rfl) (fun _ _ => rfl) (fun _ _ _ _ _ => rfl) fun _ _ _ _ _ _ _ hwait hbad =>
      loadBeat_of_poison rfl hwait hbad
  case h_4 | h_6 | h_12 => -- ST, SST, STF
    obtain rfl := Option.some.inj hi
    exact runsForm_of_glob rfl (fun _ => rfl) (fun _ _ => rfl) (fun _ _ _ _ _ => rfl) fun _ _ _ _ _ _ _ _ hbad =>
      storeWith_of_poison hbad
  case h_5 => -- STS
    obtain rfl := Option.some.inj hi
    exact runsForm_of_pad rfl (fun _ => rfl) (fun _ _ => rfl) (fun _ _ _ _ _ => rfl) fun _ _ _ _ _ _ _ hbad =>
      storeWith_of_poison hbad
  case h_7 | h_9 => -- ATOM, CAS
    obtain rfl := Option.some.inj hi
    exact runsForm_of_glob rfl (fun _ => rfl) (fun _ _ => rfl) (fun _ _ _ _ _ => rfl) fun _ _ _ _ _ _ _ _ hbad =>
      atomBeat_of_poison hbad
  case h_8 | h_10 => -- ATOMS, CASS
    obtain rfl := Option.some.inj hi
    exact runsForm_of_pad rfl (fun _ => rfl) (fun _ _ => rfl) (fun _ _ _ _ _ => rfl) fun _ _ _ _ _ _ _ hbad =>
      atomBeat_of_poison hbad
  case h_11 => -- LDF
    obtain rfl := Option.some.inj hi
    exact runsForm_of_glob rfl (fun _ => rfl) (fun _ _ => rfl) (fun _ _ _ _ _ => rfl) fun _ _ _ _ _ _ _ hwait hbad =>
      (if_neg (Bool.eq_false_iff.mp (isEmpty_false_of_filter_ne_nil hbad))).trans
        ((if_neg (Bool.eq_false_iff.mp hwait)).trans (poisonCheck_of_filter_ne_nil hbad _))
  case h_13 | h_14 | h_15 | h_16 | h_17 | h_18 => -- CLRF, CCTL
    obtain rfl := Option.some.inj hi
    exact runsForm_of_glob rfl (fun _ => rfl) (fun _ _ => rfl) (fun _ _ _ _ _ => rfl) fun _ _ _ _ _ _ _ _ hbad => absurd rfl hbad
  case h_19 => exact nomatch hi

/-! ## The other accesses of a beat -/

/-- The instruction is a beat of accesses, and of what `afterBeat` does then. -/
structure RunsAccess (i : Instr) (kind : AccKind) (reqs : Ctx → Slice → List LaneReq) (plan : Nat → Nat → Plan)
    (f : List BeatPage → State → Ctx → Slice → State × Option (Trap × Nat)) : Prop where
  runs : ∀ s, exec i s = runBeat s i plan
  access : ∀ c s l, plan s.focus.tile s.focus.slot c s l =
    (afterBeat i s (accessBeat s.focus.tile s.focus.slot kind reqs f c s l).1, (accessBeat s.focus.tile s.focus.slot kind reqs f c s l).2)

section
variable {i : Instr} {kind : AccKind} {reqs : Ctx → Slice → List LaneReq}
  {f : List BeatPage → State → Ctx → Slice → State × Option (Trap × Nat)}

theorem runsAccess_of_plain (hruns : ∀ s, exec i s = runBeat s i fun t q => accessBeat t q kind reqs f)
    (hafter : ∀ s m, afterBeat i s m = m) : ∃ plan f, RunsAccess i kind reqs plan f :=
  ⟨_, f, hruns, fun c s l => by rw [hafter]⟩

theorem runsAccess_of_return {h : Hdr} {need : Option Nat} (hruns : ∀ s, exec i s = runBeat s i (returnPlan i h need f))
    (hafter : ∀ s m, afterBeat i s m = m.afterReturn s.focus.tile s.focus.slot) :
    ∃ plan f, RunsAccess i .load (rftReqs h need) plan f :=
  ⟨_, fun ps => privSlice i h (f ps), hruns, fun c s l => by rw [hafter, returnPlan]⟩

/-- The beats that access stacks, frames or context items (06 R117, 18 R342, R347). -/
theorem exists_runsAccess (hi : besides i = some (kind, reqs)) : ∃ plan f, RunsAccess i kind reqs plan f := by
  unfold besides at hi
  split at hi
  case h_1 | h_2 | h_3 | h_6 | h_7 | h_8 => -- CALL, RET, CALLI, EMRET.dcl, STCTX, LDCTX
    obtain ⟨rfl, rfl⟩ := Prod.mk.inj (Option.some.inj hi)
    exact runsAccess_of_plain (fun _ => rfl) fun _ _ => rfl
  case h_4 | h_5 => -- RFT, EMRET
    obtain ⟨rfl, rfl⟩ := Prod.mk.inj (Option.some.inj hi)
    exact runsAccess_of_return (fun _ => rfl) fun _ _ => rfl
  case h_9 => exact nomatch hi

end

theorem lookedUp_eq_some {i : Instr} {s : State} {t q : Nat} {g : Group} {l : List Nat} {rs : List LaneReq}
    (h : lookedUp i s t q g l = some rs) :
    (∃ hd base w off sc, i = .pgreq hd base w off sc ∧ rs = lineReqs s t q g l hd base off) ∨
    (∃ F, memForm i = some F ∧ F.glob = true ∧ memTrap F s t q g l = none ∧ rs = beatReqs s t q g l F.reqs) ∨
    ∃ kind reqs, besides i = some (kind, reqs) ∧ rs = beatReqs s t q g l reqs := by
  unfold lookedUp at h
  split at h
  next hd base w off sc => exact .inl ⟨hd, base, w, off, sc, rfl, (Option.some.inj h).symm⟩
  next =>
    obtain ⟨p, hp, rfl⟩ := Option.map_eq_some_iff.mp h
    unfold pagedReqs at hp
    split at hp
    next F hF =>
      obtain ⟨hchecked, hp⟩ := Option.ite_none_right_eq_some.1 hp
      obtain ⟨hglob, htrap⟩ := Bool.and_eq_true_iff.mp hchecked
      exact .inr (.inl ⟨F, hF, hglob, Option.isNone_iff_eq_none.mp htrap, by rw [← Option.some.inj hp]⟩)
    next kind reqs _ hbesides => exact .inr (.inr ⟨kind, reqs, hbesides, by rw [← Option.some.inj hp]⟩)
    next => exact nomatch hp

/-! ## The statement -/

section
variable {s : State} {i : Instr} {g : Group} {l : List Nat} {c : UClass} {cost : Nat}

/-- The checks of a beat (04 R76, 11 R208, R209, R224). -/
theorem trapped_of_memTrap {F : MemForm} {tr : Trap} (h : Issues s i g l c cost) (hF : memForm i = some F)
    (htr : memTrap F s s.focus.tile s.focus.slot g l = some tr) : Trapped s i l fun _ => tr := by
  obtain ⟨plan, act, hform⟩ := exists_runsForm hF
  exact trapsIn_of_plan h (hform.runs s) ((hform.form _ _ _ _ _ _ h.here).trans (formBeat_of_memTrap htr))

/-- Poison in table entries (21 R379). -/
theorem trapsIn_of_poisonedWalk {rs : List LaneReq} (h : Issues s i g l c cost)
    (hrs : lookedUp i s s.focus.tile s.focus.slot g l = some rs)
    (hheld : s.walkHeld s.focus.tile g.asid (rs.map LaneReq.va) = false) {a : LaneReq} {rest : List LaneReq}
    (hbad : (rs.filter fun r => (s.walkPoison s.focus.tile g.asid r.va).isSome) = a :: rest) :
    let ad := (s.walkPoison s.focus.tile g.asid a.va).getD 0
    let p := consumed s s.focus.tile g ad (s.arrayOf noTile ad) ((a :: rest).map LaneReq.lane)
    TrapsIn s (afterBeat i s p.1) i l (fun _ => p.2) 0 := by
  obtain ⟨hd, base, w, off, sc, rfl, rfl⟩ | ⟨F, hF, hglob, htrap, rfl⟩ | ⟨kind, reqs, hi, rfl⟩ := lookedUp_eq_some hrs
  · refine trapsIn_of_plan h rfl ?_
    rw [pgreqPlan, withGroup, h.here]
    exact lookBeat_of_poison hheld hbad _
  · obtain ⟨plan, act, hform⟩ := exists_runsForm hF
    refine trapsIn_of_plan h (hform.runs s) ?_
    rw [hform.after]
    exact (hform.form _ _ _ _ _ _ h.here).trans (formBeat_of_poisonedWalk hglob htrap hheld hbad)
  · obtain ⟨plan, f, hacc⟩ := exists_runsAccess hi
    refine trapsIn_of_plan h (hacc.runs s) ((hacc.access c s l).trans ?_)
    simp only [accessBeat, h.here]
    rw [lookBeat_of_poison hheld hbad]
    rfl

/-- Poison in what the accesses consume (11 R217, 21 R379). -/
theorem trapsIn_of_memPoison {F : MemForm} {s1 : State} {ps : List BeatPage} (h : Issues s i g l c cost) (hF : memForm i = some F)
    (htrap : memTrap F s s.focus.tile s.focus.slot g l = none)
    (hpages : memPages F s s.focus.tile s.focus.slot g l = some (s1, ps))
    (hwait : memWaits i F s1 s.focus.tile g (memHere F s1 ps s.focus.tile s.focus.slot g l s) = false)
    {a : LaneReq × Loc} {rest : List (LaneReq × Loc)} (hbad : (memPoison i F s s1 ps s.focus.tile s.focus.slot g l).1 = a :: rest) :
    let v := (memPoison i F s s1 ps s.focus.tile s.focus.slot g l).2
    let ad := s1.badUnit v a.2.key F.n
    let p := consumed s1 s.focus.tile g ad (s1.arrayOf v ad) ((a :: rest).map fun r => r.1.lane)
    TrapsIn s p.1 i l (fun _ => p.2) 0 := by
  obtain ⟨plan, act, hform⟩ := exists_runsForm hF
  have hact := hform.poison _ _ _ _ _ _ _ hpages hwait (hbad ▸ List.cons_ne_nil a rest)
  rw [hbad, consumeFrom_cons] at hact
  refine trapsIn_of_plan h (hform.runs s) ((hform.form _ _ _ _ _ _ h.here).trans ?_)
  rw [formBeat_of_memPages htrap hpages]
  exact hact

end

/-- Settles O18: the three clauses are the three ways in which the beat of a form ends in one trap for all its slices; the second is also
that of the beats of accesses beside the memory instructions, and of PGREQ. -/
theorem memoryChecksTrapTheBeat : Obligations.MemoryChecksTrapTheBeat := fun _ _ _ _ _ _ h =>
  ⟨fun _ _ hF htr => trapped_of_memTrap h hF htr, fun _ hrs hheld _ _ hbad => trapsIn_of_poisonedWalk h hrs hheld hbad,
    fun _ _ _ hF htrap hpages hwait _ _ hbad => trapsIn_of_memPoison h hF htrap hpages hwait hbad⟩

end Sys2Proof.Proofs
end

section
/-! PROOF. The instructions that each slice carries out for itself: the scalar class with its division (O1, O59), those that trap by their
nature (O9), and EXIT (O8). Each instruction runs one plan; what the plan gives in a slice is what the statement's tables give. -/

namespace Sys2Proof.Proofs

open Sys2Proof.Machine Sys2Proof.Spec

/-! ## The plans of the classes -/

section
variable {i : Instr} {h : Hdr}

theorem runsSlices_of_scalarValue {d : SReg} {f : Ctx → Slice → DWord} (hi : scalarValue i = some (h, d, f)) (s : State) :
    exec i s = runSlices s i (scalarPlan i h d f) := by
  unfold scalarValue at hi
  split at hi
  case h_34 => exact nomatch hi
  all_goals obtain ⟨rfl, rfl, rfl⟩ := hi; rfl

theorem runsSlices_of_intWrites {f : LaneWrites} (hi : intWrites i = some (h, f)) (s : State) :
    exec i s = runSlices s i (lanePlan i h f) := by
  unfold intWrites at hi
  split at hi
  case h_35 => exact nomatch hi
  all_goals obtain ⟨rfl, rfl⟩ := hi; rfl

theorem runsSlices_of_laneWrites {f : LaneWrites} (hi : laneWrites i = some (h, f)) (s : State) :
    exec i s = runSlices s i (lanePlan i h f) := by
  unfold laneWrites at hi
  split at hi
  case h_16 => exact nomatch hi
  all_goals obtain ⟨rfl, rfl⟩ := hi; rfl

theorem runsSlices_of_floatElems {d : VReg} {uc : UC} {f : LaneFloats} (hi : floatElems i = some (h, d, uc, f)) (s : State) :
    exec i s = runSlices s i (fpPlan i h uc d f) := by
  unfold floatElems at hi
  split at hi
  case h_16 => exact nomatch hi
  all_goals obtain ⟨rfl, rfl, rfl, rfl⟩ := hi; rfl

theorem runsBeat_of_convWrites {ty : TyF} {rnd : Rnd} {f : LaneConv} (hi : convWrites i = some (h, ty, rnd, f)) (s : State) :
    exec i s = runBeat s i (convBeat i h ty rnd f) := by
  unfold convWrites at hi
  split at hi
  case h_6 => exact nomatch hi
  all_goals obtain ⟨rfl, rfl, rfl, rfl⟩ := hi; rfl

end

/-! ## The scalar class (06 R106-R112) -/

section
variable {s : State} {i : Instr} {g : Group} {l : List Nat} {c : UClass} {cost : Nat} {h : Hdr} {d : SReg}

/-- Settles O1: each instruction of the class runs the scalar plan, and a result that is posted leaves the slice free to go on. -/
theorem scalarCompletes : Obligations.ScalarCompletes := fun s i g l c cost h d f hv hI =>
  ran_of_running hI (runsSlices_of_scalarValue hv s) (fun _ _ => rfl) fun k hk => by
    rw [adv_wait, apply_ite Slice.wait, post_wait, ite_self, hI.ready k hk]

/-- What a beat is said to leave of its slices is said of those slices alone. -/
theorem ran_congr {y z : Nat → Slice} (h : Ran s i g l cost y) (hyz : ∀ k ∈ l, y k = z k) : Ran s i g l cost z := by
  obtain ⟨r, he, hframe, hslices, hpaid⟩ := h
  exact ⟨r, he, hframe, fun k hk => hyz k hk ▸ hslices k hk, hpaid⟩

/-- A scalar instruction that every slice performs, with one value. -/
theorem ran_of_scalarValue_eq {f : Ctx → Slice → DWord} (hv : scalarValue i = some (h, d, f)) (hI : Issues s i g l c cost) {v : DWord}
    (hperf : ∀ k ∈ l, (ctxOf s s.focus.tile s.focus.slot g k).performs (g.slice k) h = true)
    (hval : ∀ k ∈ l, f (ctxOf s s.focus.tile s.focus.slot g k) (g.slice k) = v) :
    Ran s i g l cost fun k => ((g.slice k).post [wS d.toNat v]).adv i :=
  ran_congr (scalarCompletes s i g l c cost h d f hv hI) fun k hk => by simp only [hperf k hk, if_true, hval k hk]

/-- Settles O59: each value is the class's own function at the operands. -/
theorem divisionSpecialCases : Obligations.DivisionSpecialCases := by
  intro s i g l c cost h d a y p q hI hops gives
  have hperf k hk := (hops k hk).1
  have hp k hk := (hops k hk).2.1
  have hq k hk := (hops k hk).2.2
  have quot (f : DWord → DWord → DWord) {v : DWord}
      (hv : scalarValue i = some (h, d, fun e x => f (e.rdS x 0 a.toNat) (e.sY x 1 y))) (hf : f p q = v) : gives v :=
    ran_of_scalarValue_eq hv hI hperf fun k hk => by rw [hp k hk, hq k hk, hf]
  refine ⟨?_, ?_, ?_, ?_⟩
  · rintro rfl
    exact ⟨by rintro rfl; exact quot sQuot rfl rfl, by rintro rfl rfl; exact quot sQuot rfl (by decide),
      by rintro rfl rfl; exact quot sQuot rfl (by decide)⟩
  · rintro rfl rfl
    exact quot nQuot rfl rfl
  · rintro rfl
    exact ⟨by rintro rfl; exact quot sRem rfl rfl, by rintro rfl rfl; exact quot sRem rfl (by decide),
      by rintro rfl rfl; exact quot sRem rfl (by decide)⟩
  · rintro rfl rfl
    exact quot nRem rfl rfl

end

/-! ## Beats some of whose slices trap -/

/-- The slices `l` of a group that is there are not to execute their instruction again. -/
def Going (s : State) (t q : Nat) (l : List Nat) : Prop := ∃ g, s.group? t q = some g ∧ ∀ k ∈ l, (g.slice k).wait.retries = false

section
variable {s r m : State} {t q : Nat} {l : List Nat}

theorem Going.updGroup (hr : Going r t q l) {f : Group → Group}
    (hf : ∀ g, (∀ k ∈ l, (g.slice k).wait.retries = false) → ∀ k ∈ l, ((f g).slice k).wait.retries = false) :
    Going (r.updGroup t q f) t q l := by
  obtain ⟨g, hg, hgo⟩ := hr
  rw [updGroup_eq hg]
  exact ⟨f g, group?_setGroup_self .., hf g hgo⟩

theorem retries_setSlice {g : Group} (hg : ∀ k ∈ l, (g.slice k).wait.retries = false) {j : Nat} {x : Slice}
    (hx : j ∈ l → x.wait.retries = false) : ∀ k ∈ l, ((g.setSlice j x).slice k).wait.retries = false := fun k hk => by
  by_cases e : k = j
  · rw [e, slice_setSlice_self, hx (e ▸ hk)]
  · rw [slice_setSlice_ne _ _ e, hg k hk]

theorem Going.setSlice (hr : Going r t q l) (k : Nat) {x : Slice} (hx : x.wait.retries = false) : Going (r.setSlice t q k x) t q l :=
  hr.updGroup fun _ hg => retries_setSlice hg fun _ => hx

/-- A loop over the slices of a group none of whose turns has one execute again. -/
theorem retries_foldl {f : Group → Nat → Group}
    (hf : ∀ g j, (∀ k ∈ l, (g.slice k).wait.retries = false) → ∀ k ∈ l, ((f g j).slice k).wait.retries = false) (js : List Nat)
    {g : Group} (hg : ∀ k ∈ l, (g.slice k).wait.retries = false) : ∀ k ∈ l, ((js.foldl f g).slice k).wait.retries = false := by
  induction js generalizing g with
  | nil => exact hg
  | cons j js ih => exact ih (hf g j hg)

theorem Going.foldl {α : Type} {f : State → α → State} {js : List α} (hf : ∀ r, ∀ j ∈ js, Going r t q l → Going (f r j) t q l)
    (hs : Going s t q l) : Going (js.foldl f s) t q l := by
  induction js generalizing s with
  | nil => exact hs
  | cons j js ih => exact ih (fun r k hk => hf r k (List.mem_cons_of_mem _ hk)) (hf s j List.mem_cons_self hs)

theorem Going.enacted (hs : Going s s.focus.tile s.focus.slot l) {y : Nat → Except Trap Slice} {js : List Nat}
    (hy : ∀ k ∈ js, ∀ x, y k = .ok x → x.wait.retries = false) : Going (s.enacted js y) s.focus.tile s.focus.slot l := by
  refine Going.foldl (fun r k hk hr => ?_) hs
  cases hyk : y k with
  | ok x => exact hr.setSlice k (hy k hk x hyk)
  | error tr => exact hr

variable {i : Instr} {g : Group} {c : UClass} {cost : Nat}

theorem going_of_toIssue (hI : ToIssue s i g l c cost) : Going s s.focus.tile s.focus.slot l :=
  ⟨g, hI.here, fun k hk => by rw [hI.ready k hk]; rfl⟩

/-- A beat that may issue, and whose plan leaves the machine `m` and some traps. -/
theorem parted_of_issues {plan : Nat → Nat → Plan} {trs : List (Nat × Trap)} (hI : Issues s i g l c cost) (he : exec i s = runBeat s i plan)
    (hm : plan s.focus.tile s.focus.slot c s l = (m, trs.map fun p => (p.1, p.2, 0))) (hgo : Going m s.focus.tile s.focus.slot l) :
    Parted s i g l cost m trs := by
  obtain ⟨g1, hg1, hwait⟩ := hgo
  have hclear : (l.filter fun k => (s.preTrap g (g.slice k) i).isNone) = l :=
    List.filter_eq_self.mpr fun k hk => by rw [hI.clear k hk]; rfl
  have hearly : (l.filterMap fun k => (s.preTrap g (g.slice k) i).map fun tr => (k, tr)) = [] :=
    filterMap_none fun k hk => by rw [hI.clear k hk]; rfl
  have hplan : (if (l.filter fun k => (s.preTrap g (g.slice k) i).isNone).isEmpty then (s, [])
      else upsetPlan s.focus.tile s.focus.slot g i (plan s.focus.tile s.focus.slot) c s
        (l.filter fun k => (s.preTrap g (g.slice k) i).isNone)) = (m, trs.map fun p => (p.1, p.2, 0)) := by
    rw [hclear, if_neg (by simpa using hI.some_), upsetPlan_sound hI.sound, hm]
  have h := parted_of_plan hI.toToIssue he hplan hg1 hwait
  rwa [hearly, List.nil_append] at h

/-- Slices that act each for themselves, some of which trap; `f` is what the beat does then. -/
theorem divided_of_perSlice {plan : Nat → Nat → Plan} {f : State → State} {p : UClass → Ctx → Slice → Except Trap Slice}
    {y : Nat → Except Trap Slice} (hI : Issues s i g l c cost) (he : exec i s = runBeat s i plan)
    (hplan : plan s.focus.tile s.focus.slot c s l =
      (f (perSlice s.focus.tile s.focus.slot p c s l).1, (perSlice s.focus.tile s.focus.slot p c s l).2))
    (hp : ∀ k ∈ l, p c (ctxOf s s.focus.tile s.focus.slot g k) (g.slice k) = y k)
    (hy : ∀ k ∈ l, ∀ x, y k = .ok x → x.wait.retries = false)
    (hf : ∀ r, Going r s.focus.tile s.focus.slot l → Going (f r) s.focus.tile s.focus.slot l) : Divided s i g l cost f y := by
  refine parted_of_issues hI he ?_ (hf _ ((going_of_toIssue hI.toToIssue).enacted hy))
  rw [hplan, perSlice_parts hI.here hp]

theorem divided_of_slices {p : UClass → Ctx → Slice → Except Trap Slice} {y : Nat → Except Trap Slice} (hI : Issues s i g l c cost)
    (he : exec i s = runSlices s i p) (hp : ∀ k ∈ l, p c (ctxOf s s.focus.tile s.focus.slot g k) (g.slice k) = y k)
    (hy : ∀ k ∈ l, ∀ x, y k = .ok x → x.wait.retries = false) : Divided s i g l cost id y :=
  divided_of_perSlice hI (he.trans rfl) rfl hp hy fun _ hr => hr

end

/-! ## Instructions that trap by their nature (06 R126, 18 R343, 05 R98) -/

/-- What such an instruction comes to in a slice. -/
def trapOutcome (i : Instr) (c : Ctx) (x : Slice) : Except Trap Slice :=
  match raises i c x with
  | some tr => .error tr
  | none => .ok (x.adv i)

theorem eq_adv_of_trapOutcome {i : Instr} {c : Ctx} {x y : Slice} (h : trapOutcome i c x = .ok y) : y = x.adv i := by
  unfold trapOutcome at h
  split at h
  next => exact nomatch h
  next => exact (Except.ok.inj h).symm

theorem trapOutcome_of_ite {i : Instr} {c : Ctx} {x : Slice} {p : Bool} {tr : Trap} (h : raises i c x = if p then some tr else none) :
    trapOutcome i c x = if p then .error tr else .ok (x.adv i) := by
  unfold trapOutcome
  rw [h]
  cases p <;> rfl

theorem runsSlices_of_isTrap {i : Instr} (hi : isTrap i = true) (s : State) : exec i s = runSlices s i fun _ => trapOutcome i := by
  cases i with
  | trap h imm =>
    refine congrArg (runSlices s (.trap h imm)) (funext fun _ => funext fun c => funext fun x => ?_)
    exact (trapOutcome_of_ite rfl).symm
  | sysc h imm =>
    refine congrArg (runSlices s (.sysc h imm)) (funext fun _ => funext fun c => funext fun x => ?_)
    exact (trapOutcome_of_ite rfl).symm
  | undefinedOpcode w0 w1 => rfl
  | _ => exact nomatch hi

/-- Settles O9: a slice takes the trap, or goes on. -/
theorem trapInstructionsTrap : Obligations.TrapInstructionsTrap := fun s i g l c cost hi hI =>
  divided_of_slices hI (runsSlices_of_isTrap hi s) (fun _ _ => rfl) fun k hk x hx => by
    rw [eq_adv_of_trapOutcome hx, adv_wait, hI.ready k hk]
    rfl

/-! ## EXIT (06 R123) -/

section
variable {l : List Nat} {g : Group}

theorem retries_wake (x : Slice) : x.wake.wait.retries = false := by
  unfold Slice.wake
  split <;> rfl

/-- An arrival that is made lets slices go on. -/
theorem retries_completeArrival (hg : ∀ k ∈ l, (g.slice k).wait.retries = false) (n : Nat) :
    ∀ k ∈ l, ((g.completeArrival n).slice k).wait.retries = false := by
  unfold Group.completeArrival
  split
  · exact retries_foldl (fun g j hg => retries_setSlice hg fun hj => by
      split
      · exact retries_wake _
      · exact hg j hj) _ hg
  · exact hg

theorem retries_completeArrivals (hg : ∀ k ∈ l, (g.slice k).wait.retries = false) :
    ∀ k ∈ l, (g.completeArrivals.slice k).wait.retries = false :=
  retries_foldl (fun _ n hg => retries_completeArrival hg n) _ hg

theorem retries_letPreempt (hg : ∀ k ∈ l, (g.slice k).wait.retries = false) :
    ∀ k ∈ l, (g.letPreempt.slice k).wait.retries = false := by
  unfold Group.letPreempt
  split
  · refine retries_foldl (fun g j hg => ?_) _ hg
    exact retries_setSlice hg (hg j)
  · exact hg

end

/-- What EXIT comes to in a slice. -/
theorem exit_eq (i : Instr) (x : Slice) (gone : BitVec 4) :
    x.exit i gone =
      if x.div ≠ [] then .error (illegal 3)
      else if x.lmask &&& ~~~gone = 0 then .ok { x with live := false, lmask := 0, wins := [], wait := .run, async := [], arrv := 0 }
      else .ok { x.adv i with lmask := x.lmask &&& ~~~gone } := by
  unfold Slice.exit Slice.retire
  simp only [Bool.not_eq_true', List.isEmpty_eq_false_iff]

theorem retries_of_exit {i : Instr} {x y : Slice} {gone : BitVec 4} (hx : x.wait = .run) (h : x.exit i gone = .ok y) :
    y.wait.retries = false := by
  rw [exit_eq] at h
  split at h
  · exact nomatch h
  · split at h <;> obtain rfl := Except.ok.inj h
    · rfl
    · exact congrArg Wait.retries hx

theorem afterBeat_exit (h : Hdr) (s m : State) :
    afterBeat (.exit h) s m = m.updGroup s.focus.tile s.focus.slot fun g => g.completeArrivals.letPreempt := rfl

theorem runsBeat_exit (h : Hdr) (s : State) : exec (.exit h) s = runBeat s (.exit h) fun t q u s l =>
    let r := perSlice t q (fun _ c x => x.exit (.exit h) (mask4 (c.guarded x h))) u s l
    (r.1.updGroup t q fun g => g.completeArrivals.letPreempt, r.2) := rfl

/-- Settles O8: each slice leaves or traps for itself, after which arrivals are made and a pre-emption let through. -/
theorem exitCompletes : Obligations.ExitCompletes := by
  intro s g l c cost h hI
  refine divided_of_perSlice (p := fun _ c x => x.exit (.exit h) (mask4 (c.guarded x h))) hI (runsBeat_exit h s) (by rw [afterBeat_exit])
    (fun _ _ => exit_eq ..) (fun k hk y hy => ?_) fun r hr => ?_
  · exact retries_of_exit (hI.ready k hk) ((exit_eq (.exit h) _ (mask4 ((ctxOf s _ _ g k).guarded (g.slice k) h))).trans hy)
  · rw [afterBeat_exit]
    exact hr.updGroup fun _ hg => retries_letPreempt (retries_completeArrivals hg)

end Sys2Proof.Proofs
end

section
/-! PROOF. Branches, modes, waits, calls and returns in a slice that neither traps nor makes an access (O6): what each leaves, and what it traps
for before an access. -/

namespace Sys2Proof.Proofs

open Sys2Proof.Machine Sys2Proof.Spec

/-! ## Branches, divergence, modes and waits (06 R114-R126): each slice for itself -/

/-- The instruction is carried out by each slice for itself, which comes to the trap or the slice that the statement's tables give. -/
structure RunsPlain (i : Instr) (p : UClass → Ctx → Slice → Except Trap Slice) : Prop where
  runs : ∀ s, exec i s = runSlices s i p
  after : ∀ u c x y, sliceAfter i u c x = some y → p u c x = .ok y
  traps : ∀ c x tr, sliceTrap i c x = some tr → ∀ u, p u c x = .error tr

section
variable {h : Hdr}

/-- An instruction that never traps. -/
theorem runsPlain_of_total {i : Instr} {z : UClass → Ctx → Slice → Slice} (hruns : ∀ s, exec i s = runSlices s i fun u c x => .ok (z u c x))
    (hafter : ∀ u c x, sliceAfter i u c x = some (z u c x)) (htraps : ∀ c x, sliceTrap i c x = none) : ∃ p, RunsPlain i p :=
  ⟨_, hruns, fun u c x _ hy => congrArg _ (Option.some.inj ((hafter u c x).symm.trans hy)),
    fun c x _ htr => nomatch (htraps c x).symm.trans htr⟩

theorem runsPlain_bra (t : BitVec 20) : ∃ p, RunsPlain (.bra h t) p :=
  runsPlain_of_total (fun _ => rfl) (fun _ _ x => congrArg some (apply_ite (Slice.jump x) ..)) fun _ _ => rfl

theorem runsPlain_brs (t : BitVec 20) (cc : Cond) (a : SReg) : ∃ p, RunsPlain (.brs h t cc a) p :=
  runsPlain_of_total (fun _ => rfl) (fun _ _ x => congrArg some (apply_ite (Slice.jump x) ..)) fun _ _ => rfl

theorem runsPlain_nop : ∃ p, RunsPlain (.nop h) p := runsPlain_of_total (fun _ => rfl) (fun _ _ _ => rfl) fun _ _ => rfl

theorem runsPlain_yield : ∃ p, RunsPlain (.yield h) p := runsPlain_of_total (fun _ => rfl) (fun _ _ _ => rfl) fun _ _ => rfl

theorem runsPlain_waitt (a : SReg) : ∃ p, RunsPlain (.waitt h a) p := runsPlain_of_total (fun _ => rfl) (fun _ _ _ => rfl) fun _ _ => rfl

theorem runsPlain_setfmt (ty : Ty) (rm : BitVec 2) : ∃ p, RunsPlain (.setfmt h ty rm) p :=
  runsPlain_of_total (fun _ => rfl) (fun _ _ _ => rfl) fun _ _ => rfl

theorem runsPlain_setbud (src : BudSrc) : ∃ p, RunsPlain (.setbud h src) p :=
  runsPlain_of_total (fun _ => rfl) (fun _ _ _ => rfl) fun _ _ => rfl

theorem runsPlain_fsetp (ty : TyF) (uc : UC) (p : PReg) (a : VReg) (b : VOpnd) (cc : FCond) : ∃ f, RunsPlain (.fsetp h ty uc p a b cc) f :=
  runsPlain_of_total (fun _ => rfl) (fun _ _ _ => rfl) fun _ _ => rfl

theorem runsPlain_brv (t j : BitVec 20) : ∃ p, RunsPlain (.brv h t j) p :=
  runsPlain_of_total (fun _ => rfl) (fun _ c x => by
    show _ = some (Slice.brv ..)
    simp only [Slice.brv, sliceAfter, apply_ite some]
    rfl) fun _ _ => rfl

/-- MOVRS by its selector. -/
theorem setSpecial_eq (x : Slice) (sel : BitVec 8) (v : DWord) :
    x.setSpecial sel.toNat v =
      if sel = 0x01 then if x.lmask &&& v.setWidth 4 = 0 then .error (illegal 3) else .ok { x with lmask := x.lmask &&& v.setWidth 4 }
      else if sel = 0x0A then if bits v 7 4 = 15 then .error (illegal 0) else .ok { x with fmt := v.setWidth 8 &&& 0xFC }
      else if sel = 0x0B then .ok { x with ebud := v.setWidth 17 }
      else if sel = 0x0C then .ok { x with hx := v.setWidth 8 }
      else .error (illegal 0) := by
  unfold Slice.setSpecial
  split
  next e =>
    obtain rfl : sel = 0x01 := BitVec.eq_of_toNat_eq e
    rfl
  next e =>
    obtain rfl : sel = 0x0A := BitVec.eq_of_toNat_eq e
    rfl
  next e =>
    obtain rfl : sel = 0x0B := BitVec.eq_of_toNat_eq e
    rfl
  next e =>
    obtain rfl : sel = 0x0C := BitVec.eq_of_toNat_eq e
    rfl
  next n1 nA nB nC =>
    rw [if_neg fun e => n1 (congrArg BitVec.toNat e), if_neg fun e => nA (congrArg BitVec.toNat e),
      if_neg fun e => nB (congrArg BitVec.toNat e), if_neg fun e => nC (congrArg BitVec.toNat e)]

/-- What MOVRS comes to in a slice. -/
def movrsOutcome (i : Instr) (h : Hdr) (sel : BitVec 8) (a : SReg) (c : Ctx) (x : Slice) : Except Trap Slice :=
  if c.performs x h then
    match x.setSpecial sel.toNat (c.rdS x 0 a.toNat) with
    | .ok y => .ok (y.adv i)
    | .error tr => .error tr
  else .ok (x.adv i)

theorem runsPlain_movrs (sel : BitVec 8) (a : SReg) : ∃ p, RunsPlain (.movrs h sel a) p := by
  refine ⟨fun _ => movrsOutcome (.movrs h sel a) h sel a, fun _ => rfl, fun u c x y hy => ?_, fun c x tr htr u => ?_⟩
  all_goals unfold movrsOutcome; rw [setSpecial_eq]
  · simp only [sliceAfter] at hy
    split_ifs at hy ⊢ <;> simp_all
  · simp only [sliceTrap] at htr
    split_ifs at htr ⊢ <;> simp_all

/-- JOIN raises ILLEGAL where it has no entry of a divergence. -/
theorem join_eq_none_of_trap {c : Ctx} {x : Slice} {tr : Trap} (htr : sliceTrap (.join h) c x = some tr) : x.join = none ∧ tr = illegal 3 := by
  unfold Slice.join
  simp only [sliceTrap] at htr
  cases hd : x.div with
  | nil => exact ⟨rfl, by simpa only [hd, Option.some.injEq, eq_comm] using htr⟩
  | cons e rest =>
    simp only [hd] at htr ⊢
    split_ifs at htr ⊢
    exact ⟨rfl, (Option.some.inj htr).symm⟩

/-- What JOIN comes to in a slice. -/
def joinOutcome (x : Slice) : Except Trap Slice :=
  match x.join with
  | some y => .ok y
  | none => .error (illegal 3)

theorem runsPlain_join : ∃ p, RunsPlain (.join h) p := by
  refine ⟨fun _ _ x => joinOutcome x, fun _ => rfl, fun u c x y hy => ?_, fun c x tr htr u => ?_⟩
  · have hj : x.join = some y := hy
    simp only [joinOutcome, hj]
  · obtain ⟨hj, rfl⟩ := join_eq_none_of_trap htr
    simp only [joinOutcome, hj]

/-- The registers of a slice that breach its budget at a CHKB, by lane, with their bounds. -/
def chkBreaches (h : Hdr) (ty : TyF) (a : VReg) (n : Option (BitVec 6)) (c : Ctx) (x : Slice) : List (Nat × Eb16) :=
  (c.guarded x h).flatMap fun l => (chkRegs (x.ty ty) a n).filterMap fun r =>
    if exceeds x.ebud (c.valV x (x.ty ty) 0 r l).b (chkMag (x.ty ty) (c.valV x (x.ty ty) 0 r l).n)
      then some (4 * c.i + l, (c.valV x (x.ty ty) 0 r l).b) else none

theorem chkBreaches_eq_nil_iff {ty : TyF} {a : VReg} {n : Option (BitVec 6)} {c : Ctx} {x : Slice} :
    chkBreaches h ty a n c x = [] ↔ ((c.guarded x h).any fun l => (chkRegs (x.ty ty) a n).any fun r =>
      exceeds x.ebud (c.valV x (x.ty ty) 0 r l).b (chkMag (x.ty ty) (c.valV x (x.ty ty) 0 r l).n)) = false := by
  simp only [chkBreaches, List.flatMap_eq_nil_iff, List.filterMap_eq_nil_iff, List.any_eq_false, ite_eq_right_iff, reduceCtorEq, imp_false,
    List.any_eq_true, not_exists, not_and]

theorem runsPlain_chkb (ty : TyF) (a : VReg) (n : Option (BitVec 6)) : ∃ p, RunsPlain (.chkb h ty a n) p := by
  refine ⟨fun _ c x => if (chkBreaches h ty a n c x).isEmpty then .ok (x.adv (.chkb h ty a n))
      else .error (breach ((chkBreaches h ty a n c x).map Prod.fst) (ebMaxL ((chkBreaches h ty a n c x).map Prod.snd))),
    fun _ => rfl, fun u c x y hy => ?_, fun c x tr htr u => ?_⟩
  · simp only [sliceAfter] at hy
    split_ifs at hy with hb
    rw [if_pos (List.isEmpty_iff.mpr (chkBreaches_eq_nil_iff.mpr (Bool.eq_false_iff.mpr hb))), Option.some.inj hy]
  · have htr' : (if (chkBreaches h ty a n c x).isEmpty then none else
        some (breach ((chkBreaches h ty a n c x).map Prod.fst) (ebMaxL ((chkBreaches h ty a n c x).map Prod.snd)))) = some tr := htr
    split_ifs at htr' ⊢
    exact congrArg _ (Option.some.inj htr')

/-- What VTOS comes to in a slice in which it is performed, in lane `l`. -/
def vtosLane (i : Instr) (ty : TyF) (d : SReg) (a : VReg) (c : Ctx) (x : Slice) (l : Nat) : Except Trap Slice :=
  if exceeds x.ebud (c.valV x (x.ty ty) 0 a.toNat l).b (tyMag (x.ty ty) (c.valV x (x.ty ty) 0 a.toNat l).n) then
    .error (breach [4 * c.i + l] (c.valV x (x.ty ty) 0 a.toNat l).b)
  else .ok ((x.post [wS d.toNat (toScalar (x.ty ty) (c.valV x (x.ty ty) 0 a.toNat l).n)]).adv i)

/-- What VTOS comes to in a slice: the lane is the selected one, or the lowest of those in which it is performed. -/
def vtosOutcome (i : Instr) (h : Hdr) (ty : TyF) (d : SReg) (a : VReg) (sel : Option (BitVec 2)) (c : Ctx) (x : Slice) : Except Trap Slice :=
  match c.guarded x h, sel with
  | [], _ => .ok (x.adv i)
  | low :: _, none => vtosLane i ty d a c x low
  | _ :: _, some j => vtosLane i ty d a c x j.toNat

theorem vtosLane_eq_ok {i : Instr} {ty : TyF} {d : SReg} {a : VReg} {c : Ctx} {x y : Slice} {l : Nat}
    (hy : (if exceeds x.ebud (c.valV x (x.ty ty) 0 a.toNat l).b (tyMag (x.ty ty) (c.valV x (x.ty ty) 0 a.toNat l).n) then none
      else some ((x.post [wS d.toNat (toScalar (x.ty ty) (c.valV x (x.ty ty) 0 a.toNat l).n)]).adv i)) = some y) :
    vtosLane i ty d a c x l = .ok y := by
  unfold vtosLane
  split_ifs at hy ⊢
  exact congrArg _ (Option.some.inj hy)

theorem vtosLane_eq_error {i : Instr} {ty : TyF} {d : SReg} {a : VReg} {c : Ctx} {x : Slice} {l : Nat} {tr : Trap}
    (htr : (if exceeds x.ebud (c.valV x (x.ty ty) 0 a.toNat l).b (tyMag (x.ty ty) (c.valV x (x.ty ty) 0 a.toNat l).n) then
      some (breach [4 * c.i + l] (c.valV x (x.ty ty) 0 a.toNat l).b) else none) = some tr) : vtosLane i ty d a c x l = .error tr := by
  unfold vtosLane
  split_ifs at htr ⊢
  exact congrArg _ (Option.some.inj htr)

theorem runsPlain_vtos (ty : TyF) (d : SReg) (a : VReg) (sel : Option (BitVec 2)) : ∃ p, RunsPlain (.vtos h ty d a sel) p := by
  refine ⟨fun _ => vtosOutcome (.vtos h ty d a sel) h ty d a sel, fun s => ?_, fun u c x y hy => ?_, fun c x tr htr u => ?_⟩
  · refine congrArg (runSlices s (.vtos h ty d a sel)) (funext fun _ => funext fun c => funext fun x => ?_)
    unfold vtosOutcome
    cases c.guarded x h <;> cases sel <;> rfl
  all_goals unfold vtosOutcome; cases hg : c.guarded x h
  · simp only [sliceAfter, hg] at hy
    exact congrArg _ (Option.some.inj hy)
  · simp only [sliceAfter, hg] at hy
    cases sel <;> exact vtosLane_eq_ok hy
  · simp only [sliceTrap, hg] at htr
    exact nomatch htr
  · simp only [sliceTrap, hg] at htr
    cases sel <;> exact vtosLane_eq_error htr

/-- What BARW comes to in a slice. -/
def barwOutcome (i : Instr) (k : BitVec 7) (a : SReg) (c : Ctx) (x : Slice) : Except Trap Slice :=
  match c.st.barTrap c.t c.g k.toNat false with
  | some tr => .error tr
  | none =>
    let gen := (c.st.bar c.t c.g.team k.toNat).gen
    let tok := (c.rdS x 0 a.toNat).setWidth 32
    if tokenDone gen tok then .ok (x.adv i)
    else if tok = gen || tok = gen + 1 then .ok { x.adv i with wait := .barrier k.toNat tok, parkPc := x.pc }
    else .error (illegal 3)

theorem runsPlain_barw (k : BitVec 7) (a : SReg) : ∃ p, RunsPlain (.barw h k a) p := by
  refine ⟨fun _ => barwOutcome (.barw h k a) k a, fun _ => rfl, fun u c x y hy => ?_, fun c x tr htr u => ?_⟩
  all_goals unfold barwOutcome; cases hb : c.st.barTrap c.t c.g k.toNat false
  · simp only [sliceAfter, hb, Option.isSome_none, Bool.false_eq_true, if_false] at hy ⊢
    split_ifs at hy ⊢ <;> exact congrArg _ (Option.some.inj hy)
  · simp only [sliceAfter, hb, Option.isSome_some, if_true] at hy
    exact nomatch hy
  · simp only [sliceTrap, hb, Option.isSome_none, Bool.false_eq_true, if_false] at htr
    split_ifs at htr ⊢; simp_all
  · simp only [sliceTrap, hb, Option.isSome_some, if_true] at htr
    exact congrArg _ (Option.some.inj htr)

/-- What BARQ comes to in a slice. -/
def barqOutcome (i : Instr) (h : Hdr) (d : SReg) (k : BitVec 7) (c : Ctx) (x : Slice) : Except Trap Slice :=
  if c.performs x h then
    match c.st.barTrap c.t c.g k.toNat false with
    | some tr => .error tr
    | none => .ok ((x.post [wS d.toNat (barWord (c.st.bar c.t c.g.team k.toNat) (c.g.barBits k.toNat))]).adv i)
  else .ok (x.adv i)

theorem runsPlain_barq (d : SReg) (k : BitVec 7) : ∃ p, RunsPlain (.barq h d k) p := by
  refine ⟨fun _ => barqOutcome (.barq h d k) h d k, fun _ => rfl, fun u c x y hy => ?_, fun c x tr htr u => ?_⟩
  all_goals unfold barqOutcome
  · simp only [sliceAfter] at hy
    cases hp : c.performs x h with
    | false =>
      simp only [hp, Bool.false_eq_true, if_false] at hy ⊢
      exact congrArg _ (Option.some.inj hy)
    | true =>
      cases hb : c.st.barTrap c.t c.g k.toNat false with
      | none =>
        simp only [hp, hb, Option.isSome_none, Bool.false_eq_true, if_false, if_true] at hy ⊢
        exact congrArg _ (Option.some.inj hy)
      | some tr =>
        simp only [hp, hb, Option.isSome_some, if_true] at hy
        exact nomatch hy
  · simp only [sliceTrap] at htr
    cases hp : c.performs x h with
    | false =>
      simp only [hp, Bool.false_eq_true, if_false] at htr
      exact nomatch htr
    | true =>
      simp only [hp, if_true] at htr ⊢
      rw [htr]

theorem runsPlain_gearw (d : SReg) : ∃ p, RunsPlain (.gearw h d) p := by
  refine ⟨_, fun _ => rfl, fun u c x y hy => ?_, fun _ _ _ htr => nomatch htr⟩
  simp only [sliceAfter] at hy
  split_ifs at hy ⊢ <;> exact congrArg _ (Option.some.inj hy)

end

/-- The instructions of a slice that make no access and do not trap by their nature. -/
def isPlain : Instr → Bool
  | .movrs .. | .bra .. | .brs .. | .brv .. | .join .. | .yield .. | .waitt .. | .nop .. | .setfmt .. | .setbud .. | .fsetp .. | .chkb ..
  | .vtos .. | .barw .. | .barq .. | .gearw .. => true
  | _ => false

theorem exists_runsPlain {i : Instr} (hi : isPlain i = true) : ∃ p, RunsPlain i p := by
  cases i with
  | movrs h sel a => exact runsPlain_movrs sel a
  | bra h t => exact runsPlain_bra t
  | brs h t cc a => exact runsPlain_brs t cc a
  | brv h t j => exact runsPlain_brv t j
  | join h => exact runsPlain_join
  | yield h => exact runsPlain_yield
  | waitt h a => exact runsPlain_waitt a
  | nop h => exact runsPlain_nop
  | setfmt h ty rm => exact runsPlain_setfmt ty rm
  | setbud h src => exact runsPlain_setbud src
  | fsetp h ty uc p a b cc => exact runsPlain_fsetp ty uc p a b cc
  | chkb h ty a n => exact runsPlain_chkb ty a n
  | vtos h ty d a sel => exact runsPlain_vtos ty d a sel
  | barw h k a => exact runsPlain_barw k a
  | barq h d k => exact runsPlain_barq d k
  | gearw h d => exact runsPlain_gearw d
  | _ => exact nomatch hi

/-- An instruction that leaves something of its slice is one of those, or a trap of a slice in which it is not performed, or a call or return. -/
theorem kind_of_sliceAfter {i : Instr} {u : UClass} {c : Ctx} {x y : Slice} (h : sliceAfter i u c x = some y) :
    isPlain i = true ∨ isTrap i = true ∨ (besides i).isSome = true := by
  unfold sliceAfter at h
  split at h
  case h_22 => exact nomatch h
  case h_9 | h_10 => exact .inr (.inl rfl)
  case h_19 | h_20 | h_21 => exact .inr (.inr rfl)
  all_goals exact .inl rfl

/-- No slice is left to execute its instruction again. -/
theorem retries_of_sliceAfter {i : Instr} {u : UClass} {c : Ctx} {x y : Slice} (hx : x.wait = .run) (h : sliceAfter i u c x = some y) :
    y.wait.retries = false := by
  unfold sliceAfter at h
  split at h
  all_goals
    dsimp -failIfUnchanged only at h
    repeat' split at h
  all_goals cases h
  all_goals simp [hx, Wait.retries]

/-! ## Calls and returns (06 R117-R120) -/

/-- CALL, RET and CALLI. -/
def isCall : Instr → Bool
  | .call .. | .ret .. | .calli .. => true
  | _ => false

/-- What such an instruction does in a slice, with the pages of its beat. -/
def stackAct (i : Instr) (ps : List BeatPage) (r : State) (c : Ctx) (x : Slice) : State × Option (Trap × Nat) :=
  match i with
  | .call h t =>
    if c.performs x h then (r.pushRet ps c x { addr := x.pc + 8, flag := false }).finish r c x fun y _ => .ok (y.jump (x.target t))
    else r.step1 c (x.adv i)
  | .ret h => if c.performs x h then (r.popRet ps c x).finish r c x Slice.retTo else r.step1 c (x.adv i)
  | .calli h a => calliSlice i h a ps r c x
  | _ => (r, none)

/-- The instruction is a beat of accesses beside it. -/
def RunsBeside (i : Instr) (kind : AccKind) (reqs : Ctx → Slice → List LaneReq)
    (f : List BeatPage → State → Ctx → Slice → State × Option (Trap × Nat)) : Prop :=
  besides i = some (kind, reqs) ∧ ∀ s, exec i s = runBeat s i fun t q => accessBeat t q kind reqs f

theorem exists_runsBeside_of_isCall {i : Instr} (hi : isCall i = true) : ∃ kind reqs, RunsBeside i kind reqs (stackAct i) := by
  cases i with
  | call h t => exact ⟨_, _, rfl, fun _ => rfl⟩
  | ret h => exact ⟨_, _, rfl, fun _ => rfl⟩
  | calli h a => exact ⟨_, _, rfl, fun _ => rfl⟩
  | _ => exact nomatch hi

section
variable {ps : List BeatPage} {r r1 : State} {c : Ctx} {x y : Slice} {e : RetEntry} {tr : Trap} {b : Nat}

theorem pushRet_of_room (hx : x.ret.length < 8) : r.pushRet ps c x e = .done r { x with ret := e :: x.ret } e := if_pos hx

theorem pushReqs_of_room (hx : x.ret.length < 8) : pushReqs c x = [] := by
  unfold pushReqs
  simp [hx]

theorem popRet_of_cons {rest : List RetEntry} (hx : x.ret = e :: rest) : r.popRet ps c x = .done r { x with ret := rest } e := by
  unfold State.popRet
  rw [hx]

theorem popReqs_of_cons {rest : List RetEntry} (hx : x.ret = e :: rest) : popReqs c x = [] := by
  unfold popReqs
  simp [hx]

/-- A push that traps has no record of the beat. -/
theorem beat_of_pushRet (h : r.pushRet ps c x e = .trap r1 tr b) : b = 0 := by
  unfold State.pushRet at h
  dsimp only at h
  repeat' split at h
  all_goals simp_all

/-- Nor a pop. -/
theorem beat_of_popRet (h : r.popRet ps c x = .trap r1 tr b) : b = 0 := by
  unfold State.popRet at h
  dsimp only at h
  repeat' split at h
  all_goals simp_all

/-- A pop leaves the divergence stack. -/
theorem div_of_popRet (h : r.popRet ps c x = .done r1 y e) : y.div = x.div := by
  unfold State.popRet at h
  dsimp only at h
  repeat' split at h
  all_goals cases h
  · rfl
  · simp

/-- What is done after a push or a pop that does not wait. -/
theorem finish_done {r0 : State} (f : Slice → RetEntry → Except Trap Slice) :
    (StackRes.done r1 y e).finish r0 c x f =
      match f y e with
      | .ok z => (r1.setSlice c.t c.slot c.i z, none)
      | .error tr => (r0, some (tr, 0)) := rfl

/-- A slice's turn, as the beat carries it out. -/
def turnRes (p : State × Option Trap) : State × Option (Trap × Nat) := (p.1, p.2.map fun tr => (tr, 0))

theorem turnRes_some (r : State) (tr : Trap) : turnRes (r, some tr) = (r, some (tr, 0)) := rfl

/-- A turn that pushes, and does `f` to the slice then. -/
def pushTurn (ps : List BeatPage) (r : State) (c : Ctx) (x : Slice) (flag : Bool) (f : Slice → Slice) : SliceTurn :=
  match r.pushRet ps c x { addr := x.pc + 8, flag := flag } with
  | .done r1 y _ => some (put r1 c (f y), none)
  | .trap r1 tr _ => some (r1, some tr)
  | .wait _ => none

theorem finish_of_pushTurn {flag : Bool} {f : Slice → Slice} {p : State × Option Trap} (h : pushTurn ps r c x flag f = some p) :
    ((r.pushRet ps c x { addr := x.pc + 8, flag := flag }).finish r c x fun y _ => .ok (f y)) = turnRes p := by
  unfold pushTurn at h
  cases hpush : r.pushRet ps c x { addr := x.pc + 8, flag := flag } with
  | done r1 y e =>
    simp only [hpush, Option.some.injEq] at h
    exact h ▸ rfl
  | trap r1 tr b =>
    simp only [hpush, Option.some.injEq] at h
    obtain rfl := beat_of_pushRet hpush
    exact h ▸ rfl
  | wait r1 =>
    simp only [hpush] at h
    exact nomatch h

theorem callTurn_call (h : Hdr) (t : BitVec 20) :
    callTurn (.call h t) ps r c x =
      if c.performs x h then pushTurn ps r c x false fun y => y.jump (x.target t) else some (put r c { x with pc := x.pc + 8 }, none) := rfl

/-- What RET does with the entry popped, which leaves the divergence stack. -/
def retTurn (r r1 : State) (c : Ctx) (x y : Slice) (e : RetEntry) : SliceTurn :=
  if e.flag then
    match x.div with
    | d :: _ => if d.calli then some (put r1 c { y with lmask := d.pend, fmt := d.fmt, pc := d.resume, cont := true }, none)
      else some (r, some (illegal 3))
    | [] => some (r, some (illegal 3))
  else some (put r1 c { y with pc := e.addr }, none)

theorem finish_of_retTurn {p : State × Option Trap} (hdiv : y.div = x.div) (h : retTurn r r1 c x y e = some p) :
    (StackRes.done r1 y e).finish r c x Slice.retTo = turnRes p := by
  unfold retTurn at h
  rw [← hdiv] at h
  rw [finish_done, Slice.retTo]
  cases hflag : e.flag with
  | false =>
    simp only [hflag, Bool.false_eq_true, if_false, Option.some.injEq] at h
    exact h ▸ rfl
  | true =>
    simp only [hflag, if_true] at h
    cases hd : y.div with
    | nil =>
      simp only [hd, Option.some.injEq] at h
      exact h ▸ rfl
    | cons d rest =>
      cases hc : d.calli <;> simp only [hd, hc, Bool.false_eq_true, if_false, if_true, Option.some.injEq] at h ⊢ <;> exact h ▸ rfl

/-- A turn that pops. -/
def popTurn (ps : List BeatPage) (r : State) (c : Ctx) (x : Slice) : SliceTurn :=
  match r.popRet ps c x with
  | .done r1 y e => retTurn r r1 c x y e
  | .trap r1 tr _ => some (r1, some tr)
  | .wait _ => none

theorem finish_of_popTurn {p : State × Option Trap} (h : popTurn ps r c x = some p) :
    (r.popRet ps c x).finish r c x Slice.retTo = turnRes p := by
  unfold popTurn at h
  cases hpop : r.popRet ps c x with
  | done r1 y e =>
    simp only [hpop] at h
    exact finish_of_retTurn (div_of_popRet hpop) h
  | trap r1 tr b =>
    simp only [hpop, Option.some.injEq] at h
    obtain rfl := beat_of_popRet hpop
    exact h ▸ rfl
  | wait r1 =>
    simp only [hpop] at h
    exact nomatch h

theorem callTurn_ret (h : Hdr) :
    callTurn (.ret h) ps r c x = if c.performs x h then popTurn ps r c x else some (put r c { x with pc := x.pc + 8 }, none) := by
  unfold popTurn retTurn
  simp only [callTurn]
  refine if_congr Iff.rfl ?_ rfl
  cases r.popRet ps c x with
  | done r1 y e => cases hf : e.flag <;> cases hd : x.div <;> simp [hf]
  | trap r1 tr b => rfl
  | wait r1 => rfl

/-- CALLI in a slice all of whose targets are in their place. -/
def calliTurn (i : Instr) (ps : List BeatPage) (r : State) (c : Ctx) (x : Slice) (none_ : Bool) (m : BitVec 4) (dest : DWord) : SliceTurn :=
  if x.cont then
    match x.div with
    | [] => some (r, some (illegal 3))
    | e :: up =>
      if none_ then some (put r c { x with cont := false, lmask := e.saved, fmt := e.fmt, div := up, pc := x.pc + 8 }, none)
      else
        pushTurn ps r c x true fun y =>
          { y with cont := false, div := { e with pend := x.lmask &&& ~~~m } :: up, lmask := m, pc := dest }
  else if none_ then some (put r c (x.adv i), none)
  else if m = x.lmask then pushTurn ps r c x false fun y => y.jump dest
  else
    pushTurn ps r c x true fun y =>
      { y with
        div := { calli := true, join := x.pc + 8, saved := x.lmask, pend := x.lmask &&& ~~~m, resume := x.pc, fmt := x.fmt } :: x.div,
        lmask := m, pc := dest }

/-- The targets of CALLI that are not in their place. -/
def oddTargets (h : Hdr) (a : VReg) (c : Ctx) (x : Slice) : List Nat :=
  (c.guarded x h).filter fun l => (c.valV x .n64 0 a.toNat l).n % 8 ≠ 0

/-- The slice's lanes that take CALLI's first target, and that target. -/
def calliLanes (h : Hdr) (a : VReg) (c : Ctx) (x : Slice) : BitVec 4 :=
  mask4 ((c.guarded x h).filter fun l => (c.valV x .n64 0 a.toNat l).n = (c.valV x .n64 0 a.toNat ((c.guarded x h).headD 0)).n)

def calliDest (h : Hdr) (a : VReg) (c : Ctx) (x : Slice) : DWord := BitVec.ofNat 64 (c.valV x .n64 0 a.toNat ((c.guarded x h).headD 0)).n

theorem callTurn_calli_of_odd {h : Hdr} {a : VReg} {l : Nat} {rest : List Nat} (hodd : oddTargets h a c x = l :: rest) :
    callTurn (.calli h a) ps r c x = some (r, some (misalign ((l :: rest).map fun l => 4 * c.i + l)
      ((rest.map fun l => (c.valV x .n64 0 a.toNat l).n).foldl min (c.valV x .n64 0 a.toNat l).n))) := by
  unfold oddTargets at hodd
  simp only [callTurn, hodd]
  rfl

theorem callTurn_calli {h : Hdr} {a : VReg} (heven : oddTargets h a c x = []) :
    callTurn (.calli h a) ps r c x = calliTurn (.calli h a) ps r c x (c.guarded x h).isEmpty (calliLanes h a c x) (calliDest h a c x) := by
  unfold oddTargets at heven
  simp only [callTurn, heven]
  rfl

theorem calliSlice_of_odd {h : Hdr} {a : VReg} {l : Nat} {rest : List Nat} (hodd : oddTargets h a c x = l :: rest) :
    calliSlice (.calli h a) h a ps r c x = (r, some (misalign ((l :: rest).map fun l => 4 * c.i + l)
      ((rest.map fun l => (c.valV x .n64 0 a.toNat l).n).foldl min (c.valV x .n64 0 a.toNat l).n), 0)) := by
  unfold oddTargets at hodd
  simp only [calliSlice, hodd]

/-- CALLI as the beat carries it out in a slice all of whose targets are in their place. -/
theorem calliSlice_of_calliTurn {h : Hdr} {a : VReg} {p : State × Option Trap} (heven : oddTargets h a c x = [])
    (hp : calliTurn (.calli h a) ps r c x (c.guarded x h).isEmpty (calliLanes h a c x) (calliDest h a c x) = some p) :
    calliSlice (.calli h a) h a ps r c x = turnRes p := by
  unfold oddTargets at heven
  simp only [calliSlice, heven]
  unfold calliTurn at hp
  by_cases hcont : x.cont = true
  · rw [if_pos hcont] at hp ⊢
    cases hd : x.div with
    | nil =>
      simp only [hd, Option.some.injEq] at hp
      exact hp ▸ rfl
    | cons e up =>
      simp only [hd] at hp ⊢
      split_ifs at hp ⊢
      · exact Option.some.inj hp ▸ rfl
      · exact finish_of_pushTurn hp
  · rw [if_neg hcont] at hp ⊢
    by_cases hnone : (c.guarded x h).isEmpty = true
    · rw [if_pos hnone] at hp ⊢
      exact Option.some.inj hp ▸ rfl
    · rw [if_neg hnone] at hp ⊢
      by_cases hall : calliLanes h a c x = x.lmask
      · rw [if_pos hall] at hp
        exact (if_pos hall).trans (finish_of_pushTurn hp)
      · rw [if_neg hall] at hp
        exact (if_neg hall).trans (finish_of_pushTurn hp)

theorem calliSlice_of_callTurn {h : Hdr} {a : VReg} {p : State × Option Trap} (hp : callTurn (.calli h a) ps r c x = some p) :
    calliSlice (.calli h a) h a ps r c x = turnRes p := by
  cases hodd : oddTargets h a c x with
  | nil => exact calliSlice_of_calliTurn hodd (callTurn_calli hodd ▸ hp)
  | cons b rest =>
    rw [callTurn_calli_of_odd hodd] at hp
    rw [calliSlice_of_odd hodd, ← Option.some.inj hp]
    rfl

/-- A turn that does not wait is what the beat carries out. -/
theorem stackAct_of_callTurn {i : Instr} {p : State × Option Trap} (hp : callTurn i ps r c x = some p) : stackAct i ps r c x = turnRes p := by
  cases i with
  | call h t =>
    rw [callTurn_call] at hp
    simp only [stackAct]
    split_ifs at hp ⊢
    · exact finish_of_pushTurn hp
    · exact Option.some.inj hp ▸ rfl
  | ret h =>
    rw [callTurn_ret] at hp
    simp only [stackAct]
    split_ifs at hp ⊢
    · exact finish_of_popTurn hp
    · exact Option.some.inj hp ▸ rfl
  | calli h a => exact calliSlice_of_callTurn hp
  | _ => exact nomatch hp

/-! ### Without an access -/

theorem pushTurn_of_room {flag : Bool} (f : Slice → Slice) (hx : x.ret.length < 8) :
    pushTurn ps r c x flag f = some (put r c (f { x with ret := { addr := x.pc + 8, flag := flag } :: x.ret }), none) := by
  unfold pushTurn
  rw [pushRet_of_room hx]

theorem addrOf_mod_8 (n : Nat) : addrOf true (n : Int) % 8 = n % 8 := by
  unfold addrOf
  simp only [if_true]
  omega

theorem alignTrap_single (q : LaneReq) (n : Nat) : alignTrap [q] n = if q.va % n ≠ 0 then some (misalign [q.lane] q.va) else none := by
  simp only [alignTrap, List.filter_cons, List.filter_nil, decide_eq_true_eq]
  split_ifs <;> rfl

theorem alignTrap_spillReq (a : DWord) :
    alignTrap [spillReq c x a] 8 =
      if a.toNat % 8 ≠ 0 then some (misalign [4 * c.i + x.active.headD 0] (addrOf true (a.toNat : Int))) else none := by
  have hva : (spillReq c x a).va % 8 = a.toNat % 8 := addrOf_mod_8 _
  rw [alignTrap_single, hva]
  rfl

/-- The trap of a push that is made before its access (06 R117). -/
def pushTrap (c : Ctx) (x : Slice) : Option Trap :=
  if x.ret.length < 8 then none
  else if 1 ≤ x.td || 2 ^ 32 - 1 ≤ x.spill then some (illegal 3)
  else if (c.rdS x 3 29).toNat % 8 ≠ 0 then
    some (misalign [4 * c.i + x.active.headD 0] (addrOf true ((c.rdS x 3 29).toNat : Int)))
  else none

theorem pushRet_of_pushTrap (h : pushTrap c x = some tr) : r.pushRet ps c x e = .trap r tr 0 ∧ pushReqs c x = [] := by
  unfold pushTrap at h
  unfold State.pushRet pushReqs
  dsimp only
  rw [alignTrap_spillReq]
  split_ifs at h with hroom hno hodd <;> obtain rfl := Option.some.inj h
  · refine ⟨by rw [if_neg hroom, if_pos hno], if_pos ?_⟩
    simp only [Bool.or_eq_true] at hno ⊢
    tauto
  · exact ⟨by rw [if_neg hroom, if_neg hno, if_pos hodd], if_pos (by simp only [decide_eq_true hodd, Bool.or_true])⟩

theorem pushTurn_of_pushTrap {flag : Bool} {f : Slice → Slice} (h : pushTrap c x = some tr) : pushTurn ps r c x flag f = some (r, some tr) := by
  unfold pushTurn
  rw [(pushRet_of_pushTrap h).1]

/-- The trap of a pop that is made before its access. -/
def popTrap (c : Ctx) (x : Slice) : Option Trap :=
  if x.spill = 0 then some (illegal 3)
  else if (c.rdS x 3 29 - 8).toNat % 8 ≠ 0 then
    some (misalign [4 * c.i + x.active.headD 0] (addrOf true ((c.rdS x 3 29 - 8).toNat : Int)))
  else none

theorem popRet_of_popTrap (hx : x.ret = []) (h : popTrap c x = some tr) : r.popRet ps c x = .trap r tr 0 ∧ popReqs c x = [] := by
  unfold popTrap at h
  unfold State.popRet popReqs
  dsimp only
  rw [hx, alignTrap_spillReq]
  split_ifs at h ⊢ <;> simp_all

/-- A call or return makes no access in the slice, where its turn is `p`. -/
def TurnsAlone (i : Instr) (c : Ctx) (x : Slice) (p : State → State × Option Trap) : Prop :=
  (∀ kind reqs, besides i = some (kind, reqs) → reqs c x = []) ∧ ∀ ps r, callTurn i ps r c x = some (p r)

theorem calliReqs_eq_nil {h : Hdr} {a : VReg}
    (hx : c.guarded x h = [] ∨ oddTargets h a c x ≠ [] ∨
      (x.cont = true ∧ x.div = []) ∨ pushReqs c x = []) : calliReqs h a c x = [] := by
  unfold calliReqs
  dsimp only
  split_ifs with hif
  · rfl
  · simp only [Bool.or_eq_true, List.isEmpty_iff, List.any_eq_true, decide_eq_true_eq, Bool.and_eq_true, not_or, not_exists, not_and] at hif
    obtain ⟨⟨hne, hal⟩, hcont⟩ := hif
    rcases hx with h | h | h | h
    · exact absurd h hne
    · exact absurd (List.filter_eq_nil_iff.mpr fun l hl => by simpa using hal l hl) h
    · exact absurd h.2 (hcont h.1)
    · exact h

theorem turnsAlone_call {h : Hdr} {t : BitVec 20} {f : State → State × Option Trap}
    (hf : if c.performs x h then
        pushReqs c x = [] ∧ ∀ ps r, pushTurn ps r c x false (fun y => y.jump (x.target t)) = some (f r)
      else ∀ r, f r = (put r c (x.adv (.call h t)), none)) : TurnsAlone (.call h t) c x f := by
  constructor
  · rintro kind reqs ⟨⟩
    dsimp only
    split_ifs at hf ⊢
    · exact hf.1
    · rfl
  · intro ps r
    rw [callTurn_call]
    split_ifs at hf ⊢
    · exact hf.2 ps r
    · exact congrArg some (hf r).symm

theorem turnsAlone_ret {h : Hdr} {f : State → State × Option Trap}
    (hf : if c.performs x h then popReqs c x = [] ∧ ∀ ps r, popTurn ps r c x = some (f r)
      else ∀ r, f r = (put r c (x.adv (.ret h)), none)) : TurnsAlone (.ret h) c x f := by
  constructor
  · rintro kind reqs ⟨⟩
    dsimp only
    split_ifs at hf ⊢
    · exact hf.1
    · rfl
  · intro ps r
    rw [callTurn_ret]
    split_ifs at hf ⊢
    · exact hf.2 ps r
    · exact congrArg some (hf r).symm

theorem turnsAlone_calli_of_odd {h : Hdr} {a : VReg} {l : Nat} {rest : List Nat} (hodd : oddTargets h a c x = l :: rest) :
    TurnsAlone (.calli h a) c x fun r => (r, some (misalign ((l :: rest).map fun l => 4 * c.i + l)
      ((rest.map fun l => (c.valV x .n64 0 a.toNat l).n).foldl min (c.valV x .n64 0 a.toNat l).n))) := by
  constructor
  · rintro kind reqs ⟨⟩
    exact calliReqs_eq_nil (.inr (.inl (by rw [hodd]; exact List.cons_ne_nil _ _)))
  · exact fun ps r => callTurn_calli_of_odd hodd

/-- CALLI where every target is in its place. -/
theorem turnsAlone_calli {h : Hdr} {a : VReg} {f : State → State × Option Trap} (heven : oddTargets h a c x = [])
    (hreqs : c.guarded x h = [] ∨ (x.cont = true ∧ x.div = []) ∨ pushReqs c x = [])
    (hturn : ∀ ps r, calliTurn (.calli h a) ps r c x (c.guarded x h).isEmpty (calliLanes h a c x) (calliDest h a c x) = some (f r)) :
    TurnsAlone (.calli h a) c x f := by
  constructor
  · rintro kind reqs ⟨⟩
    rcases hreqs with hl | hd | hp
    · exact calliReqs_eq_nil (.inl hl)
    · exact calliReqs_eq_nil (.inr (.inr (.inl hd)))
    · exact calliReqs_eq_nil (.inr (.inr (.inr hp)))
  · exact fun ps r => (callTurn_calli heven).trans (hturn ps r)

/-- What CALLI leaves of a slice all of whose targets are in their place; none where it traps, or the stack is full. -/
def calliAfter (i : Instr) (x : Slice) (none_ : Bool) (m : BitVec 4) (dest : DWord) : Option Slice :=
  if x.cont then
    match x.div with
    | [] => none
    | e :: up =>
      if none_ then some { x with cont := false, lmask := e.saved, fmt := e.fmt, div := up, pc := x.pc + 8 }
      else if 8 ≤ x.ret.length then none
      else
        some { x with
          ret := { addr := x.pc + 8, flag := true } :: x.ret, cont := false, div := { e with pend := x.lmask &&& ~~~m } :: up,
          lmask := m, pc := dest }
  else if none_ then some (x.adv i)
  else if 8 ≤ x.ret.length then none
  else if m = x.lmask then some { x with ret := { addr := x.pc + 8, flag := false } :: x.ret, pc := dest }
  else
    some { x with
      ret := { addr := x.pc + 8, flag := true } :: x.ret,
      div := { calli := true, join := x.pc + 8, saved := x.lmask, pend := x.lmask &&& ~~~m, resume := x.pc, fmt := x.fmt } :: x.div,
      lmask := m, pc := dest }

theorem calliTurn_of_calliAfter {i : Instr} {none_ : Bool} {m : BitVec 4} {dest : DWord} (hy : calliAfter i x none_ m dest = some y) :
    (none_ = true ∨ x.ret.length < 8) ∧ calliTurn i ps r c x none_ m dest = some (put r c y, none) := by
  unfold calliAfter at hy
  unfold calliTurn
  by_cases hcont : x.cont = true
  · rw [if_pos hcont] at hy ⊢
    cases hd : x.div with
    | nil => simp only [hd] at hy; exact nomatch hy
    | cons e up =>
      simp only [hd] at hy ⊢
      split_ifs at hy ⊢ with hnone hfull
      · exact ⟨.inl hnone, by rw [Option.some.inj hy]⟩
      · have hroom : x.ret.length < 8 := by omega
        exact ⟨.inr hroom, by rw [pushTurn_of_room _ hroom, ← Option.some.inj hy]⟩
  · rw [if_neg hcont] at hy ⊢
    split_ifs at hy ⊢ with hnone hfull hall
    · exact ⟨.inl hnone, by rw [Option.some.inj hy]⟩
    all_goals have hroom : x.ret.length < 8 := by omega
    · exact ⟨.inr hroom, by rw [pushTurn_of_room _ hroom, ← Option.some.inj hy]; rfl⟩
    · exact ⟨.inr hroom, by rw [pushTurn_of_room _ hroom, ← Option.some.inj hy]⟩

theorem turnsAlone_calli_of_sliceAfter {h : Hdr} {a : VReg} {u : UClass} (hy : sliceAfter (.calli h a) u c x = some y) :
    TurnsAlone (.calli h a) c x fun r => (put r c y, none) := by
  have hy' : (if (c.guarded x h).any fun l => (c.valV x .n64 0 a.toNat l).n % 8 ≠ 0 then none
      else calliAfter (.calli h a) x (c.guarded x h).isEmpty (calliLanes h a c x) (calliDest h a c x)) = some y := hy
  split_ifs at hy' with hodd
  refine turnsAlone_calli (List.filter_eq_nil_iff.mpr (List.any_eq_false.mp (Bool.eq_false_iff.mpr hodd))) ?_ fun ps r =>
    (calliTurn_of_calliAfter hy').2
  rcases (calliTurn_of_calliAfter (ps := []) (r := c.st) (c := c) hy').1 with hnone | hroom
  · exact .inl (List.isEmpty_iff.mp hnone)
  · exact .inr (.inr (pushReqs_of_room hroom))

/-- Where a call or return leaves its slice without an access. -/
theorem turnsAlone_of_sliceAfter {i : Instr} {u : UClass} (hi : isCall i = true) (hy : sliceAfter i u c x = some y) :
    TurnsAlone i c x fun r => (put r c y, none) := by
  cases i with
  | call h t =>
    refine turnsAlone_call ?_
    simp only [sliceAfter] at hy
    cases hp : c.performs x h <;> simp only [hp, Bool.not_true, Bool.not_false, if_true, Bool.false_eq_true, if_false] at hy ⊢
    · exact fun r => by rw [Option.some.inj hy]
    · split_ifs at hy with hroom
      exact ⟨pushReqs_of_room hroom, fun ps r => by rw [pushTurn_of_room _ hroom, ← Option.some.inj hy]; rfl⟩
  | ret h =>
    refine turnsAlone_ret ?_
    simp only [sliceAfter] at hy
    cases hp : c.performs x h <;> simp only [hp, Bool.not_true, Bool.not_false, if_true, Bool.false_eq_true, if_false] at hy ⊢
    · exact fun r => by rw [Option.some.inj hy]
    · cases hret : x.ret with
      | nil => simp only [hret] at hy; exact nomatch hy
      | cons e rest =>
        refine ⟨popReqs_of_cons hret, fun ps r => ?_⟩
        unfold popTurn retTurn
        rw [popRet_of_cons hret]
        simp only [hret] at hy
        cases hflag : e.flag <;> simp only [hflag, Bool.not_true, Bool.not_false, if_true, Bool.false_eq_true, if_false] at hy ⊢
        · rw [← Option.some.inj hy]
        · cases hd : x.div with
          | nil => simp only [hd] at hy; exact nomatch hy
          | cons d up =>
            simp only [hd] at hy ⊢
            split_ifs at hy ⊢
            rw [← Option.some.inj hy]
  | calli h a =>
    exact turnsAlone_calli_of_sliceAfter hy
  | _ => exact nomatch hi

theorem turnsAlone_calli_of_sliceTrap {h : Hdr} {a : VReg} (htr : sliceTrap (.calli h a) c x = some tr) :
    TurnsAlone (.calli h a) c x fun r => (r, some tr) := by
  have htr' : (if !(oddTargets h a c x).isEmpty then
        some (misalign ((oddTargets h a c x).map fun l => 4 * c.i + l)
          (((oddTargets h a c x).tail.map fun l => (c.valV x .n64 0 a.toNat l).n).foldl min
            (c.valV x .n64 0 a.toNat ((oddTargets h a c x).headD 0)).n))
      else if x.cont && x.div.isEmpty then some (illegal 3)
      else if (c.guarded x h).isEmpty then none else pushTrap c x) = some tr := htr
  cases hodd : oddTargets h a c x with
  | cons l rest =>
    rw [hodd, if_pos (show (!(l :: rest).isEmpty) = true from rfl)] at htr'
    exact Option.some.inj htr' ▸ turnsAlone_calli_of_odd hodd
  | nil =>
    rw [hodd, if_neg (by decide)] at htr'
    split_ifs at htr' with hcont hnone
    · obtain ⟨hcont, hdiv⟩ := Bool.and_eq_true_iff.mp hcont
      refine turnsAlone_calli hodd (.inr (.inl ⟨hcont, List.isEmpty_iff.mp hdiv⟩)) fun ps r => ?_
      unfold calliTurn
      rw [if_pos hcont, List.isEmpty_iff.mp hdiv, Option.some.inj htr']
    · refine turnsAlone_calli hodd (.inr (.inr (pushRet_of_pushTrap (r := c.st) (ps := []) (e := RetEntry.none) htr').2)) fun ps r => ?_
      unfold calliTurn
      simp only [if_neg hnone, pushTurn_of_pushTrap htr', ite_self]
      split_ifs with h1
      · cases hd : x.div with
        | nil => exact absurd (by rw [h1, hd]; rfl) hcont
        | cons e up => rfl
      · rfl

/-- Where it traps before an access. -/
theorem turnsAlone_of_sliceTrap {i : Instr} (hi : isCall i = true) (htr : sliceTrap i c x = some tr) :
    TurnsAlone i c x fun r => (r, some tr) := by
  cases i with
  | call h t =>
    refine turnsAlone_call ?_
    have htr' : (if c.performs x h then pushTrap c x else none) = some tr := htr
    split_ifs at htr' ⊢
    exact ⟨(pushRet_of_pushTrap (r := c.st) (ps := []) (e := RetEntry.none) htr').2, fun ps r => pushTurn_of_pushTrap htr'⟩
  | ret h =>
    refine turnsAlone_ret ?_
    simp only [sliceTrap] at htr
    cases hp : c.performs x h <;> simp only [hp, Bool.not_true, Bool.not_false, if_true, Bool.false_eq_true, if_false] at htr ⊢
    · exact nomatch htr
    · unfold popTurn retTurn
      cases hret : x.ret with
      | nil =>
        simp only [hret] at htr
        have htr' : popTrap c x = some tr := htr
        exact ⟨(popRet_of_popTrap (r := c.st) (ps := []) hret htr').2, fun ps r => by rw [(popRet_of_popTrap hret htr').1]⟩
      | cons e rest =>
        refine ⟨popReqs_of_cons hret, fun ps r => ?_⟩
        rw [popRet_of_cons hret]
        simp only [hret] at htr
        cases hd : x.div with
        | nil =>
          simp only [hd] at htr ⊢
          split_ifs at htr ⊢
          rw [← Option.some.inj htr]
        | cons d up =>
          simp only [hd] at htr ⊢
          cases hflag : e.flag <;> cases hc : d.calli <;>
            simp only [hflag, hc, Bool.not_true, Bool.not_false, Bool.and_true, Bool.and_false, if_true, Bool.false_eq_true, if_false,
              Option.some.injEq, reduceCtorEq] at htr ⊢
          rw [htr]
  | calli h a => exact turnsAlone_calli_of_sliceTrap htr
  | _ => exact nomatch hi

end


/-! ## Completion (O6) -/

section
variable {s : State} {i : Instr} {g : Group} {l : List Nat} {c : UClass} {cost : Nat}

/-- A beat of accesses beside the instruction that makes none. -/
theorem accessBeat_alone {t q : Nat} {kind : AccKind} {reqs : Ctx → Slice → List LaneReq}
    {f : List BeatPage → State → Ctx → Slice → State × Option (Trap × Nat)} (hg : s.group? t q = some g)
    (hreqs : ∀ k ∈ l, reqs (ctxOf s t q g k) (g.slice k) = []) : accessBeat t q kind reqs f c s l = eachSlice t q (f []) c s l := by
  have hrs : beatReqs s t q g l reqs = [] := List.flatMap_eq_nil_iff.mpr hreqs
  have hstops : lookStops s t g [] = false := by simp [lookStops, State.walkHeld]
  unfold accessBeat
  rw [hg]
  dsimp only
  rw [hrs, lookBeat_of_not_lookStops hstops]
  rfl

/-- A call or return whose slices make no access, each of which completes. -/
theorem ran_of_sliceAfter_call {y : Nat → Slice} (hi : isCall i = true) (hI : Issues s i g l c cost)
    (hy : ∀ k ∈ l, sliceAfter i c (ctxOf s s.focus.tile s.focus.slot g k) (g.slice k) = some (y k))
    (hw : ∃ k ∈ l, (y k).wait.retries = false) : Ran s i g l cost y := by
  obtain ⟨kind, reqs, hbesides, hruns⟩ := exists_runsBeside_of_isCall hi
  refine ran_of_replaced hI (hruns s) ?_ hw
  rw [accessBeat_alone hI.here fun k hk => (turnsAlone_of_sliceAfter hi (hy k hk)).1 kind reqs hbesides]
  refine eachSlice_ok hI.here (fun k hk r r' hr => ?_) (inTurn_setSlice y l s)
  obtain rfl := Option.some.inj hr
  exact stackAct_of_callTurn ((turnsAlone_of_sliceAfter hi (hy k hk)).2 [] r)

theorem trapOutcome_of_sliceAfter {u : UClass} {e : Ctx} {x y : Slice} (hi : isTrap i = true) (hy : sliceAfter i u e x = some y) :
    trapOutcome i e x = .ok y := by
  cases i with
  | trap h imm =>
    have hy' : (if e.performs x h then none else some (x.adv (.trap h imm))) = some y := hy
    rw [trapOutcome_of_ite rfl]
    split_ifs at hy' ⊢
    exact congrArg _ (Option.some.inj hy')
  | sysc h imm =>
    have hy' : (if e.performs x h then none else some (x.adv (.sysc h imm))) = some y := hy
    rw [trapOutcome_of_ite rfl]
    split_ifs at hy' ⊢
    exact congrArg _ (Option.some.inj hy')
  | undefinedOpcode w0 w1 => exact nomatch hy
  | _ => exact nomatch hi

theorem isCall_of_sliceAfter {u : UClass} {e : Ctx} {x y : Slice} (hi : (besides i).isSome = true) (hy : sliceAfter i u e x = some y) :
    isCall i = true := by
  unfold besides at hi
  split at hi
  case h_9 => exact nomatch hi
  case h_1 | h_2 | h_3 => rfl
  all_goals exact nomatch hy

/-- Settles O6: a slice that is neither to trap nor to access memory comes to what the statement's table gives. -/
theorem sliceInstructionsComplete : Obligations.SliceInstructionsComplete := by
  intro s i g l c cost y hI hy
  obtain ⟨k, hk⟩ := List.exists_mem_of_ne_nil l hI.some_
  have hw : ∃ k ∈ l, (y k).wait.retries = false := ⟨k, hk, retries_of_sliceAfter (hI.ready k hk) (hy k hk)⟩
  rcases kind_of_sliceAfter (hy k hk) with hplain | htrap | hbeside
  · obtain ⟨p, hp⟩ := exists_runsPlain hplain
    exact ran_of_slices hI (hp.runs s) (fun k hk => hp.after _ _ _ _ (hy k hk)) hw
  · exact ran_of_slices hI (runsSlices_of_isTrap htrap s) (fun k hk => trapOutcome_of_sliceAfter htrap (hy k hk)) hw
  · exact ran_of_sliceAfter_call (isCall_of_sliceAfter hbeside (hy k hk)) hI hy hw

end

end Sys2Proof.Proofs
end

section
/-! PROOF. Where an instruction of one slice traps on its operands (O10): the instructions that each slice carries out for itself, and those
whose every slice traps. -/

namespace Sys2Proof.Proofs

open Sys2Proof.Machine Sys2Proof.Spec

/-! ## What the tables leave out -/

section
variable {i : Instr}

/-- None of the tables of the classes holds the instruction. -/
structure NoTable (i : Instr) : Prop where
  scalar : scalarValue i = none
  int : intWrites i = none
  lane : laneWrites i = none
  float : floatElems i = none
  conv : convWrites i = none

/-- The tables of the classes hold no instruction that traps on a slice's operands. -/
theorem noTable_of_sliceTrap {e : Ctx} {x : Slice} (h : sliceTrap i e x ≠ none) : NoTable i := by
  unfold sliceTrap at h
  dsimp only at h
  split at h
  case h_18 => exact absurd rfl h
  all_goals exact ⟨rfl, rfl, rfl, rfl, rfl⟩

theorem noTable_of_isTrap (h : isTrap i = true) : NoTable i := by
  unfold isTrap at h
  split at h
  case h_4 => exact nomatch h
  all_goals exact ⟨rfl, rfl, rfl, rfl, rfl⟩

theorem noTable_of_isPlain (h : isPlain i = true) : NoTable i := by
  unfold isPlain at h
  split at h
  case h_17 => exact nomatch h
  all_goals exact ⟨rfl, rfl, rfl, rfl, rfl⟩

theorem raises_eq_none (h : isTrap i = false) (e : Ctx) (x : Slice) : raises i e x = none := by
  unfold raises
  split
  case h_4 => rfl
  all_goals exact nomatch h

theorem plainOutcome_of_table (h : ¬NoTable i) (u : UClass) (e : Ctx) (x : Slice) :
    plainOutcome i u e x = (plainAfter i u e x).map Except.ok := by
  have htrap : isTrap i = false := Bool.eq_false_iff.mpr fun ht => h (noTable_of_isTrap ht)
  have hslice : sliceTrap i e x = none := by
    by_contra hs
    exact h (noTable_of_sliceTrap hs)
  unfold plainOutcome
  rw [raises_eq_none htrap, hslice]

/-- Outside the tables it is the slice's own rule that says what it comes to. -/
theorem plainAfter_of_noTable (h : NoTable i) (u : UClass) (e : Ctx) (x : Slice) :
    plainAfter i u e x = if (besides i).isSome then none else sliceAfter i u e x := by
  unfold plainAfter
  rw [h.scalar, h.int, h.lane, h.float, h.conv]

/-- What an instruction comes to is the trap that it raises, the one that its operands raise, or the slice after it. -/
theorem plainOutcome_cases {u : UClass} {e : Ctx} {x : Slice} {y : Except Trap Slice} (h : plainOutcome i u e x = some y) :
    (∃ tr, raises i e x = some tr ∧ y = .error tr) ∨ (raises i e x = none ∧ ∃ tr, sliceTrap i e x = some tr ∧ y = .error tr) ∨
      (raises i e x = none ∧ sliceTrap i e x = none ∧ ∃ z, plainAfter i u e x = some z ∧ y = .ok z) := by
  unfold plainOutcome at h
  cases hraise : raises i e x with
  | some tr =>
    simp only [hraise, Option.some.injEq] at h
    exact .inl ⟨tr, rfl, h.symm⟩
  | none =>
    cases htr : sliceTrap i e x with
    | some tr =>
      simp only [hraise, htr, Option.some.injEq] at h
      exact .inr (.inl ⟨rfl, tr, rfl, h.symm⟩)
    | none =>
      simp only [hraise, htr, Option.map_eq_some_iff] at h
      obtain ⟨z, hz, hy⟩ := h
      exact .inr (.inr ⟨rfl, rfl, z, hz, hy.symm⟩)

/-- The instruction is carried out by each slice for itself, which comes to what the statement says, and the beat does no more. -/
structure RunsOutcome (i : Instr) (p : UClass → Ctx → Slice → Except Trap Slice) : Prop where
  runs : ∀ s, exec i s = runSlices s i p
  gives : ∀ u e x y, plainOutcome i u e x = some y → p u e x = y
  rest : ∀ s m, afterBeat i s m = m

/-- Such an instruction never traps where it is of a table. -/
theorem RunsOutcome.of_table {z : UClass → Ctx → Slice → Slice} (h : ¬NoTable i)
    (hruns : ∀ s, exec i s = runSlices s i fun u e x => .ok (z u e x)) (hafter : ∀ u e x, plainAfter i u e x = some (z u e x))
    (hrest : ∀ s m, afterBeat i s m = m) : RunsOutcome i fun u e x => .ok (z u e x) :=
  ⟨hruns, fun u e x y hy => by
    rw [plainOutcome_of_table h, hafter] at hy
    exact Option.some.inj hy, hrest⟩

theorem afterBeat_of_scalarValue {q : Hdr × SReg × (Ctx → Slice → DWord)} (hi : scalarValue i = some q) (s m : State) : afterBeat i s m = m := by
  unfold scalarValue at hi
  split at hi
  case h_34 => exact nomatch hi
  all_goals rfl

theorem afterBeat_of_intWrites {q : Hdr × LaneWrites} (hi : intWrites i = some q) (s m : State) : afterBeat i s m = m := by
  unfold intWrites at hi
  split at hi
  case h_35 => exact nomatch hi
  all_goals rfl

theorem afterBeat_of_laneWrites {q : Hdr × LaneWrites} (hi : laneWrites i = some q) (s m : State) : afterBeat i s m = m := by
  unfold laneWrites at hi
  split at hi
  case h_16 => exact nomatch hi
  all_goals rfl

theorem afterBeat_of_floatElems {q : Hdr × VReg × UC × LaneFloats} (hi : floatElems i = some q) (s m : State) : afterBeat i s m = m := by
  unfold floatElems at hi
  split at hi
  case h_16 => exact nomatch hi
  all_goals rfl

theorem runsOutcome_of_scalarValue {h : Hdr} {d : SReg} {f : Ctx → Slice → DWord} (hi : scalarValue i = some (h, d, f)) :
    RunsOutcome i (scalarPlan i h d f) :=
  .of_table (fun hno => nomatch hi.symm.trans hno.scalar) (runsSlices_of_scalarValue hi) (fun _ _ _ => by unfold plainAfter; rw [hi])
    (afterBeat_of_scalarValue hi)

theorem runsOutcome_of_intWrites {h : Hdr} {f : LaneWrites} (hs : scalarValue i = none) (hi : intWrites i = some (h, f)) :
    RunsOutcome i (lanePlan i h f) :=
  .of_table (fun hno => nomatch hi.symm.trans hno.int) (runsSlices_of_intWrites hi) (fun _ _ _ => by unfold plainAfter; rw [hs, hi])
    (afterBeat_of_intWrites hi)

theorem runsOutcome_of_laneWrites {h : Hdr} {f : LaneWrites} (hs : scalarValue i = none) (hn : intWrites i = none)
    (hi : laneWrites i = some (h, f)) : RunsOutcome i (lanePlan i h f) :=
  .of_table (fun hno => nomatch hi.symm.trans hno.lane) (runsSlices_of_laneWrites hi)
    (fun _ _ _ => by unfold plainAfter; rw [hs, hn, hi]) (afterBeat_of_laneWrites hi)

/-- What the floating-point plan gives, lane by lane. -/
theorem fpPlan_eq (i : Instr) (h : Hdr) (uc : UC) (d : VReg) (f : LaneFloats) :
    fpPlan i h uc d f = fun u e x => .ok
      ((x.postHx ((e.guarded x h).flatMap fun n =>
          wTy (x.tyOf i) d.toNat n (joinElems (x.tyOf i) (f u e x (x.tyOf i) n)) (joinBound (f u e x (x.tyOf i) n)))
        (if uc = .auto then some ((e.guarded x h).map fun n =>
          { bnd := joinBound (f u e x (x.tyOf i) n), ex := joinEx (f u e x (x.tyOf i) n) }) else none)).adv i) := by
  funext u e x
  unfold fpPlan
  simp only [List.flatMap_map, List.map_map, Function.comp_def]

theorem runsOutcome_of_floatElems {h : Hdr} {d : VReg} {uc : UC} {f : LaneFloats} (hs : scalarValue i = none) (hn : intWrites i = none)
    (hl : laneWrites i = none) (hi : floatElems i = some (h, d, uc, f)) : RunsOutcome i (fpPlan i h uc d f) := by
  rw [fpPlan_eq]
  exact .of_table (fun hno => nomatch hi.symm.trans hno.float) (fpPlan_eq i h uc d f ▸ runsSlices_of_floatElems hi)
    (fun _ _ _ => by unfold plainAfter; rw [hs, hn, hl, hi]) (afterBeat_of_floatElems hi)

theorem sliceTrap_of_isTrap (hi : isTrap i = true) (e : Ctx) (x : Slice) : sliceTrap i e x = none := by
  unfold isTrap at hi
  split at hi
  case h_4 => exact nomatch hi
  all_goals rfl

theorem besides_of_isTrap (hi : isTrap i = true) : besides i = none := by
  unfold isTrap at hi
  split at hi
  case h_4 => exact nomatch hi
  all_goals rfl

theorem afterBeat_of_isTrap (hi : isTrap i = true) (s m : State) : afterBeat i s m = m := by
  unfold isTrap at hi
  split at hi
  case h_4 => exact nomatch hi
  all_goals rfl

/-- An instruction outside the tables that makes no access. -/
theorem plainAfter_of_alone (h : NoTable i) (hb : besides i = none) (u : UClass) (e : Ctx) (x : Slice) :
    plainAfter i u e x = sliceAfter i u e x := by
  rw [plainAfter_of_noTable h, hb]
  rfl

theorem runsOutcome_of_isTrap (hi : isTrap i = true) : RunsOutcome i fun _ => trapOutcome i := by
  refine ⟨runsSlices_of_isTrap hi, fun u e x y hy => ?_, afterBeat_of_isTrap hi⟩
  rcases plainOutcome_cases hy with ⟨tr, hraise, rfl⟩ | ⟨_, tr, htr, _⟩ | ⟨_, _, z, hz, rfl⟩
  · unfold trapOutcome
    rw [hraise]
  · exact nomatch (sliceTrap_of_isTrap hi e x).symm.trans htr
  · exact trapOutcome_of_sliceAfter hi (plainAfter_of_alone (noTable_of_isTrap hi) (besides_of_isTrap hi) u e x ▸ hz)

theorem isTrap_of_isPlain (hi : isPlain i = true) : isTrap i = false := by
  unfold isPlain at hi
  split at hi
  case h_17 => exact nomatch hi
  all_goals rfl

theorem afterBeat_of_isPlain (hi : isPlain i = true) (s m : State) : afterBeat i s m = m := by
  unfold isPlain at hi
  split at hi
  case h_17 => exact nomatch hi
  all_goals rfl

theorem besides_of_isPlain (hi : isPlain i = true) : besides i = none := by
  unfold isPlain at hi
  split at hi
  case h_17 => exact nomatch hi
  all_goals rfl

theorem exists_runsOutcome_of_isPlain (hi : isPlain i = true) : ∃ p, RunsOutcome i p := by
  obtain ⟨p, hp⟩ := exists_runsPlain hi
  refine ⟨p, hp.runs, fun u e x y hy => ?_, afterBeat_of_isPlain hi⟩
  rcases plainOutcome_cases hy with ⟨tr, hraise, _⟩ | ⟨_, tr, htr, rfl⟩ | ⟨_, _, z, hz, rfl⟩
  · exact nomatch (raises_eq_none (isTrap_of_isPlain hi) e x).symm.trans hraise
  · exact hp.traps e x tr htr u
  · exact hp.after u e x z (plainAfter_of_alone (noTable_of_isPlain hi) (besides_of_isPlain hi) u e x ▸ hz)

/-! ## What each slice carries out for itself -/

/-- No slice is left to execute its instruction again. -/
theorem retries_of_plainAfter {u : UClass} {e : Ctx} {x y : Slice} (hx : x.wait = .run) (h : plainAfter i u e x = some y) :
    y.wait.retries = false := by
  by_cases hno : NoTable i
  · rw [plainAfter_of_noTable hno] at h
    split_ifs at h
    exact retries_of_sliceAfter hx h
  · have hrun : y.wait = .run := by
      unfold plainAfter at h
      dsimp only at h
      split at h
      case h_6 h1 h2 h3 h4 h5 => exact absurd ⟨h1, h2, h3, h4, h5⟩ hno
      all_goals obtain rfl := Option.some.inj h
      · rw [adv_wait, apply_ite Slice.wait, post_wait, ite_self, hx]
      case h_4 => exact (wait_postHx ..).trans hx
      all_goals exact (wait_post ..).trans hx
    rw [hrun]
    rfl

theorem retries_of_plainOutcome {u : UClass} {e : Ctx} {x y : Slice} (hx : x.wait = .run) (h : plainOutcome i u e x = some (.ok y)) :
    y.wait.retries = false := by
  rcases plainOutcome_cases h with ⟨_, _, hy⟩ | ⟨_, _, _, hy⟩ | ⟨_, _, z, hz, hy⟩
  · exact nomatch hy
  · exact nomatch hy
  · exact Except.ok.inj hy ▸ retries_of_plainAfter hx hz

end

section
variable {s : State} {i : Instr} {g : Group} {l : List Nat} {c : UClass} {cost : Nat} {y : Nat → Except Trap Slice}

theorem divided_of_runsOutcome {p : UClass → Ctx → Slice → Except Trap Slice} (hp : RunsOutcome i p) (hI : Issues s i g l c cost)
    (hy : ∀ k ∈ l, plainOutcome i c (ctxOf s s.focus.tile s.focus.slot g k) (g.slice k) = some (y k)) :
    Divided s i g l cost (afterBeat i s) y :=
  divided_of_perSlice hI ((hp.runs s).trans rfl) (by rw [hp.rest]) (fun k hk => hp.gives _ _ _ _ (hy k hk))
    (fun k hk x hx => retries_of_plainOutcome (hI.ready k hk) ((hy k hk).trans (congrArg some hx))) fun r hr => by rwa [hp.rest]

/-- Stochastic conversions draw: the beat advances the quarter's generator. -/
theorem afterBeat_of_convWrites {h : Hdr} {ty : TyF} {rnd : Rnd} {f : LaneConv} (hi : convWrites i = some (h, ty, rnd, f)) (s m : State) :
    afterBeat i s m =
      if rnd = .sr then m.updTile s.focus.tile fun x => x.setSr (s.focus.slot / 16) (srNext ((s.tile s.focus.tile).srOf (s.focus.slot / 16)))
      else m := by
  cases rnd
  all_goals
    unfold convWrites at hi
    split at hi
    case h_6 => exact nomatch hi
    all_goals obtain ⟨rfl, rfl, rfl, rfl⟩ := hi; rfl

theorem Going.updTile {r : State} {t q : Nat} (hr : Going r t q l) {f : Tile → Tile} (hf : ∀ x, (f x).groups = x.groups) :
    Going (r.updTile t f) t q l := by
  obtain ⟨g, hg, hgo⟩ := hr
  exact ⟨g, by rw [group?_updTile _ _ (hf _)]; exact hg, hgo⟩

theorem divided_of_convWrites {h : Hdr} {ty : TyF} {rnd : Rnd} {f : LaneConv} (hs : scalarValue i = none) (hn : intWrites i = none)
    (hl : laneWrites i = none) (hf : floatElems i = none) (hi : convWrites i = some (h, ty, rnd, f)) (hI : Issues s i g l c cost)
    (hy : ∀ k ∈ l, plainOutcome i c (ctxOf s s.focus.tile s.focus.slot g k) (g.slice k) = some (y k)) :
    Divided s i g l cost (afterBeat i s) y := by
  refine divided_of_perSlice (p := lanePlan i h fun e x tt n => f e x tt n fun j =>
      x.rmode ty rnd (srDraw ((s.tile s.focus.tile).srOf (s.focus.slot / 16)) (2 * ((4 * e.i + n) % 32) + j))) hI
    (runsBeat_of_convWrites hi s) (by rw [afterBeat_of_convWrites hi]; rfl) (fun k hk => ?_)
    (fun k hk x hx => retries_of_plainOutcome (hI.ready k hk) ((hy k hk).trans (congrArg some hx))) fun r hr => ?_
  · have hk' := hy k hk
    rw [plainOutcome_of_table fun hno => nomatch hi.symm.trans hno.conv] at hk'
    unfold plainAfter at hk'
    simp only [hs, hn, hl, hf, hi, Option.map_some, Option.some.injEq] at hk'
    exact hk'
  · rw [afterBeat_of_convWrites hi]
    split_ifs
    · exact hr.updTile fun _ => rfl
    · exact hr

/-! ## Where every slice traps -/

/-- The traps of slices that all trap, which leave the machine as it was. -/
theorem enacted_of_errors {tr : Nat → Trap} (hy : ∀ k ∈ l, y k = .error (tr k)) : s.enacted l y = s := by
  unfold State.enacted
  induction l with
  | nil => rfl
  | cons k l ih =>
    rw [List.foldl_cons, hy k List.mem_cons_self]
    exact ih fun j hj => hy j (List.mem_cons_of_mem _ hj)

theorem trapsOf_of_errors {tr : Nat → Trap} (hy : ∀ k ∈ l, y k = .error (tr k)) : trapsOf l y = l.map fun k => (k, tr k) := by
  unfold trapsOf
  rw [← List.filterMap_eq_map]
  exact List.filterMap_congr fun k hk => by rw [hy k hk]; rfl

/-- Slices that act in turn and all trap, with what the beat does then. -/
theorem divided_of_all_trap {plan : Nat → Nat → Plan} {F : State → Ctx → Slice → State × Option (Trap × Nat)} {tr : Nat → Trap}
    (hI : Issues s i g l c cost) (he : exec i s = runBeat s i plan)
    (hplan : plan s.focus.tile s.focus.slot c s l =
      (afterBeat i s (eachSlice s.focus.tile s.focus.slot F c s l).1, (eachSlice s.focus.tile s.focus.slot F c s l).2))
    (hF : ∀ k ∈ l, F s (ctxOf s s.focus.tile s.focus.slot g k) (g.slice k) = (s, some (tr k, 0)))
    (hgo : Going (afterBeat i s s) s.focus.tile s.focus.slot l) (hy : ∀ k ∈ l, y k = .error (tr k)) :
    Divided s i g l cost (afterBeat i s) y := by
  unfold Divided
  rw [enacted_of_errors hy, trapsOf_of_errors hy]
  refine parted_of_issues hI he ?_ hgo
  rw [hplan, eachSlice_error hI.here hF, List.map_map]
  rfl

/-- The same where the beat does no more than that. -/
theorem divided_of_eachSlice {F : State → Ctx → Slice → State × Option (Trap × Nat)} {tr : Nat → Trap} (hI : Issues s i g l c cost)
    (he : exec i s = runBeat s i fun t q => eachSlice t q F) (hrest : ∀ m, afterBeat i s m = m)
    (hF : ∀ k ∈ l, F s (ctxOf s s.focus.tile s.focus.slot g k) (g.slice k) = (s, some (tr k, 0))) (hy : ∀ k ∈ l, y k = .error (tr k)) :
    Divided s i g l cost (afterBeat i s) y :=
  divided_of_all_trap hI he (by rw [hrest]) hF (by rw [hrest]; exact going_of_toIssue hI.toToIssue) hy

/-- The same for accesses beside the instruction, of which its trapping slices make none. -/
theorem divided_of_beside {kind : AccKind} {reqs : Ctx → Slice → List LaneReq}
    {f : List BeatPage → State → Ctx → Slice → State × Option (Trap × Nat)} (hruns : RunsBeside i kind reqs f)
    (hrest : ∀ m, afterBeat i s m = m)
    (hf : ∀ r e x tr, sliceTrap i e x = some tr → reqs e x = [] ∧ f [] r e x = (r, some (tr, 0)))
    {tr : Nat → Trap} (hI : Issues s i g l c cost)
    (htr : ∀ k ∈ l, sliceTrap i (ctxOf s s.focus.tile s.focus.slot g k) (g.slice k) = some (tr k)) (hy : ∀ k ∈ l, y k = .error (tr k)) :
    Divided s i g l cost (afterBeat i s) y := by
  refine divided_of_all_trap hI (hruns.2 s) ?_ (fun k hk => (hf s _ _ _ (htr k hk)).2) ?_ hy
  · rw [accessBeat_alone hI.here fun k hk => (hf s _ _ _ (htr k hk)).1, hrest]
  · rw [hrest]
    exact going_of_toIssue hI.toToIssue

end

/-! ### Each instruction's own checks -/

section
variable {i : Instr} {h : Hdr} {r : State} {e : Ctx} {x : Slice} {tr : Trap}

/-- A privileged instruction in a slice in which it is performed, in supervisor mode. -/
theorem privSlice_of_performs {f : State → Ctx → Slice → State × Option (Trap × Nat)} (hp : e.performs x h = true) (hm : x.pm = true) :
    privSlice i h f r e x = f r e x := by
  unfold privSlice
  rw [hp, hm]
  rfl

/-- The trap of STCTX or LDCTX before its accesses (18 R347). -/
def itemTrap (h : Hdr) (n : BitVec 8) (a : SReg) (off : BitVec 10) (e : Ctx) (x : Slice) : Option Trap :=
  if !ctxThere x e.g.allot n then some (illegal 3)
  else if ctxAddr e x a off % 64 ≠ 0 then some (misalign [4 * e.i + (e.guarded x h).headD 0] (ctxAddr e x a off))
  else none

theorem ctxBeatReqs_of_itemTrap {n : BitVec 8} {a : SReg} {off : BitVec 10} (htr : itemTrap h n a off e x = some tr) :
    ctxBeatReqs h n a off e x = [] := by
  unfold itemTrap at htr
  unfold ctxBeatReqs
  dsimp only
  split_ifs at htr with hthere hodd <;> refine if_neg fun hok => ?_ <;>
    simp only [Bool.and_eq_true, decide_eq_true_eq, Bool.not_eq_true'] at hok hthere
  · exact absurd hok.1.2 (by simp [hthere])
  · exact hodd hok.2

theorem stctxSlice_of_itemTrap {n : BitVec 8} {a : SReg} {off : BitVec 10} {ps : List BeatPage} (htr : itemTrap h n a off e x = some tr) :
    stctxSlice i h n a off ps r e x = (r, some (tr, 0)) := by
  unfold itemTrap at htr
  unfold stctxSlice
  dsimp only
  rw [alignTrap_single]
  have hva : (oneReq e x h (ctxAddr e x a off)).va = ctxAddr e x a off := rfl
  rw [hva]
  split_ifs at htr ⊢ <;> obtain rfl := Option.some.inj htr <;> rfl

theorem ldctxSlice_of_itemTrap {n : BitVec 8} {a : SReg} {off : BitVec 10} {ps : List BeatPage} (htr : itemTrap h n a off e x = some tr) :
    ldctxSlice h n a off ps r e x = (r, some (tr, 0)) := by
  unfold itemTrap at htr
  unfold ldctxSlice
  dsimp only
  rw [alignTrap_single]
  have hva : (oneReq e x h (ctxAddr e x a off)).va = ctxAddr e x a off := rfl
  rw [hva]
  split_ifs at htr ⊢ <;> obtain rfl := Option.some.inj htr <;> rfl

/-- Conditions under which a privileged instruction's own checks are made. -/
theorem performs_of_guard {o : Option Trap} (htr : (if !e.performs x h || !x.pm then none else o) = some tr) :
    e.performs x h = true ∧ x.pm = true ∧ o = some tr := by
  cases hp : e.performs x h <;> cases hm : x.pm <;>
    simp only [hp, hm, Bool.not_true, Bool.not_false, Bool.or_true, Bool.or_false, Bool.false_eq_true, if_true, if_false,
      reduceCtorEq] at htr
  exact ⟨rfl, rfl, htr⟩

theorem itemTrap_of_sliceTrap_stctx {n : BitVec 8} {a : SReg} {off : BitVec 10} (htr : sliceTrap (.stctx h n a off) e x = some tr) :
    e.performs x h = true ∧ x.pm = true ∧ itemTrap h n a off e x = some tr := performs_of_guard htr

theorem itemTrap_of_sliceTrap_ldctx {n : BitVec 8} {a : SReg} {off : BitVec 10} (htr : sliceTrap (.ldctx h n a off) e x = some tr) :
    e.performs x h = true ∧ x.pm = true ∧ itemTrap h n a off e x = some tr := performs_of_guard htr

theorem csrRead_of_sliceTrap {num : Nat} (htr : (if e.performs x h && x.pm && (e.st.csrRead x.td num).isNone then some (illegal 0) else none) =
    some tr) : e.performs x h = true ∧ x.pm = true ∧ e.st.csrRead x.td num = none ∧ tr = illegal 0 := by
  split_ifs at htr with hif
  simp only [Bool.and_eq_true, Option.isNone_iff_eq_none] at hif
  exact ⟨hif.1.1, hif.1.2, hif.2, (Option.some.inj htr).symm⟩

theorem csrrSlice_of_none {d : SReg} {n : Nat} (hn : r.csrRead x.td n = none) : csrrSlice i d n r e x = (r, some (illegal 0, 0)) := by
  unfold csrrSlice
  rw [hn]

theorem csrwSlice_of_none {a : SReg} {n : Nat} (hn : r.csrRead x.td n = none) : csrwSlice i n a r e x = (r, some (illegal 0, 0)) := by
  unfold csrwSlice
  rw [hn]

/-- The trap of HALT.save before its effect (18 R348). -/
def saveTrap (a : SReg) (e : Ctx) (x : Slice) : Option Trap :=
  if !(x.td = 1 && x.top.vec = 0x0D) then some (illegal 3)
  else if (e.rdS x 0 a.toNat).toNat % 64 ≠ 0 then some (misalign [4 * e.i + x.active.headD 0] (e.rdS x 0 a.toNat).toNat)
  else none

theorem haltSlice_of_saveTrap {a : SReg} (htr : saveTrap a e x = some tr) : haltSlice i (some a) r e x = (r, some (tr, 0)) := by
  unfold saveTrap at htr
  unfold haltSlice
  dsimp only
  rw [alignTrap_single]
  simp only [Option.isSome_some, Bool.true_and]
  split_ifs at htr ⊢ <;> obtain rfl := Option.some.inj htr <;> rfl

/-- The trap of an arrival before its effect (10 R194). -/
def arriveTrap (k : Nat) (e : Ctx) (x : Slice) : Option Trap :=
  if x.arrv.getLsbD k then none
  else if (e.st.barTrap e.t e.g k true).isSome then e.st.barTrap e.t e.g k true
  else if !(e.g.barBits k).getLsbD 0 && !(e.g.barBits k).getLsbD 1 then some (illegal 3)
  else none

theorem arriveSlice_of_arriveTrap {k : Nat} {d : Option SReg} (hg : e.st.group? e.t e.slot = some e.g) (htr : arriveTrap k e x = some tr) :
    arriveSlice i k d e.st e x = (e.st, some (tr, 0)) := by
  unfold arriveTrap at htr
  unfold arriveSlice
  rw [hg]
  dsimp only
  cases hbar : e.st.barTrap e.t e.g k true with
  | some b =>
    simp only [hbar, Option.isSome_some, if_true] at htr
    split_ifs at htr
    rw [Option.some.inj htr]
  | none =>
    simp only [hbar, Option.isSome_none, Bool.false_eq_true, if_false, ← Bool.not_or] at htr
    split_ifs at htr with h1 h2
    rw [← Option.some.inj htr]
    exact if_pos h2

end

section
variable {s : State} {i : Instr} {g : Group} {l : List Nat} {c : UClass} {cost : Nat} {y : Nat → Except Trap Slice} {tr : Nat → Trap}
  {j : Instr}

/-- No slice has halted where one is to issue. -/
theorem haltKind_of_toIssue (hI : ToIssue s i g l c cost) : g.haltKind = none := by
  obtain ⟨k, hk⟩ := List.exists_mem_of_ne_nil l hI.some_
  have hlive : (g.slice k).live = true := by
    rw [← hI.gang] at hk
    exact (List.mem_filter.mp hk).2
  refine if_neg fun hall => ?_
  have hhalt := List.all_eq_true.mp (Bool.and_eq_true_iff.mp hall).2 k (mem_liveIdx_of_live hlive)
  rw [hI.ready k hk] at hhalt
  exact nomatch hhalt

theorem divided_of_sliceTrap_call (hi : isCall i = true) (hI : Issues s i g l c cost)
    (htr : ∀ k ∈ l, sliceTrap i (ctxOf s s.focus.tile s.focus.slot g k) (g.slice k) = some (tr k)) (hy : ∀ k ∈ l, y k = .error (tr k)) :
    Divided s i g l cost (afterBeat i s) y := by
  obtain ⟨kind, reqs, hruns⟩ := exists_runsBeside_of_isCall hi
  have hrest : ∀ m, afterBeat i s m = m := by
    unfold isCall at hi
    split at hi
    case h_4 => exact nomatch hi
    all_goals exact fun _ => rfl
  refine divided_of_beside hruns hrest (fun r e x tr htr => ?_) hI htr hy
  obtain ⟨hreqs, hturn⟩ := turnsAlone_of_sliceTrap hi htr
  exact ⟨hreqs kind reqs hruns.1, stackAct_of_callTurn (hturn [] r)⟩

theorem divided_of_sliceTrap_stctx {h : Hdr} {n : BitVec 8} {a : SReg} {off : BitVec 10} (hI : Issues s (.stctx h n a off) g l c cost)
    (htr : ∀ k ∈ l, sliceTrap (.stctx h n a off) (ctxOf s s.focus.tile s.focus.slot g k) (g.slice k) = some (tr k))
    (hy : ∀ k ∈ l, y k = .error (tr k)) : Divided s (.stctx h n a off) g l cost (afterBeat (.stctx h n a off) s) y := by
  refine divided_of_beside (f := fun ps => privSlice (.stctx h n a off) h (stctxSlice (.stctx h n a off) h n a off ps)) ⟨rfl, fun _ => rfl⟩
    (fun _ => rfl) (fun r e x tr htr => ?_) hI htr hy
  obtain ⟨hp, hm, hitem⟩ := itemTrap_of_sliceTrap_stctx htr
  exact ⟨ctxBeatReqs_of_itemTrap hitem, (privSlice_of_performs hp hm).trans (stctxSlice_of_itemTrap hitem)⟩

theorem divided_of_sliceTrap_ldctx {h : Hdr} {n : BitVec 8} {a : SReg} {off : BitVec 10} (hI : Issues s (.ldctx h n a off) g l c cost)
    (htr : ∀ k ∈ l, sliceTrap (.ldctx h n a off) (ctxOf s s.focus.tile s.focus.slot g k) (g.slice k) = some (tr k))
    (hy : ∀ k ∈ l, y k = .error (tr k)) : Divided s (.ldctx h n a off) g l cost (afterBeat (.ldctx h n a off) s) y := by
  refine divided_of_beside (f := fun ps => privSlice (.ldctx h n a off) h (ldctxSlice h n a off ps)) ⟨rfl, fun _ => rfl⟩
    (fun _ => rfl) (fun r e x tr htr => ?_) hI htr hy
  obtain ⟨hp, hm, hitem⟩ := itemTrap_of_sliceTrap_ldctx htr
  exact ⟨ctxBeatReqs_of_itemTrap hitem, (privSlice_of_performs hp hm).trans (ldctxSlice_of_itemTrap hitem)⟩

theorem divided_of_sliceTrap_csrr {h : Hdr} {d : SReg} {num : BitVec 12} (hI : Issues s (.csrr h d num) g l c cost)
    (htr : ∀ k ∈ l, sliceTrap (.csrr h d num) (ctxOf s s.focus.tile s.focus.slot g k) (g.slice k) = some (tr k))
    (hy : ∀ k ∈ l, y k = .error (tr k)) : Divided s (.csrr h d num) g l cost (afterBeat (.csrr h d num) s) y := by
  refine divided_of_eachSlice (F := privSlice (.csrr h d num) h (csrrSlice (.csrr h d num) d num.toNat)) hI rfl (fun _ => rfl)
    (fun k hk => ?_) hy
  obtain ⟨hp, hm, hn, hk'⟩ := csrRead_of_sliceTrap (htr k hk)
  rw [hk', privSlice_of_performs hp hm]
  exact csrrSlice_of_none hn

theorem divided_of_sliceTrap_csrw {h : Hdr} {num : BitVec 12} {a : SReg} (hI : Issues s (.csrw h num a) g l c cost)
    (htr : ∀ k ∈ l, sliceTrap (.csrw h num a) (ctxOf s s.focus.tile s.focus.slot g k) (g.slice k) = some (tr k))
    (hy : ∀ k ∈ l, y k = .error (tr k)) : Divided s (.csrw h num a) g l cost (afterBeat (.csrw h num a) s) y := by
  refine divided_of_eachSlice (F := privSlice (.csrw h num a) h (csrwSlice (.csrw h num a) num.toNat a)) hI rfl (fun _ => rfl)
    (fun k hk => ?_) hy
  obtain ⟨hp, hm, hn, hk'⟩ := csrRead_of_sliceTrap (htr k hk)
  rw [hk', privSlice_of_performs hp hm]
  exact csrwSlice_of_none hn

/-- A beat of arrivals, of a group whose slices all trap. -/
theorem divided_of_arriveTrap {k : Nat} {d : Option SReg} (hI : Issues s i g l c cost) (he : exec i s = runBeat s i (arriveBeat i k d))
    (hafter : ∀ m, afterBeat i s m = m.updGroup s.focus.tile s.focus.slot fun g => g.completeArrival k)
    (htr : ∀ j ∈ l, arriveTrap k (ctxOf s s.focus.tile s.focus.slot g j) (g.slice j) = some (tr j)) (hy : ∀ j ∈ l, y j = .error (tr j)) :
    Divided s i g l cost (afterBeat i s) y := by
  refine divided_of_all_trap (F := arriveSlice i k d) hI he ?_ (fun j hj => arriveSlice_of_arriveTrap hI.here (htr j hj)) ?_ hy
  · rw [hafter]
    rfl
  · rw [hafter]
    exact (going_of_toIssue hI.toToIssue).updGroup fun _ hg => retries_completeArrival hg _

/-- A beat of HALT.save, of a group whose slices all trap. -/
theorem divided_of_saveTrap {h : Hdr} {a : SReg} (hI : Issues s i g l c cost) (he : exec i s = runBeat s i (haltPlan j h (some a)))
    (hrest : afterBeat i s s = s)
    (htr : ∀ k ∈ l, (ctxOf s s.focus.tile s.focus.slot g k).performs (g.slice k) h = true ∧ (g.slice k).pm = true ∧
      saveTrap a (ctxOf s s.focus.tile s.focus.slot g k) (g.slice k) = some (tr k))
    (hy : ∀ j ∈ l, y j = .error (tr j)) : Divided s i g l cost (afterBeat i s) y := by
  have hF : ∀ k ∈ l, privSlice j h (haltSlice j (some a)) s (ctxOf s s.focus.tile s.focus.slot g k) (g.slice k) = (s, some (tr k, 0)) :=
    fun k hk => by
      obtain ⟨hp, hm, hsave⟩ := htr k hk
      exact (privSlice_of_performs hp hm).trans (haltSlice_of_saveTrap hsave)
  refine divided_of_all_trap (F := privSlice j h (haltSlice j (some a))) hI he ?_ hF ?_ hy
  · unfold haltPlan
    dsimp only
    rw [eachSlice_error hI.here hF, hrest, hI.here]
    dsimp only
    rw [haltKind_of_toIssue hI.toToIssue]
  · rw [hrest]
    exact going_of_toIssue hI.toToIssue

/-- The checks of HALT.save in a slice in which it is performed. -/
theorem saveTrap_of_guard {h : Hdr} {a : SReg} {e : Ctx} {x : Slice} {tr : Trap}
    (htr : (if !e.performs x h || !x.pm then none else saveTrap a e x) = some tr) :
    e.performs x (plainHdr h) = true ∧ x.pm = true ∧ saveTrap a e x = some tr := performs_of_guard htr

theorem afterBeat_haltSave {h : Hdr} {a : SReg} (hI : Issues s (.haltSave h a) g l c cost) : afterBeat (.haltSave h a) s s = s := by
  unfold afterBeat
  dsimp only
  rw [hI.here]
  dsimp only
  rw [haltKind_of_toIssue hI.toToIssue]

theorem afterBeat_haltSaveRls {h : Hdr} {a : SReg} (hI : Issues s (.haltSaveRls h a) g l c cost) : afterBeat (.haltSaveRls h a) s s = s := by
  unfold afterBeat
  dsimp only
  rw [hI.here]
  dsimp only
  rw [haltKind_of_toIssue hI.toToIssue]

/-- The instruction traps in every slice, as its operands say. -/
theorem divided_of_sliceTrap (hplain : isPlain i = false) (hI : Issues s i g l c cost)
    (htr : ∀ k ∈ l, sliceTrap i (ctxOf s s.focus.tile s.focus.slot g k) (g.slice k) = some (tr k)) (hy : ∀ k ∈ l, y k = .error (tr k)) :
    Divided s i g l cost (afterBeat i s) y := by
  cases i with
  | call h t => exact divided_of_sliceTrap_call rfl hI htr hy
  | ret h => exact divided_of_sliceTrap_call rfl hI htr hy
  | calli h a => exact divided_of_sliceTrap_call rfl hI htr hy
  | stctx h n a off => exact divided_of_sliceTrap_stctx hI htr hy
  | ldctx h n a off => exact divided_of_sliceTrap_ldctx hI htr hy
  | csrr h d num => exact divided_of_sliceTrap_csrr hI htr hy
  | csrw h num a => exact divided_of_sliceTrap_csrw hI htr hy
  | bara h d k => exact divided_of_arriveTrap hI rfl (fun _ => rfl) htr hy
  | bars h k => exact divided_of_arriveTrap hI rfl (fun _ => rfl) htr hy
  | haltSave h a =>
    exact divided_of_saveTrap (j := .haltSave (plainHdr h) a) hI rfl (afterBeat_haltSave hI) (fun k hk => saveTrap_of_guard (htr k hk)) hy
  | haltSaveRls h a =>
    exact divided_of_saveTrap (j := .haltSaveRls (plainHdr h) a) hI rfl (afterBeat_haltSaveRls hI) (fun k hk => saveTrap_of_guard (htr k hk)) hy
  | movrs | join | chkb | vtos | barw | barq => exact nomatch hplain
  | _ =>
    obtain ⟨k, hk⟩ := List.exists_mem_of_ne_nil l hI.some_
    exact nomatch htr k hk

/-- Any other instruction has an outcome of its own only where it traps. -/
theorem sliceTrap_of_plainOutcome {u : UClass} {e : Ctx} {x : Slice} {y : Except Trap Slice} (hno : NoTable i) (ht : isTrap i = false)
    (hp : isPlain i = false) (h : plainOutcome i u e x = some y) : ∃ tr, sliceTrap i e x = some tr ∧ y = .error tr := by
  rcases plainOutcome_cases h with ⟨tr, hraise, _⟩ | ⟨_, tr, htr, hy⟩ | ⟨_, _, z, hz, _⟩
  · exact nomatch (raises_eq_none ht e x).symm.trans hraise
  · exact ⟨tr, htr, hy⟩
  · rw [plainAfter_of_noTable hno] at hz
    split_ifs at hz with hb
    rcases kind_of_sliceAfter hz with hplain | htrap | hbeside
    · exact nomatch hp.symm.trans hplain
    · exact nomatch ht.symm.trans htrap
    · exact absurd hbeside hb

/-- Settles O10: an instruction that each slice carries out for itself comes to what the statement says in each; in any other every slice
traps. -/
theorem sliceInstructionsTrap : Obligations.SliceInstructionsTrap := by
  intro s i g l c cost y hI hy
  cases hs : scalarValue i with
  | some q => exact divided_of_runsOutcome (runsOutcome_of_scalarValue hs) hI hy
  | none =>
  cases hn : intWrites i with
  | some q => exact divided_of_runsOutcome (runsOutcome_of_intWrites hs hn) hI hy
  | none =>
  cases hl : laneWrites i with
  | some q => exact divided_of_runsOutcome (runsOutcome_of_laneWrites hs hn hl) hI hy
  | none =>
  cases hf : floatElems i with
  | some q => exact divided_of_runsOutcome (runsOutcome_of_floatElems hs hn hl hf) hI hy
  | none =>
  cases hv : convWrites i with
  | some q => exact divided_of_convWrites hs hn hl hf hv hI hy
  | none =>
  cases ht : isTrap i with
  | true => exact divided_of_runsOutcome (runsOutcome_of_isTrap ht) hI hy
  | false =>
  cases hp : isPlain i with
  | true =>
    obtain ⟨p, hrun⟩ := exists_runsOutcome_of_isPlain hp
    exact divided_of_runsOutcome hrun hI hy
  | false =>
    have htrap : ∀ k ∈ l, ∃ tr, sliceTrap i (ctxOf s s.focus.tile s.focus.slot g k) (g.slice k) = some tr ∧ y k = .error tr :=
      fun k hk => sliceTrap_of_plainOutcome ⟨hs, hn, hl, hf, hv⟩ ht hp (hy k hk)
    choose! tr htr using htrap
    exact divided_of_sliceTrap hp hI (fun k hk => (htr k hk).1) fun k hk => (htr k hk).2

end

end Sys2Proof.Proofs
end

section
/-! SUPPORT. The lookups and accesses of a beat change caches, and leave every group as it was. -/

namespace Sys2Proof.Proofs

open Sys2Proof.Machine Sys2Proof.Spec

/-- Every tile has its groups in `r` as in `s`. -/
structure SameGroups (s r : State) : Prop where
  groups : ∀ t, (r.tile t).groups = (s.tile t).groups

section
variable {s a b c : State}

theorem SameGroups.refl (s : State) : SameGroups s s := ⟨fun _ => rfl⟩

theorem SameGroups.trans (h : SameGroups a b) (k : SameGroups b c) : SameGroups a c := ⟨fun t => (k.groups t).trans (h.groups t)⟩

theorem SameGroups.group? {r : State} (h : SameGroups s r) (t q : Nat) : r.group? t q = s.group? t q := by
  unfold State.group? Tile.group?
  rw [h.groups t]

theorem sameGroups_ite {p : Prop} [Decidable p] (ha : SameGroups s a) (hb : SameGroups s b) : SameGroups s (if p then a else b) := by
  split
  · exact ha
  · exact hb

/-- A loop none of whose turns changes a group; `p` is the state within what the loop carries. -/
theorem sameGroups_loop {α β : Type} (p : β → State) {f : β → α → β} (hf : ∀ z a, SameGroups (p z) (p (f z a))) (l : List α) (z : β) :
    SameGroups (p z) (p (l.foldl f z)) := by
  induction l generalizing z with
  | nil => exact SameGroups.refl _
  | cons a rest ih => exact (hf z a).trans (ih _)

theorem sameGroups_foldl {α : Type} {f : State → α → State} (hf : ∀ s a, SameGroups s (f s a)) (l : List α) (s : State) :
    SameGroups s (l.foldl f s) := sameGroups_loop id hf l s

theorem sameGroups_updTile (s : State) (t : Nat) {f : Tile → Tile} (hf : ∀ x, (f x).groups = x.groups) : SameGroups s (s.updTile t f) := by
  refine ⟨fun u => ?_⟩
  by_cases e : u = t
  · subst e; rw [tile_updTile_self]; exact hf _
  · rw [tile_updTile_ne _ _ e]

/-! ## Accounting and the state behind the caches -/

theorem sameGroups_charge (s : State) (a : Nat) (c : Ctr) (n : Nat) : SameGroups s (s.charge a c n) := by
  unfold State.charge
  dsimp only
  split <;> exact ⟨fun _ => rfl⟩

theorem sameGroups_chargeBy (s : State) (w : Option Nat) (c : Ctr) (n : Nat) : SameGroups s (s.chargeBy w c n) := by
  unfold State.chargeBy
  split
  · exact sameGroups_charge ..
  · exact ⟨fun _ => rfl⟩

theorem sameGroups_countReq (s : State) (d : Nat) (l : Loc) : SameGroups s (s.countReq d l) := by
  unfold State.countReq
  split <;> exact ⟨fun _ => rfl⟩

theorem sameGroups_setBehind (s : State) (b : Behind) : SameGroups s (s.setBehind b) := ⟨fun _ => rfl⟩

theorem sameGroups_tagFalls (s : State) (n : Nat) : SameGroups s (s.tagFalls n) := sameGroups_setBehind ..

theorem sameGroups_fallBehind (s : State) (l : Loc) (m : BitVec 4) : SameGroups s (s.fallBehind l m) := by
  refine sameGroups_foldl (fun r n => ?_) _ _
  split
  · exact ⟨fun _ => rfl⟩
  · exact sameGroups_foldl (fun _ _ => sameGroups_tagFalls ..) _ _

theorem sameGroups_caughtUp (s : State) (l : Loc) (m : BitVec 4) : SameGroups s (s.caughtUp l m) := by
  refine sameGroups_foldl (fun r n => ?_) _ _
  split
  · exact ⟨fun _ => rfl⟩
  · exact sameGroups_foldl (fun _ _ => sameGroups_setBehind ..) _ _

/-! ## The shared cache -/

theorem sameGroups_l2 (s : State) (l : List Line) : SameGroups s { s with l2 := l } := ⟨fun _ => rfl⟩

theorem sameGroups_l2Insert (w : Option Nat) (k : Nat) (x : Line) (s : State) : SameGroups s (State.l2Insert w k x s) := by
  induction k generalizing x s with
  | zero => exact sameGroups_l2 ..
  | succ k ih =>
    unfold State.l2Insert
    dsimp only
    have evict (v : Line) (l : List Line) (n : Nat) : SameGroups s (({ s with l2 := l }.chargeBy w .wb n).caughtUp v.loc v.dirty) :=
      ((sameGroups_l2 s l).trans (sameGroups_chargeBy ..)).trans (sameGroups_caughtUp ..)
    refine sameGroups_ite (sameGroups_l2 ..) (sameGroups_ite (sameGroups_l2 ..) (sameGroups_ite ?_ (evict ..)))
    exact SameGroups.trans (sameGroups_ite ((evict ..).trans (sameGroups_chargeBy ..)) (evict ..)) (ih ..)

theorem sameGroups_l2Put (s : State) (w : Option Nat) (x : Line) : SameGroups s (s.l2Put w x) := sameGroups_l2Insert ..

theorem sameGroups_peatTouch (s : State) (w : Option Nat) (l : Loc) (d : Bool) : SameGroups s (s.peatTouch w l d) := by
  unfold State.peatTouch
  dsimp only
  exact sameGroups_ite (SameGroups.trans (sameGroups_ite (sameGroups_chargeBy ..) (.refl s)) (sameGroups_l2Put ..)) (.refl s)

theorem sameGroups_l2Move (s : State) (w : Option Nat) (l : Loc) : SameGroups s (s.l2Move w l) := by
  unfold State.l2Move
  refine sameGroups_ite (.refl s) ?_
  split
  · exact .refl s
  · exact sameGroups_ite (sameGroups_l2 ..)
      ((((sameGroups_l2 s _).trans (sameGroups_chargeBy ..)).trans (sameGroups_caughtUp ..)).trans (sameGroups_peatTouch ..))

theorem sameGroups_l2Serve (s : State) (w : Option Nat) (l : Loc) (m : BitVec 4) : SameGroups s (s.l2Serve w l m) := by
  unfold State.l2Serve
  dsimp only
  have moved := sameGroups_l2Move s w l
  exact sameGroups_ite (sameGroups_chargeBy ..) (sameGroups_ite (moved.trans (sameGroups_chargeBy ..))
    ((sameGroups_ite (moved.trans (sameGroups_chargeBy ..)) ((moved.trans (sameGroups_chargeBy ..)).trans (sameGroups_l2Put ..))).trans
      (sameGroups_peatTouch ..)))

theorem sameGroups_l2Dirty (s : State) (w : Option Nat) (l : Loc) (m : BitVec 4) : SameGroups s (s.l2Dirty w l m) := by
  unfold State.l2Dirty
  split
  · exact (sameGroups_fallBehind s l m).trans (sameGroups_l2 ..)
  · exact sameGroups_ite (.refl s)
      (SameGroups.trans (sameGroups_ite (sameGroups_foldl (fun _ _ => sameGroups_tagFalls ..) _ _) (.refl s)) (sameGroups_peatTouch ..))

theorem sameGroups_l2Accept (s : State) (w : Option Nat) (d : Nat) (y : Line) : SameGroups s (s.l2Accept w d y) := by
  unfold State.l2Accept
  dsimp only
  have counted := sameGroups_countReq s d y.loc
  have hit := (counted.trans (sameGroups_l2Move _ w y.loc)).trans (sameGroups_chargeBy _ w .hit 1)
  refine sameGroups_ite ((counted.trans (sameGroups_chargeBy ..)).trans (sameGroups_caughtUp ..)) ?_
  split
  · exact hit.trans (sameGroups_l2 ..)
  · exact sameGroups_ite ((hit.trans (sameGroups_caughtUp ..)).trans (sameGroups_peatTouch ..)) (hit.trans (sameGroups_l2Put ..))

/-! ## A tile's caches, and the walker -/

theorem sameGroups_l1 (s : State) (t : Nat) (f : Tile → List Line) : SameGroups s (s.updTile t fun y => { y with l1 := f y }) :=
  sameGroups_updTile s t fun _ => rfl

theorem sameGroups_l1Put (s : State) (w : Option Nat) (t : Nat) (x : Line) : SameGroups s (s.l1Put w t x) := by
  unfold State.l1Put
  dsimp only
  exact sameGroups_ite (sameGroups_l1 ..) (sameGroups_ite (sameGroups_l1 ..) ((sameGroups_l1 ..).trans (sameGroups_l2Accept ..)))

theorem sameGroups_l1Clean (s : State) (w : Option Nat) (t : Nat) (d : Bool) (n : Nat) : SameGroups s (s.l1Clean w t d n) := by
  unfold State.l1Clean
  split
  · exact .refl s
  · dsimp only
    exact sameGroups_ite (sameGroups_l1 ..) ((sameGroups_l1 ..).trans (sameGroups_l2Accept ..))

theorem sameGroups_recall (s : State) (w : Option Nat) (t : Nat) (l : Loc) (d : Bool) : SameGroups s (s.recall w t l d) :=
  sameGroups_foldl (fun r _ => sameGroups_ite (.refl r) (sameGroups_l1Clean ..)) _ _

theorem sameGroups_touchLine (s : State) (t a : Nat) (w : Bool) (l : Loc) (m : BitVec 4) : SameGroups s (s.touchLine t a w l m) := by
  unfold State.touchLine
  refine sameGroups_ite (.refl s) ?_
  dsimp only
  have fetched (b : Bool) : SameGroups s (if b then s else ((s.recall (some a) t l w).countReq (t / 32) l).l2Request a l m) :=
    sameGroups_ite (.refl s) (((sameGroups_recall ..).trans (sameGroups_countReq ..)).trans (sameGroups_l2Serve ..))
  exact sameGroups_ite (sameGroups_ite ((fetched _).trans (sameGroups_l2Dirty ..)) (fetched _))
    (SameGroups.trans (sameGroups_ite ((fetched _).trans (sameGroups_fallBehind ..)) (fetched _)) (sameGroups_l1Put ..))

theorem sameGroups_touch (s : State) (t a : Nat) (w : Bool) (ls : List (Loc × Nat)) : SameGroups s (s.touch t a w ls) :=
  sameGroups_foldl (fun _ _ => sameGroups_touchLine ..) _ _

theorem sameGroups_sliceLine (s : State) (w : Option Nat) (d : Bool) (l : Loc) (m : BitVec 4) : SameGroups s (s.sliceLine w d l m) := by
  unfold State.sliceLine
  have served := (sameGroups_recall s w noTile l d).trans (sameGroups_l2Serve _ w l m)
  exact sameGroups_ite (served.trans (sameGroups_l2Dirty ..)) served

theorem sameGroups_walkTouch (s : State) (a : Nat) (ls : List (Loc × Nat)) : SameGroups s (s.walkTouch a ls) :=
  sameGroups_foldl (fun _ _ => sameGroups_sliceLine ..) _ _

theorem sameGroups_cacheEntries (s : State) (es : List TEnt) : SameGroups s (s.cacheEntries es) := by
  refine sameGroups_foldl (fun r _ => ?_) _ _
  exact sameGroups_ite (.refl r) ⟨fun _ => rfl⟩

theorem sameGroups_noteLookup (s : State) (t a va : Nat) (w : Walk) : SameGroups s (s.noteLookup t a va w) := by
  unfold State.noteLookup
  dsimp only
  have missed := ((sameGroups_walkTouch s a (s.walkReads t a va w)).trans (sameGroups_cacheEntries _ w.read)).trans
    (sameGroups_charge _ a .tlbmiss 1)
  have walked := sameGroups_ite (p := s.l2TlbHit a va = true) missed (missed.trans (sameGroups_charge _ a .walk 1))
  exact sameGroups_ite (.refl s) (sameGroups_ite (walked.trans (sameGroups_updTile _ _ fun _ => rfl)) walked)

theorem sameGroups_translate (s : State) (t a : Nat) (k : AccKind) (pm : Nat → Bool) (vas : List (Nat × Nat)) :
    SameGroups s (s.translate t a k pm vas).2 := by
  refine sameGroups_loop Prod.snd (fun z q => ?_) vas ([], s)
  split
  · exact .refl _
  · exact sameGroups_noteLookup ..

end

end Sys2Proof.Proofs
end

section
/-! PROOF. Calls and returns whose slices spill and fill (O32, O33, O34). -/

namespace Sys2Proof.Proofs

open Sys2Proof.Machine Sys2Proof.Spec

/-! ## Slices that act in turn, once the pages of the beat are found -/

section
variable {s r r1 m : State} {t q : Nat} {l : List Nat} {ps : List BeatPage} {c : Ctx} {x y : Slice} {e e1 : RetEntry} {tr : Trap} {b : Nat}

theorem Going.of_sameGroups (hs : Going s t q l) (h : SameGroups s r) : Going r t q l := by
  obtain ⟨g, hg, hgo⟩ := hs
  exact ⟨g, (h.group? t q).trans hg, hgo⟩

theorem Going.push (hs : Going s t q l) (a : SqKind) : Going (s.push t q a) t q l := hs.updGroup fun _ hg => hg

theorem sameGroups_consume (s : State) (t : Nat) (g : Group) (n : Nat) (bad : List (LaneReq × Loc)) : SameGroups s (s.consume t g n bad).1 :=
  ⟨fun _ => rfl⟩

/-- A push leaves the slices of the group as they were, and gives its slice on the way. -/
theorem going_of_pushRet (hr : Going r c.t c.slot l) (h : r.pushRet ps c x e = .done r1 y e1) : Going r1 c.t c.slot l ∧ y.wait = x.wait := by
  unfold State.pushRet at h
  dsimp only at h
  repeat' split at h
  all_goals cases h
  · exact ⟨hr, rfl⟩
  · exact ⟨hr.push _, by simp⟩

theorem going_of_pushRet_trap (hr : Going r c.t c.slot l) (h : r.pushRet ps c x e = .trap r1 tr b) : Going r1 c.t c.slot l := by
  unfold State.pushRet at h
  dsimp only at h
  repeat' split at h
  all_goals cases h
  · exact hr
  · exact hr
  · exact hr.of_sameGroups (sameGroups_consume ..)

theorem going_of_popRet (hr : Going r c.t c.slot l) (h : r.popRet ps c x = .done r1 y e) : Going r1 c.t c.slot l ∧ y.wait = x.wait := by
  unfold State.popRet at h
  dsimp only at h
  repeat' split at h
  all_goals cases h
  · exact ⟨hr, rfl⟩
  · exact ⟨hr.of_sameGroups (sameGroups_touch ..), by simp⟩

theorem going_of_popRet_trap (hr : Going r c.t c.slot l) (h : r.popRet ps c x = .trap r1 tr b) : Going r1 c.t c.slot l := by
  unfold State.popRet at h
  dsimp only at h
  repeat' split at h
  all_goals cases h
  · exact hr
  · exact hr
  · exact hr.of_sameGroups (sameGroups_consume ..)

/-- A turn leaves no slice to execute its instruction again. -/
def GoesOn (l : List Nat) (c : Ctx) (r : State) (p : State × Option Trap) : Prop := Going r c.t c.slot l → Going p.1 c.t c.slot l

theorem goesOn_put {r0 : State} (h : Going r0 c.t c.slot l → Going r c.t c.slot l) (hy : y.wait = .run) : GoesOn l c r0 (put r c y, none) :=
  fun hr => (h hr).setSlice c.i (by rw [hy]; rfl)

theorem goesOn_of_pushTurn {flag : Bool} {f : Slice → Slice} {p : State × Option Trap} (h : pushTurn ps r c x flag f = some p)
    (hf : ∀ y, (f y).wait = y.wait) (hx : x.wait = .run) : GoesOn l c r p := by
  unfold pushTurn at h
  intro hr
  cases hpush : r.pushRet ps c x { addr := x.pc + 8, flag := flag } with
  | done r1 y e =>
    simp only [hpush, Option.some.injEq] at h
    obtain ⟨hr1, hy⟩ := going_of_pushRet hr hpush
    exact h ▸ goesOn_put (fun _ => hr1) ((hf y).trans (hy.trans hx)) hr
  | trap r1 tr b =>
    simp only [hpush, Option.some.injEq] at h
    exact h ▸ going_of_pushRet_trap hr hpush
  | wait r1 =>
    simp only [hpush] at h
    exact nomatch h

theorem goesOn_of_retTurn {p : State × Option Trap} (hr1 : Going r c.t c.slot l → Going r1 c.t c.slot l) (hy : y.wait = .run)
    (h : retTurn r r1 c x y e = some p) : GoesOn l c r p := by
  unfold retTurn at h
  repeat' split at h
  all_goals obtain rfl := Option.some.inj h
  · exact goesOn_put hr1 hy
  · exact id
  · exact id
  · exact goesOn_put hr1 hy

theorem goesOn_of_popTurn {p : State × Option Trap} (hx : x.wait = .run) (h : popTurn ps r c x = some p) : GoesOn l c r p := by
  unfold popTurn at h
  intro hr
  cases hpop : r.popRet ps c x with
  | done r1 y e =>
    simp only [hpop] at h
    obtain ⟨hr1, hy⟩ := going_of_popRet hr hpop
    exact goesOn_of_retTurn (fun _ => hr1) (hy.trans hx) h hr
  | trap r1 tr b =>
    simp only [hpop, Option.some.injEq] at h
    exact h ▸ going_of_popRet_trap hr hpop
  | wait r1 =>
    simp only [hpop] at h
    exact nomatch h

theorem goesOn_of_calliTurn {i : Instr} {none_ : Bool} {lanes : BitVec 4} {dest : DWord} {p : State × Option Trap} (hx : x.wait = .run)
    (h : calliTurn i ps r c x none_ lanes dest = some p) : GoesOn l c r p := by
  unfold calliTurn at h
  repeat' split at h
  case h_1 => exact Option.some.inj h ▸ id
  case h_2.isTrue | isFalse.isTrue => exact Option.some.inj h ▸ goesOn_put id hx
  all_goals exact goesOn_of_pushTurn h (fun _ => rfl) hx

/-- A call or return leaves no slice to execute it again. -/
theorem goesOn_of_callTurn {i : Instr} {p : State × Option Trap} (hx : x.wait = .run) (h : callTurn i ps r c x = some p) :
    GoesOn l c r p := by
  cases i with
  | call hd t =>
    rw [callTurn_call] at h
    split_ifs at h
    · exact goesOn_of_pushTurn h (fun _ => rfl) hx
    · exact Option.some.inj h ▸ goesOn_put id hx
  | ret hd =>
    rw [callTurn_ret] at h
    split_ifs at h
    · exact goesOn_of_popTurn hx h
    · exact Option.some.inj h ▸ goesOn_put id hx
  | calli hd a =>
    cases hodd : oddTargets hd a c x with
    | nil => exact goesOn_of_calliTurn hx (callTurn_calli hodd ▸ h)
    | cons k rest =>
      rw [callTurn_calli_of_odd hodd] at h
      exact Option.some.inj h ▸ id
  | _ => exact nomatch h

/-- The same of all the turns of a beat. -/
theorem going_of_inTurns {f : State → Nat → Option (State × Option Trap)} {js : List Nat} {trs : List (Nat × Trap)}
    (hf : ∀ k ∈ js, ∀ r p, f r k = some p → Going r t q l → Going p.1 t q l) (hs : Going s t q l) (h : inTurns f s js = some (m, trs)) :
    Going m t q l := by
  induction js generalizing s trs with
  | nil =>
    obtain ⟨rfl, rfl⟩ := Prod.mk.inj (Option.some.inj h)
    exact hs
  | cons k js ih =>
    have hrest : ∀ j ∈ js, ∀ r p, f r j = some p → Going r t q l → Going p.1 t q l := fun j hj => hf j (List.mem_cons_of_mem _ hj)
    unfold inTurns at h
    cases hk : f s k with
    | none => simp only [hk] at h; exact nomatch h
    | some p =>
      have hp := hf k List.mem_cons_self s p hk hs
      obtain ⟨r, tr⟩ := p
      cases tr with
      | none =>
        simp only [hk] at h
        exact ih hrest hp h
      | some tr =>
        simp only [hk, Option.map_eq_some_iff] at h
        obtain ⟨⟨m1, tl⟩, htl, heq⟩ := h
        obtain ⟨rfl, rfl⟩ := Prod.mk.inj heq
        exact ih hrest hp htl

end

section
variable {s m : State} {i : Instr} {g : Group} {l : List Nat} {c : UClass} {cost : Nat} {trs : List (Nat × Trap)}

/-- The pages that a beat has found, none of them with a cause. -/
theorem translate_of_beatPages {t : Nat} {kind : AccKind} {nr : Bool} {rs : List LaneReq} {p : List BeatPage × State}
    (h : s.beatPages t g kind nr rs = .ok p) :
    s.translate t g.asid kind (fun lane => (g.slice (lane / 4)).pm) (rs.map fun r => (r.lane, r.va)) = p := by
  unfold State.beatPages at h
  dsimp only at h
  split at h
  · exact Except.ok.inj h
  · exact nomatch h

/-- A beat of accesses beside its instruction whose slices each have a turn. -/
theorem parted_of_turns {kind : AccKind} {reqs : Ctx → Slice → List LaneReq}
    {F : List BeatPage → State → Ctx → Slice → State × Option (Trap × Nat)} {f : List BeatPage → State → Ctx → Slice → SliceTurn}
    (hruns : RunsBeside i kind reqs F) (hF : ∀ ps r e x p, f ps r e x = some p → F ps r e x = turnRes p)
    (hgo : ∀ ps r e x p, x.wait = .run → f ps r e x = some p → GoesOn l e r p) (hI : Issues s i g l c cost)
    (h : turns i s g l f = some (m, trs)) : Parted s i g l cost m trs := by
  unfold turns at h
  rw [hruns.1] at h
  dsimp only at h
  split_ifs at h with hstops
  cases hpages : s.beatPages s.focus.tile g kind false (beatReqs s s.focus.tile s.focus.slot g l reqs) with
  | error err => simp only [hpages] at h; exact nomatch h
  | ok p =>
    simp only [hpages] at h
    have hsame : SameGroups s p.2 := translate_of_beatPages hpages ▸ sameGroups_translate ..
    have hg2 : p.2.group? s.focus.tile s.focus.slot = some g := (hsame.group? ..).trans hI.here
    have hgoing : Going m s.focus.tile s.focus.slot l :=
      going_of_inTurns (fun k hk r b hb => hgo p.1 r (ctxOf p.2 s.focus.tile s.focus.slot g k) _ b (hI.ready k hk) hb)
        ((going_of_toIssue hI.toToIssue).of_sameGroups hsame) h
    refine parted_of_issues hI (hruns.2 s) ?_ hgoing
    unfold accessBeat
    rw [hI.here]
    dsimp only
    rw [lookBeat_of_not_lookStops (Bool.eq_false_iff.mpr hstops), hpages]
    exact eachSlice_parts hg2 (fun k hk r p hp => hF _ _ _ _ _ hp) h

/-- An instruction whose every turn waits has none. -/
theorem turns_eq_none {f : List BeatPage → State → Ctx → Slice → SliceTurn} (hf : ∀ ps r e x, f ps r e x = none) (hl : l ≠ []) :
    turns i s g l f ≠ some (m, trs) := by
  obtain ⟨k, rest, rfl⟩ := List.exists_cons_of_ne_nil hl
  have hnone (ps : List BeatPage) (s0 s1 : State) : inTurns (fun r k => f ps r (ctxOf s0 s.focus.tile s.focus.slot g k) (g.slice k)) s1 (k :: rest) = none := by
    unfold inTurns
    rw [hf]
  unfold turns
  dsimp only
  split
  · rw [hnone]; exact nofun
  · split_ifs
    · exact nofun
    · split
      · rw [hnone]; exact nofun
      · exact nofun

theorem callTurn_eq_none (hi : isCall i = false) (ps : List BeatPage) (r : State) (e : Ctx) (x : Slice) : callTurn i ps r e x = none := by
  cases i with
  | call | ret | calli => exact nomatch hi
  | _ => rfl

/-- Settles O32: the turn of each slice is what the beat carries out, once its pages are found. -/
theorem callsComplete : Obligations.CallsComplete := by
  intro s i g l c cost m trs hI h
  cases hi : isCall i with
  | false => exact absurd h (turns_eq_none (callTurn_eq_none hi) hI.some_)
  | true =>
    obtain ⟨kind, reqs, hruns⟩ := exists_runsBeside_of_isCall hi
    exact parted_of_turns hruns (fun _ _ _ _ _ => stackAct_of_callTurn) (fun _ _ _ _ _ => goesOn_of_callTurn) hI h

/-- The guard selects a lane in which the instruction is performed. -/
theorem performs_iff {e : Ctx} {x : Slice} {h : Hdr} : e.performs x h = true ↔ e.guarded x h ≠ [] := by
  unfold Ctx.performs
  rw [Bool.not_eq_true', List.isEmpty_eq_false_iff]

/-- Settles O33: the statement's turn is CALL's own. -/
theorem callPushesAndJumps : Obligations.CallPushesAndJumps := by
  intro h t
  refine ⟨rfl, fun s g l c cost m trs hI hm => ?_⟩
  refine callsComplete s (.call h t) g l c cost m trs hI (Eq.trans ?_ hm)
  refine congrArg (turns (.call h t) s g l) (funext fun ps => funext fun r => funext fun e => funext fun x => ?_)
  rw [callTurn_call]
  exact if_congr performs_iff rfl rfl

/-- Settles O34: the statement's turn is RET's own. -/
theorem returnFromCall : Obligations.ReturnFromCall := by
  intro h
  refine ⟨rfl, fun s g l c cost m trs hI hm => ?_⟩
  refine callsComplete s (.ret h) g l c cost m trs hI (Eq.trans ?_ hm)
  refine congrArg (turns (.ret h) s g l) (funext fun ps => funext fun r => funext fun e => funext fun x => ?_)
  rw [callTurn_ret]
  refine if_congr performs_iff ?_ rfl
  unfold popTurn retTurn
  cases r.popRet ps e x with
  | done r1 y a => cases hf : a.flag <;> cases hd : x.div <;> simp [hf]
  | trap r1 tr b => rfl
  | wait r1 => rfl

end

end Sys2Proof.Proofs
end

section
/-! PROOF. A beat that finds a page with a cause (O19): every beat that looks pages up, of a memory instruction or beside one, ends in the
fault that its pages give. -/

namespace Sys2Proof.Proofs

open Sys2Proof.Machine Sys2Proof.Spec

section
variable {s : State} {i : Instr} {g : Group} {l : List Nat} {c : UClass} {cost t q : Nat} {kind : AccKind} {nr : Bool} {rs : List LaneReq}

/-- A fault as the beat's answer: every slice takes its trap, with its records' beat number. -/
def faultedBeat (l : List Nat) (e : State × Trap × Nat) : BeatRes := (e.1, trapAll l e.2.1 e.2.2)

theorem formBeat_of_fault {F : MemForm} {act : State → List BeatPage → BeatRes} {e : State × Trap × Nat} (hglob : F.glob = true)
    (htrap : memTrap F s t q g l = none) (hstops : lookStops s t g (beatReqs s t q g l F.reqs) = false)
    (h : s.beatPages t g F.kind F.nr (beatReqs s t q g l F.reqs) = .error e) : formBeat F s t q g l act = faultedBeat l e := by
  obtain ⟨halign, hchk, -⟩ := checks_eq_none_of_memTrap htrap
  unfold formBeat globalBeat
  simp only [hglob, if_true, halign, hchk]
  rw [lookBeat_of_not_lookStops hstops, h]
  rfl

theorem accessBeat_of_fault {reqs : Ctx → Slice → List LaneReq} {f : List BeatPage → State → Ctx → Slice → State × Option (Trap × Nat)}
    {e : State × Trap × Nat} (hg : s.group? t q = some g) (hstops : lookStops s t g (beatReqs s t q g l reqs) = false)
    (h : s.beatPages t g kind false (beatReqs s t q g l reqs) = .error e) : accessBeat t q kind reqs f c s l = faultedBeat l e := by
  unfold accessBeat
  rw [hg]
  dsimp only
  rw [lookBeat_of_not_lookStops hstops, h]
  rfl

/-- The accesses for which pages are found are those of a memory instruction whose checks pass, or those beside one. -/
theorem pagedReqs_cases (h : pagedReqs i s t q g l = some (kind, nr, rs)) :
    (∃ F, memForm i = some F ∧ F.glob = true ∧ memTrap F s t q g l = none ∧ F.kind = kind ∧ F.nr = nr ∧ beatReqs s t q g l F.reqs = rs) ∨
      ∃ reqs, besides i = some (kind, reqs) ∧ false = nr ∧ beatReqs s t q g l reqs = rs := by
  unfold pagedReqs at h
  split at h
  next F hF =>
    obtain ⟨hchecked, h⟩ := Option.ite_none_right_eq_some.1 h
    obtain ⟨hglob, htrap⟩ := Bool.and_eq_true_iff.mp hchecked
    obtain ⟨rfl, rfl, rfl⟩ : F.kind = kind ∧ F.nr = nr ∧ beatReqs s t q g l F.reqs = rs := by simpa using h
    exact .inl ⟨F, hF, hglob, Option.isNone_iff_eq_none.mp htrap, rfl, rfl, rfl⟩
  next k reqs _ hbesides =>
    obtain ⟨rfl, rfl, rfl⟩ : k = kind ∧ false = nr ∧ beatReqs s t q g l reqs = rs := by simpa using h
    exact .inr ⟨reqs, hbesides, rfl, rfl⟩
  next => exact nomatch h

/-- Every slice of such a beat takes the fault of its pages. -/
theorem trapsIn_of_fault {e : State × Trap × Nat} (hI : Issues s i g l c cost)
    (hrs : pagedReqs i s s.focus.tile s.focus.slot g l = some (kind, nr, rs)) (hstops : lookStops s s.focus.tile g rs = false)
    (h : s.beatPages s.focus.tile g kind nr rs = .error e) : TrapsIn s (afterBeat i s e.1) i l (fun _ => e.2.1) e.2.2 := by
  rcases pagedReqs_cases hrs with ⟨F, hF, hglob, htrap, rfl, rfl, rfl⟩ | ⟨reqs, hbesides, rfl, rfl⟩
  · obtain ⟨plan, act, hform⟩ := exists_runsForm hF
    refine trapsIn_of_plan hI (hform.runs s) ?_
    rw [hform.after]
    exact (hform.form _ _ _ _ _ _ hI.here).trans (formBeat_of_fault hglob htrap hstops h)
  · obtain ⟨plan, f, hacc⟩ := exists_runsAccess hbesides
    refine trapsIn_of_plan hI (hacc.runs s) ((hacc.access c s l).trans ?_)
    rw [accessBeat_of_fault hI.here hstops h]
    rfl

/-- The trap of a fault, as the statement has it. -/
theorem pageTrap_cons (b : BeatPage) (rest : List BeatPage) :
    pageTrap kind rs (b :: rest) =
      { mkTrap (if b.page.cause = 1 ∨ b.page.cause = 2 ∨ kind = .cctl then 0x08 else 0x09) 0 with
        lanes := some (laneMask ((rs.filter fun r =>
          (b :: rest).any fun q => decide (q.page.base ≤ r.va) && decide (r.va < q.page.base + 2 ^ q.page.bits_)).map LaneReq.lane)),
        aux0 := BitVec.ofNat 64 b.va, aux1 := packBits [(rest.length + 1, 8), (b.page.cause, 0)] } := by
  unfold pageTrap causeVec
  simp [or_assoc]

end

/-- Settles O19: the fault of the beat's pages is the statement's, record for record. -/
theorem pagesFaultTheBeat : Obligations.PagesFaultTheBeat := by
  intro s i g l c cost kind nr rs hI hrs hstops p b rest hbad
  have hpages : s.beatPages s.focus.tile g kind nr rs = .error (p.2.pageFault s.focus.tile g kind rs (b :: rest)) := by
    unfold State.beatPages
    dsimp only
    rw [hbad]
  have h := trapsIn_of_fault hI hrs hstops hpages
  rw [State.pageFault, pageTrap_cons] at h
  exact h

end Sys2Proof.Proofs
end

section
/-! SUPPORT. What an arrival at a rendezvous point leaves of its group: the same live slices, sound where they were. -/

namespace Sys2Proof.Proofs

open Sys2Proof.Machine Sys2Proof.Spec

/-! ## The live slices of a group -/

theorem exists_mem_cons_iff {α : Type} {p : α → Bool} {k m : Nat} {y : α} {t : Sparse α} :
    (∃ z, (k, z) ∈ (m, y) :: t ∧ p z = true) ↔ (k = m ∧ p y = true) ∨ ∃ z, (k, z) ∈ t ∧ p z = true := by
  simp only [List.mem_cons, Prod.mk.injEq, or_and_right, exists_or]
  refine or_congr ⟨?_, ?_⟩ Iff.rfl
  · rintro ⟨z, ⟨hk, rfl⟩, hz⟩
    exact ⟨hk, hz⟩
  · rintro ⟨hk, hy⟩
    exact ⟨y, ⟨hk, rfl⟩, hy⟩

/-- An entry written over one of which `p` holds just as much leaves the indexes at which `p` holds. -/
theorem exists_mem_insert_iff {α : Type} {p : α → Bool} {d x : α} (hd : p d = false) {k n : Nat} :
    ∀ {t : Sparse α}, p x = p (Sparse.get d t n) → ((∃ y, (k, y) ∈ Sparse.insert t n x ∧ p y = true) ↔ ∃ y, (k, y) ∈ t ∧ p y = true)
  | [], hx => by
    have hx' : p x = false := hx.trans hd
    simp [Sparse.insert, hx']
  | (m, y) :: t, hx => by
    have hget := hx
    unfold Sparse.get at hx
    unfold Sparse.insert
    by_cases hmn : m = n
    · rw [if_pos hmn] at hx
      rw [if_pos hmn, exists_mem_cons_iff, exists_mem_cons_iff, hx, hmn]
    · rw [if_neg hmn] at hx ⊢
      split
      · rw [exists_mem_cons_iff (y := x)]
        refine ⟨?_, .inr⟩
        rintro (⟨rfl, hpx⟩ | h)
        · refine ⟨_, mem_of_get_ne (d := d) fun e => ?_, hget ▸ hpx⟩
          rw [hget, e, hd] at hpx
          exact nomatch hpx
        · exact h
      · rw [exists_mem_cons_iff, exists_mem_cons_iff, exists_mem_insert_iff hd hx]

section
variable {g a b c : Group} {k j : Nat} {x : Slice} {l : List Nat}

theorem mem_liveIdx_iff : k ∈ g.liveIdx ↔ ∃ x, (k, x) ∈ g.slices ∧ x.live = true := by
  simp only [Group.liveIdx, List.mem_map, List.mem_filter, Prod.exists]
  constructor
  · rintro ⟨n, x, hx, rfl⟩
    exact ⟨x, hx⟩
  · rintro ⟨x, hx⟩
    exact ⟨k, x, hx, rfl⟩

/-- `b` lists the live slices of `a`, each slice lives in `b` as in `a`, and `b` is sound where `a` is. -/
structure SameLive (a b : Group) : Prop where
  listed : ∀ k, k ∈ b.liveIdx ↔ k ∈ a.liveIdx
  live : ∀ k, (b.slice k).live = (a.slice k).live
  sound : a.sound = true → b.sound = true

theorem SameLive.refl (g : Group) : SameLive g g := ⟨fun _ => Iff.rfl, fun _ => rfl, id⟩

theorem SameLive.trans (h : SameLive a b) (h' : SameLive b c) : SameLive a c :=
  ⟨fun k => (h'.listed k).trans (h.listed k), fun k => (h'.live k).trans (h.live k), fun hs => h'.sound (h.sound hs)⟩

theorem sameLive_setSlice (hlive : x.live = (g.slice j).live) (hsound : (g.slice j).sound = true → x.sound = true) :
    SameLive g (g.setSlice j x) := by
  refine ⟨fun k => ?_, fun k => ?_, fun hg => sound_setSlice hg j (hsound (sound_slice hg j))⟩
  · rw [mem_liveIdx_iff, mem_liveIdx_iff]
    exact exists_mem_insert_iff (d := Slice.absent) rfl hlive
  · by_cases e : k = j
    · rw [e, slice_setSlice_self, hlive]
    · rw [slice_setSlice_ne _ _ e]

/-- A loop whose every turn keeps the live slices. -/
theorem sameLive_foldl {α : Type} {f : Group → α → Group} (hf : ∀ g a, SameLive g (f g a)) (js : List α) (g : Group) :
    SameLive g (js.foldl f g) := by
  induction js generalizing g with
  | nil => exact .refl g
  | cons j js ih => exact (hf g j).trans (ih _)

theorem sameLive_setGang (g : Group) (js : List Nat) : SameLive g (g.setGang js) := by
  refine sameLive_foldl (fun r k => ?_) _ _
  exact sameLive_setSlice rfl id

theorem sameLive_splitGang (g : Group) (l : List Nat) : SameLive g (g.splitGang l) := by
  unfold Group.splitGang
  refine .trans (sameLive_foldl (fun r k => ?_) _ _) (sameLive_foldl (fun r k => ?_) _ _)
  · exact sameLive_setGang _ _
  · exact sameLive_setGang _ _

theorem sound_ite_wake (c : Prop) [Decidable c] (x : Slice) : (if c then x.wake else x).sound = x.sound := by
  unfold Slice.wake
  split
  · split
    · rfl
    · rfl
  · rfl

theorem sound_finish (x old : Slice) (g : Group) (i : Instr) : (x.finish old g i).sound = x.sound := by
  unfold Slice.finish
  by_cases hr : x.wait.retries = true
  · rw [if_pos hr]
    rfl
  · rw [if_neg hr]
    exact sound_ite_wake _ _

theorem sameLive_drainLive (g : Group) (s : State) : SameLive g (g.drainLive s) := by
  unfold Group.drainLive
  refine sameLive_foldl (fun r k => ?_) _ _
  exact sameLive_setSlice (drained_live_div ..).1 (sound_drained s _)

end

/-! ## The group after an arrival -/

section
variable {s m : State} {i j : Instr} {t q : Nat} {g : Group} {l : List Nat}

/-- The group in the slot has the live slices of `g`. -/
def Holds (g : Group) (t q : Nat) (m : State) : Prop := ∃ b, m.group? t q = some b ∧ SameLive g b

theorem Holds.updGroup (h : Holds g t q m) {f : Group → Group} (hf : ∀ b, SameLive b (f b)) : Holds g t q (m.updGroup t q f) := by
  obtain ⟨b, hb, hgb⟩ := h
  rw [updGroup_eq hb]
  exact ⟨_, group?_setGroup_self _ _ _ _, hgb.trans (hf b)⟩

theorem Holds.updTile (h : Holds g t q m) {f : Tile → Tile} (hf : ∀ x, (f x).groups = x.groups) : Holds g t q (m.updTile t f) := by
  obtain ⟨b, hb, hgb⟩ := h
  exact ⟨b, (group?_updTile _ _ (hf _) q).trans hb, hgb⟩

/-- Slices that live on, no less sound. -/
theorem Holds.foldl_updSlice {f : Nat → Slice → Slice} (hlive : ∀ k x, (f k x).live = x.live) (hsound : ∀ k x, (f k x).sound = x.sound)
    (ks : List Nat) (h : Holds g t q m) : Holds g t q (ks.foldl (fun r k => r.updSlice t q k (f k)) m) := by
  induction ks generalizing m with
  | nil => exact h
  | cons k ks ih =>
    refine ih ?_
    exact h.updGroup fun b => sameLive_setSlice (hlive _ _) fun hs => (hsound _ _).trans hs

theorem Holds.fresh (h : Holds g t q m) : Holds g t q m.fresh := h

/-- Slices that settle after a beat. -/
theorem Holds.settled (h : Holds g t q m) (rs ks : List Nat) :
    Holds g t q (((ks.foldl (fun r k => r.updSlice t q k fun x => x.finish (g.slice k) g i) m).updTile t
      fun x => x.touchLatch (q / 16) g rs).updGroup t q fun b => b.splitGang ks) := by
  have hfinish := h.foldl_updSlice (f := fun k x => x.finish (g.slice k) g i) (fun k x => (finish_live_div x (g.slice k) g i).1)
    (fun k x => sound_finish x (g.slice k) g i) ks
  refine (hfinish.updTile fun x => ?_).updGroup fun b => sameLive_splitGang b ks
  rw [touchLatch_near]

/-- A beat none of whose slices traps keeps the live slices that its plan leaves. -/
theorem holds_beat {c : UClass} {cost : Nat} {plan : Plan} (hl : l ≠ []) (hcalm : ∀ k ∈ l, (g.slice k).asyncNow = none)
    (hclear : ∀ k ∈ l, s.preTrap g (g.slice k) i = none) (hm : plan c s l = (m, [])) (h : Holds g t q m) :
    Holds g t q (s.beat t q g l i c cost plan) := by
  have hnow : (l.filter fun k => (g.slice k).asyncNow.isSome) = [] :=
    List.filter_eq_nil_iff.mpr fun k hk => by simp [hcalm k hk]
  have hlater : (l.filter fun k => !(g.slice k).asyncNow.isSome) = l :=
    List.filter_eq_self.mpr fun k hk => by simp [hcalm k hk]
  have hpre : (l.map fun k => (k, s.preTrap g (g.slice k) i)) = l.map fun k => (k, none) :=
    List.map_congr_left fun k hk => by rw [hclear k hk]
  have hok : ((l.map fun k => (k, (none : Option Trap))).filter fun p => p.2.isNone).map Prod.fst = l := by
    simp [List.filter_map, Function.comp_def]
  have hbad : ((l.map fun k => (k, (none : Option Trap))).filterMap fun p => p.2.map fun tr => (p.1, tr, 0)) = [] :=
    filterMap_none fun p hp => by
      obtain ⟨k, -, rfl⟩ := List.mem_map.mp hp
      rfl
  have hne : ¬ l.isEmpty = true := by simpa using hl
  unfold State.beat
  simp only [hnow, hlater, hpre, hok, hbad, if_neg hne, hm, List.append_nil, List.foldl_nil]
  refine (Holds.settled ?_ _ _).fresh
  split
  · exact h.updTile fun _ => rfl
  · exact h

/-- A slice that comes to a rendezvous point, before it settles. -/
def parked (j : Instr) (x : Slice) : Slice := { x with wait := .rdv j, parkPc := x.pc, newRun := true, wset := 0 }

theorem arrivePlan_eq (t q : Nat) (j : Instr) (c : UClass) (s : State) (l : List Nat) :
    arrivePlan t q j c s l = (l.foldl (fun r k => r.updSlice t q k (parked j)) s, []) := rfl

end

end Sys2Proof.Proofs
end

section
/-! PROOF. What each collective does to a group that has met: its trap, or its result, as its rule has it (O23, O25). -/

namespace Sys2Proof.Proofs

open Sys2Proof.Machine Sys2Proof.Spec

/-! ## A group that waits at its collective -/

section
variable {g : Group} {k : Nat}

theorem headD_liveIdx_mem (h : g.liveIdx ≠ []) : g.liveIdx.headD 0 ∈ g.liveIdx := by
  obtain ⟨k, ks, hk⟩ := List.exists_cons_of_ne_nil h
  rw [hk]
  exact List.mem_cons_self

theorem sameLive_standBy (g : Group) (w : Wait) : SameLive g (standBy g w) := by
  unfold standBy
  refine sameLive_foldl (fun r k => ?_) _ _
  exact sameLive_setSlice rfl id

/-- Every live slice of a group that stands by waits. -/
theorem wait_standBy (w : Wait) (hk : k ∈ (standBy g w).liveIdx) : ((standBy g w).slice k).wait = w := by
  have fold (js : List Nat) (r : Group) (h : k ∈ js ∨ (r.slice k).wait = w) :
      ((js.foldl (fun r k => r.setSlice k { r.slice k with wait := w, parkPc := (r.slice k).pc }) r).slice k).wait = w := by
    induction js generalizing r with
    | nil => exact h.resolve_left List.not_mem_nil
    | cons j js ih =>
      refine ih _ ?_
      by_cases e : k = j
      · right
        rw [e, slice_setSlice_self]
      · rw [slice_setSlice_ne _ _ e]
        exact h.imp_left fun h => (List.mem_cons.1 h).resolve_left e
  exact fold _ _ (.inl (((sameLive_standBy g w).listed k).1 hk))

theorem wait_leader_standBy (w : Wait) (h : g.liveIdx ≠ []) : (standBy g w).leader.wait = w := by
  obtain ⟨k, hk⟩ := List.exists_mem_of_ne_nil _ h
  exact wait_standBy w (headD_liveIdx_mem (List.ne_nil_of_mem (((sameLive_standBy g w).listed k).2 hk)))

end

/-! ## What a collective does once its group has met -/

/-- The meaning of each collective, of the fields that the machine keeps. -/
def bodyOf (i : Instr) : Coll :=
  match i with
  | .regang _ => regangColl i
  | .setw _ lo _ e => setwColl i lo e
  | .attach _ role a b => attachColl i role a b
  | .detach _ cond => detachColl i cond
  | .mma .. | .mzero .. | .mld .. | .mst .. | .mscl .. => mxColl i
  | _ => crossColl i

section
variable {s r : State} {i : Instr} {t q : Nat} {g : Group} {tr : Trap}

theorem runColl_of_collective (hi : isCollective i = true) (s : State) :
    ∃ issue, exec i s = runColl s (withHint 0 i) (bodyOf (withHint 0 i)) issue := by
  unfold isCollective at hi
  split at hi
  case h_20 => exact nomatch hi
  all_goals exact ⟨_, rfl⟩

/-! The hint of a collective decides nothing (05 R93). -/

theorem isCollective_withHint (hi : isCollective i = true) : isCollective (withHint 0 i) = true := by
  unfold isCollective at hi
  split at hi
  case h_20 => exact nomatch hi
  all_goals rfl

theorem preTrap_withHint (hi : isCollective i = true) (x : Slice) : s.preTrap g x (withHint 0 i) = s.preTrap g x i := by
  unfold isCollective at hi
  split at hi
  case h_20 => exact nomatch hi
  all_goals rfl

theorem finish_withHint (hi : isCollective i = true) (x old : Slice) : x.finish old g (withHint 0 i) = x.finish old g i := by
  unfold isCollective at hi
  split at hi
  case h_20 => exact nomatch hi
  all_goals rfl

theorem collectiveTrap_withHint (hi : isCollective i = true) : collectiveTrap (withHint 0 i) s t g = collectiveTrap i s t g := by
  unfold isCollective at hi
  split at hi
  case h_20 => exact nomatch hi
  all_goals rfl

/-! The checks. -/

/-- A collective whose operands do not pass decode raises ILLEGAL; the matrix unit checks them in its own order. -/
theorem collectiveTrap_of_illegal (h : (!Instr.isMatrix i && !g.leader.legal g.allot i) = true) :
    collectiveTrap i s t g = some (illegal 0) := by
  obtain ⟨hmx, hill⟩ := Bool.and_eq_true_iff.1 h
  unfold collectiveTrap
  simp only [Bool.not_eq_true'] at hmx
  simp only [hmx, hill, if_true, Bool.false_eq_true, if_false]

/-- What a collective does to its group agrees with its rule: a trap, or a result. -/
structure Meets (i : Instr) (s : State) (t q : Nat) (g : Group) : Prop where
  traps : ∀ tr, collectiveTrap i s t g = some tr → bodyOf i s t q = .error tr
  completes : ∀ r, collective i s t q g = some r → bodyOf i s t q = .ok r

theorem meets_of_trap (ht : collectiveTrap i s t g = some tr) (hb : bodyOf i s t q = .error tr) : Meets i s t q g := by
  refine ⟨fun tr' h => ?_, fun r h => ?_⟩
  · obtain rfl := Option.some.inj (ht.symm.trans h)
    exact hb
  · unfold collective at h
    rw [ht] at h
    exact nomatch h

theorem meets_of_result (ht : collectiveTrap i s t g = none) (hb : ∀ r, collective i s t q g = some r → bodyOf i s t q = .ok r) :
    Meets i s t q g :=
  ⟨fun _ h => (nomatch ht.symm.trans h), hb⟩

/-! Cross-lane instructions raise nothing of their own, and are presented. -/

theorem collectiveTrap_of_isCross (hi : Instr.isCross i = true) (hlegal : g.leader.legal g.allot i = true) :
    collectiveTrap i s t g = none := by
  unfold Instr.isCross at hi
  split at hi
  case h_11 => exact nomatch hi
  all_goals
    unfold collectiveTrap
    rw [hlegal]
    rfl

theorem collective_of_isCross (hi : Instr.isCross i = true) (ht : collectiveTrap i s t g = none) :
    collective i s t q g = some (s.updGroup t q fun g => standBy g (.present i)) := by
  unfold Instr.isCross at hi
  split at hi
  case h_11 => exact nomatch hi
  all_goals
    unfold collective
    rw [ht]
    rfl

theorem bodyOf_of_isCross (hi : Instr.isCross i = true) : bodyOf i s t q = .ok (s.updGroup t q fun g => standBy g (.present i)) := by
  unfold Instr.isCross at hi
  split at hi
  case h_11 => exact nomatch hi
  all_goals rfl

theorem meets_of_isCross (hi : Instr.isCross i = true) (hlegal : g.leader.legal g.allot i = true) : Meets i s t q g := by
  have ht := collectiveTrap_of_isCross (s := s) (t := t) hi hlegal
  refine meets_of_result ht fun r hr => ?_
  obtain rfl := Option.some.inj ((collective_of_isCross hi ht).symm.trans hr)
  exact bodyOf_of_isCross hi

/-! The instructions of the matrix unit make the unit's checks. -/

theorem collectiveTrap_of_isMatrix (hi : Instr.isMatrix i = true) : collectiveTrap i s t g = s.mxTrap t g i := by
  unfold collectiveTrap
  rw [if_pos hi]

theorem collective_of_isMatrix (hi : Instr.isMatrix i = true) (ht : collectiveTrap i s t g = none) :
    collective i s t q g = some (s.setGroup t q (standBy g (.present i))) := by
  unfold Instr.isMatrix at hi
  split at hi
  case h_6 => exact nomatch hi
  all_goals
    unfold collective
    rw [ht]
    rfl

theorem bodyOf_of_isMatrix (hi : Instr.isMatrix i = true) : bodyOf i = mxColl i := by
  unfold Instr.isMatrix at hi
  split at hi
  case h_6 => exact nomatch hi
  all_goals rfl

/-- Two ways in which a collective completes. -/
theorem ok_of_ite {p : Prop} [Decidable p] {a b : State} (h : (if p then some a else some b) = some r) :
    (if p then .ok a else .ok b : Except Trap State) = .ok r := by
  split
  · next hp => rw [← Option.some.inj ((if_pos hp).symm.trans h)]
  · next hp => rw [← Option.some.inj ((if_neg hp).symm.trans h)]

/-- When ATTACH's role does not go with the team, or with the role that the group has (10 R189). -/
theorem roleBreach_iff (attached roles : Bool) (n role : Nat) :
    ((!attached && (if n = 0 then roles else !roles)) = true ∨ (attached && decide (n ≠ role)) = true) ↔
      if attached then n ≠ role else decide (n ≠ 0) ≠ roles := by
  cases attached
  · by_cases hn : n = 0
    · simp [hn]
    · simp [hn]
  · simp

variable (hg : s.group? t q = some g)
include hg

theorem meets_of_isMatrix (hi : Instr.isMatrix i = true) : Meets i s t q g := by
  have htrap := collectiveTrap_of_isMatrix (s := s) (t := t) (g := g) hi
  have hbody : bodyOf i s t q = mxColl i s t q := by rw [bodyOf_of_isMatrix hi]
  unfold mxColl at hbody
  cases hmx : s.mxTrap t g i with
  | some tr =>
    simp only [hg, hmx] at hbody
    exact meets_of_trap (htrap.trans hmx) hbody
  | none =>
    simp only [hg, hmx] at hbody
    refine meets_of_result (htrap.trans hmx) fun r hr => ?_
    obtain rfl := Option.some.inj ((collective_of_isMatrix hi (htrap.trans hmx)).symm.trans hr)
    exact hbody

/-! REGANG, DETACH, ATTACH and SETW. -/

theorem meets_regang (h : Hdr) (hlegal : g.leader.legal g.allot (.regang h) = true) : Meets (.regang h) s t q g := by
  have ht : collectiveTrap (.regang h) s t g = none := by
    unfold collectiveTrap
    rw [hlegal]
    rfl
  refine meets_of_result ht fun r hr => ?_
  unfold collective at hr
  rw [ht] at hr
  obtain rfl := Option.some.inj hr
  exact congrArg Except.ok (updGroup_eq hg _)

theorem meets_detach (h : Hdr) (cond : Bool) (hlegal : g.leader.legal g.allot (.detach h cond) = true) :
    Meets (.detach h cond) s t q g := by
  have htrap : collectiveTrap (.detach h cond) s t g =
      if (g.liveIdx.any fun k => !(g.slice k).div.isEmpty) = true then some (mkTrap 0x04 0) else none := by
    unfold collectiveTrap
    rw [hlegal]
    rfl
  by_cases hdiv : (g.liveIdx.any fun k => !(g.slice k).div.isEmpty) = true
  · refine meets_of_trap (htrap.trans (if_pos hdiv)) ?_
    show detachColl _ cond s t q = _
    unfold detachColl
    rw [hg]
    exact if_pos hdiv
  · have ht := htrap.trans (if_neg hdiv)
    refine meets_of_result ht fun r hr => ?_
    unfold collective at hr
    rw [ht] at hr
    show detachColl _ cond s t q = _
    unfold detachColl
    rw [hg]
    simp only [if_neg hdiv]
    cases hteam : s.team? t g.team with
    | none =>
      simp only [hteam, Option.isSome_none, Bool.false_eq_true, if_false, decide_true] at hr ⊢
      exact ok_of_ite hr
    | some m =>
      simp only [hteam, Option.isSome_none, Bool.false_eq_true, if_false] at hr ⊢
      exact ok_of_ite hr

theorem meets_attach (h : Hdr) (role : RoleF) (a b : SReg) (hlegal : g.leader.legal g.allot (.attach h role a b) = true) :
    Meets (.attach h role a b) s t q g := by
  have hbody : bodyOf (.attach h role a b) s t q = attachColl (.attach h role a b) role a b s t q := rfl
  unfold attachColl at hbody
  cases hteam : s.team? t g.team with
  | none =>
    refine meets_of_trap (tr := illegal 3) ?_ ?_
    · unfold collectiveTrap
      rw [hlegal]
      simp only [hteam]
      rfl
    · simp only [hg, hteam] at hbody
      exact hbody
  | some m =>
    have htrap : collectiveTrap (.attach h role a b) s t g =
        if (if g.attached then roleNum role ≠ g.role else decide (roleNum role ≠ 0) ≠ m.roles) then some (illegal 3)
        else if ((namedBars g.leader a b).any fun k => decide (k < 112) && decide (m.nbars ≤ k)) = true then some (illegal 0) else none := by
      unfold collectiveTrap
      rw [hlegal]
      simp only [hteam]
      rfl
    have hbars : (((List.range 128).filter fun k => maskBit (g.leader.sReg a.toNat) (g.leader.sReg b.toNat) k).any
        fun k => decide (k ≤ 111) && decide (m.nbars ≤ k)) =
          (namedBars g.leader a b).any fun k => decide (k < 112) && decide (m.nbars ≤ k) :=
      congrArg (List.any (namedBars g.leader a b)) (funext fun k => by rw [decide_eq_decide.2 (Nat.lt_succ_iff (n := 111)).symm])
    simp only [hg, hteam, hbars, ← ite_or, roleBreach_iff] at hbody
    by_cases hrole : if g.attached then roleNum role ≠ g.role else decide (roleNum role ≠ 0) ≠ m.roles
    · rw [if_pos hrole] at htrap hbody
      exact meets_of_trap htrap hbody
    rw [if_neg hrole] at htrap hbody
    by_cases hnone : ((namedBars g.leader a b).any fun k => decide (k < 112) && decide (m.nbars ≤ k)) = true
    · rw [if_pos hnone] at htrap hbody
      exact meets_of_trap htrap hbody
    rw [if_neg hnone] at htrap hbody
    refine meets_of_result htrap fun r hr => ?_
    unfold collective at hr
    simp only [htrap, hteam, Option.isSome_none, Bool.false_eq_true, if_false] at hr
    rw [hbody, ← Option.some.inj hr]
    rfl

/-- The handler of REGRANT that SETW names (06 R122). -/
def regrantHandler (g : Group) : Option SReg → Nat
  | some a => (g.leader.sReg a.toNat).toNat
  | none => 0

/-- What SETW raises (06 R122). -/
def setwTrap (g : Group) (lo : BitVec 8) (e : Option SReg) : Option Trap :=
  if (g.liveIdx.any fun k => !(g.slice k).div.isEmpty) = true then some (mkTrap 0x04 0)
  else if (!couldFit g.dual g.allot lo.toNat) = true then some (illegal 0)
  else if regrantHandler g e % 8 ≠ 0 then some { mkTrap 0x06 0 with aux0 := BitVec.ofNat 64 (regrantHandler g e) }
  else none

omit hg in
theorem collectiveTrap_setw {h : Hdr} {lo hi : BitVec 8} {e : Option SReg} (hlegal : g.leader.legal g.allot (.setw h lo hi e) = true) :
    collectiveTrap (.setw h lo hi e) s t g = setwTrap g lo e := by
  unfold collectiveTrap
  rw [hlegal]
  rfl

theorem setwColl_eq (i : Instr) (lo : BitVec 8) (e : Option SReg) :
    setwColl i lo e s t q = (setwTrap g lo e).elim (.ok ((s.setGroup t q (standBy g (.setw i))).setwGrant t q)) .error := by
  have hbody : setwColl i lo e s t q =
      if (g.liveIdx.any fun k => !(g.slice k).div.isEmpty) = true then .error (mkTrap 0x04 0)
      else if (!couldFit g.dual g.allot lo.toNat) = true then .error (illegal 0)
      else if regrantHandler g e % 8 ≠ 0 then .error { mkTrap 0x06 0 with aux0 := BitVec.ofNat 64 (regrantHandler g e) }
      else .ok ((s.setGroup t q (standBy g (.setw i))).setwGrant t q) := by
    unfold setwColl
    simp only [hg]
    rfl
  rw [hbody]
  unfold setwTrap
  split_ifs
  all_goals rfl

omit hg in
/-- A group all of whose slices stand by at a SETW takes its grant where there is room (06 R122). -/
theorem setwGrant_standBy (hlive : g.liveIdx ≠ []) {h : Hdr} {lo hi : BitVec 8} {e : Option SReg} (ht : collectiveTrap (.setw h lo hi e) s t g = none)
    (hr : collective (.setw h lo hi e) s t q g = some r) :
    (s.setGroup t q (standBy g (.setw (.setw h lo hi e)))).setwGrant t q = r := by
  have hleader := wait_leader_standBy (.setw (.setw h lo hi e)) hlive
  have hall : ((standBy g (.setw (.setw h lo hi e))).liveIdx.all fun k => ((standBy g (.setw (.setw h lo hi e))).slice k).wait =
      .setw (.setw h lo hi e)) = true :=
    List.all_eq_true.2 fun k hk => decide_eq_true (wait_standBy _ hk)
  unfold collective at hr
  simp only [ht, Option.isSome_none, Bool.false_eq_true, if_false] at hr
  unfold State.setwGrant
  simp only [group?_setGroup_self, hleader, hall, if_true]
  cases hfit : ((s.setGroup t q (standBy g (.setw (.setw h lo hi e)))).tile t).setwFit q (standBy g (.setw (.setw h lo hi e))) lo.toNat
      hi.toNat with
  | none =>
    simp only [hfit] at hr ⊢
    exact Option.some.inj hr
  | some fit =>
    simp only [hfit] at hr ⊢
    exact Option.some.inj hr

theorem meets_setw (hlive : g.liveIdx ≠ []) (h : Hdr) (lo hi : BitVec 8) (e : Option SReg)
    (hlegal : g.leader.legal g.allot (.setw h lo hi e) = true) : Meets (.setw h lo hi e) s t q g := by
  have hbody : bodyOf (.setw h lo hi e) s t q = _ := setwColl_eq hg (.setw h lo hi e) lo e
  have htrap := collectiveTrap_setw (s := s) (t := t) hlegal
  cases htr : setwTrap g lo e with
  | some tr =>
    rw [htr] at htrap hbody
    exact meets_of_trap htrap hbody
  | none =>
    rw [htr] at htrap hbody
    exact meets_of_result htrap fun r hr => hbody.trans (congrArg Except.ok (setwGrant_standBy hlive htrap hr))

/-- Every collective does to its group what its rule says. -/
theorem meets_of_collective (hlive : g.liveIdx ≠ []) (hi : isCollective i = true)
    (hlegal : (!Instr.isMatrix i && !g.leader.legal g.allot i) = false) : Meets i s t q g := by
  by_cases hmx : Instr.isMatrix i = true
  · exact meets_of_isMatrix hg hmx
  replace hlegal : g.leader.legal g.allot i = true := by simpa [hmx] using hlegal
  by_cases hcross : Instr.isCross i = true
  · exact meets_of_isCross hcross hlegal
  cases i
  case regang h => exact meets_regang hg h hlegal
  case setw h lo hi' e => exact meets_setw hg hlive h lo hi' e hlegal
  case attach h role a b => exact meets_attach hg h role a b hlegal
  case detach h cond => exact meets_detach hg h cond hlegal
  case shfl | shflu | shfld | shflx | bcast | red | scan | vote | matchv | first => exact absurd rfl hcross
  case mma | mzero | mld | mst | mscl => exact absurd rfl hmx
  all_goals exact nomatch hi

end

end Sys2Proof.Proofs
end

section
/-! PROOF. A gang that comes to its rendezvous waits there for the rest of its group (O22); once every live slice has come, the collective
completes (O23), or its trap is the whole group's (O25). -/

namespace Sys2Proof.Proofs

open Sys2Proof.Machine Sys2Proof.Spec

/-! ## The arrival -/

section
variable {s m r : State} {i j : Instr} {t q k : Nat} {g b : Group} {l : List Nat}

/-- A beat whose plan stays near the machine it began with. -/
theorem beatFrame_of_near (hn : Near s m t q l) (hf : BeatFrame m r t q l) : BeatFrame s r t q l := by
  obtain ⟨ts, hm⟩ : ∃ ts, m = { s with tiles := ts } := ⟨_, hn.rest⟩
  refine ⟨?_, fun t' ht => (hf.tiles t' ht).trans (hn.tiles t' ht), ?_, fun q' hq => (hf.groups q' hq).trans (hn.groups q' hq), ?_⟩
  · rw [hf.rest, hm]
  · rw [hf.tile, hn.tile]
  · obtain ⟨a, b, ha, hb, hab, habs⟩ := hn.group
    obtain ⟨b', c, hb', hc, hbc, hbcs⟩ := hf.group
    obtain rfl := Option.some.inj (hb.symm.trans hb')
    exact ⟨a, c, ha, hc, by rw [hbc, hab], fun k hk => (habs k hk).trans (hbcs k hk)⟩

/-- The machine once the gang in focus has arrived. -/
def arrival (s : State) (i : Instr) (g : Group) (l : List Nat) : State :=
  s.beat s.focus.tile s.focus.slot g l (withHint 0 i) .f 0 (arrivePlan s.focus.tile s.focus.slot (withHint 0 i))

theorem preTrap_of_arrives (hi : isCollective i = true) (h : Arrives s i g l) : ∀ k ∈ l, s.preTrap g (g.slice k) (withHint 0 i) = none :=
  fun k hk => (preTrap_withHint hi _).trans (h.clear k hk)

theorem arrived_arrival (hi : isCollective i = true) (h : Arrives s i g l) : Arrived s i g l (arrival s i g l) := by
  obtain ⟨hnear, hat, -, hallow⟩ := foldl_updSlice (t := s.focus.tile) (q := s.focus.slot)
    (fun _ => parked (withHint 0 i)) l l s g h.here h.distinct fun _ hk => hk
  have ⟨_, g1, _, hg1, _, _⟩ := hnear.group
  obtain ⟨hframe, hslices, hfree⟩ := beat_spec (i := withHint 0 i) (c := .f) (cost := 0) h.some_ h.distinct h.calm
    (preTrap_of_arrives hi h) (arrivePlan_eq _ _ _ _ _ _) hg1
  refine ⟨beatFrame_of_near hnear hframe, fun k hk => ?_, ?_⟩
  · have hk' := hslices k hk
    rw [← slice_of_group hg1, hat k hk] at hk'
    unfold Settles at hk' ⊢
    rw [← finish_withHint hi]
    exact hk'
  · rw [ite_self, Nat.sub_zero] at hfree
    exact hfree.trans hallow

theorem holds_arrival (hi : isCollective i = true) (h : Arrives s i g l) : Holds g s.focus.tile s.focus.slot (arrival s i g l) := by
  refine holds_beat h.some_ h.calm (preTrap_of_arrives hi h) (arrivePlan_eq _ _ _ _ _ _) ?_
  exact Holds.foldl_updSlice (f := fun _ => parked (withHint 0 i)) (fun _ _ => rfl) (fun _ _ => rfl) l ⟨g, h.here, .refl g⟩

theorem mem_liveIdx_of_comes (h : Comes s i g l) (hk : k ∈ l) : k ∈ g.liveIdx := by
  rw [← h.gang] at hk
  exact mem_liveIdx_of_live (List.mem_filter.1 hk).2

/-- A group one of whose live slices runs presents nothing. -/
theorem presented?_of_run (hk : k ∈ g.liveIdx) (hrun : (g.slice k).wait = .run) : g.presented? = none := by
  unfold Group.presented?
  refine if_neg fun hall => ?_
  have hat := List.all_eq_true.1 (Bool.and_eq_true_iff.1 hall).2 k hk
  simp only [hrun] at hat
  exact nomatch hat

/-- A gang that comes to its collective arrives there, and the rendezvous is complete if it is the last. -/
theorem exec_of_arrives (hi : isCollective i = true) (h : Arrives s i g l) :
    exec i s = .next ((arrival s i g l).rendezvous s.focus.tile s.focus.slot fun _ => bodyOf (withHint 0 i)) := by
  obtain ⟨issue, he⟩ := runColl_of_collective hi s
  obtain ⟨k, rest, rfl⟩ := List.exists_cons_of_ne_nil h.some_
  have hnone : g.presented? = none :=
    presented?_of_run (mem_liveIdx_of_comes h.toComes List.mem_cons_self) (h.ready k List.mem_cons_self)
  rw [he]
  unfold runColl
  simp only [h.power, h.boot, h.here, h.gang, hnone, Bool.and_self, Bool.not_true, Bool.false_eq_true, if_false, reduceCtorEq]
  rfl

/-! ## The slices at a rendezvous -/

/-- A slice parked at a rendezvous: what its arrival changes. -/
theorem finish_of_rdv {x : Slice} (hx : x.wait = .rdv j) (old : Slice) (g : Group) (i : Instr) :
    (x.finish old g i).wait = x.wait ∧ (x.finish old g i).pc = x.pc ∧ (x.finish old g i).out = x.out ∧
      (x.finish old g i).asyncNow = x.asyncNow := by
  unfold Slice.finish
  rw [hx]
  exact ⟨rfl, rfl, rfl, rfl⟩

/-- A slice `y` of a group that has gathered was `x` before: it stands where it did, with its results and traps. -/
structure Parks (j : Instr) (come : Prop) (x y : Slice) : Prop where
  pc : y.pc = x.pc
  out : y.out = x.out
  async : y.asyncNow = x.asyncNow
  here : come → y.wait = .rdv j
  there : ¬ come → y.wait = x.wait

theorem parks_of_arrived (h : Arrived s i g l m) (hg : s.group? s.focus.tile s.focus.slot = some g)
    (hb : m.group? s.focus.tile s.focus.slot = some b) (k : Nat) : Parks (withHint 0 i) (k ∈ l) (g.slice k) (b.slice k) := by
  by_cases hk : k ∈ l
  · have hs := h.slices k hk
    unfold Settles at hs
    rw [slice_of_group hb] at hs
    obtain ⟨hwait, hpc, hout, hasync⟩ := finish_of_rdv (x := parked (withHint 0 i) (g.slice k)) (j := withHint 0 i) rfl (g.slice k) g i
    rw [hs]
    exact ⟨hpc, hout, hasync, fun _ => hwait, fun hn => absurd hk hn⟩
  · obtain ⟨a, b', ha, hb', -, hab⟩ := h.frame.group
    obtain rfl := Option.some.inj (hg.symm.trans ha)
    obtain rfl := Option.some.inj (hb.symm.trans hb')
    rw [(hab k hk).1]
    exact ⟨rfl, rfl, rfl, fun hn => absurd hn hk, fun _ => rfl⟩

end

/-- Settles O22: the slice that has yet to come keeps its group from its rendezvous, which then changes nothing of the arrival. -/
theorem collectivesWaitForTheGroup : Obligations.CollectivesWaitForTheGroup := by
  rintro s i g l hi h ⟨k, hk, hkl, hyet⟩
  refine ⟨_, arrived_arrival hi h, ?_⟩
  obtain ⟨b, hb, hlive⟩ := holds_arrival hi h
  have hwait : (b.slice k).wait.coll? = none := by
    rw [(parks_of_arrived (arrived_arrival hi h) h.here hb k).there hkl, hyet]
  have hnot : ¬ b.atRendezvous = true := fun hall => by
    have hat := List.all_eq_true.1 (Bool.and_eq_true_iff.1 hall).2 k ((hlive.listed k).2 hk)
    rw [hwait] at hat
    exact nomatch hat
  rw [exec_of_arrives hi h]
  unfold State.rendezvous
  simp only [hb, if_neg hnot]

/-! ## A group that has gathered -/

/-- Results that return leave a slice where it stands. -/
theorem drained_pc_wait (s : State) (k : Nat) (x : Slice) : (s.drained k x).pc = x.pc ∧ (s.drained k x).wait = x.wait := by
  have writes (ws : List RegWrite) (y : Slice) : (ws.foldl Slice.write y).pc = y.pc ∧ (ws.foldl Slice.write y).wait = y.wait := by
    induction ws generalizing y with
    | nil => exact ⟨rfl, rfl⟩
    | cons w ws ih =>
      obtain ⟨hpc, hwait⟩ := ih (y.write w)
      exact ⟨hpc.trans (write_pc y w), hwait.trans (write_wait y w)⟩
  have back (y : Slice) (p : Pend) : (y.writeback p).pc = y.pc ∧ (y.writeback p).wait = y.wait := by
    unfold Slice.writeback
    simp only
    split
    · exact writes _ _
    · exact writes _ _
  have fold (ps : List Pend) (y : Slice) : (ps.foldl Slice.writeback y).pc = y.pc ∧ (ps.foldl Slice.writeback y).wait = y.wait := by
    induction ps generalizing y with
    | nil => exact ⟨rfl, rfl⟩
    | cons p ps ih =>
      obtain ⟨hpc, hwait⟩ := ih (y.writeback p)
      exact ⟨hpc.trans (back y p).1, hwait.trans (back y p).2⟩
  exact fold _ _

theorem slice_drainLive (g : Group) (s : State) (k : Nat) :
    ((g.drainLive s).slice k).pc = (g.slice k).pc ∧ ((g.drainLive s).slice k).wait = (g.slice k).wait := by
  have fold (js : List Nat) (r : Group) :
      ((js.foldl (fun r k => r.setSlice k (s.drained k (r.slice k))) r).slice k).pc = (r.slice k).pc ∧
        ((js.foldl (fun r k => r.setSlice k (s.drained k (r.slice k))) r).slice k).wait = (r.slice k).wait := by
    induction js generalizing r with
    | nil => exact ⟨rfl, rfl⟩
    | cons j js ih =>
      obtain ⟨hpc, hwait⟩ := ih (r.setSlice j (s.drained j (r.slice j)))
      rw [List.foldl_cons, hpc, hwait]
      by_cases e : k = j
      · rw [e, slice_setSlice_self]
        exact drained_pc_wait _ _ _
      · rw [slice_setSlice_ne _ _ e]
        exact ⟨rfl, rfl⟩
  exact fold _ _

section
variable {s m r : State} {i j : Instr} {t q : Nat} {g b : Group} {l : List Nat} {tr : Trap}

theorem gathered_eq (hb : m.group? t q = some b) :
    gathered m t q = some (m.setGroup t q (b.drainLive m), b.drainLive m) := by
  unfold gathered
  rw [hb]
  rfl

/-- Every live slice takes the trap of a collective (18 R339, log 25). -/
theorem raiseAll_eq (hg : s.group? t q = some g) (tr : Trap) :
    s.raiseAll t q tr 0 = g.liveIdx.foldl (fun r k => r.raise t q k
      { tr with coll := true, lanes := some (tr.lanes.getD (laneMask (g.liveIdx.flatMap fun k => (g.slice k).laneSet k))) } 0) s := by
  unfold State.raiseAll
  simp only [hg]

theorem all_pc_iff : (g.liveIdx.all fun k => (g.slice k).pc = g.leader.pc) = true ↔ ∀ k ∈ g.liveIdx, (g.slice k).pc = g.leader.pc := by
  simp only [List.all_eq_true, decide_eq_true_eq]

/-- A group that is at its rendezvous, at differing addresses. -/
theorem rendezvous_of_apart (hb : m.group? t q = some b) (hat : b.atRendezvous = true)
    (hapart : ¬ ∀ k ∈ (b.drainLive m).liveIdx, ((b.drainLive m).slice k).pc = (b.drainLive m).leader.pc) (body : Instr → Coll) :
    m.rendezvous t q body = (m.setGroup t q (b.drainLive m)).raiseAll t q (mkTrap 0x05 0) 0 := by
  unfold State.rendezvous
  simp only [hb, if_pos hat, if_neg (mt all_pc_iff.1 hapart)]

/-- The group stands at the collective `j`, at one address, and no register holds an error. -/
structure Together (j : Instr) (g : Group) : Prop where
  live : g.liveIdx ≠ []
  one : ∀ k ∈ g.liveIdx, (g.slice k).pc = g.leader.pc
  waits : g.leader.wait.coll? = some j
  sound : g.sound = true

section
variable (hb : m.group? t q = some b) (hat : b.atRendezvous = true) (hj : Together j (b.drainLive m)) (hi : isCollective j = true)
include hb hat hj hi

/-- A group at one address whose collective traps. -/
theorem rendezvous_of_trap (ht : collectiveTrap j (m.setGroup t q (b.drainLive m)) t (b.drainLive m) = some tr) :
    (m.rendezvous t q fun _ => bodyOf j) = (m.setGroup t q (b.drainLive m)).raiseAll t q tr 0 := by
  unfold State.rendezvous
  simp only [hb, if_pos hat, if_pos (all_pc_iff.2 hj.one), hj.waits, hj.sound, Bool.true_or, if_true]
  by_cases hill : (!Instr.isMatrix j && !(b.drainLive m).leader.legal (b.drainLive m).allot j) = true
  · rw [if_pos hill, Option.some.inj ((collectiveTrap_of_illegal hill).symm.trans ht)]
  · have hmeets := meets_of_collective (group?_setGroup_self m t q (b.drainLive m)) hj.live hi (Bool.eq_false_iff.2 hill)
    rw [if_neg hill]
    simp only [hmeets.traps tr ht]

/-- A group at one address whose collective completes. -/
theorem rendezvous_of_result (hr : collective j (m.setGroup t q (b.drainLive m)) t q (b.drainLive m) = some r) :
    (m.rendezvous t q fun _ => bodyOf j) = r := by
  have hlegal : (!Instr.isMatrix j && !(b.drainLive m).leader.legal (b.drainLive m).allot j) = false := by
    refine Bool.eq_false_iff.2 fun hill => ?_
    unfold collective at hr
    rw [collectiveTrap_of_illegal hill] at hr
    exact nomatch hr
  have hmeets := meets_of_collective (group?_setGroup_self m t q (b.drainLive m)) hj.live hi hlegal
  unfold State.rendezvous
  simp only [hb, if_pos hat, if_pos (all_pc_iff.2 hj.one), hj.waits, hj.sound, Bool.true_or, if_true, hlegal, Bool.false_eq_true, if_false,
    hmeets.completes r hr]

end

/-- Groups with the same live slices at the same addresses stand both at one address, or both do not. -/
theorem onePc_of_same (hlisted : ∀ k, k ∈ b.liveIdx ↔ k ∈ g.liveIdx) (hpc : ∀ k, (b.slice k).pc = (g.slice k).pc)
    (h : ∀ k ∈ g.liveIdx, (g.slice k).pc = g.leader.pc) : ∀ k ∈ b.liveIdx, (b.slice k).pc = b.leader.pc := by
  intro k hk
  have hleader := (hlisted _).1 (headD_liveIdx_mem (List.ne_nil_of_mem hk))
  calc (b.slice k).pc = (g.slice k).pc := hpc k
    _ = g.leader.pc := h k ((hlisted k).1 hk)
    _ = (g.slice (b.liveIdx.headD 0)).pc := (h _ hleader).symm
    _ = b.leader.pc := (hpc _).symm

/-- A group whose last slices have come is at its rendezvous. -/
theorem atRendezvous_of_gathered (h : Comes s i g l) (hga : Gathered g i l) (hlive : SameLive g b)
    (hp : ∀ k, Parks j (k ∈ l) (g.slice k) (b.slice k)) : b.atRendezvous = true := by
  refine Bool.and_eq_true_iff.2 ⟨?_, List.all_eq_true.2 fun k hk => ?_⟩
  · obtain ⟨k, hk⟩ := List.exists_mem_of_ne_nil _ h.some_
    refine List.any_eq_true.2 ⟨k, (hlive.listed k).2 (mem_liveIdx_of_comes h hk), ?_⟩
    rw [(hp k).here hk]
  · replace hk := (hlive.listed k).1 hk
    have hcoll : (b.slice k).wait.coll?.isSome = true := by
      by_cases hkl : k ∈ l
      · rw [(hp k).here hkl]
        rfl
      · rw [(hp k).there hkl]
        exact (hga.come k hk).resolve_left hkl
    have hdrain : (b.slice k).drainable = true := by
      unfold Slice.drainable
      rw [(hp k).out]
      exact hga.returns k hk
    rw [hcoll, hdrain, (hp k).async, hga.calm k hk]
    rfl

/-- Once gathered at one address, it stands together at the collective. -/
theorem together_of_gathered (h : Comes s i g l) (hga : Gathered g i l) (hlive : SameLive g b)
    (hp : ∀ k, Parks (withHint 0 i) (k ∈ l) (g.slice k) (b.slice k)) (m : State)
    (hone : ∀ k ∈ (b.drainLive m).liveIdx, ((b.drainLive m).slice k).pc = (b.drainLive m).leader.pc) :
    Together (withHint 0 i) (b.drainLive m) := by
  have hsame := hlive.trans (sameLive_drainLive b m)
  obtain ⟨k, hk⟩ := List.exists_mem_of_ne_nil _ h.some_
  have hne : (b.drainLive m).liveIdx ≠ [] := List.ne_nil_of_mem ((hsame.listed k).2 (mem_liveIdx_of_comes h hk))
  have hone' : ∀ k ∈ g.liveIdx, (g.slice k).pc = g.leader.pc :=
    onePc_of_same (fun k => (hsame.listed k).symm) (fun k => ((slice_drainLive b m k).1.trans (hp k).pc).symm) hone
  refine ⟨hne, hone, ?_, hsame.sound hga.sound⟩
  have hleader := (hsame.listed _).1 (headD_liveIdx_mem hne)
  have hwait : (b.drainLive m).leader.wait = (b.slice ((b.drainLive m).liveIdx.headD 0)).wait := (slice_drainLive b m _).2
  rw [hwait]
  by_cases hkl : (b.drainLive m).liveIdx.headD 0 ∈ l
  · rw [(hp _).here hkl]
    rfl
  · rw [(hp _).there hkl]
    exact (hga.same hone' _ hleader).resolve_left hkl

end

/-- Settles O23: the arrival gathers the group, which stands together at the collective, and the rendezvous is what the collective's rule
makes of it. -/
theorem collectivesComplete : Obligations.CollectivesComplete := by
  intro s i g l hi h hga hone hsome
  have harr := arrived_arrival hi h
  obtain ⟨b, hb, hlive⟩ := holds_arrival hi h
  have hp := parks_of_arrived harr h.here hb
  have hgath := gathered_eq hb
  obtain ⟨r, hr⟩ := Option.isSome_iff_exists.1 (hsome _ _ harr hgath)
  have hsame := hlive.trans (sameLive_drainLive b (arrival s i g l))
  have hone' := onePc_of_same hsame.listed (fun k => (slice_drainLive b (arrival s i g l) k).1.trans (hp k).pc) hone
  refine ⟨_, _, r, harr, hgath, hr, ?_⟩
  rw [exec_of_arrives hi h, rendezvous_of_result hb (atRendezvous_of_gathered h.toComes hga hlive hp)
    (together_of_gathered h.toComes hga hlive hp _ hone') (isCollective_withHint hi) hr]

/-- Settles O25: the arrival gathers the group; at differing addresses the rendezvous raises RDV_MISMATCH, at one the collective's check. -/
theorem collectivesTrapTogether : Obligations.CollectivesTrapTogether := by
  intro s i g l hi h hga
  have harr := arrived_arrival hi h
  obtain ⟨b, hb, hlive⟩ := holds_arrival hi h
  have hp := parks_of_arrived harr h.here hb
  have hat := atRendezvous_of_gathered h.toComes hga hlive hp
  refine ⟨_, _, harr, gathered_eq hb, fun tr htr => ?_⟩
  rw [exec_of_arrives hi h]
  refine congrArg Host.Outcome.next (Eq.trans ?_ (raiseAll_eq (group?_setGroup_self _ _ _ _) tr))
  split at htr
  next hone =>
    exact rendezvous_of_trap hb hat (together_of_gathered h.toComes hga hlive hp _ hone) (isCollective_withHint hi)
      ((collectiveTrap_withHint hi).trans htr)
  next hapart =>
    obtain rfl := Option.some.inj htr
    exact rendezvous_of_apart hb hat hapart _

end Sys2Proof.Proofs
end

section
/-! PROOF. The vector arithmetic instructions (07): the lane-guarded classes (O2, O3), floating point (O4), the conversions with their draws
(O5), and SRSEED (O7). The instructions of a class run one plan, which leaves every slice free to go on. -/

namespace Sys2Proof.Proofs

open Sys2Proof.Machine Sys2Proof.Spec

/-! ## The lane-guarded classes (07 R129-R135, R141, R145, 08 R152, R156) -/

section
variable {s m : State} {i : Instr} {g : Group} {l : List Nat} {c : UClass} {cost : Nat} {h : Hdr}

/-- A slice that is done with a lane-guarded instruction: its guarded lanes' writes are outstanding. -/
def lanesPosted (i : Instr) (h : Hdr) (f : LaneWrites) (e : Ctx) (x : Slice) : Slice :=
  (x.post ((e.guarded x h).flatMap fun n => f e x (x.tyOf i) n)).adv i

theorem lanePlan_eq_lanesPosted (i : Instr) (h : Hdr) (f : LaneWrites) (u : UClass) (e : Ctx) (x : Slice) :
    lanePlan i h f u e x = .ok (lanesPosted i h f e x) := rfl

theorem lanesPosted_wait (f : LaneWrites) (e : Ctx) (x : Slice) : (lanesPosted i h f e x).wait = x.wait := wait_post ..

/-- A lane-guarded instruction does not trap, and its slices go on. -/
theorem ran_of_lanePlan {f : LaneWrites} (hI : Issues s i g l c cost) (he : exec i s = runSlices s i (lanePlan i h f)) :
    Ran s i g l cost fun k => lanesPosted i h f (ctxOf s s.focus.tile s.focus.slot g k) (g.slice k) :=
  ran_of_running hI he (fun _ _ => lanePlan_eq_lanesPosted ..) fun k hk => by rw [lanesPosted_wait, hI.ready k hk]

/-- Settles O2: each instruction of the class runs the lane plan of its writes. -/
theorem vectorIntegerCompletes : Obligations.VectorIntegerCompletes := fun s _ _ _ _ _ _ _ hv hI =>
  ran_of_lanePlan hI (runsSlices_of_intWrites hv s)

/-- Settles O3: the special functions and bound instructions run the same plan as the integer class, with their own writes. -/
theorem specialAndBoundComplete : Obligations.SpecialAndBoundComplete := fun s _ _ _ _ _ _ _ hv hI =>
  ran_of_lanePlan hI (runsSlices_of_laneWrites hv s)

/-! ## Floating point (07 R137-R140, R142) -/

/-- Settles O4: the floating-point plan gives the packed elements lane by lane, with what is to set HX, and its slices go on. -/
theorem floatCompletes : Obligations.FloatCompletes := fun s _ _ _ _ _ _ _ _ _ hv hI =>
  ran_of_running hI (runsSlices_of_floatElems hv s) (fun _ _ => by rw [fpPlan_eq]) fun k hk => by rw [wait_postHx, hI.ready k hk]

/-! ## Beats that change more than their slices -/

/-- A beat that may issue, whose plan takes no trap and leaves its slices free to go on. -/
theorem made_of_goingPlan {plan : Nat → Nat → Plan} (hI : Issues s i g l c cost) (he : exec i s = runBeat s i plan)
    (hm : plan s.focus.tile s.focus.slot c s l = (m, [])) (hgo : Going m s.focus.tile s.focus.slot l) : Made s i g l cost m := by
  obtain ⟨g1, hg, hwait⟩ := hgo
  obtain ⟨k, hk⟩ := List.exists_mem_of_ne_nil l hI.some_
  exact made_of_going hI he hm hg ⟨k, hk, hwait k hk⟩

theorem Going.setSr {t q : Nat} (hs : Going s t q l) (n : Nat) (v : DWord) : Going (s.updTile t fun x => x.setSr n v) t q l :=
  hs.updTile fun _ => rfl

/-! ## Conversions (07 R143-R148, 03 R57-R59) -/

/-- What a conversion's lane writes once it has taken its draws from a generator's state (03 R59). -/
def drawnFrom (seed : DWord) (ty : TyF) (rnd : Rnd) (f : LaneConv) : LaneWrites := fun e x t n =>
  f e x t n fun j => x.rmode ty rnd (srDraw seed (2 * ((4 * e.i + n) % 32) + j))

/-- A conversion is a lane-guarded instruction, after which the generator is replaced under .sr (03 R58). -/
theorem convBeat_of_perSlice {ty : TyF} {rnd : Rnd} {f : LaneConv} {t q : Nat}
    (hlanes : perSlice t q (lanePlan i h (drawnFrom ((s.tile t).srOf (q / 16)) ty rnd f)) c s l = (m, [])) :
    convBeat i h ty rnd f t q c s l =
      (if rnd = .sr then m.updTile t fun x => x.setSr (q / 16) (srNext ((s.tile t).srOf (q / 16))) else m, []) := by
  unfold drawnFrom at hlanes
  unfold convBeat
  simp only [hlanes]

theorem perSlice_lanePlan {f : LaneWrites} (hg : s.group? s.focus.tile s.focus.slot = some g) :
    perSlice s.focus.tile s.focus.slot (lanePlan i h f) c s l =
      (s.replaced l fun k => lanesPosted i h f (ctxOf s s.focus.tile s.focus.slot g k) (g.slice k), []) :=
  perSlice_ok hg fun _ _ => lanePlan_eq_lanesPosted ..

theorem going_lanesPosted (hI : ToIssue s i g l c cost) (f : LaneWrites) :
    Going (s.replaced l fun k => lanesPosted i h f (ctxOf s s.focus.tile s.focus.slot g k) (g.slice k)) s.focus.tile s.focus.slot l :=
  Going.foldl (fun _ k hk hr => hr.setSlice k (by rw [lanesPosted_wait, hI.ready k hk]; rfl)) (going_of_toIssue hI)

/-- Settles O5: the lanes draw from the generator as it stood, and no slice traps or is to act again. -/
theorem conversionCompletes : Obligations.ConversionCompletes := by
  intro s i g l c cost h ty rnd f hv hI q seed m
  refine made_of_goingPlan hI (runsBeat_of_convWrites hv s) (convBeat_of_perSlice (perSlice_lanePlan hI.here)) ?_
  have hgo : Going m s.focus.tile s.focus.slot l := going_lanesPosted hI.toToIssue (drawnFrom seed ty rnd f)
  split_ifs
  · exact hgo.setSr q (srNext seed)
  · exact hgo

/-! ## SRSEED (07 R149, 03 R58) -/

theorem inTurn_some (f : State → Nat → State) (l : List Nat) (s : State) : inTurn (fun r k => some (f r k)) s l = some (l.foldl f s) := by
  induction l generalizing s with
  | nil => rfl
  | cons k l ih => exact ih (f s k)

/-- Slices that act in turn on the machine, none of which traps or is to act again. -/
theorem made_of_turns {F : State → Ctx → Slice → State × Option (Trap × Nat)} {f : State → Nat → State} (hI : Issues s i g l c cost)
    (he : exec i s = runBeat s i fun t q => eachSlice t q F)
    (hF : ∀ k ∈ l, ∀ r, F r (ctxOf s s.focus.tile s.focus.slot g k) (g.slice k) = (f r k, none))
    (hf : ∀ r, ∀ k ∈ l, Going r s.focus.tile s.focus.slot l → Going (f r k) s.focus.tile s.focus.slot l) :
    Made s i g l cost (l.foldl f s) := by
  refine made_of_goingPlan hI he (eachSlice_ok hI.here (fun k hk r r' hr => ?_) (inTurn_some f l s))
    (Going.foldl hf (going_of_toIssue hI.toToIssue))
  rw [hF k hk, Option.some.inj hr]

/-- Settles O7: a performing slice writes the generator in its turn, and each goes on. -/
theorem srseedCompletes : Obligations.SrseedCompletes := by
  intro s g l c cost h a hI
  refine made_of_turns hI rfl (fun _ _ _ => rfl) fun r k hk hr => ?_
  have hwait : ((g.slice k).adv (.srseed h a)).wait.retries = false := by rw [adv_wait, hI.ready k hk]; rfl
  unfold put
  dsimp only
  split_ifs
  · exact (hr.setSr _ _).setSlice k hwait
  · exact hr.setSlice k hwait

end

end Sys2Proof.Proofs
end

section
/-! PROOF. The one issue of a cross-lane or matrix instruction that its group presents (O24): the lanes write what the rule of each
cross-lane instruction has them write, and the matrix unit takes its instruction. -/

namespace Sys2Proof.Proofs

open Sys2Proof.Machine Sys2Proof.Spec

section
variable {s m : State} {i j : Instr} {t q : Nat} {g : Group} {h : Hdr} {f : CrossWrites}

/-! ## The class of an instruction -/

theorem isMatrix_withHint (n : BitVec 4) (i : Instr) : Instr.isMatrix (withHint n i) = Instr.isMatrix i := by
  cases i <;> rfl

theorem isCross_withHint (n : BitVec 4) (i : Instr) : Instr.isCross (withHint n i) = Instr.isCross i := by
  cases i <;> rfl

theorem isCross_of_crossWrites (hw : crossWrites j = some (h, f)) : Instr.isCross j = true := by
  unfold crossWrites at hw
  split at hw
  case h_11 => exact nomatch hw
  all_goals rfl

/-! ## What each lane writes (08 R161-R167) -/

/-- The index of a shuffle, as the model reads it. -/
theorem shuffled_laneIdx (d a : VReg) (k : LaneIdx) (pv : PReg) (src : Int → Int → Int) (c : UClass) (ty : Ty) (lane : Nat) :
    shuffled d a k pv src c s t q g ty lane =
      let ix := laneIdx s t q g k lane
      let n := src lane ix.1
      let v := groupVal s t q g ty a (if 0 ≤ n ∧ n < g.grant then n.toNat else lane)
      (wTy ty d.toNat (lane % 4) v.n (if decide (0 ≤ n ∧ n < g.grant) && ix.2 ≠ 0 then ebU else v.b) ++
        [wP pv.toNat (lane % 4) (0 ≤ n ∧ n < g.grant)], none) := by
  cases k <;> rfl

/-- A bounded index makes the bound of what it reads U (08 R161). -/
theorem bound_of_index (ix b : Eb16) : (if (true && decide (ix ≠ 0)) = true then ebU else b) = if ix = 0 then b else ebU := by
  simp only [Bool.true_and, decide_eq_true_eq, ne_eq, ite_not]

/-- 08 Table 8.3 in exact integers: a lane reads its source where that is below G, else itself. -/
theorem shuffled_eq_shflLane (fn : ShflFn) {src : Int → Int → Int} (hsrc : ∀ lane n : Nat, src lane n = fn.src lane n)
    (d a : VReg) (k : LaneIdx) (pv : PReg) : shuffled d a k pv src = shflLane fn d a k pv := by
  funext c s t q g ty lane
  rw [shuffled_laneIdx, shflLane]
  simp only [hsrc]
  split
  next hin => rw [decide_eq_true hin, bound_of_index]; rfl
  next hout => rw [decide_eq_false hout]; rfl

theorem givers_eq_contributors : givers = contributors := rfl

theorem leaves_eq_redLeaves : leaves = redLeaves := by
  funext s t q g ty a pc
  refine List.map_congr_left fun n _ => if_congr ?_ rfl rfl
  rw [givers_eq_contributors, List.elem_eq_mem, decide_eq_true_eq, contributors, List.mem_filter, List.mem_range, Bool.and_eq_true,
    decide_eq_true_eq]

/-- A cross-lane instruction's one issue has its lanes write what its rule says. -/
theorem exec_of_crossWrites (hi : Instr.isCross i = true) (hw : crossWrites (withHint 0 i) = some (h, f)) (s : State) :
    exec i s = runColl s (withHint 0 i) (bodyOf (withHint 0 i)) (crossIssue (withHint 0 i) h f) := by
  unfold Instr.isCross at hi
  split at hi
  case h_11 => exact nomatch hi
  all_goals obtain ⟨rfl, rfl⟩ := Prod.mk.inj (Option.some.inj hw)
  -- Shuffles, by index, up, down and by XOR; reductions and scans; votes, matches and first lanes, whose rules read as the model does.
  case h_1 | h_5 => rw [shuffled_eq_shflLane .idx fun _ _ => rfl]; rfl
  case h_2 => rw [shuffled_eq_shflLane .up fun _ _ => rfl]; rfl
  case h_3 => rw [shuffled_eq_shflLane .down fun _ _ => rfl]; rfl
  case h_4 => rw [shuffled_eq_shflLane .xor fun _ _ => rfl]; rfl
  case h_6 | h_7 => rw [leaves_eq_redLeaves]; rfl
  case h_8 | h_9 | h_10 => rfl

theorem exec_of_isMatrix (hi : Instr.isMatrix i = true) (s : State) :
    exec i s = runColl s (withHint 0 i) (bodyOf (withHint 0 i)) matrixIssue := by
  unfold Instr.isMatrix at hi
  split at hi
  case h_6 => exact nomatch hi
  all_goals rfl

/-! ## The one issue -/

/-- Where the group presents the collective, the step is its issue (08 R158, 14 R282). -/
theorem runColl_of_presented (hpow : s.powered = true) (hboot : s.booted = true) (hg : s.group? s.focus.tile s.focus.slot = some g)
    (hlive : (s.focus.slices.any fun k => (g.slice k).live) = true) (hj : g.presented? = some j) (body : Coll)
    (issue : State → Nat → Nat → State) : runColl s j body issue = .next (issue s s.focus.tile s.focus.slot).fresh := by
  obtain ⟨k, hk, hlk⟩ := List.any_eq_true.1 hlive
  have hmem : k ∈ s.focus.slices.filter fun k => (g.slice k).live := List.mem_filter.2 ⟨hk, hlk⟩
  obtain ⟨k', rest, hfilter⟩ := List.exists_cons_of_ne_nil (List.ne_nil_of_mem hmem)
  unfold runColl
  simp only [hpow, hboot, hg, hfilter, hj, Bool.and_self, Bool.not_true, Bool.false_eq_true, if_false, if_true]

theorem sound_of_presented (hp : presented j s t q g = some m) : g.sound = true := by
  unfold presented at hp
  obtain ⟨hs, -⟩ := Option.ite_none_left_eq_some.1 hp
  rwa [Bool.not_eq_true', Bool.not_eq_false] at hs

/-- The instruction that the unit may take is the one presented. -/
theorem presented?_of_mxAccepts {a : Instr × UClass × Nat} (ha : s.mxAccepts t q g = some a) : g.presented? = some a.1 := by
  unfold State.mxAccepts at ha
  split at ha
  · exact nomatch ha
  next i hi =>
    obtain ⟨-, ha⟩ := Option.ite_none_right_eq_some.1 ha
    obtain ⟨c, -, rfl⟩ := Option.map_eq_some_iff.1 ha
    exact (Option.filter_eq_some_iff.1 hi).1

theorem matrixIssue_of_presented (hg : s.group? t q = some g) (hj : g.presented? = some j) (hmx : Instr.isMatrix j = true)
    (hp : presented j s t q g = some m) : matrixIssue s t q = m := by
  have hs := sound_of_presented hp
  unfold presented at hp
  simp only [hs, hmx, Bool.not_true, Bool.false_eq_true, if_false, if_true] at hp
  split at hp
  next j' c cost ha =>
    obtain rfl : j = j' := Option.some.inj (hj.symm.trans (presented?_of_mxAccepts ha))
    split at hp
    next hacc =>
      unfold matrixIssue State.mxIssue
      simp only [hg, ha, hs, hacc, Bool.and_self, if_true]
      exact Option.some.inj hp
    next => exact nomatch hp
  next => exact nomatch hp

theorem crossWrites_of_presented (hmx : Instr.isMatrix j = false) (hp : presented j s t q g = some m) :
    ∃ h f, crossWrites j = some (h, f) := by
  cases hw : crossWrites j with
  | none =>
    unfold presented at hp
    simp [hmx, hw] at hp
  | some w => exact ⟨w.1, w.2, rfl⟩

theorem crossIssue_of_presented (hg : s.group? t q = some g) (hmx : Instr.isMatrix j = false) (hw : crossWrites j = some (h, f))
    (hp : presented j s t q g = some m) : crossIssue j h f s t q = m := by
  have hs := sound_of_presented hp
  unfold presented at hp
  simp only [hs, hmx, hw, Bool.not_true, Bool.false_eq_true, if_false] at hp
  unfold crossIssue Group.rows
  simp only [hg, hs, if_true]
  cases hc : s.classCost t q g g.liveIdx j ((g.grant + 31) / 32) with
  | none => rw [hc] at hp; exact nomatch hp
  | some p => rw [hc] at hp; exact Option.some.inj hp

end

/-- Settles O24: the step is the issue of the instruction that the group presents, which is the unit's or a cross-lane instruction's. -/
theorem presentedCollectivesComplete : Obligations.PresentedCollectivesComplete := by
  intro s i g m hpow hboot hg hlive hj hp
  cases hmx : Instr.isMatrix i with
  | true =>
    rw [exec_of_isMatrix hmx, runColl_of_presented hpow hboot hg hlive hj,
      matrixIssue_of_presented hg hj ((isMatrix_withHint 0 i).trans hmx) hp]
  | false =>
    replace hmx := (isMatrix_withHint 0 i).trans hmx
    obtain ⟨h, f, hw⟩ := crossWrites_of_presented hmx hp
    rw [exec_of_crossWrites ((isCross_withHint 0 i).symm.trans (isCross_of_crossWrites hw)) hw,
      runColl_of_presented hpow hboot hg hlive hj, crossIssue_of_presented hg hmx hw hp]

end Sys2Proof.Proofs
end

section
/-! PROOF. What the events of a tile do where they are due (O27): the allowance's ring, barriers, gears and doze, the instruction cache, the
matrix unit and bursts. For each event, the state that its rule gives is the one that the model's function gives, apart from the counter of
free choices. -/

namespace Sys2Proof.Proofs

open Sys2Proof.Machine Sys2Proof.Spec

section
variable {s r : State}

/-- Of an event that makes a free choice in some of its cases only. -/
theorem becomes_of_exec_or_fresh {i : Instr} {m : State} (hm : exec i s = .next m) (h : m = r ∨ m = r.fresh) : Becomes i s r := by
  obtain rfl | rfl := h
  · exact becomes_of_exec hm rfl
  · exact becomes_of_exec_fresh hm rfl

theorem updTile_ite (s : State) (t : Nat) (p : Tile → Prop) [DecidablePred p] (f g : Tile → Tile) :
    (s.updTile t fun x => if p x then f x else g x) = if p (s.tile t) then s.updTile t f else s.updTile t g := by
  by_cases h : p (s.tile t) <;> simp only [State.updTile, h, if_true, if_false]

end

/-! ## The allowance's ring (09 R184) -/

section
variable {s r : State}

theorem becomes_reedRingInjection {die : Nat} (h : tileEvent (.reedRingInjection die) s = some r) :
    Becomes (.reedRingInjection die) s r := by
  unfold tileEvent at h
  exact becomes_of_exec rfl (eq_of_some_else_none s h)

theorem shareArrive_of_due {t : Nat} (h : tileEvent (.shareArrival t) s = some r) : s.shareArrive t = r := by
  unfold tileEvent at h
  obtain ⟨hhead, h⟩ := Option.ite_none_right_eq_some.1 h
  obtain ⟨rest, htodo⟩ := List.head?_eq_some_iff.1 hhead
  simp only [htodo, List.tail_cons] at h
  unfold State.shareArrive
  simp only [htodo, if_true]
  exact Option.some.inj h

theorem becomes_shareArrival {t : Nat} (h : tileEvent (.shareArrival t) s = some r) : Becomes (.shareArrival t) s r :=
  becomes_of_exec rfl (shareArrive_of_due h)

end

/-! ## Barriers (10 R193-R198) -/

section
variable {s r : State}

/-- An arrival counts in the present generation or in the next, by cases of one condition. -/
theorem arrive_eq (b : Bar) (m : BitVec 4) :
    b.arrive m =
      (if m.getLsbD 0 && !m.getLsbD 2 then { b with c := b.c + 1 } else { b with na := b.na + 1 },
        m ||| if m.getLsbD 0 && !m.getLsbD 2 then 4 else 8) := by
  unfold Bar.arrive
  cases m.getLsbD 0 && !m.getLsbD 2 <;> rfl

theorem arriveAt_of_due {t q k : Nat} (h : tileEvent (.barrierArrive t q k) s = some r) : s.arriveAt t q k = r := by
  unfold tileEvent at h
  unfold State.arriveAt Group.sent?
  cases hg : s.group? t q with
  | none => simp only [hg] at h; exact nomatch h
  | some g =>
    simp only [hg] at h ⊢
    cases ha : g.arrSent.find? fun a => a.k = k with
    | none => simp only [ha] at h; exact nomatch h
    | some a =>
      simp only [ha] at h ⊢
      unfold State.arriveNow
      rw [arrive_eq]
      exact eq_of_none_else s Option.some.inj h

theorem becomes_barrierArrive {t q k : Nat} (h : tileEvent (.barrierArrive t q k) s = some r) : Becomes (.barrierArrive t q k) s r :=
  becomes_of_exec rfl (arriveAt_of_due h)

theorem leaveAt_of_due {i : Nat} (h : tileEvent (.barrierLeave i) s = some r) : s.leaveAt i = r := by
  unfold tileEvent at h
  refine eq_of_none_else s (fun h => ?_) h
  obtain ⟨l, hl, h⟩ := Option.map_eq_some_iff.1 h
  unfold State.leaveNow
  simp only [hl]
  exact h

theorem becomes_barrierLeave {i : Nat} (h : tileEvent (.barrierLeave i) s = some r) : Becomes (.barrierLeave i) s r :=
  becomes_of_exec rfl (leaveAt_of_due h)

theorem becomes_barrierRelease {t : Nat} (h : tileEvent (.barrierRelease t) s = some r) : Becomes (.barrierRelease t) s r := by
  unfold tileEvent at h
  exact becomes_of_exec rfl (Option.some.inj h)

end

/-! ## Gears and doze (10 R200, R203, 22 R395) -/

section
variable {s r : State}

theorem becomes_gearResolveChange {t : Nat} (h : tileEvent (.gearResolveChange t) s = some r) : Becomes (.gearResolveChange t) s r := by
  unfold tileEvent at h
  exact becomes_of_exec rfl (eq_of_some_else_none s h)

theorem becomes_gearSwitchStart {t : Nat} (h : tileEvent (.gearSwitchStart t) s = some r) : Becomes (.gearSwitchStart t) s r := by
  unfold tileEvent at h
  obtain ⟨hdue, h⟩ := Option.ite_none_right_eq_some.1 h
  rw [updTile_ite] at h
  exact becomes_of_exec rfl ((if_pos hdue).trans (Option.some.inj h))

theorem gearSwitchEnd_of_due {t : Nat} (h : tileEvent (.gearSwitchEnd t) s = some r) :
    (if s.alarmed then s else s.updTile t Tile.endSwitch) = r := by
  unfold tileEvent at h
  dsimp only at h
  unfold State.updTile Tile.endSwitch
  split at h
  next f halarm hphase =>
    rw [halarm, hphase]
    exact Option.some.inj h
  next halarm hphase =>
    rw [halarm, hphase]
    exact Option.some.inj h
  next => exact nomatch h

theorem becomes_gearSwitchEnd {t : Nat} (h : tileEvent (.gearSwitchEnd t) s = some r) : Becomes (.gearSwitchEnd t) s r :=
  becomes_of_exec rfl (gearSwitchEnd_of_due h)

theorem becomes_dozeStart {t : Nat} (h : tileEvent (.dozeStart t) s = some r) : Becomes (.dozeStart t) s r := by
  unfold tileEvent at h
  exact becomes_of_exec rfl (eq_of_some_else_none s h)

theorem becomes_dozeWake {t : Nat} (h : tileEvent (.dozeWake t) s = some r) : Becomes (.dozeWake t) s r := by
  unfold tileEvent at h
  exact becomes_of_exec rfl (Option.some.inj h)

theorem becomes_alarmQuietExpiry (h : tileEvent .alarmQuietExpiry s = some r) : Becomes .alarmQuietExpiry s r := by
  unfold tileEvent at h
  obtain ⟨hdue, h⟩ := Option.ite_none_right_eq_some.1 h
  rw [Bool.and_assoc] at hdue
  exact becomes_of_exec rfl ((if_pos hdue).trans (Option.some.inj h))

end

/-! ## The instruction cache (11 R210, R213, 17 R325) -/

section
variable {s r : State} {t q : Nat} {g : Group}

/-- Nothing comes before the next instruction of a slice that has neither an asynchronous trap to take nor a breakpoint (18 R337). -/
theorem trapsFirst_eq_none {k : Nat} (hg : s.group? t q = some g)
    (h : ((g.slice k).asyncNow.isNone && ((g.slice k).pm || (g.slice k).skipBp || !s.breakAt (g.slice k).pc)) = true) :
    s.trapsFirst t q k = none := by
  have hx : s.slice t q k = g.slice k := by unfold State.slice; rw [hg]
  obtain ⟨hasync, hstep⟩ := Bool.and_eq_true_iff.1 h
  have hbreak : (!(g.slice k).pm && !(g.slice k).skipBp && s.breakAt (g.slice k).pc) = false := by
    simpa only [Bool.not_or, Bool.not_not, Bool.not_true] using congrArg not hstep
  unfold State.trapsFirst
  simp only [hx, Option.isNone_iff_eq_none.1 hasync, hbreak, Option.isSome_none, Bool.false_eq_true, if_false]

theorem foldl_trapsFirst {l : List Nat} (h : ∀ j ∈ l, s.trapsFirst t q j = none) :
    l.foldl (fun r j => (r.trapsFirst t q j).getD r) s = s := by
  induction l with
  | nil => rfl
  | cons j js ih =>
    obtain ⟨hj, hjs⟩ := List.forall_mem_cons.1 h
    rw [List.foldl_cons, hj]
    exact ih hjs

/-- The gang of a live slice has a lowest slice. -/
theorem gangSlices_ne_nil {k : Nat} (h : (g.slice k).live = true) : g.gangSlices (g.slice k).gang ≠ [] :=
  List.ne_nil_of_mem (List.mem_filter.2 ⟨mem_liveIdx_of_live h, decide_eq_true rfl⟩)

/-- Where no slice of the gang takes a trap first, the gang takes the fault of its fetch. -/
theorem fetchMiss_of_fault {k : Nat} {s1 : State} {tr : Trap} {beat : Nat} (hg : s.group? t q = some g) (hlive : (g.slice k).live = true)
    (hrun : ((g.gangSlices (g.slice k).gang).all fun j => (g.slice j).wait = .run && !g.gathers j) = true)
    (hfetch : s.fetch t g ((g.gangSlices (g.slice k).gang).headD k) = .fault s1 tr beat)
    (hfirst : ∀ j ∈ g.gangSlices (g.slice k).gang, s.trapsFirst t q j = none) :
    s.fetchMiss t q k = ((g.gangSlices (g.slice k).gang).foldl (fun r j => r.raise t q j tr beat) s1).fresh := by
  have hrest : ((g.gangSlices (g.slice k).gang).filter fun j => (s.trapsFirst t q j).isNone) = g.gangSlices (g.slice k).gang :=
    List.filter_eq_self.2 fun j hj => by rw [hfirst j hj]; rfl
  unfold State.fetchMiss
  simp only [hg, hlive, hrun, hfetch, Bool.and_self, if_true, hrest, foldl_trapsFirst hfirst]
  obtain ⟨j, js, hl⟩ := List.exists_cons_of_ne_nil (gangSlices_ne_nil hlive)
  rw [hl] at hfetch ⊢
  rw [List.headD_cons] at hfetch
  simp only [hfetch]

theorem becomes_instructionFetchMiss {k : Nat} (h : tileEvent (.instructionFetchMiss t q k) s = some r) :
    Becomes (.instructionFetchMiss t q k) s r := by
  unfold tileEvent at h
  cases hg : s.group? t q with
  | none => simp only [hg] at h; exact nomatch h
  | some g =>
    simp only [hg] at h
    obtain ⟨hdue, h⟩ := Option.ite_none_right_eq_some.1 h
    have ⟨hlive, hrun⟩ := Bool.and_eq_true_iff.1 hdue
    cases hf : s.fetch t g ((g.gangSlices (g.slice k).gang).headD k) with
    | words s1 w0 w1 => simp only [hf] at h; exact nomatch h
    | held => simp only [hf] at h; exact nomatch h
    | fault s1 tr beat =>
      simp only [hf] at h
      obtain ⟨hcalm, h⟩ := Option.ite_none_right_eq_some.1 h
      have hfirst : ∀ j ∈ g.gangSlices (g.slice k).gang, s.trapsFirst t q j = none := fun j hj =>
        trapsFirst_eq_none hg (List.all_eq_true.1 hcalm j hj)
      exact becomes_of_exec_fresh (congrArg Host.Outcome.next (fetchMiss_of_fault hg hlive hrun hf hfirst)) (Option.some.inj h)
    | miss s1 loc =>
      simp only [hf] at h
      refine becomes_of_exec rfl ?_
      unfold State.fetchMiss
      simp only [hg, hdue, hf, if_true]
      exact eq_of_some_else Option.some.inj h

theorem icFill_of_due {i : Nat} (h : tileEvent (.icacheFill t i) s = some r) : s.icFill t i = r := by
  unfold tileEvent at h
  unfold State.icFill
  cases hn : (s.tile t).icPend[i]? with
  | none => simp only [hn] at h; exact nomatch h
  | some n =>
    simp only [hn] at h ⊢
    exact eq_of_none_else s Option.some.inj h

theorem becomes_icacheFill {i : Nat} (h : tileEvent (.icacheFill t i) s = some r) : Becomes (.icacheFill t i) s r :=
  becomes_of_exec rfl (icFill_of_due h)

end

/-! ## The matrix unit and bursts (14 R282-R298) -/

section
variable {s r : State} {t : Nat}

theorem becomes_matrixAccept {q : Nat} (h : tileEvent (.matrixAccept t q) s = some r) : Becomes (.matrixAccept t q) s r := by
  unfold tileEvent at h
  cases hq : s.quarter t with
  | none s1 => simp only [hq] at h; exact nomatch h
  | issue c s1 =>
    simp only [hq] at h
    obtain ⟨hdue, h⟩ := Option.ite_none_left_eq_some.1 h
    cases hg : (s1.focusOn t c).group? t q with
    | none => simp only [hg] at h; exact nomatch h
    | some g =>
      simp only [hg] at h
      obtain ⟨a, ha, hr⟩ := Option.map_eq_some_iff.1 h
      have hm : s.matrixAccept t q = (matrixIssue (s1.focusOn t c) t q).fresh := by
        unfold State.matrixAccept
        simp only [hq]
        exact if_pos (by simpa using hdue)
      refine becomes_of_exec_fresh (congrArg Host.Outcome.next hm) ?_
      unfold matrixIssue
      simp only [hg, ha]
      exact hr

theorem mxComplete_of_due (h : tileEvent (.matrixComplete t) s = some r) : s.mxComplete t = r ∨ s.mxComplete t = r.fresh := by
  unfold tileEvent at h
  cases hm : (s.tile t).mx with
  | none => simp only [hm] at h; exact nomatch h
  | some m =>
    simp only [hm] at h
    unfold State.mxComplete
    simp only [hm]
    split
    next hi => simp only [hi] at h; exact nomatch h
    next hmst =>
      split at h
      next hi => exact (hmst _ _ _ _ _ _ _ _ _ _ hi).elim
      next hg _ =>
        simp only [hg]
        exact .inl (Option.some.inj h)
      next g hg _ =>
        simp only [hg]
        split at h
        next hgid => rw [if_pos hgid]; exact .inl (Option.some.inj h)
        next hgid => rw [if_neg hgid]; exact .inr (congrArg State.fresh (Option.some.inj h))

theorem becomes_matrixComplete (h : tileEvent (.matrixComplete t) s = some r) : Becomes (.matrixComplete t) s r :=
  becomes_of_exec_or_fresh rfl (mxComplete_of_due h)

theorem mstDone_of_due (h : tileEvent (.mstConvertDone t) s = some r) : s.mstDone t = r ∨ s.mstDone t = r.fresh := by
  unfold tileEvent at h
  cases hm : (s.tile t).mx with
  | none => simp only [hm] at h; exact nomatch h
  | some m =>
    simp only [hm] at h
    split at h
    next hi =>
      split at h
      next hg =>
        unfold State.mstDone
        simp only [hm, hi, hg]
        exact .inl (Option.some.inj h)
      next g hg =>
        unfold State.mstDone
        simp only [hm, hi, hg]
        split at h
        next hdue => rw [if_pos hdue, h]; exact .inr rfl
        next hdue => rw [if_neg hdue]; exact .inl (Option.some.inj h)
    next => exact nomatch h

theorem becomes_mstConvertDone (h : tileEvent (.mstConvertDone t) s = some r) : Becomes (.mstConvertDone t) s r :=
  becomes_of_exec_or_fresh rfl (mstDone_of_due h)

theorem becomes_burstEnd (h : tileEvent (.burstEnd t) s = some r) : Becomes (.burstEnd t) s r := by
  unfold tileEvent at h
  obtain ⟨hidle, h⟩ := Option.ite_none_right_eq_some.1 h
  refine becomes_of_exec rfl ?_
  rw [updTile_ite, if_pos hidle]
  exact Option.some.inj h

theorem becomes_burstTokenRotate (h : tileEvent .burstTokenRotate s = some r) : Becomes .burstTokenRotate s r := by
  unfold tileEvent at h
  exact becomes_of_exec rfl (eq_of_some_else_none s h)

end

/-- Settles O27: each event of a tile, by its own lemma. -/
theorem tileEventsHappen : Obligations.TileEventsHappen := by
  intro i s r h
  cases i with
  | reedRingInjection die => exact becomes_reedRingInjection h
  | shareArrival t => exact becomes_shareArrival h
  | barrierArrive t q k => exact becomes_barrierArrive h
  | barrierLeave i => exact becomes_barrierLeave h
  | barrierRelease t => exact becomes_barrierRelease h
  | gearResolveChange t => exact becomes_gearResolveChange h
  | gearSwitchStart t => exact becomes_gearSwitchStart h
  | gearSwitchEnd t => exact becomes_gearSwitchEnd h
  | dozeStart t => exact becomes_dozeStart h
  | dozeWake t => exact becomes_dozeWake h
  | alarmQuietExpiry => exact becomes_alarmQuietExpiry h
  | instructionFetchMiss t q k => exact becomes_instructionFetchMiss h
  | icacheFill t i => exact becomes_icacheFill h
  | matrixAccept t q => exact becomes_matrixAccept h
  | matrixComplete t => exact becomes_matrixComplete h
  | mstConvertDone t => exact becomes_mstConvertDone h
  | burstEnd t => exact becomes_burstEnd h
  | burstTokenRotate => exact becomes_burstTokenRotate h
  | _ => cases h

end Sys2Proof.Proofs
end

section
/-! PROOF. Beats of arrivals at a barrier (O14): each slice arrives in its turn, or traps, and the last arrival makes its group's. -/

namespace Sys2Proof.Proofs

open Sys2Proof.Machine Sys2Proof.Spec

section
variable {i : Instr} {n : Nat} {d : Option SReg} {r : State} {e : Ctx} {x : Slice} {p : State × Option Trap}

theorem runsBeat_of_arrival (hi : Spec.arrival i = some (n, d)) (s : State) : exec i s = runBeat s i (arriveBeat i n d) := by
  unfold Spec.arrival at hi
  split at hi
  case h_3 => exact nomatch hi
  all_goals obtain ⟨rfl, rfl⟩ := hi; rfl

theorem afterBeat_of_arrival (hi : Spec.arrival i = some (n, d)) (s m : State) :
    afterBeat i s m = m.updGroup s.focus.tile s.focus.slot fun g => g.completeArrival n := by
  unfold Spec.arrival at hi
  split at hi
  case h_3 => exact nomatch hi
  all_goals obtain ⟨rfl, rfl⟩ := hi; rfl

/-- A slice that has arrived: it goes on with its token, or waits for the barrier (10 R194, R196). -/
def arrivedSlice (i : Instr) (n : Nat) (d : Option SReg) (tok : Word) (x : Slice) : Slice :=
  let y : Slice := { x.adv i with arrv := x.arrv ||| (1#128 <<< n) }
  match d with
  | some d => y.post [wS d.toNat (tok.setWidth 64)]
  | none => { y with wait := .barrier n tok, parkPc := x.pc }

/-- A turn traps, or its slice has arrived with a token; it is then the model's. -/
theorem arriveTurn_cases (hi : Spec.arrival i = some (n, d)) (h : arriveTurn i r e x = some p) :
    arriveSlice i n d r e x = turnRes p ∧
      ((∃ tr, p = (r, some tr)) ∨ ∃ g tok, r.group? e.t e.slot = some g ∧
        p = (r.setGroup e.t e.slot ({ g with arrTok := Sparse.set 0 g.arrTok n tok }.setSlice e.i (arrivedSlice i n d tok x)), none)) := by
  unfold arriveTurn at h
  unfold arriveSlice
  cases hg : r.group? e.t e.slot with
  | none => simp only [hi, hg] at h; exact nomatch h
  | some g =>
    simp only [hi, hg] at h ⊢
    cases hbar : r.barTrap e.t g n true with
    | some tr =>
      simp only [hbar, Option.some.injEq] at h ⊢
      exact h ▸ ⟨rfl, .inl ⟨tr, rfl⟩⟩
    | none =>
      simp only [hbar] at h ⊢
      split at h
      next hout =>
        rw [if_pos hout]
        exact Option.some.inj h ▸ ⟨rfl, .inl ⟨_, rfl⟩⟩
      next hin =>
        obtain ⟨hfree, h⟩ := Option.ite_none_left_eq_some.1 h
        rw [if_neg hin, if_neg hfree]
        exact Option.some.inj h ▸ ⟨rfl, .inr ⟨g, _, rfl, rfl⟩⟩

theorem retries_arrivedSlice (tok : Word) (hx : x.wait = .run) : (arrivedSlice i n d tok x).wait.retries = false := by
  cases d with
  | none => rfl
  | some d =>
    unfold arrivedSlice
    dsimp only
    rw [post_wait, adv_wait, hx]
    rfl

theorem goesOn_of_arriveTurn {l : List Nat} (hi : Spec.arrival i = some (n, d)) (hx : x.wait = .run) (h : arriveTurn i r e x = some p) :
    GoesOn l e r p := by
  obtain ⟨-, ⟨tr, rfl⟩ | ⟨g, tok, hg, rfl⟩⟩ := arriveTurn_cases hi h
  · exact id
  · rintro ⟨g', hg', hgo⟩
    obtain rfl : g = g' := Option.some.inj (hg.symm.trans hg')
    exact ⟨_, group?_setGroup_self .., retries_setSlice hgo fun _ => retries_arrivedSlice tok hx⟩

end

/-- Settles O14: the slices' turns are those of the model's beat of arrivals, and none is left to execute again. -/
theorem arrivalsComplete : Obligations.ArrivalsComplete := by
  intro s i g l c cost m trs hi hI h
  obtain ⟨⟨n, d⟩, hi⟩ := Option.isSome_iff_exists.1 hi
  have hturns : eachSlice s.focus.tile s.focus.slot (arriveSlice i n d) c s l = (m, trs.map fun p => (p.1, p.2, 0)) :=
    eachSlice_parts hI.here (fun k _ r p hp => (arriveTurn_cases hi hp).1) h
  have hgo : Going m s.focus.tile s.focus.slot l :=
    going_of_inTurns (fun k hk r p hp => goesOn_of_arriveTurn (e := ctxOf s _ _ g k) hi (hI.ready k hk) hp)
      (going_of_toIssue hI.toToIssue) h
  rw [afterBeat_of_arrival hi]
  refine parted_of_issues hI (runsBeat_of_arrival hi s) ?_ (hgo.updGroup fun _ hg => retries_completeArrival hg n)
  unfold arriveBeat
  rw [hturns]

end Sys2Proof.Proofs
end

section
/-! PROOF. FENCE, the hints, the gear request and the sections without pre-emption (O20): the beat of each leaves what the statement says,
and its slices go on. -/

namespace Sys2Proof.Proofs

open Sys2Proof.Machine Sys2Proof.Spec

/-! ## What these beats leave as it was -/

section
variable {s : State} {t q : Nat} {l : List Nat}

theorem Going.advAll (hs : Going s t q l) (i : Instr) (js : List Nat) : Going (s.advAll t q i js) t q l :=
  Going.foldl (fun _ k _ hr => hr.updGroup fun _ hg => retries_setSlice hg (hg k)) hs

theorem sameGroups_deferAt (s : State) (t : Nat) (g : Group) (k : Nat) (pc : DWord) (ad array : Nat) :
    SameGroups s (s.deferAt t g k pc ad array) := ⟨fun _ => rfl⟩

theorem sameGroups_deferPoison (s : State) (t : Nat) (g : Group) (k : Nat) (pc : DWord) (n : Nat) (ls : List Loc) :
    SameGroups s (s.deferPoison t g k pc n ls) := by
  unfold State.deferPoison
  dsimp only
  split
  · exact sameGroups_deferAt ..
  · exact .refl s

theorem sameGroups_atSlice (s : State) (die a : Nat) (w : Bool) (ls : List (Loc × Nat)) : SameGroups s (s.atSlice die a w ls) :=
  sameGroups_foldl (fun _ _ => (sameGroups_countReq ..).trans (sameGroups_sliceLine ..)) _ _

end

/-! ## What each beat comes to -/

/-- The beat runs a plan that takes no trap and comes to what the statement says, its slices free to go on. -/
def RunsHint (i : Instr) (plan : Nat → Nat → Plan) : Prop :=
  (∀ s, exec i s = runBeat s i plan) ∧ ∀ c s t q g l m, s.group? t q = some g → Going s t q l → hintAfter i s t q g l = some m →
    plan t q c s l = (m, []) ∧ Going m t q l

/-- The queue entries of a FENCE, as the statement has them (12 R252). -/
theorem fenceEntries_eq (s : State) (t q : Nat) (g : Group) (kinds : BitVec 4) (sc : Scope) (od : Order) :
    s.fenceEntries t q g kinds sc od =
      (if od = .rel then [] else [.fence kinds false false (s.heldToks t q) [] false]) ++
        if (od = .rel || od = .ar) = true then
          [.fence (if od = .ar then kinds ||| 2 else 2) (od = .ar) (sc = .sys && kinds &&& 0b1110 ≠ 0)
            (if kinds.getLsbD 0 then s.heldToks t q else []) (if kinds.getLsbD 2 then s.groupCopies t q g else [])
            (kinds.getLsbD 3 && s.groupMatrix t q)]
        else [] := by
  cases od <;> rfl

theorem runsHint_fence (h : Hdr) (kinds : BitVec 4) (sc : Scope) (od : Order) :
    RunsHint (.fence h kinds sc od) (fencePlan (.fence h kinds sc od) kinds sc od) := by
  refine ⟨fun _ => rfl, fun c s t q g l m hg hgo hm => ?_⟩
  have hm' : m = ((s.fenceEntries t q g kinds sc od).foldl (fun r e => r.push t q e) s).advAll t q (.fence h kinds sc od) l := by
    rw [fenceEntries_eq]
    exact (Option.some.inj hm).symm
  subst hm'
  unfold fencePlan withGroup
  rw [hg]
  exact ⟨rfl, (Going.foldl (fun _ e _ hr => hr.push e) hgo).advAll _ _⟩

/-- What a PREF of some lines leaves, before its slices go on: the lines of the lanes that translate are brought in, and poison that is met
is logged (11 R233, 21 R380). -/
def prefetched (s : State) (t : Nat) (g : Group) (l2 : Bool) (k : Nat) (rs : List LaneReq) : State :=
  let p := s.translate t g.asid .pref (fun lane => (g.slice (lane / 4)).pm) (rs.map fun r => (r.lane, r.va))
  let locs := (rs.filter fun r => (s.walkPoison t g.asid r.va).isNone && (pageOf p.1 r.va).any fun b => b.cause = 0).map fun r =>
    p.2.locIn p.1 r.va
  let lines := locs.map fun x => (x.line, 256)
  let s1 := if l2 then p.2.atSlice (t / 32) g.asid false lines else p.2.touch t g.asid false lines
  match rs.filterMap fun r => s.walkPoison t g.asid r.va with
  | [] => s1.deferPoison t g k (g.slice k).pc 0 locs
  | u :: _ => s1.deferAt t g k (g.slice k).pc u (s.arrayOf noTile u)

theorem sameGroups_prefetched (s : State) (t : Nat) (g : Group) (l2 : Bool) (k : Nat) (rs : List LaneReq) :
    SameGroups s (prefetched s t g l2 k rs) := by
  unfold prefetched
  dsimp only
  have hlines (r : State) (ls : List (Loc × Nat)) :
      SameGroups r (if l2 then r.atSlice (t / 32) g.asid false ls else r.touch t g.asid false ls) :=
    sameGroups_ite (sameGroups_atSlice ..) (sameGroups_touch ..)
  have hpages := sameGroups_translate s t g.asid .pref (fun lane => (g.slice (lane / 4)).pm) (rs.map fun r => (r.lane, r.va))
  split
  · exact (hpages.trans (hlines ..)).trans (sameGroups_deferPoison ..)
  · exact (hpages.trans (hlines ..)).trans (sameGroups_deferAt ..)

/-- The first poisoned table entry that a beat's lookups read. -/
theorem walkBad_fst (s : State) (t a : Nat) (rs : List LaneReq) :
    (s.walkBad t a rs).map Prod.fst = (rs.filterMap fun r => s.walkPoison t a r.va).head? := by
  unfold State.walkBad
  induction rs with
  | nil => rfl
  | cons r rs ih =>
    cases hr : s.walkPoison t a r.va with
    | none => simpa only [List.filter_cons, List.filterMap_cons, hr, Option.isSome_none, Bool.false_eq_true, if_false] using ih
    | some u => simp [hr]

theorem prefPlan_eq {s : State} {t q : Nat} {g : Group} {l : List Nat} {h : Hdr} {base : Base} {off : BitVec 10} (hg : s.group? t q = some g)
    (hheld : s.walkHeld t g.asid ((lineReqs s t q g l h base off).map LaneReq.va) = false) (i : Instr) (l2 : Bool) (c : UClass) :
    prefPlan i h base l2 off t q c s l = ((prefetched s t g l2 (l.headD 0) (lineReqs s t q g l h base off)).advAll t q i l, []) := by
  have hfirst := walkBad_fst s t g.asid (lineReqs s t q g l h base off)
  unfold prefPlan withGroup prefetched State.placed
  simp only [hg, hheld, Bool.false_eq_true, if_false, List.map_map, Function.comp_def]
  cases hbad : (lineReqs s t q g l h base off).filterMap fun r => s.walkPoison t g.asid r.va with
  | nil =>
    rw [hbad, List.head?_nil, Option.map_eq_none_iff] at hfirst
    rw [hfirst]
  | cons u us =>
    rw [hbad, List.head?_cons, Option.map_eq_some_iff] at hfirst
    obtain ⟨b, hb, rfl⟩ := hfirst
    rw [hb]

theorem runsHint_pref (h : Hdr) (base : Base) (l2 : Bool) (off : BitVec 10) (sc : Scope) :
    RunsHint (.pref h base l2 off sc) (prefPlan (.pref h base l2 off sc) h base l2 off) := by
  refine ⟨fun _ => rfl, fun c s t q g l m hg hgo hm => ?_⟩
  obtain ⟨hheld, hm⟩ := Option.ite_none_left_eq_some.1 hm
  obtain rfl : (prefetched s t g l2 (l.headD 0) (lineReqs s t q g l h base off)).advAll t q (.pref h base l2 off sc) l = m :=
    Option.some.inj hm
  exact ⟨prefPlan_eq hg (Bool.eq_false_iff.2 hheld) .., (hgo.of_sameGroups (sameGroups_prefetched ..)).advAll _ _⟩

/-- What a PGREQ of some lines leaves, before its slices go on: a record for each page that is invalid or not resident (11 R234, 17 R332). -/
def pagesRequested (s : State) (t : Nat) (g : Group) (w : Bool) (rs : List LaneReq) : State :=
  let p := s.translate t g.asid .pgreq (fun lane => (g.slice (lane / 4)).pm) (rs.map fun r => (r.lane, r.va))
  let bad := p.1.filter fun b => b.page.cause = 1 || b.page.cause = 2
  let recs := bad.zipIdx.map fun b => p.2.beatRec t g .pgreq (if w then 0x11 else 0x10) bad.length b.2 b.1
  { p.2.sendRecords p.2.nextId recs with nextId := p.2.nextId + 1 }

theorem sameGroups_pagesRequested (s : State) (t : Nat) (g : Group) (w : Bool) (rs : List LaneReq) :
    SameGroups s (pagesRequested s t g w rs) :=
  SameGroups.trans (sameGroups_translate ..) ⟨fun _ => rfl⟩

theorem pgreqPlan_eq {s : State} {t q : Nat} {g : Group} {l : List Nat} {h : Hdr} {base : Base} {off : BitVec 10}
    (hg : s.group? t q = some g) (hstops : lookStops s t g (lineReqs s t q g l h base off) = false) (i : Instr) (w : Bool) (c : UClass) :
    pgreqPlan i h base w off t q c s l = ((pagesRequested s t g w (lineReqs s t q g l h base off)).advAll t q i l, []) := by
  unfold pgreqPlan withGroup
  rw [hg]
  exact lookBeat_of_not_lookStops hstops _

theorem runsHint_pgreq (h : Hdr) (base : Base) (w : Bool) (off : BitVec 10) (sc : Scope) :
    RunsHint (.pgreq h base w off sc) (pgreqPlan (.pgreq h base w off sc) h base w off) := by
  refine ⟨fun _ => rfl, fun c s t q g l m hg hgo hm => ?_⟩
  obtain ⟨hstops, hm⟩ := Option.ite_none_left_eq_some.1 hm
  obtain rfl : (pagesRequested s t g w (lineReqs s t q g l h base off)).advAll t q (.pgreq h base w off sc) l = m := Option.some.inj hm
  exact ⟨pgreqPlan_eq hg (Bool.eq_false_iff.2 hstops) .., (hgo.of_sameGroups (sameGroups_pagesRequested ..)).advAll _ _⟩

/-- A beat that looks nothing up. -/
theorem runsHint_of_total {i : Instr} {f : Nat → Nat → State → List Nat → State}
    (hruns : ∀ s, exec i s = runBeat s i fun t q _ s l => (f t q s l, [])) (hhint : ∀ s t q g l, hintAfter i s t q g l = some (f t q s l))
    (hgo : ∀ s t q l, Going s t q l → Going (f t q s l) t q l) : ∃ plan, RunsHint i plan :=
  ⟨_, hruns, fun c s t q g l m _ hs hm => by
    obtain rfl : f t q s l = m := Option.some.inj ((hhint ..).symm.trans hm)
    exact ⟨rfl, hgo s t q l hs⟩⟩

/-- 10 R199. -/
theorem runsHint_gear (h : Hdr) (fast : Bool) : ∃ plan, RunsHint (.gear h fast) plan :=
  runsHint_of_total (f := fun t q s l => (s.updGroup t q fun g => { g with gearReq := fast }).advAll t q (.gear h fast) l)
    (fun _ => rfl) (fun _ _ _ _ _ => rfl) fun _ _ _ _ hs => Going.advAll (hs.updGroup fun _ hg => by exact hg) _ _

/-- 10 R204. -/
theorem runsHint_nopre (h : Hdr) : ∃ plan, RunsHint (.nopre h) plan :=
  runsHint_of_total
    (f := fun t q s l => (s.updGroup t q fun g => if g.sect then g else { g with sect := true, sectStart := s.time }).advAll t q (.nopre h) l)
    (fun _ => rfl) (fun _ _ _ _ _ => rfl) fun _ _ _ _ hs => Going.advAll (hs.updGroup fun _ hg => by split <;> exact hg) _ _

/-- PRE by a slice at trap depth 0 closes the section, and lets a held pre-emption through (10 R204). -/
def sectionClosed (l : List Nat) (g : Group) : Group := if l.any fun k => (g.slice k).td = 0 then { g with sect := false }.letPreempt else g

theorem retries_sectionClosed {l : List Nat} {g : Group} (hg : ∀ k ∈ l, (g.slice k).wait.retries = false) :
    ∀ k ∈ l, ((sectionClosed l g).slice k).wait.retries = false := by
  unfold sectionClosed
  split
  · exact retries_letPreempt hg
  · exact hg

theorem runsHint_pre (h : Hdr) : ∃ plan, RunsHint (.pre h) plan :=
  runsHint_of_total (f := fun t q s l => (s.advAll t q (.pre h) l).updGroup t q (sectionClosed l)) (fun _ => rfl) (fun _ _ _ _ _ => rfl)
    fun _ _ _ _ hs => Going.updGroup (hs.advAll _ _) fun _ hg => retries_sectionClosed hg

/-- The instructions that the statement speaks of. -/
theorem exists_runsHint {i : Instr} {s : State} {t q : Nat} {g : Group} {l : List Nat} {m : State} (h : hintAfter i s t q g l = some m) :
    ∃ plan, RunsHint i plan := by
  cases i with
  | fence hd kinds sc od => exact ⟨_, runsHint_fence hd kinds sc od⟩
  | pref hd base l2 off sc => exact ⟨_, runsHint_pref hd base l2 off sc⟩
  | pgreq hd base w off sc => exact ⟨_, runsHint_pgreq hd base w off sc⟩
  | gear hd fast => exact runsHint_gear hd fast
  | nopre hd => exact runsHint_nopre hd
  | pre hd => exact runsHint_pre hd
  | _ => exact nomatch h

/-- Settles O20: the plan of each instruction comes to what the statement says. -/
theorem fencesAndHintsComplete : Obligations.FencesAndHintsComplete := by
  intro s i g l c cost m hI hm
  obtain ⟨plan, hruns, hplan⟩ := exists_runsHint hm
  obtain ⟨hres, hgo⟩ := hplan c s _ _ g l m hI.here (going_of_toIssue hI.toToIssue) hm
  exact made_of_goingPlan hI (hruns s) hres hgo

end Sys2Proof.Proofs
end

section
/-! PROOF. What the events of groups' ends and of the scheduler do where they are due (O29): groups that end or are saved, teams that are killed,
launch records, placement, growth, shrinking and escalation, tasks, completion, and the in-field test. For each event, the state that its
rule gives is the one that the model's function gives, apart from the counter of free choices. -/

namespace Sys2Proof.Proofs

open Sys2Proof.Machine Sys2Proof.Spec

/-! ## The end of groups and teams (10 R186, 18 R348, 21 R382) -/

section
variable {s r : State} {t q k : Nat}

theorem saveLeave_of_due (h : schedEvent (.groupSaveLeave t q) s = some r) : s.saveLeave t q = r := by
  unfold schedEvent at h
  unfold State.saveLeave
  cases hg : s.group? t q with
  | none => simp only [hg] at h; exact nomatch h
  | some g =>
    simp only [hg] at h ⊢
    cases hk : g.saveKind with
    | none => simp only [hk] at h; exact nomatch h
    | some p =>
      simp only [hk] at h ⊢
      refine eq_of_none_else s (fun h => ?_) h
      cases hg1 : (g.arrSent.foldl (fun r a => r.arriveAt t q a.k) (s.drainHost t g.asid)).group? t q with
      | none => simp only [hg1] at h; exact nomatch h
      | some g1 =>
        simp only [hg1] at h ⊢
        exact Option.some.inj h

theorem becomes_groupSaveLeave (h : schedEvent (.groupSaveLeave t q) s = some r) : Becomes (.groupSaveLeave t q) s r :=
  becomes_of_exec_fresh rfl (saveLeave_of_due h)

/-- A group without a live slice has none that has halted. -/
theorem haltKind_of_liveIdx_nil {g : Group} (h : g.liveIdx.isEmpty = true) : g.haltKind = none := by
  unfold Group.haltKind
  rw [h]
  rfl

theorem groupEnd_of_due (h : schedEvent (.groupEnd t q) s = some r) : s.groupEnd t q = r := by
  unfold schedEvent at h
  unfold State.groupEnd
  cases hg : s.group? t q with
  | none => simp only [hg] at h; exact nomatch h
  | some g =>
    simp only [hg] at h
    obtain ⟨hdue, h⟩ := Option.ite_none_left_eq_some.1 h
    have hempty : g.liveIdx.isEmpty = true := by
      simp only [Bool.or_eq_true, not_or, Bool.not_eq_true', Bool.not_eq_false] at hdue
      exact hdue.1.1
    simp only [haltKind_of_liveIdx_nil hempty, Bool.false_eq_true, if_false, hg]
    rw [if_neg hdue]
    exact Option.some.inj h

theorem becomes_groupEnd (h : schedEvent (.groupEnd t q) s = some r) : Becomes (.groupEnd t q) s r :=
  becomes_of_exec_fresh rfl (groupEnd_of_due h)

theorem killTeam_of_due (h : schedEvent (.teamKilled t k) s = some r) : s.killTeam t k = r := by
  unfold schedEvent at h
  unfold State.killTeam
  cases hm : s.team? t k with
  | none => simp only [hm] at h; exact nomatch h
  | some m =>
    simp only [hm] at h ⊢
    obtain ⟨hdue, h⟩ := Option.ite_none_left_eq_some.1 h
    rw [if_pos (by simpa using hdue)]
    exact Option.some.inj h

theorem becomes_teamKilled (h : schedEvent (.teamKilled t k) s = some r) : Becomes (.teamKilled t k) s r :=
  becomes_of_exec_fresh rfl (killTeam_of_due h)

end

/-! ## Launch records (16 R304-R308) -/

section
variable {s r : State} {n : Nat}

/-- A queue has records pending (16 R304). -/
theorem running_and_pending (s : State) (x : Queue) :
    (s.powered && s.booted && x.en && !x.stop && decide (x.tail ≠ x.head)) = (s.up && x.pending) := by
  simp only [State.up, Queue.pending, Bool.and_assoc]

theorem not_pending (s : State) (x : Queue) :
    (!(s.powered && s.booted) || !x.en || x.stop || decide (x.tail = x.head)) = (!s.up || !x.pending) := by
  simp [State.up, Queue.pending, Bool.or_assoc]

theorem readRecord_of_due (h : schedEvent (.launchRecordRead n) s = some r) : s.readRecord n = r := by
  unfold schedEvent at h
  dsimp only at h
  rw [not_pending] at h
  unfold State.readRecord Queue.over
  simp only [decide_eq_true_eq]
  refine eq_of_none_else s (eq_of_some_else (eq_of_none_else s fun h => ?_)) h
  cases hread : s.hubRead (s.queue n).asid .load (s.queue n).slotVa 16 with
  | wait => simp only [hread] at h; exact nomatch h
  | bad s1 => simp only [hread] at h ⊢; exact Option.some.inj h
  | nonres s1 entry => simp only [hread] at h ⊢; exact Option.some.inj h
  | ok s1 loc v =>
    simp only [hread] at h ⊢
    unfold State.recordWords
    split at h
    next s2 hdep =>
      rw [hdep]
      exact Option.some.inj h
    next s2 d hdep =>
      rw [hdep]
      dsimp only
      split
      next hcode =>
        rw [hcode] at h
        exact Option.some.inj h
      next c hcode =>
        rw [hcode] at h
        exact Option.some.inj h

theorem becomes_launchRecordRead (h : schedEvent (.launchRecordRead n) s = some r) : Becomes (.launchRecordRead n) s r :=
  becomes_of_exec_fresh rfl (readRecord_of_due h)

theorem acceptRecord_of_due (h : schedEvent (.launchRecordAccept n) s = some r) : s.acceptRecord n = r := by
  unfold schedEvent at h
  unfold State.acceptRecord
  cases hcur : (s.queue n).cur with
  | none => simp only [hcur] at h; exact nomatch h
  | some a =>
    simp only [hcur, running_and_pending] at h ⊢
    exact eq_of_some_else (eq_of_some_else_none s) h

theorem becomes_launchRecordAccept (h : schedEvent (.launchRecordAccept n) s = some r) : Becomes (.launchRecordAccept n) s r :=
  becomes_of_exec rfl (acceptRecord_of_due h)

theorem recheck_of_due (h : schedEvent (.dependenceRecheck n) s = some r) : s.recheck n = r := by
  unfold schedEvent at h
  unfold State.recheck Queue.over
  cases hcur : (s.queue n).cur with
  | none => simp only [hcur] at h; exact nomatch h
  | some a =>
    simp only [hcur, not_pending, decide_eq_true_eq] at h ⊢
    refine eq_of_none_else s (eq_of_some_else fun h => ?_) h
    rcases hdep : s.dependence (s.queue n).asid a.words a.asked with ⟨s1, _ | d⟩
    · simp only [hdep] at h ⊢
      exact Option.some.inj h
    · simp only [hdep] at h ⊢
      exact Option.some.inj h

theorem becomes_dependenceRecheck (h : schedEvent (.dependenceRecheck n) s = some r) : Becomes (.dependenceRecheck n) s r :=
  becomes_of_exec_fresh rfl (recheck_of_due h)

end

/-! ## Placement, growth, shrinking and escalation (16 R310-R313) -/

section
variable {s r : State} {t k : Nat}

theorem becomes_schedulerPlacement (h : schedEvent .schedulerPlacement s = some r) : Becomes .schedulerPlacement s r :=
  becomes_of_exec rfl (Option.some.inj h)

theorem grow_of_due (h : schedEvent (.growthGroupStart t k) s = some r) : s.grow t k = r := by
  unfold schedEvent at h
  unfold State.grow State.elapsed
  cases hm : s.team? t k with
  | none => simp only [hm] at h; exact nomatch h
  | some m =>
    simp only [hm] at h ⊢
    cases hl : s.launch? m.launch with
    | none => simp only [hl] at h; exact nomatch h
    | some l =>
      simp only [hl] at h ⊢
      refine eq_of_none_else s (fun h => ?_) h
      obtain ⟨y, hy, h⟩ := Option.map_eq_some_iff.1 h
      unfold allSlices
      rw [hy]
      exact h

theorem becomes_growthGroupStart (h : schedEvent (.growthGroupStart t k) s = some r) : Becomes (.growthGroupStart t k) s r :=
  becomes_of_exec rfl (grow_of_due h)

theorem askShrink_of_due (h : schedEvent (.shrinkRequest t k) s = some r) : s.askShrink t k = r := by
  unfold schedEvent at h
  unfold State.askShrink State.elapsed State.updTeam
  cases hm : s.team? t k with
  | none => simp only [hm] at h; exact nomatch h
  | some m =>
    simp only [hm] at h ⊢
    exact eq_of_some_else_none s h

theorem becomes_shrinkRequest (h : schedEvent (.shrinkRequest t k) s = some r) : Becomes (.shrinkRequest t k) s r :=
  becomes_of_exec rfl (askShrink_of_due h)

/-- A request for PREEMPT to a group that is there. -/
theorem preempt_eq {q : Nat} {g : Group} (hg : s.group? t q = some g) :
    s.preempt t q = s.setGroup t q { g with preReq := true }.letPreempt := updGroup_eq hg _

theorem escalate_of_due (h : schedEvent .preemptEscalation s = some r) : s.escalate = r := by
  unfold schedEvent at h
  unfold State.escalate
  cases hs : s.starved with
  | none => simp only [hs] at h; exact nomatch h
  | some o =>
    simp only [hs] at h ⊢
    refine Eq.trans ?_ (Option.some.inj h)
    congr 1
    funext r v
    cases hg : r.group? v.1 v.2 with
    | none => rfl
    | some g => simp only [preempt_eq hg]

theorem becomes_preemptEscalation (h : schedEvent .preemptEscalation s = some r) : Becomes .preemptEscalation s r :=
  becomes_of_exec rfl (escalate_of_due h)

end

/-! ## Tasks (16 R316, R317) -/

section
variable {s r : State} {i : Nat}

theorem becomes_gatherClose (h : schedEvent (.gatherClose i) s = some r) : Becomes (.gatherClose i) s r := by
  unfold schedEvent at h
  refine becomes_of_exec rfl ?_
  cases hq : s.gathers[i]? with
  | none => simp only [hq] at h; exact nomatch h
  | some q =>
    simp only [hq] at h ⊢
    exact eq_of_some_else_none s h

/-- A retiring record whose turn it is acts on its successor counter as its rule says. -/
theorem retireAt_of_due (h : schedEvent (.taskRetire i) s = some r) : (s.up && s.retireTurn i) = true ∧ s.retireAt i = r := by
  unfold schedEvent at h
  unfold State.retireTurn State.retireAt
  cases hr : s.retiring[i]? with
  | none => simp only [hr] at h; exact nomatch h
  | some a =>
    simp only [hr] at h ⊢
    obtain ⟨hdue, h⟩ := Option.ite_none_left_eq_some.1 h
    refine ⟨by simpa [State.up] using hdue, ?_⟩
    cases hd : a.dep with
    | some ws =>
      simp only [hd] at h ⊢
      exact eq_of_some_else_none s h
    | none =>
      simp only [hd] at h ⊢
      refine eq_of_some_else (fun h => ?_) h
      cases hread : s.hubRead (s.launchAsid a.launch) .atomic ((a.words.getD 2 0).toNat % 2 ^ 56) 2 with
      | wait => simp only [hread] at h; exact nomatch h
      | bad s1 => simp only [hread] at h ⊢; exact Option.some.inj h
      | nonres s1 entry => simp only [hread] at h ⊢; exact Option.some.inj h
      | ok s1 loc v =>
        simp only [hread] at h ⊢
        exact eq_of_some_else (eq_of_some_else Option.some.inj) h

theorem becomes_taskRetire (h : schedEvent (.taskRetire i) s = some r) : Becomes (.taskRetire i) s r := by
  obtain ⟨hturn, hr⟩ := retireAt_of_due h
  exact becomes_of_exec_fresh (congrArg Host.Outcome.next (if_pos hturn)) hr

end

/-! ## Completion (16 R309) -/

section
variable {s r : State} {id : Nat}

theorem completeLaunch_of_due (h : schedEvent (.launchCompletion id) s = some r) : s.completeLaunch id = r := by
  unfold schedEvent at h
  unfold State.completeLaunch Launch.doneAdd
  cases hl : s.launch? id with
  | none => simp only [hl] at h; exact nomatch h
  | some l =>
    simp only [hl] at h ⊢
    refine eq_of_none_else s (eq_of_some_else fun h => ?_) h
    cases hread : (s.drainLaunch l).hubRead l.asid .atomic ((l.words.getD 7 0).toNat % 2 ^ 56) 1 with
    | wait => simp only [hread] at h; exact nomatch h
    | bad s1 => simp only [hread] at h ⊢; exact Option.some.inj h
    | nonres s1 entry => simp only [hread] at h ⊢; exact Option.some.inj h
    | ok s1 loc v => simp only [hread] at h ⊢; exact Option.some.inj h

theorem becomes_launchCompletion (h : schedEvent (.launchCompletion id) s = some r) : Becomes (.launchCompletion id) s r :=
  becomes_of_exec_fresh rfl (completeLaunch_of_due h)

end

/-! ## The in-field test (21 R386-R389) -/

section
variable {s r : State}

theorem testBegin_of_due (h : schedEvent .testInterval s = some r) : s.testBegin = r := by
  unfold schedEvent at h
  obtain ⟨hdue, h⟩ := Option.ite_none_right_eq_some.1 h
  obtain ⟨c, hc, h⟩ := Option.map_eq_some_iff.1 h
  have hnext : s.nextCluster = some c := hc
  unfold State.testBegin State.up State.setTestStat testStatWith clusterTiles
  dsimp only
  rw [if_pos hdue, hnext]
  exact h

theorem becomes_testInterval (h : schedEvent .testInterval s = some r) : Becomes .testInterval s r :=
  becomes_of_exec rfl (testBegin_of_due h)

theorem becomes_scanStart (h : schedEvent .scanStart s = some r) : Becomes .scanStart s r := by
  unfold schedEvent at h
  exact becomes_of_exec rfl (eq_of_some_else_none s h)

/-- A scan that passes sets no FAIL bit. -/
theorem testStat_or_zero (v : DWord) : v ||| 0 = v := BitVec.or_zero

theorem becomes_testPass (h : schedEvent .testPass s = some r) : Becomes .testPass s r := by
  unfold schedEvent at h
  refine becomes_of_exec rfl ?_
  unfold State.scanEnd testStatWith State.setTestStat
  simp only [testStat_or_zero, Bool.false_eq_true, if_false, pow_zero, mul_one, add_zero]
  exact eq_of_some_else_none s h

theorem becomes_testFail {tiles : BitVec 8} (h : schedEvent (.testFail tiles) s = some r) : Becomes (.testFail tiles) s r := by
  unfold schedEvent at h
  exact becomes_of_exec rfl (eq_of_some_else_none s h)

end

/-- Settles O29: each event of the scheduler, and of groups' ends, by its own lemma. -/
theorem schedulerEventsHappen : Obligations.SchedulerEventsHappen := by
  intro i s r h
  cases i with
  | groupSaveLeave t q => exact becomes_groupSaveLeave h
  | groupEnd t q => exact becomes_groupEnd h
  | teamKilled t k => exact becomes_teamKilled h
  | launchRecordRead n => exact becomes_launchRecordRead h
  | launchRecordAccept n => exact becomes_launchRecordAccept h
  | dependenceRecheck n => exact becomes_dependenceRecheck h
  | schedulerPlacement => exact becomes_schedulerPlacement h
  | growthGroupStart t k => exact becomes_growthGroupStart h
  | shrinkRequest t k => exact becomes_shrinkRequest h
  | preemptEscalation => exact becomes_preemptEscalation h
  | gatherClose i => exact becomes_gatherClose h
  | taskRetire i => exact becomes_taskRetire h
  | launchCompletion id => exact becomes_launchCompletion h
  | testInterval => exact becomes_testInterval h
  | scanStart => exact becomes_scanStart h
  | testPass => exact becomes_testPass h
  | testFail tiles => exact becomes_testFail h
  | _ => cases h

end Sys2Proof.Proofs
end
